-- ==== Sys2Proof/Word.lean ====
section
/-!
DEFINITION. The word types of the SK-64 and their plainest arithmetic (R3, R9, R10): bit 0 is the
least significant bit, a slice x[hi:lo] includes both ends, signed numbers are two's complement.
-/
namespace Sys2Proof

/-- A 64-bit register or memory word. -/
abbrev Word := BitVec 64
/-- A byte of memory or scratchpad. -/
abbrev Byte := BitVec 8
/-- One 32-bit lane of a v register (R167). -/
abbrev Lane := BitVec 32
/-- A v register: 64 lanes of 32 bits, lane j in bits [32j + 31 : 32j] (R167). -/
abbrev VReg := BitVec 2048
/-- A tile descriptor or a knot register (R285, R293). -/
abbrev Desc := BitVec 128

/-- The slice x[hi:lo] of R3, as a number. -/
def slice {n : Nat} (x : BitVec n) (hi lo : Nat) : Nat := x.toNat / 2 ^ lo % 2 ^ (hi + 1 - lo)

/-- Bit i of a number. -/
def natBit (x i : Nat) : Bool := x / 2 ^ i % 2 == 1

/-- One bit as a number. -/
def bit (b : Bool) : Nat := if b then 1 else 0

end Sys2Proof
end

