-- ==== Sys2Proof/Config.lean ====
section
/-!
DEFINITION. What the spec leaves to the world outside the module: the usual latencies, in master
clocks, that an open choice takes when none is given (log 6), and the free values: what only a peer module
supplies (log 7), the bytes of overlapping slots (log 19), the header of a link's write (log 44), and the slot numbers of
a ready queue (log 70).
-/
namespace Sys2Proof.Config

/-- Usual latencies of an unloaded module, which bind nothing (R200). -/
def ownVault : Nat := 20
def sameDie : Nat := 60
def otherDie : Nat := 400
def ownHbm : Nat := 600
/-- Usual times of events that the spec gives no figure for (log 6). -/
def walk : Nat := 40
def engine : Nat := 400
def imageLoad : Nat := 2400
def spill : Nat := 300
def mesh : Nat := 20
def inval : Nat := 100

/-- Master clocks in 50 ms, 10 µs and 2 µs (R5). -/
def aperTimeout : Nat := 120000000
def estimate : Nat := 24000
def replay : Nat := 4800
/-- The usual time of a link's training, within the 100 µs of R369. -/
def training : Nat := 170000

/-- A byte of the contribution of a collective's member on another module: the tag, the instance, the
rank and the byte's number. A free value: only the peer module fixes it. -/
opaque peerByte : Nat → Nat → Nat → Nat → BitVec 8

/-- Whether the members on other modules agree with this module's parameters of an instance (R267).
A free value. -/
opaque peerAgrees : Nat → Nat → Bool

/-- A byte of a strand slot that overlaps another live node's pool or the node's argument block (R42), by the
clock and the address of the write. A free value. -/
opaque overlapByte : Nat → Nat → BitVec 8

/-- How many bytes a node's argument block has, by the clock of a write into its pool and the address of the
block: the record gives the block no end (R42, log 19). A free value. -/
opaque argsLen : Nat → Nat → Nat

/-- The slot of a ready queue that holds an entry, by the entry's number: the spec gives the slots no numbering
(R44, log 70). A free value. -/
opaque queueSlot : Nat → BitVec 16

/-- A byte of the 8-byte header of a write on a Bramble link, by the window offset and the length of the write
and the byte's number: the spec gives the header no layout (log 44). A free value. -/
opaque writeHeader : Nat → Nat → Nat → BitVec 8

end Sys2Proof.Config
end

