-- ==== Sys2Proof/Fields.lean ====
section
/-!
DEFINITION. The operand fields of operations and the data that events carry, and the bundle: four
slots issued and committed as one (R92 to R97).
-/
namespace Sys2Proof

/-- The predicate guard of a slot-0 or slot-1 operation (R102): register p, negated when neg. -/
structure Guard where
  p : BitVec 3
  neg : Bool
deriving DecidableEq, Repr

/-- A field that lend bits can extend (R95, R96): `short` without a header or lend word, `long`
with one, whose seven lend bits stand above the field. -/
inductive Imm (n : Nat) where
  | short (v : BitVec n)
  | long (v : BitVec (n + 7))
deriving DecidableEq, Repr

/-- The window slot or set index of slot 3 with the bits that LEND3 gives it (R95). -/
abbrev WIndex := BitVec 8

/-- A register and the value that lands in it (R99). -/
inductive Landing where
  | s (r : BitVec 5) (v : Word)
  | a (r : BitVec 5) (v : Word)
  | v (r : BitVec 6) (v : VReg)
  | m (r : BitVec 3) (v : Word)
  | p (r : BitVec 3) (v : Bool)
  | t (r : BitVec 4) (v : Desc)
  | k (r : BitVec 3) (v : Desc)
deriving DecidableEq, Repr

/-- A flit of a Bramble link (R367). -/
structure Flit where
  seq : BitVec 16
  ack : BitVec 16
  ty : BitVec 4
  len : BitVec 8
  stream : BitVec 20
  payload : List Byte
deriving DecidableEq, Repr

/-- What start-up reads from the configuration image (R381). -/
structure ConfigImage where
  retired : List Nat
  ilv : BitVec 7
  modid : BitVec 16
  plim : List (BitVec 16 × BitVec 16)
  patrol : BitVec 16
  linkEn : BitVec 16
  /-- HBM repairs, in the image's own form -/
  repairs : List Byte
deriving DecidableEq, Repr

/-- Where an error stands: a register of a context's file, a scratchpad, accumulator-store or
instruction-store offset of a core; a line of a die's containment buffer, a slot of its retry ring or an entry
of its Yew record, each with its physical address; a byte of HBM or of a vault's open part; a unit of R345
outside those memories, with its register number or offset; the host port, with the status word of Advanced
Error Reporting (R345, R346, R348). -/
inductive ErrPlace where
  | register (c : Nat) (x : Bool) (n : Nat)
  | spad (c : Nat) (off : Nat)
  | accum (c : Nat) (off : Nat)
  | istore (c : Nat) (off : Nat)
  | containment (d : Nat) (line : Nat) (pa : Nat)
  | ring (d : Nat) (slot : Nat) (pa : Nat)
  | yew (d : Nat) (idx : Nat) (pa : Nat)
  | memory (pa : Nat)
  | unit (d : Nat) (c : Nat) (u : BitVec 8) (loc : Nat)
  | hostPort (status : Word)
deriving DecidableEq, Repr

/-- What an error of a die strikes: a register file of one of its cores, a scratchpad, an accumulator store or
an instruction store; a line of its containment buffer, a slot of its retry ring or an entry of its Yew record;
HBM or vault memory; a unit of R345 outside those, of one of its cores; the host port (R345, R346, R348). -/
inductive ErrKind where
  | register (c : Nat) (x : Bool)
  | spad (c : Nat)
  | accum (c : Nat)
  | istore (c : Nat)
  | containment (line : Nat)
  | ring (slot : Nat)
  | yew (idx : Nat)
  | memory
  | unit (c : Nat)
  | hostPort
deriving DecidableEq, Repr

/-- What the scrubber finds in a word: whether it cannot be corrected, its syndrome, and its offset, register
number or address (R350). -/
structure ScrubRead where
  bad : Bool
  synd : BitVec 16
  addr : Word
deriving DecidableEq, Repr

/-- How a host-aperture read ends without a value: the access, and Unsupported Request (1), Completer Abort (2)
or no completion in 50 ms (3) (R359). -/
structure AperEnd where
  id : Nat
  k : BitVec 2
deriving DecidableEq, Repr

/-- A write that arrives through a peer's window: its command, its offset in the window, and whether it is the
command's last (R372). -/
structure InWrite where
  cmd : BitVec 20
  off : Nat
  last : Bool
deriving DecidableEq, Repr

/-- Module power in W, and its average over 100 µs (R376, R377). -/
structure Watts where
  now : Nat
  avg : Nat
deriving DecidableEq, Repr

/-- A host write to a register: of BAR0, with its size in bytes and its value (R360), or of BAR2's size in the
function's configuration space, by the log of its bytes (R357, log 81). -/
inductive RegWrite where
  | bar0 (size : Nat) (v : Word)
  | bar2 (log : BitVec 6)
deriving DecidableEq, Repr

/-- What a host read takes of an 8-byte register: a 4-byte half, or all of it (R360). -/
inductive Part where
  | low
  | high
  | both
deriving DecidableEq, Repr

/-- What a link's receiver sees of a lane: the loss of its lock, or FEC blocks that were corrected and that
could not be (R369, R370). -/
inductive LaneSign where
  | lockLost (lane : Nat)
  | fec (lane : Nat) (corr : Nat) (uncorr : Nat)
deriving DecidableEq, Repr

/-- A register that an operation names as a destination (R98, R101). -/
inductive Reg where
  | s (r : BitVec 5)
  | a (r : BitVec 5)
  | v (r : BitVec 6)
  | m (r : BitVec 3)
  | p (r : BitVec 3)
  | t (r : BitVec 4)
  | k (r : BitVec 3)
deriving DecidableEq, Repr

end Sys2Proof
end

