-- ==== Sys2Proof/Syntax.lean ====
section
/-!
DEFINITION. The operations and events of the SK-64: one constructor of `Instr` for each row of
spec/opcode_table.json. The first 191 are the operations that a slot of a bundle can hold (R113 to
R116); the other 79 are the steps that the rest of the module takes, which have no encoding.
-/
namespace Sys2Proof

/-- An operation or event of the device. -/
inductive Instr where
  -- slot 0: control and scalar (R113)
  | nopS0
  | br (g : Guard) (o : Imm 16)
  | bri (g : Guard) (a : BitVec 5)
  | call (g : Guard) (o : Imm 16)
  | ret (g : Guard) (a : BitVec 5)
  | loopI (l : Bool) (o : BitVec 7) (c : BitVec 10)
  | loopR (l : Bool) (o : BitVec 7) (r : BitVec 5)
  | loopSr (l : Bool) (o : BitVec 7) (r : BitVec 5)
  | loopRot (l : Bool) (o : BitVec 7) (r : BitVec 5) (n : BitVec 4)
  | lexit (g : Guard) (l : Bool)
  | lstat (g : Guard) (d : BitVec 5) (w : BitVec 2) (l : Bool)
  | lset (g : Guard) (a : BitVec 5) (w : BitVec 2) (l : Bool)
  | setfmt (i : BitVec 15)
  | safept (i : BitVec 15)
  | yield (i : BitVec 15)
  | done (g : Guard)
  | barg (g : Guard) (d : BitVec 5)
  | pause (a : BitVec 5) (i : BitVec 10)
  | waitev (g : Guard) (d : BitVec 5) (a : BitVec 5)
  | trap (i : BitVec 10)
  | rft (g : Guard)
  | mfsr (d : BitVec 5) (i : BitVec 10)
  | mtsr (a : BitVec 5) (i : BitVec 10)
  | ecap (d : BitVec 5)
  | add (g : Guard) (d a b : BitVec 5) (w : Bool)
  | sub (g : Guard) (d a b : BitVec 5) (w : Bool)
  | mul (g : Guard) (d a b : BitVec 5) (w : Bool)
  | mulhi (g : Guard) (d a b : BitVec 5)
  | mulhn (g : Guard) (d a b : BitVec 5)
  | and (g : Guard) (d a b : BitVec 5)
  | or (g : Guard) (d a b : BitVec 5)
  | xor (g : Guard) (d a b : BitVec 5)
  | shl (g : Guard) (d a b : BitVec 5) (w : Bool)
  | shr (g : Guard) (d a b : BitVec 5) (w : Bool)
  | sar (g : Guard) (d a b : BitVec 5) (w : Bool)
  | min (g : Guard) (d a b : BitVec 5)
  | max (g : Guard) (d a b : BitVec 5)
  | minn (g : Guard) (d a b : BitVec 5)
  | maxn (g : Guard) (d a b : BitVec 5)
  | sel (g : Guard) (d a b : BitVec 5)
  | clz (g : Guard) (d a : BitVec 5) (w : Bool)
  | popc (g : Guard) (d a : BitVec 5) (w : Bool)
  | bfx (g : Guard) (d a b : BitVec 5) (sx : Bool)
  | bfi (g : Guard) (d a b : BitVec 5)
  | cmp (g : Guard) (p : BitVec 3) (c : BitVec 2) (a b : BitVec 5) (inv : Bool)
  | plog (d : BitVec 3) (a b : BitVec 3) (t : BitVec 4)
  | addi (d a : BitVec 5) (i : BitVec 10)
  | andi (d a : BitVec 5) (i : BitVec 10)
  | ori (d a : BitVec 5) (i : BitVec 10)
  | xori (d a : BitVec 5) (i : BitVec 10)
  | shli (d a : BitVec 5) (i : BitVec 6)
  | shri (d a : BitVec 5) (i : BitVec 6)
  | sari (d a : BitVec 5) (i : BitVec 6)
  | cmpi (p : BitVec 3) (c : BitVec 2) (a : BitVec 5) (i : BitVec 10)
  | li (d : BitVec 5) (i : Imm 15)
  | lih (d : BitVec 5) (i : Imm 15)
  | s2a (g : Guard) (d a : BitVec 5)
  | s2v (g : Guard) (d : BitVec 6) (a : BitVec 5)
  | s2t (g : Guard) (d : BitVec 4) (a b : BitVec 5)
  | s2k (g : Guard) (d : BitVec 3) (a b : BitVec 5)
  -- slot 1: memory, address arithmetic and engines (R114)
  | nopS1
  | aadd (g : Guard) (d a b : BitVec 5)
  | aaddi (g : Guard) (d a : BitVec 5) (i : Imm 8)
  | asub (g : Guard) (d a b : BitVec 5)
  | ashli (g : Guard) (d a : BitVec 5) (i : BitVec 6)
  | alea (g : Guard) (d a b : BitVec 5) (s : BitVec 3)
  | aand (g : Guard) (d a b : BitVec 5)
  | ali (d : BitVec 5) (i : Imm 17)
  | acmp (g : Guard) (p : BitVec 3) (c : BitVec 2) (a b : BitVec 5) (inv : Bool)
  | a2s (g : Guard) (d a : BitVec 5)
  | ldBI (g : Guard) (k : BitVec 4) (d b : BitVec 5) (o : Imm 8)
  | ldBN (g : Guard) (k : BitVec 4) (d b : BitVec 5) (o : Imm 8)
  | ldHI (g : Guard) (k : BitVec 4) (d b : BitVec 5) (o : Imm 8)
  | ldHN (g : Guard) (k : BitVec 4) (d b : BitVec 5) (o : Imm 8)
  | ldWI (g : Guard) (k : BitVec 4) (d b : BitVec 5) (o : Imm 8)
  | ldWN (g : Guard) (k : BitVec 4) (d b : BitVec 5) (o : Imm 8)
  | ldD (g : Guard) (k : BitVec 4) (d b : BitVec 5) (o : Imm 8)
  | ldxBI (g : Guard) (k : BitVec 4) (d b x : BitVec 5)
  | ldxBN (g : Guard) (k : BitVec 4) (d b x : BitVec 5)
  | ldxHI (g : Guard) (k : BitVec 4) (d b x : BitVec 5)
  | ldxHN (g : Guard) (k : BitVec 4) (d b x : BitVec 5)
  | ldxWI (g : Guard) (k : BitVec 4) (d b x : BitVec 5)
  | ldxWN (g : Guard) (k : BitVec 4) (d b x : BitVec 5)
  | ldxD (g : Guard) (k : BitVec 4) (d b x : BitVec 5)
  | stB (g : Guard) (k : BitVec 4) (d b : BitVec 5) (o : Imm 8)
  | stH (g : Guard) (k : BitVec 4) (d b : BitVec 5) (o : Imm 8)
  | stW (g : Guard) (k : BitVec 4) (d b : BitVec 5) (o : Imm 8)
  | stD (g : Guard) (k : BitVec 4) (d b : BitVec 5) (o : Imm 8)
  | stxB (g : Guard) (k : BitVec 4) (d b x : BitVec 5)
  | stxH (g : Guard) (k : BitVec 4) (d b x : BitVec 5)
  | stxW (g : Guard) (k : BitVec 4) (d b x : BitVec 5)
  | stxD (g : Guard) (k : BitVec 4) (d b x : BitVec 5)
  | ldacqW (g : Guard) (k : BitVec 4) (d b : BitVec 5) (sc : BitVec 3) (o : Imm 5)
  | ldacqD (g : Guard) (k : BitVec 4) (d b : BitVec 5) (sc : BitVec 3) (o : Imm 5)
  | strelW (g : Guard) (k : BitVec 4) (d b : BitVec 5) (sc : BitVec 3) (o : Imm 5)
  | strelD (g : Guard) (k : BitVec 4) (d b : BitVec 5) (sc : BitVec 3) (o : Imm 5)
  | sldW (g : Guard) (k : BitVec 4) (d b : BitVec 5) (o : Imm 8)
  | sldD (g : Guard) (k : BitVec 4) (d b : BitVec 5) (o : Imm 8)
  | sstW (g : Guard) (k : BitVec 4) (d b : BitVec 5) (o : Imm 8)
  | sstD (g : Guard) (k : BitVec 4) (d b : BitVec 5) (o : Imm 8)
  | amo (g : Guard) (k : BitVec 4) (d b : BitVec 5) (f : BitVec 4) (z : Bool) (sc : BitVec 3)
  | cas (g : Guard) (k : BitVec 4) (d b : BitVec 5) (z : Bool) (sc : BitVec 3)
  | afadd (g : Guard) (k : BitVec 4) (d b : BitVec 5) (sc : BitVec 3)
  | fence (m : BitVec 16) (sc : BitVec 3)
  | fencesc (sc : BitVec 3)
  | xfence (m : BitVec 16)
  | rslot (g : Guard) (d a : BitVec 5) (i : Imm 8)
  | copy (g : Guard) (acq rel : Bool) (sc : BitVec 3) (t : BitVec 5) (x : BitVec 3)
      (mval mark : Bool) (ds ss : BitVec 2)
  | copym (g : Guard) (acq rel : Bool) (sc : BitVec 3) (t : BitVec 5) (x : BitVec 3)
      (mval mark : Bool) (ss : BitVec 2)
  | coll (g : Guard) (acq rel : Bool) (sc : BitVec 3) (t : BitVec 5) (x : BitVec 3)
      (ty op : BitVec 2) (ds ss : BitVec 2)
  | rcopy (g : Guard) (acq rel : Bool) (sc : BitVec 3) (t : BitVec 5) (x : BitVec 3)
      (mval mark : Bool) (ss : BitVec 2)
  | xpose (g : Guard) (d a b : BitVec 5) (z : BitVec 3)
  | tokst (g : Guard) (d a : BitVec 5) (s : BitVec 3)
  | rport (g : Guard) (d a b : BitVec 5)
  | rack (g : Guard) (d a : BitVec 5)
  -- slot 2: vector (R115)
  | nopS2
  | vld (d a : BitVec 6) (o : Imm 6) (m : BitVec 3) (r : Bool)
  | vlds (d a b : BitVec 6) (m : BitVec 3) (r : Bool)
  | vgath (d a b : BitVec 6) (m : BitVec 3) (r : Bool)
  | vst (d a : BitVec 6) (o : Imm 6) (m : BitVec 3) (r : Bool)
  | vsts (d a b : BitVec 6) (m : BitVec 3) (r : Bool)
  | vscat (d a b : BitVec 6) (m : BitVec 3) (r : Bool)
  | vldacc (d a : BitVec 6) (o : Imm 6) (m : BitVec 3) (r : Bool)
  | vstacc (d a : BitVec 6) (o : Imm 6) (m : BitVec 3) (r : Bool)
  | vadd (d a b : BitVec 6) (m : BitVec 3) (r : Bool) (w : BitVec 3)
  | vsub (d a b : BitVec 6) (m : BitVec 3) (r : Bool) (w : BitVec 3)
  | vmul (d a b : BitVec 6) (m : BitVec 3) (r : Bool) (w : BitVec 3)
  | vmulhi (d a b : BitVec 6) (m : BitVec 3) (r : Bool) (w : BitVec 3)
  | vmin (d a b : BitVec 6) (m : BitVec 3) (r : Bool) (w : BitVec 3)
  | vmax (d a b : BitVec 6) (m : BitVec 3) (r : Bool) (w : BitVec 3)
  | vminn (d a b : BitVec 6) (m : BitVec 3) (r : Bool) (w : BitVec 3)
  | vmaxn (d a b : BitVec 6) (m : BitVec 3) (r : Bool) (w : BitVec 3)
  | vand (d a b : BitVec 6) (m : BitVec 3) (r : Bool) (w : BitVec 3)
  | vor (d a b : BitVec 6) (m : BitVec 3) (r : Bool) (w : BitVec 3)
  | vxor (d a b : BitVec 6) (m : BitVec 3) (r : Bool) (w : BitVec 3)
  | vshl (d a b : BitVec 6) (m : BitVec 3) (r : Bool) (w : BitVec 3)
  | vshr (d a b : BitVec 6) (m : BitVec 3) (r : Bool) (w : BitVec 3)
  | vsar (d a b : BitVec 6) (m : BitVec 3) (r : Bool) (w : BitVec 3)
  | vabs (d a : BitVec 6) (m : BitVec 3) (r : Bool) (w : BitVec 3)
  | vfadd (d a b : BitVec 6) (m : BitVec 3) (r : Bool)
  | vfsub (d a b : BitVec 6) (m : BitVec 3) (r : Bool)
  | vfmul (d a b : BitVec 6) (m : BitVec 3) (r : Bool)
  | vfma (d a b : BitVec 6) (m : BitVec 3) (r : Bool) (s : BitVec 3)
  | vfmin (d a b : BitVec 6) (m : BitVec 3) (r : Bool)
  | vfmax (d a b : BitVec 6) (m : BitVec 3) (r : Bool)
  | vfdiv (d a b : BitVec 6) (m : BitVec 3) (r : Bool)
  | vfsqrt (d a : BitVec 6) (m : BitVec 3) (r : Bool)
  | vfrsqrt (d a : BitVec 6) (m : BitVec 3) (r : Bool)
  | vfexp2 (d a : BitVec 6) (m : BitVec 3) (r : Bool)
  | vflog2 (d a : BitVec 6) (m : BitVec 3) (r : Bool)
  | vcmp (d : BitVec 3) (a b : BitVec 6) (m : BitVec 3) (r : Bool) (c : BitVec 3)
  | vfcmp (d : BitVec 3) (a b : BitVec 6) (m : BitVec 3) (r : Bool) (c : BitVec 3)
  | vsel (d a b : BitVec 6) (m : BitVec 3) (r : Bool)
  | mlog (d a b : BitVec 3) (t : BitVec 4)
  | mpopc (d : BitVec 6) (a : BitVec 3) (m : BitVec 3)
  | vuni (p : BitVec 3) (a : BitVec 6) (m : BitVec 3) (r : Bool)
  | vuniM (p : BitVec 3) (a : BitVec 3) (m : BitVec 3)
  | vcvt (d a : BitVec 6) (src dst : BitVec 3) (m : BitVec 3) (r : Bool) (c : BitVec 3)
  | vmxq (d a : BitVec 6) (u : Bool) (o : BitVec 3) (r : Bool) (f : BitVec 2)
  | vmxd (d a : BitVec 6) (m : BitVec 3) (r : Bool) (f : BitVec 2)
  | vpack (d a : BitVec 6) (p : BitVec 3) (m : BitVec 3) (r : Bool) (b : BitVec 3)
  | vunpack (d a : BitVec 6) (sx : Bool) (p : BitVec 3) (m : BitVec 3) (r : Bool) (b : BitVec 3)
  | vred (d a : BitVec 6) (m : BitVec 3) (r : Bool) (o : BitVec 3)
  | vfred (d a : BitVec 6) (m : BitVec 3) (r : Bool) (o : BitVec 3)
  | vperm (d a b : BitVec 6) (m : BitVec 3) (r : Bool)
  | vrot (d a b : BitVec 6) (m : BitVec 3) (r : Bool) (s : BitVec 3)
  | vbcast (d a b : BitVec 6) (m : BitVec 3) (r : Bool) (s : BitVec 3)
  | vsigf (d a : BitVec 6) (m : BitVec 3) (r : Bool)
  | vsigr (d a : BitVec 6) (m : BitVec 3) (r : Bool)
  | vnfs (a : BitVec 6) (m : BitVec 3) (r : Bool) (s : BitVec 3)
  | vnfsClr
  | vseed (a : BitVec 6) (r : Bool) (s : BitVec 3)
  | v2s (d : BitVec 5) (a : BitVec 6) (l : BitVec 6) (r : Bool) (s : BitVec 3)
  | vli (d : BitVec 6) (i : Imm 12) (m : BitVec 3) (s : BitVec 3)
  -- slot 3: matrix and spline (R116)
  | nopS3
  | tset (g : BitVec 4) (d a : BitVec 4) (i : BitVec 6) (f : BitVec 2)
  | t2s (g : BitVec 4) (a : BitVec 4) (s : BitVec 5) (h : Bool)
  | k2s (g : BitVec 4) (k : BitVec 3) (s : BitVec 5) (h : Bool)
  | tzero (g : BitVec 4) (d : BitVec 4)
  | tcvt (g : BitVec 4) (d a : BitVec 4) (f : BitVec 3)
  | tcheck (g : BitVec 4) (d : BitVec 4)
  | tadd (g : BitVec 4) (d a : BitVec 4)
  | mstep (g : BitVec 4) (d a b : BitVec 4) (i : WIndex)
  | mstepRev (g : BitVec 4) (d a b : BitVec 4) (i : WIndex)
  | bseal (g : BitVec 4) (i : WIndex) (v : BitVec 2)
  | sstep (g : BitVec 4) (d a : BitVec 4) (k : BitVec 3) (i : BitVec 6)
  | sdstep (g : BitVec 4) (d a : BitVec 4) (k : BitVec 3) (i : BitVec 6)
  | sgrad (g : BitVec 4) (a : BitVec 4) (k : BitVec 3) (i : BitVec 6)
  | sgzero (g : BitVec 4) (i : BitVec 6)
  | srefine (g : BitVec 4) (k : BitVec 3) (i : BitVec 6)
  | sflags (g : BitVec 4) (d : BitVec 4) (k : BitVec 3) (f : BitVec 2)
  -- events of a core (c: global core number; x: context 0 or 1)
  | pauseEnd (c : Nat) (x : Bool)
  | resultLand (c : Nat) (x : Bool) (l : Landing)
  | doneRetire (c : Nat) (x : Bool)
  | strandSuspension (c : Nat) (x : Bool)
  | strandResume (c : Nat) (x : Bool)
  | loadValueReturn (c : Nat) (id : Nat)
  | storeReachHome (d : Nat) (id : Nat)
  | atomicAtHome (c : Nat) (id : Nat)
  | pageWalk (c : Nat) (id : Nat)
  -- the retry ring (d: die)
  | retryRingAdmit (d : Nat)
  | retryMirrorPublish (d : Nat)
  | hostRport (d : Nat)
  | hostRack (d : Nat)
  -- translation
  | tlbinvAll
  | tlbinvPage64k (va : BitVec 32)
  | tlbinvPage32m (va : BitVec 32)
  | tlbinvComplete
  -- engines, the transpose engine and the array
  | engineCompletion (d : Nat) (id : Nat)
  | engineFault (d : Nat) (id : Nat) (fw : Word)
  | collInstanceMeet (tag : BitVec 32) (k : Nat)
  | xposeWriteback (c : Nat)
  | arrayStepStart (c : Nat)
  | arrayResultLand (c : Nat)
  | tileOpComplete (c : Nat)
  -- protection and reliability
  | pipelineError (c : Nat) (x : Bool) (unit : BitVec 3)
  | dupVote (inst : Nat)
  | containmentRelease (run : Nat)
  | containmentLineFreed (d : Nat)
  | topologyChange (cl : List Nat) (score : Nat)
  -- scheduling
  | launchWord
  | predecessorDecrement (cid : BitVec 32) (sender : BitVec 32) (src : Nat)
  | nodeReadiness (rec : Nat)
  | copyNodeInstance (rec : Nat) (i : Nat)
  | nodeCompletion (rec : Nat)
  | agePeriodTick (d : Nat)
  | gangDispatch (d : Nat)
  | gangStart (d : Nat) (c0 : Nat)
  | yieldDeadlineExpiry (c : Nat) (x : Bool)
  -- the host and the links
  | hostApertureReadTimeout (c : Nat) (e : AperEnd)
  | replayTimeout (l : Nat)
  | linkTrainingComplete (l : Nat)
  -- power, start-up and debug
  | clkpatUpdate (d : Nat)
  | energyRefill
  | stepDrainDone (c : Nat)
  -- inputs: what the host, the board, the wires and faulty cells do to the module; the model itself
  -- puts none of them into its agenda
  | rrmirrorWrite (d : Nat) (v : Word)
  | rrkillWrite (d : Nat) (w : Word)
  | uncorrectableError (d : Nat) (u : BitVec 8) (p : ErrKind) (synd : BitVec 16) (addr : Word)
  | correctableError (d : Nat) (u : BitVec 8) (p : ErrKind) (synd : BitVec 16) (addr : Word)
  | ebstatClear (d : Nat) (c : Nat) (u : BitVec 8)
  | patrolScrub (stack : Nat) (line : Nat) (bad : Option (BitVec 16))
  | sramScrub (d : Nat) (u : BitVec 8) (p : ErrKind) (e : ScrubRead)
  | errinjWrite (c : Nat) (v : Word)
  | lqdoorWrite (v : Word)
  | hostBar2Read (off : Nat) (n : Nat)
  | hostBar2Write (off : Nat) (data : List Byte)
  | evlostRead
  | yewidxWrite (d : Nat) (v : Word)
  | flitTransmit (l : Nat) (ty : BitVec 4) (stream : BitVec 20) (payload : List Byte)
  | flitReceive (l : Nat) (body : List Byte) (crc : BitVec 32)
  | laneFailure (l : Nat) (e : LaneSign)
  | lctlRetrain (l : Nat) (locked : BitVec 16)
  | lcntRead (l : Nat)
  | feccntRead (l : Nat)
  | inboundWrite (l : Nat) (w : InWrite) (data : List Byte)
  | pstepWrite (lvl : BitVec 4)
  | powerEstimate (w : Watts) (draws : List (Nat × Nat))
  | regulatorPhaseLoss (d : Nat) (phases : BitVec 8) (limit : BitVec 16) (draw : Nat)
  | energyReadLow (d : Nat)
  | powerFail
  | moduleReset
  | imageCheck (code : BitVec 8) (img : ConfigImage)
  | hbmTraining (trained : BitVec 32) (repaired : Bool)
  | selfTest (passed : BitVec 64)
  | featAccept1Write (v : Word)
  | dbgctlHalt (c : Nat) (v : Word)
  | dbgctlStep (c : Nat)
  | registerWrite (off : Nat) (w : RegWrite)
  | energyCount (d : Nat) (uj : Nat)
  | grantUpdate (c : Nat) (v : BitVec 32)
deriving DecidableEq, Repr

/-- A bundle (R92): the energy code E, the header's trap-on-empty bits TE1A to TE3B when H = 1
(bit 5 to bit 0), whether slot 1 holds a lend word, and the operation of each slot. -/
structure Bundle where
  e : BitVec 4
  te : Option (BitVec 6)
  lendWord : Bool
  s0 : Instr
  s1 : Instr
  s2 : Instr
  s3 : Instr
deriving DecidableEq, Repr

end Sys2Proof
end

