-- ==== Sys2Proof/WellFormed.lean ====
section
/-!
DEFINITION. Which operations are legal (R117): a sub-op, type, function, condition, flag, rounding,
scope or register field that the operation's reference does not assign makes its bundle illegal.
For an event: its arguments name units that the module has (R14, R19, R367).
-/
namespace Sys2Proof

/-- Scope codes 5 to 7 are illegal (R110). -/
def scopeOk (sc : BitVec 3) : Bool := sc.toNat ≤ 4

/-- Rounding codes 5 to 7 are illegal (R80). -/
def roundOk (c : BitVec 3) : Bool := c.toNat ≤ 4

/-- The system register numbers that R118 assigns. -/
def sysRegOk (i : BitVec 10) : Bool :=
  [0x000, 0x001, 0x002, 0x003, 0x004, 0x005, 0x006, 0x008, 0x009, 0x00A, 0x010, 0x011, 0x012,
    0x013].contains i.toNat

/-- A SETFMT immediate or the written bits 14:0 of FMT (R106, R148). -/
def fmtOk (i : BitVec 15) : Bool :=
  slice i 13 11 ≤ 4 && slice i 9 8 == 0 && slice i 7 4 ≤ 11 && slice i 3 0 ≤ 11

/-- An engine command word (R255): a group, a token outside it, and a scope only with a flag. -/
def engineOk (acq rel : Bool) (sc : BitVec 3) (t : BitVec 5) (x : BitVec 3) : Bool :=
  scopeOk sc && (acq || rel || sc == 0) && x != 0 && t != 0 &&
    !(4 * x.toNat ≤ t.toNat && t.toNat ≤ 4 * x.toNat + 3)

/-- Space codes 0 and 2 (R261, R265). -/
def space02 (s : BitVec 2) : Bool := s == 0 || s == 2

/-- The parts of VPACK and VUNPACK run 0-1, 0-3, 0-3 and 0-7 (R186). -/
def partOk (p b : BitVec 3) : Bool :=
  match b.toNat with
  | 0 => p.toNat ≤ 1
  | 1 => p.toNat ≤ 3
  | 2 => p.toNat ≤ 3
  | 3 => true
  | _ => false

/-- A global core number, a die, a link (R19, R14, R367). -/
def coreOk (c : Nat) : Bool := c < 768
def dieOk (d : Nat) : Bool := d < 64
def linkOk (l : Nat) : Bool := l < 16

/-- The place of an error names a core or die of the module. -/
def ErrKind.ok (d : Nat) : ErrKind → Bool
  | .register c _ | .spad c | .accum c | .istore c | .unit c => dieOk d && c < 12
  | .containment _ | .ring _ | .yew _ => dieOk d
  | .memory | .hostPort => true

/-- The lane that a sign is of. -/
def LaneSign.lane : LaneSign → Nat
  | .lockLost n | .fec n _ _ => n

/-- An operation that R117 does not make illegal by itself; an event about units that exist. -/
def Instr.wf : Instr → Bool
  | .nopS0 => true
  | .br _ _ => true
  | .bri _ _ => true
  | .call _ _ => true
  | .ret _ _ => true
  | .loopI _ o _ => o != 0
  | .loopR _ o _ => o != 0
  | .loopSr _ o _ => o != 0
  | .loopRot _ o _ n => o != 0 && n != 0
  | .lexit _ _ => true
  | .lstat _ _ w l => w != 3 || !l
  | .lset _ _ w l => w != 3 || !l
  | .setfmt i => fmtOk i
  | .safept _ => true
  | .yield _ => true
  | .done _ => true
  | .barg _ _ => true
  | .pause _ _ => true
  | .waitev _ _ _ => true
  | .trap _ => true
  | .rft _ => true
  | .mfsr _ i => sysRegOk i
  | .mtsr _ i => sysRegOk i
  | .ecap d => d.toNat % 2 == 0
  | .add _ _ _ _ _ => true
  | .sub _ _ _ _ _ => true
  | .mul _ _ _ _ _ => true
  | .mulhi _ _ _ _ => true
  | .mulhn _ _ _ _ => true
  | .and _ _ _ _ => true
  | .or _ _ _ _ => true
  | .xor _ _ _ _ => true
  | .shl _ _ _ _ _ => true
  | .shr _ _ _ _ _ => true
  | .sar _ _ _ _ _ => true
  | .min _ _ _ _ => true
  | .max _ _ _ _ => true
  | .minn _ _ _ _ => true
  | .maxn _ _ _ _ => true
  | .sel _ _ _ _ => true
  | .clz _ _ _ _ => true
  | .popc _ _ _ _ => true
  | .bfx _ _ _ _ _ => true
  | .bfi _ _ _ _ => true
  | .cmp _ _ _ _ _ _ => true
  | .plog _ _ _ _ => true
  | .addi _ _ _ => true
  | .andi _ _ _ => true
  | .ori _ _ _ => true
  | .xori _ _ _ => true
  | .shli _ _ _ => true
  | .shri _ _ _ => true
  | .sari _ _ _ => true
  | .cmpi _ _ _ _ => true
  | .li _ _ => true
  | .lih _ _ => true
  | .s2a _ _ _ => true
  | .s2v _ _ _ => true
  | .s2t _ _ _ _ => true
  | .s2k _ _ _ _ => true
  | .nopS1 => true
  | .aadd _ _ _ _ => true
  | .aaddi _ _ _ _ => true
  | .asub _ _ _ _ => true
  | .ashli _ _ _ _ => true
  | .alea _ _ _ _ _ => true
  | .aand _ _ _ _ => true
  | .ali _ _ => true
  | .acmp _ _ _ _ _ _ => true
  | .a2s _ _ _ => true
  | .ldBI _ _ _ _ _ => true
  | .ldBN _ _ _ _ _ => true
  | .ldHI _ _ _ _ _ => true
  | .ldHN _ _ _ _ _ => true
  | .ldWI _ _ _ _ _ => true
  | .ldWN _ _ _ _ _ => true
  | .ldD _ _ _ _ _ => true
  | .ldxBI _ _ _ _ _ => true
  | .ldxBN _ _ _ _ _ => true
  | .ldxHI _ _ _ _ _ => true
  | .ldxHN _ _ _ _ _ => true
  | .ldxWI _ _ _ _ _ => true
  | .ldxWN _ _ _ _ _ => true
  | .ldxD _ _ _ _ _ => true
  | .stB _ _ _ _ _ => true
  | .stH _ _ _ _ _ => true
  | .stW _ _ _ _ _ => true
  | .stD _ _ _ _ _ => true
  | .stxB _ _ _ _ _ => true
  | .stxH _ _ _ _ _ => true
  | .stxW _ _ _ _ _ => true
  | .stxD _ _ _ _ _ => true
  | .ldacqW _ _ _ _ sc _ => scopeOk sc
  | .ldacqD _ _ _ _ sc _ => scopeOk sc
  | .strelW _ _ _ _ sc _ => scopeOk sc
  | .strelD _ _ _ _ sc _ => scopeOk sc
  | .sldW _ _ _ _ _ => true
  | .sldD _ _ _ _ _ => true
  | .sstW _ _ _ _ _ => true
  | .sstD _ _ _ _ _ => true
  | .amo _ _ _ _ f _ sc => f.toNat ≤ 8 && scopeOk sc
  | .cas _ _ d _ _ sc => d.toNat % 2 == 0 && scopeOk sc
  | .afadd _ _ _ _ sc => scopeOk sc
  | .fence _ sc => scopeOk sc
  | .fencesc sc => scopeOk sc
  | .xfence _ => true
  | .rslot _ _ a _ => a.toNat % 2 == 0
  | .copy _ acq rel sc t x _ _ ds ss => engineOk acq rel sc t x && ds != 3 && ss != 3
  | .copym _ acq rel sc t x _ _ ss => engineOk acq rel sc t x && space02 ss
  | .coll _ acq rel sc t x _ _ ds ss => engineOk acq rel sc t x && space02 ds && space02 ss
  | .rcopy _ acq rel sc t x _ _ ss =>
      engineOk acq rel sc t x && space02 ss && (!(acq || rel) || sc == 4)
  | .xpose _ _ _ _ z => z.toNat ≤ 2
  | .tokst _ _ _ s => s.toNat ≤ 1
  | .rport _ _ _ _ => true
  | .rack _ _ _ => true
  | .nopS2 => true
  | .vld _ _ _ _ _ => true
  | .vlds _ _ _ _ _ => true
  | .vgath _ _ _ _ _ => true
  | .vst _ _ _ _ _ => true
  | .vsts _ _ _ _ _ => true
  | .vscat _ _ _ _ _ => true
  | .vldacc _ _ _ _ _ => true
  | .vstacc _ _ _ _ _ => true
  | .vadd _ _ _ _ _ w => w.toNat ≤ 2
  | .vsub _ _ _ _ _ w => w.toNat ≤ 2
  | .vmul _ _ _ _ _ w => w.toNat ≤ 2
  | .vmulhi _ _ _ _ _ w => w.toNat ≤ 2
  | .vmin _ _ _ _ _ w => w.toNat ≤ 2
  | .vmax _ _ _ _ _ w => w.toNat ≤ 2
  | .vminn _ _ _ _ _ w => w.toNat ≤ 2
  | .vmaxn _ _ _ _ _ w => w.toNat ≤ 2
  | .vand _ _ _ _ _ w => w.toNat ≤ 2
  | .vor _ _ _ _ _ w => w.toNat ≤ 2
  | .vxor _ _ _ _ _ w => w.toNat ≤ 2
  | .vshl _ _ _ _ _ w => w.toNat ≤ 2
  | .vshr _ _ _ _ _ w => w.toNat ≤ 2
  | .vsar _ _ _ _ _ w => w.toNat ≤ 2
  | .vabs _ _ _ _ w => w.toNat ≤ 2
  | .vfadd _ _ _ _ _ => true
  | .vfsub _ _ _ _ _ => true
  | .vfmul _ _ _ _ _ => true
  | .vfma _ _ _ _ _ s => s.toNat ≤ 3
  | .vfmin _ _ _ _ _ => true
  | .vfmax _ _ _ _ _ => true
  | .vfdiv _ _ _ _ _ => true
  | .vfsqrt _ _ _ _ => true
  | .vfrsqrt _ _ _ _ => true
  | .vfexp2 _ _ _ _ => true
  | .vflog2 _ _ _ _ => true
  | .vcmp _ _ _ _ _ _ => true
  | .vfcmp _ _ _ _ _ _ => true
  | .vsel _ _ _ _ _ => true
  | .mlog _ _ _ _ => true
  | .mpopc _ _ _ => true
  | .vuni _ _ _ _ => true
  | .vuniM _ _ _ => true
  | .vcvt _ _ _ _ _ _ c => roundOk c
  | .vmxq _ _ u o _ f => f != 3 && (if u then o == 0 else roundOk o)
  | .vmxd _ _ _ _ f => f != 3
  | .vpack _ _ p _ _ b => partOk p b
  | .vunpack _ _ _ p _ _ b => partOk p b
  | .vred _ _ _ _ _ => true
  | .vfred _ _ _ _ o => o.toNat ≤ 2
  | .vperm _ _ _ _ _ => true
  | .vrot _ _ _ _ _ s => s.toNat ≤ 1
  | .vbcast _ _ _ _ _ s => s.toNat ≤ 1
  | .vsigf _ _ _ _ => true
  | .vsigr _ _ _ _ => true
  | .vnfs _ _ _ s => s.toNat ≤ 2
  | .vnfsClr => true
  | .vseed _ _ s => s.toNat ≤ 2
  | .v2s _ _ _ _ s => s.toNat ≤ 1
  | .vli _ _ _ s => s.toNat ≤ 2
  | .nopS3 => true
  | .tset _ _ _ _ f => f != 3
  | .t2s _ _ _ _ => true
  | .k2s _ _ _ _ => true
  | .tzero _ _ => true
  | .tcvt _ _ _ f => f != 5 && f != 6
  | .tcheck _ _ => true
  | .tadd _ _ _ => true
  | .mstep _ _ _ _ _ => true
  | .mstepRev _ _ _ _ _ => true
  | .bseal _ i v => v != 3 && (v != 2 || i.toNat ≤ 27)
  | .sstep _ _ _ _ i => i.toNat ≤ 27
  | .sdstep _ _ a _ i => a.toNat ≤ 14 && i.toNat ≤ 27
  | .sgrad _ a _ i => a.toNat ≤ 14 && i.toNat ≤ 6
  | .sgzero _ i => i.toNat ≤ 6
  | .srefine _ _ i => i.toNat ≤ 27
  | .sflags _ _ _ _ => true
  | .pauseEnd c _ => coreOk c
  | .resultLand c _ _ => coreOk c
  | .doneRetire c _ => coreOk c
  | .strandSuspension c _ => coreOk c
  | .strandResume c _ => coreOk c
  | .loadValueReturn c _ => coreOk c
  | .storeReachHome d _ => dieOk d
  | .atomicAtHome c _ => coreOk c
  | .pageWalk c _ => coreOk c
  | .retryRingAdmit d => dieOk d
  | .retryMirrorPublish d => dieOk d
  | .rrmirrorWrite d _ => dieOk d
  | .hostRport d => dieOk d
  | .hostRack d => dieOk d
  | .rrkillWrite d _ => dieOk d
  | .tlbinvAll => true
  | .tlbinvPage64k _ => true
  | .tlbinvPage32m _ => true
  | .tlbinvComplete => true
  | .engineCompletion d _ => dieOk d
  | .engineFault d _ _ => dieOk d
  | .collInstanceMeet _ _ => true
  | .xposeWriteback c => coreOk c
  | .arrayStepStart c => coreOk c
  | .arrayResultLand c => coreOk c
  | .tileOpComplete c => coreOk c
  | .pipelineError c _ u => coreOk c && u.toNat ≤ 5
  | .dupVote _ => true
  | .containmentRelease _ => true
  | .containmentLineFreed d => dieOk d
  | .topologyChange cl _ => cl.all (fun g => g < 192)
  | .uncorrectableError d _ p _ _ => p.ok d
  | .correctableError d _ p _ _ => p.ok d
  | .ebstatClear d c _ => dieOk d && c < 12
  | .patrolScrub st _ _ => st < 32
  | .sramScrub d _ p _ => p.ok d
  | .errinjWrite c _ => coreOk c
  | .lqdoorWrite _ => true
  | .launchWord => true
  | .predecessorDecrement _ _ d => dieOk d
  | .nodeReadiness _ => true
  | .copyNodeInstance _ _ => true
  | .nodeCompletion _ => true
  | .agePeriodTick d => dieOk d
  | .gangDispatch d => dieOk d
  | .gangStart d c => dieOk d && c < 12
  | .yieldDeadlineExpiry c _ => coreOk c
  | .hostBar2Read _ _ => true
  | .hostBar2Write _ _ => true
  | .hostApertureReadTimeout c _ => coreOk c
  | .evlostRead => true
  | .yewidxWrite d _ => dieOk d
  | .flitTransmit l _ _ p => linkOk l && p.length ≤ 244
  | .flitReceive l body _ => linkOk l && body.length == 252
  | .replayTimeout l => linkOk l
  | .laneFailure l e => linkOk l && e.lane < 16
  | .linkTrainingComplete l => linkOk l
  | .lctlRetrain l _ => linkOk l
  | .lcntRead l => linkOk l
  | .feccntRead l => linkOk l
  | .inboundWrite l _ _ => linkOk l
  | .clkpatUpdate d => dieOk d
  | .energyRefill => true
  | .pstepWrite _ => true
  | .powerEstimate _ draws => draws.all fun e => dieOk e.1
  | .regulatorPhaseLoss d _ _ _ => dieOk d
  | .energyReadLow d => dieOk d
  | .powerFail => true
  | .moduleReset => true
  | .imageCheck _ _ => true
  | .hbmTraining _ _ => true
  | .selfTest _ => true
  | .featAccept1Write _ => true
  | .dbgctlHalt c _ => coreOk c
  | .dbgctlStep c => coreOk c
  | .stepDrainDone c => coreOk c
  | .registerWrite _ w =>
    match w with
    | .bar0 n _ => n == 4 || n == 8
    | .bar2 n => 30 ≤ n.toNat && n.toNat ≤ 41
  | .energyCount d _ => dieOk d
  | .grantUpdate c _ => coreOk c

end Sys2Proof
end

