-- ==== Sys2Proof/Decode.lean ====
section
/-!
DEFINITION. The decoder of slot words and bundles (R92 to R97, R109 to R117), total on any words and
rejecting by name, the encoder written from the same format tables, and the registers that an
operation names as destinations (R101).
-/
namespace Sys2Proof

/-- `sext(x, n)` of R10: the value held in x[n-1:0], extended by its sign bit. -/
def sextNat (x n : Nat) : Int :=
  let v := x % 2 ^ n
  if 2 * v < 2 ^ n then (v : Int) else (v : Int) - 2 ^ n

/-- An exact integer reduced to n bits (the `mod 2^n` of R10). -/
def wrapInt (n : Nat) (v : Int) : BitVec n := BitVec.ofInt n v

/-! Lendable fields (R95, R96). -/

/-- The value of a lendable field read as signed, from its own width or from the lent width. -/
def Imm.sval {n : Nat} : Imm n → Int
  | .short v => v.toInt
  | .long v => v.toInt

/-- The value of a lendable field read as unsigned. -/
def Imm.uval {n : Nat} : Imm n → Nat
  | .short v => v.toNat
  | .long v => v.toNat

/-- The width in which a lendable field is written. -/
def Imm.width {n : Nat} : Imm n → Nat
  | .short _ => n
  | .long _ => n + 7

/-- The low n bits of a lendable field, which stand in the slot word. -/
def Imm.low {n : Nat} : Imm n → BitVec n
  | .short v => v
  | .long v => BitVec.ofNat n v.toNat

/-- The seven lend bits of a lendable field, none without a header or lend word. -/
def Imm.lend {n : Nat} : Imm n → Option (BitVec 7)
  | .short _ => none
  | .long v => some (BitVec.ofNat 7 (v.toNat / 2 ^ n))

/-- A lendable field read from its slot-word bits and the lend bits, if the bundle supplies any. -/
def Imm.read {n : Nat} (lo : BitVec n) : Option (BitVec 7) → Imm n
  | none => .short lo
  | some x => .long (BitVec.ofNat (n + 7) (x.toNat * 2 ^ n + lo.toNat))

/-- The index field of slot 3, lent to 8 bits by LEND3[1:0] (R95). -/
def lendIndex (i : BitVec 6) : Option (BitVec 7) → WIndex
  | none => BitVec.ofNat 8 i.toNat
  | some x => BitVec.ofNat 8 (x.toNat % 4 * 64 + i.toNat)

/-! The formats of R109 to R112: `read` takes the fields out of a word, `word` puts them in. A word
is a number; slot 0's is taken without its energy code. -/

/-- Bits lo to lo + n - 1 of a word. -/
def fld (w lo n : Nat) : BitVec n := BitVec.ofNat n (w / 2 ^ lo)

/-- The guard of R102, from its register and negate bit. -/
def guardAt (w p n : Nat) : Guard := ⟨fld w p 3, natBit w n⟩

/-- Format R (R109). -/
def readR (w : Nat)
    (f : Guard → BitVec 5 → BitVec 5 → BitVec 5 → Bool → Instr) : Instr :=
  f (guardAt w 2 1) (fld w 15 5) (fld w 10 5) (fld w 5 5) (natBit w 0)

def wordR (op : Nat) (g : Guard) (d a b : BitVec 5) (v : Bool) : Nat :=
  op * 2 ^ 20 + d.toNat * 2 ^ 15 + a.toNat * 2 ^ 10 + b.toNat * 2 ^ 5 + g.p.toNat * 2 ^ 2 +
    bit g.neg * 2 + bit v

/-- Format I (R109). -/
def readI (w : Nat) (f : BitVec 5 → BitVec 5 → BitVec 10 → Instr) : Instr :=
  f (fld w 15 5) (fld w 10 5) (fld w 0 10)

def wordI (op : Nat) (d a : BitVec 5) (i : BitVec 10) : Nat :=
  op * 2 ^ 20 + d.toNat * 2 ^ 15 + a.toNat * 2 ^ 10 + i.toNat

/-- CMPI's use of format I (R113). -/
def readCI (w : Nat) (f : BitVec 3 → BitVec 2 → BitVec 5 → BitVec 10 → Instr) : Instr :=
  f (fld w 17 3) (fld w 15 2) (fld w 10 5) (fld w 0 10)

def wordCI (op : Nat) (p : BitVec 3) (c : BitVec 2) (a : BitVec 5) (i : BitVec 10) : Nat :=
  op * 2 ^ 20 + p.toNat * 2 ^ 17 + c.toNat * 2 ^ 15 + a.toNat * 2 ^ 10 + i.toNat

/-- Format L (R109). -/
def readL (w : Nat) (f : BitVec 5 → BitVec 15 → Instr) : Instr :=
  f (fld w 15 5) (fld w 0 15)

def wordL (op : Nat) (d : BitVec 5) (i : BitVec 15) : Nat :=
  op * 2 ^ 20 + d.toNat * 2 ^ 15 + i.toNat

/-- Format B (R109). -/
def readB (w : Nat) (f : Guard → BitVec 16 → Instr) : Instr :=
  f (guardAt w 17 16) (fld w 0 16)

def wordB (op : Nat) (g : Guard) (o : BitVec 16) : Nat :=
  op * 2 ^ 20 + g.p.toNat * 2 ^ 17 + bit g.neg * 2 ^ 16 + o.toNat

/-- Format C (R109). -/
def readC (w : Nat)
    (f : BitVec 3 → BitVec 2 → BitVec 5 → BitVec 5 → Guard → Bool → Instr) : Instr :=
  f (fld w 17 3) (fld w 15 2) (fld w 10 5) (fld w 5 5) (guardAt w 2 1) (natBit w 0)

def wordC (op : Nat) (g : Guard) (p : BitVec 3) (c : BitVec 2) (a b : BitVec 5) (v : Bool) : Nat :=
  op * 2 ^ 20 + p.toNat * 2 ^ 17 + c.toNat * 2 ^ 15 + a.toNat * 2 ^ 10 + b.toNat * 2 ^ 5 +
    g.p.toNat * 2 ^ 2 + bit g.neg * 2 + bit v

/-- Format P (R109). -/
def readP (w : Nat) (f : BitVec 3 → BitVec 3 → BitVec 3 → BitVec 4 → Instr) : Instr :=
  f (fld w 17 3) (fld w 12 3) (fld w 7 3) (fld w 0 4)

def wordP (op : Nat) (d a b : BitVec 3) (t : BitVec 4) : Nat :=
  op * 2 ^ 20 + d.toNat * 2 ^ 17 + a.toNat * 2 ^ 12 + b.toNat * 2 ^ 7 + t.toNat

/-- Format LOOP (R109): bits 18:17 tell the count source. -/
def readLoop (w : Nat) : Instr :=
  match w / 2 ^ 17 % 4 with
  | 0 => .loopI (natBit w 19) (fld w 10 7) (fld w 0 10)
  | 1 => .loopR (natBit w 19) (fld w 10 7) (fld w 5 5)
  | 2 => .loopSr (natBit w 19) (fld w 10 7) (fld w 5 5)
  | _ => .loopRot (natBit w 19) (fld w 10 7) (fld w 5 5) (fld w 0 4)

def wordLoopI (op : Nat) (l : Bool) (o : BitVec 7) (c : BitVec 10) : Nat :=
  op * 2 ^ 20 + bit l * 2 ^ 19 + o.toNat * 2 ^ 10 + c.toNat

def wordLoopR (op : Nat) (l : Bool) (src : Nat) (o : BitVec 7) (r n : BitVec 5) : Nat :=
  op * 2 ^ 20 + bit l * 2 ^ 19 + src * 2 ^ 17 + o.toNat * 2 ^ 10 + r.toNat * 2 ^ 5 + n.toNat

/-- Format M, and AI with its reserved field as class (R110). -/
def readM (w : Nat)
    (f : BitVec 4 → BitVec 5 → BitVec 5 → Guard → BitVec 8 → Instr) : Instr :=
  f (fld w 22 4) (fld w 17 5) (fld w 12 5) (guardAt w 8 11) (fld w 0 8)

def wordM (op : Nat) (k : BitVec 4) (d b : BitVec 5) (g : Guard) (o : BitVec 8) : Nat :=
  op * 2 ^ 26 + k.toNat * 2 ^ 22 + d.toNat * 2 ^ 17 + b.toNat * 2 ^ 12 + bit g.neg * 2 ^ 11 +
    g.p.toNat * 2 ^ 8 + o.toNat

/-- Format MX, and A with its reserved field as class and its sub field in bits 2:0 (R110). -/
def readMX (w : Nat)
    (f : BitVec 4 → BitVec 5 → BitVec 5 → Guard → BitVec 5 → BitVec 3 → Instr) : Instr :=
  f (fld w 22 4) (fld w 17 5) (fld w 12 5) (guardAt w 8 11) (fld w 3 5) (fld w 0 3)

def wordMX (op : Nat) (k : BitVec 4) (d b : BitVec 5) (g : Guard) (x : BitVec 5) (s : BitVec 3) :
    Nat :=
  op * 2 ^ 26 + k.toNat * 2 ^ 22 + d.toNat * 2 ^ 17 + b.toNat * 2 ^ 12 + bit g.neg * 2 ^ 11 +
    g.p.toNat * 2 ^ 8 + x.toNat * 2 ^ 3 + s.toNat

/-- Format MA (R110). -/
def readMA (w : Nat)
    (f : BitVec 4 → BitVec 5 → BitVec 5 → Guard → BitVec 3 → BitVec 5 → Instr) : Instr :=
  f (fld w 22 4) (fld w 17 5) (fld w 12 5) (guardAt w 8 11) (fld w 5 3) (fld w 0 5)

def wordMA (op : Nat) (k : BitVec 4) (d b : BitVec 5) (g : Guard) (sc : BitVec 3) (o : BitVec 5) :
    Nat :=
  op * 2 ^ 26 + k.toNat * 2 ^ 22 + d.toNat * 2 ^ 17 + b.toNat * 2 ^ 12 + bit g.neg * 2 ^ 11 +
    g.p.toNat * 2 ^ 8 + sc.toNat * 2 ^ 5 + o.toNat

/-- Format MT (R110). -/
def readMT (w : Nat)
    (f : BitVec 4 → BitVec 5 → BitVec 5 → Guard → BitVec 4 → Bool → BitVec 3 → Instr) : Instr :=
  f (fld w 22 4) (fld w 17 5) (fld w 12 5) (guardAt w 8 11) (fld w 4 4) (natBit w 3) (fld w 0 3)

def wordMT (op : Nat) (k : BitVec 4) (d b : BitVec 5) (g : Guard) (f : BitVec 4) (z : Bool)
    (sc : BitVec 3) : Nat :=
  op * 2 ^ 26 + k.toNat * 2 ^ 22 + d.toNat * 2 ^ 17 + b.toNat * 2 ^ 12 + bit g.neg * 2 ^ 11 +
    g.p.toNat * 2 ^ 8 + f.toNat * 2 ^ 4 + bit z * 2 ^ 3 + sc.toNat

/-- Format AL (R110). -/
def readAL (w : Nat) (f : BitVec 5 → BitVec 17 → Instr) : Instr :=
  f (fld w 17 5) (fld w 0 17)

def wordAL (op : Nat) (d : BitVec 5) (i : BitVec 17) : Nat :=
  op * 2 ^ 26 + d.toNat * 2 ^ 17 + i.toNat

/-- Format AC (R110). -/
def readAC (w : Nat)
    (f : BitVec 3 → BitVec 2 → BitVec 5 → Guard → BitVec 5 → Bool → Instr) : Instr :=
  f (fld w 19 3) (fld w 17 2) (fld w 12 5) (guardAt w 8 11) (fld w 3 5) (natBit w 2)

def wordAC (op : Nat) (p : BitVec 3) (c : BitVec 2) (a : BitVec 5) (g : Guard) (b : BitVec 5)
    (v : Bool) : Nat :=
  op * 2 ^ 26 + p.toNat * 2 ^ 19 + c.toNat * 2 ^ 17 + a.toNat * 2 ^ 12 + bit g.neg * 2 ^ 11 +
    g.p.toNat * 2 ^ 8 + b.toNat * 2 ^ 3 + bit v * 2 ^ 2

/-- Format F (R110). -/
def readF (w : Nat) (f : BitVec 16 → BitVec 3 → Instr) : Instr :=
  f (fld w 6 16) (fld w 3 3)

def wordF (op : Nat) (m : BitVec 16) (sc : BitVec 3) : Nat :=
  op * 2 ^ 26 + m.toNat * 2 ^ 6 + sc.toNat * 2 ^ 3

/-- Format E with its sub field in four parts (R110, R255). -/
def readE (w : Nat)
    (f : Bool → Bool → BitVec 3 → BitVec 5 → BitVec 3 → Guard → BitVec 2 → BitVec 2 → BitVec 2 →
      BitVec 2 → Instr) : Instr :=
  f (natBit w 25) (natBit w 24) (fld w 21 3) (fld w 16 5) (fld w 13 3) (guardAt w 8 11)
    (fld w 6 2) (fld w 4 2) (fld w 2 2) (fld w 0 2)

def wordE (op : Nat) (acq rel : Bool) (sc : BitVec 3) (t : BitVec 5) (x : BitVec 3) (g : Guard)
    (y o i j : BitVec 2) : Nat :=
  op * 2 ^ 26 + bit acq * 2 ^ 25 + bit rel * 2 ^ 24 + sc.toNat * 2 ^ 21 + t.toNat * 2 ^ 16 +
    x.toNat * 2 ^ 13 + bit g.neg * 2 ^ 11 + g.p.toNat * 2 ^ 8 + y.toNat * 2 ^ 6 + o.toNat * 2 ^ 4 +
    i.toNat * 2 ^ 2 + j.toNat

/-- Formats V and VD (R111). -/
def readV (w : Nat)
    (f : BitVec 6 → BitVec 6 → BitVec 6 → BitVec 3 → Bool → BitVec 3 → Instr) : Instr :=
  f (fld w 19 6) (fld w 13 6) (fld w 7 6) (fld w 4 3) (natBit w 3) (fld w 0 3)

def wordV (op : Nat) (d a b : BitVec 6) (m : BitVec 3) (r : Bool) (s : BitVec 3) : Nat :=
  op * 2 ^ 25 + d.toNat * 2 ^ 19 + a.toNat * 2 ^ 13 + b.toNat * 2 ^ 7 + m.toNat * 2 ^ 4 +
    bit r * 2 ^ 3 + s.toNat

/-- Format VX (R111). -/
def readVX (w : Nat) (f : BitVec 6 → BitVec 12 → BitVec 3 → BitVec 3 → Instr) : Instr :=
  f (fld w 19 6) (fld w 7 12) (fld w 4 3) (fld w 0 3)

def wordVX (op : Nat) (d : BitVec 6) (i : BitVec 12) (m s : BitVec 3) : Nat :=
  op * 2 ^ 25 + d.toNat * 2 ^ 19 + i.toNat * 2 ^ 7 + m.toNat * 2 ^ 4 + s.toNat

/-- The format of slot 3 (R112). -/
def readT (w : Nat)
    (f : BitVec 4 → BitVec 4 → BitVec 4 → BitVec 6 → BitVec 4 → BitVec 4 → Instr) : Instr :=
  f (fld w 22 4) (fld w 18 4) (fld w 14 4) (fld w 8 6) (fld w 4 4) (fld w 0 4)

def wordT (op : Nat) (d a b : BitVec 4) (i : BitVec 6) (g f : BitVec 4) : Nat :=
  op * 2 ^ 26 + d.toNat * 2 ^ 22 + a.toNat * 2 ^ 18 + b.toNat * 2 ^ 14 + i.toNat * 2 ^ 8 +
    g.toNat * 2 ^ 4 + f.toNat

/-! The opcode maps. x: the lend bits, if a lend word or header supplies them. -/

/-- Slot 0 (R113), bits 27:0 of the word. -/
def raw0 (w : Nat) (x : Option (BitVec 7)) : Option Instr :=
  match w / 2 ^ 20 with
  | 0x00 => some .nopS0
  | 0x01 => some (readB w fun g o => .br g (Imm.read o x))
  | 0x02 => some (readR w fun g _ a _ _ => .bri g a)
  | 0x03 => some (readB w fun g o => .call g (Imm.read o x))
  | 0x04 => some (readR w fun g _ a _ _ => .ret g a)
  | 0x08 => some (readLoop w)
  | 0x09 => some (readR w fun g _ _ _ v => .lexit g v)
  | 0x0A => some (readR w fun g d _ b v => .lstat g d (b.setWidth 2) v)
  | 0x0B => some (readR w fun g _ a b v => .lset g a (b.setWidth 2) v)
  | 0x0C => some (readL w fun _ i => .setfmt i)
  | 0x10 => some (readL w fun _ i => .safept i)
  | 0x11 => some (readL w fun _ i => .yield i)
  | 0x12 => some (readR w fun g _ _ _ _ => .done g)
  | 0x13 => some (readR w fun g d _ _ _ => .barg g d)
  | 0x14 => some (readI w fun _ a i => .pause a i)
  | 0x15 => some (readR w fun g d a _ _ => .waitev g d a)
  | 0x16 => some (readI w fun _ _ i => .trap i)
  | 0x17 => some (readR w fun g _ _ _ _ => .rft g)
  | 0x18 => some (readI w fun d _ i => .mfsr d i)
  | 0x19 => some (readI w fun _ a i => .mtsr a i)
  | 0x1A => some (readR w fun _ d _ _ _ => .ecap d)
  | 0x20 => some (readR w fun g d a b v => .add g d a b v)
  | 0x21 => some (readR w fun g d a b v => .sub g d a b v)
  | 0x22 => some (readR w fun g d a b v => .mul g d a b v)
  | 0x23 => some (readR w fun g d a b _ => .mulhi g d a b)
  | 0x24 => some (readR w fun g d a b _ => .mulhn g d a b)
  | 0x25 => some (readR w fun g d a b _ => .and g d a b)
  | 0x26 => some (readR w fun g d a b _ => .or g d a b)
  | 0x27 => some (readR w fun g d a b _ => .xor g d a b)
  | 0x28 => some (readR w fun g d a b v => .shl g d a b v)
  | 0x29 => some (readR w fun g d a b v => .shr g d a b v)
  | 0x2A => some (readR w fun g d a b v => .sar g d a b v)
  | 0x2B => some (readR w fun g d a b _ => .min g d a b)
  | 0x2C => some (readR w fun g d a b _ => .max g d a b)
  | 0x2D => some (readR w fun g d a b _ => .minn g d a b)
  | 0x2E => some (readR w fun g d a b _ => .maxn g d a b)
  | 0x2F => some (readR w fun g d a b _ => .sel g d a b)
  | 0x30 => some (readR w fun g d a _ v => .clz g d a v)
  | 0x31 => some (readR w fun g d a _ v => .popc g d a v)
  | 0x32 => some (readR w fun g d a b v => .bfx g d a b v)
  | 0x33 => some (readR w fun g d a b _ => .bfi g d a b)
  | 0x34 => some (readC w fun p c a b g v => .cmp g p c a b v)
  | 0x35 => some (readP w fun d a b t => .plog d a b t)
  | 0x38 => some (readI w fun d a i => .addi d a i)
  | 0x39 => some (readI w fun d a i => .andi d a i)
  | 0x3A => some (readI w fun d a i => .ori d a i)
  | 0x3B => some (readI w fun d a i => .xori d a i)
  | 0x3C => some (readI w fun d a i => .shli d a (i.setWidth 6))
  | 0x3D => some (readI w fun d a i => .shri d a (i.setWidth 6))
  | 0x3E => some (readI w fun d a i => .sari d a (i.setWidth 6))
  | 0x3F => some (readCI w fun p c a i => .cmpi p c a i)
  | 0x40 => some (readL w fun d i => .li d (Imm.read i x))
  | 0x41 => some (readL w fun d i => .lih d (Imm.read i x))
  | 0x48 => some (readR w fun g d a _ _ => .s2a g d a)
  | 0x49 => some (readR w fun g d a _ v => .s2v g (BitVec.ofBool v ++ d) a)
  | 0x4A => some (readR w fun g d a b _ => .s2t g (d.setWidth 4) a b)
  | 0x4B => some (readR w fun g d a b _ => .s2k g (d.setWidth 3) a b)
  | _ => none

/-- Slot 1 (R114). -/
def raw1 (w : Nat) (x : Option (BitVec 7)) : Option Instr :=
  match w / 2 ^ 26 with
  | 0x00 => some .nopS1
  | 0x01 => some (readMX w fun _ d a g b _ => .aadd g d a b)
  | 0x02 => some (readM w fun _ d a g o => .aaddi g d a (Imm.read o x))
  | 0x03 => some (readMX w fun _ d a g b _ => .asub g d a b)
  | 0x04 => some (readM w fun _ d a g o => .ashli g d a (o.setWidth 6))
  | 0x05 => some (readMX w fun _ d a g b s => .alea g d a b s)
  | 0x06 => some (readMX w fun _ d a g b _ => .aand g d a b)
  | 0x07 => some (readAL w fun d i => .ali d (Imm.read i x))
  | 0x08 => some (readAC w fun p c a g b v => .acmp g p c a b v)
  | 0x09 => some (readMX w fun _ d a g _ _ => .a2s g d a)
  | 0x10 => some (readM w fun k d b g o => .ldBI g k d b (Imm.read o x))
  | 0x11 => some (readM w fun k d b g o => .ldBN g k d b (Imm.read o x))
  | 0x12 => some (readM w fun k d b g o => .ldHI g k d b (Imm.read o x))
  | 0x13 => some (readM w fun k d b g o => .ldHN g k d b (Imm.read o x))
  | 0x14 => some (readM w fun k d b g o => .ldWI g k d b (Imm.read o x))
  | 0x15 => some (readM w fun k d b g o => .ldWN g k d b (Imm.read o x))
  | 0x16 => some (readM w fun k d b g o => .ldD g k d b (Imm.read o x))
  | 0x18 => some (readMX w fun k d b g x _ => .ldxBI g k d b x)
  | 0x19 => some (readMX w fun k d b g x _ => .ldxBN g k d b x)
  | 0x1A => some (readMX w fun k d b g x _ => .ldxHI g k d b x)
  | 0x1B => some (readMX w fun k d b g x _ => .ldxHN g k d b x)
  | 0x1C => some (readMX w fun k d b g x _ => .ldxWI g k d b x)
  | 0x1D => some (readMX w fun k d b g x _ => .ldxWN g k d b x)
  | 0x1E => some (readMX w fun k d b g x _ => .ldxD g k d b x)
  | 0x20 => some (readM w fun k d b g o => .stB g k d b (Imm.read o x))
  | 0x21 => some (readM w fun k d b g o => .stH g k d b (Imm.read o x))
  | 0x22 => some (readM w fun k d b g o => .stW g k d b (Imm.read o x))
  | 0x23 => some (readM w fun k d b g o => .stD g k d b (Imm.read o x))
  | 0x24 => some (readMX w fun k d b g x _ => .stxB g k d b x)
  | 0x25 => some (readMX w fun k d b g x _ => .stxH g k d b x)
  | 0x26 => some (readMX w fun k d b g x _ => .stxW g k d b x)
  | 0x27 => some (readMX w fun k d b g x _ => .stxD g k d b x)
  | 0x28 => some (readMA w fun k d b g sc o => .ldacqW g k d b sc (Imm.read o x))
  | 0x29 => some (readMA w fun k d b g sc o => .ldacqD g k d b sc (Imm.read o x))
  | 0x2A => some (readMA w fun k d b g sc o => .strelW g k d b sc (Imm.read o x))
  | 0x2B => some (readMA w fun k d b g sc o => .strelD g k d b sc (Imm.read o x))
  | 0x2C => some (readM w fun k d b g o => .sldW g k d b (Imm.read o x))
  | 0x2D => some (readM w fun k d b g o => .sldD g k d b (Imm.read o x))
  | 0x2E => some (readM w fun k d b g o => .sstW g k d b (Imm.read o x))
  | 0x2F => some (readM w fun k d b g o => .sstD g k d b (Imm.read o x))
  | 0x30 => some (readMT w fun k d b g f z sc => .amo g k d b f z sc)
  | 0x31 => some (readMT w fun k d b g _ z sc => .cas g k d b z sc)
  | 0x32 => some (readMT w fun k d b g _ _ sc => .afadd g k d b sc)
  | 0x33 => some (readF w fun m sc => .fence m sc)
  | 0x34 => some (readF w fun _ sc => .fencesc sc)
  | 0x35 => some (readF w fun m _ => .xfence m)
  | 0x36 => some (readM w fun _ d a g o => .rslot g d a (Imm.read o x))
  | 0x37 => some (readE w fun q l s t x g _ o i j => .copy g q l s t x (o.getLsbD 1) (o.getLsbD 0) i j)
  | 0x38 => some (readE w fun q l s t x g _ o _ j => .copym g q l s t x (o.getLsbD 1) (o.getLsbD 0) j)
  | 0x39 => some (readE w fun q l s t x g y o i j => .coll g q l s t x y o i j)
  | 0x3A => some (readE w fun q l s t x g _ o _ j => .rcopy g q l s t x (o.getLsbD 1) (o.getLsbD 0) j)
  | 0x3B => some (readMX w fun _ d a g b s => .xpose g d a b s)
  | 0x3C => some (readMX w fun _ d a g _ s => .tokst g d a s)
  | 0x3D => some (readMX w fun _ d a g b _ => .rport g d a b)
  | 0x3E => some (readMX w fun _ d a g _ _ => .rack g d a)
  | _ => none

/-- Slot 2 (R115). -/
def raw2 (w : Nat) (x : Option (BitVec 7)) : Option Instr :=
  match w / 2 ^ 25 with
  | 0x00 => some .nopS2
  | 0x01 => some (readV w fun d a o m r _ => .vld d a (Imm.read o x) m r)
  | 0x02 => some (readV w fun d a b m r _ => .vlds d a b m r)
  | 0x03 => some (readV w fun d a b m r _ => .vgath d a b m r)
  | 0x04 => some (readV w fun d a o m r _ => .vst d a (Imm.read o x) m r)
  | 0x05 => some (readV w fun d a b m r _ => .vsts d a b m r)
  | 0x06 => some (readV w fun d a b m r _ => .vscat d a b m r)
  | 0x07 => some (readV w fun d a o m r _ => .vldacc d a (Imm.read o x) m r)
  | 0x08 => some (readV w fun d a o m r _ => .vstacc d a (Imm.read o x) m r)
  | 0x10 => some (readV w fun d a b m r s => .vadd d a b m r s)
  | 0x11 => some (readV w fun d a b m r s => .vsub d a b m r s)
  | 0x12 => some (readV w fun d a b m r s => .vmul d a b m r s)
  | 0x13 => some (readV w fun d a b m r s => .vmulhi d a b m r s)
  | 0x14 => some (readV w fun d a b m r s => .vmin d a b m r s)
  | 0x15 => some (readV w fun d a b m r s => .vmax d a b m r s)
  | 0x16 => some (readV w fun d a b m r s => .vminn d a b m r s)
  | 0x17 => some (readV w fun d a b m r s => .vmaxn d a b m r s)
  | 0x18 => some (readV w fun d a b m r s => .vand d a b m r s)
  | 0x19 => some (readV w fun d a b m r s => .vor d a b m r s)
  | 0x1A => some (readV w fun d a b m r s => .vxor d a b m r s)
  | 0x1B => some (readV w fun d a b m r s => .vshl d a b m r s)
  | 0x1C => some (readV w fun d a b m r s => .vshr d a b m r s)
  | 0x1D => some (readV w fun d a b m r s => .vsar d a b m r s)
  | 0x1E => some (readV w fun d a _ m r s => .vabs d a m r s)
  | 0x20 => some (readV w fun d a b m r _ => .vfadd d a b m r)
  | 0x21 => some (readV w fun d a b m r _ => .vfsub d a b m r)
  | 0x22 => some (readV w fun d a b m r _ => .vfmul d a b m r)
  | 0x23 => some (readV w fun d a b m r s => .vfma d a b m r s)
  | 0x24 => some (readV w fun d a b m r _ => .vfmin d a b m r)
  | 0x25 => some (readV w fun d a b m r _ => .vfmax d a b m r)
  | 0x26 => some (readV w fun d a b m r _ => .vfdiv d a b m r)
  | 0x27 => some (readV w fun d a _ m r _ => .vfsqrt d a m r)
  | 0x28 => some (readV w fun d a _ m r _ => .vfrsqrt d a m r)
  | 0x29 => some (readV w fun d a _ m r _ => .vfexp2 d a m r)
  | 0x2A => some (readV w fun d a _ m r _ => .vflog2 d a m r)
  | 0x30 => some (readV w fun d a b m r s => .vcmp (d.setWidth 3) a b m r s)
  | 0x31 => some (readV w fun d a b m r s => .vfcmp (d.setWidth 3) a b m r s)
  | 0x32 => some (readV w fun d a b m r _ => .vsel d a b m r)
  | 0x33 => some (readV w fun d a b _ r s => .mlog (d.setWidth 3) (a.setWidth 3) (b.setWidth 3) (BitVec.ofBool r ++ s))
  | 0x34 => some (readV w fun d a _ m _ _ => .mpopc d (a.setWidth 3) m)
  | 0x35 => some (readV w fun d a _ m r s =>
      if s == 1 then .vuniM (d.setWidth 3) (a.setWidth 3) m else .vuni (d.setWidth 3) a m r)
  | 0x38 => some (readV w fun d a b m r s => .vcvt d a (b.extractLsb' 3 3) (b.extractLsb' 0 3) m r s)
  | 0x39 => some (readV w fun d a b _ r s => .vmxq d a (b.getLsbD 3) (b.setWidth 3) r (s.setWidth 2))
  | 0x3A => some (readV w fun d a _ m r s => .vmxd d a m r (s.setWidth 2))
  | 0x3B => some (readV w fun d a b m r s => .vpack d a (b.setWidth 3) m r s)
  | 0x3C => some (readV w fun d a b m r s => .vunpack d a (b.getLsbD 3) (b.setWidth 3) m r s)
  | 0x40 => some (readV w fun d a _ m r s => .vred d a m r s)
  | 0x41 => some (readV w fun d a _ m r s => .vfred d a m r s)
  | 0x42 => some (readV w fun d a b m r _ => .vperm d a b m r)
  | 0x43 => some (readV w fun d a b m r s => .vrot d a b m r s)
  | 0x44 => some (readV w fun d a b m r s => .vbcast d a b m r s)
  | 0x48 => some (readV w fun d a _ m r _ => .vsigf d a m r)
  | 0x49 => some (readV w fun d a _ m r _ => .vsigr d a m r)
  | 0x4A => some (readV w fun _ a _ m r s => if s == 4 then .vnfsClr else .vnfs a m r s)
  | 0x4B => some (readV w fun _ a _ _ r s => .vseed a r s)
  | 0x4C => some (readV w fun d a l _ r s => .v2s (d.setWidth 5) a l r s)
  | 0x4D => some (readVX w fun d i m s => .vli d (Imm.read i x) m s)
  | _ => none

/-- Slot 3 (R116). -/
def raw3 (w : Nat) (x : Option (BitVec 7)) : Option Instr :=
  match w / 2 ^ 26 with
  | 0x00 => some .nopS3
  | 0x01 => some (readT w fun d a _ i g f => .tset g d a i (f.setWidth 2))
  | 0x02 => some (readT w fun _ a _ i g _ => .t2s g a (i.extractLsb' 1 5) (i.getLsbD 0))
  | 0x03 => some (readT w fun _ _ b i g _ => .k2s g (b.setWidth 3) (i.extractLsb' 1 5) (i.getLsbD 0))
  | 0x04 => some (readT w fun d _ _ _ g _ => .tzero g d)
  | 0x05 => some (readT w fun d a _ _ g f => .tcvt g d a (f.setWidth 3))
  | 0x06 => some (readT w fun d _ _ _ g _ => .tcheck g d)
  | 0x07 => some (readT w fun d a _ _ g _ => .tadd g d a)
  | 0x08 => some (readT w fun d a b i g _ => .mstep g d a b (lendIndex i x))
  | 0x09 => some (readT w fun d a b i g _ => .mstepRev g d a b (lendIndex i x))
  | 0x0A => some (readT w fun _ _ _ i g f => .bseal g (lendIndex i x) (f.setWidth 2))
  | 0x10 => some (readT w fun d a b i g _ => .sstep g d a (b.setWidth 3) i)
  | 0x11 => some (readT w fun d a b i g _ => .sdstep g d a (b.setWidth 3) i)
  | 0x12 => some (readT w fun _ a b i g _ => .sgrad g a (b.setWidth 3) i)
  | 0x13 => some (readT w fun _ _ _ i g _ => .sgzero g i)
  | 0x14 => some (readT w fun _ _ b i g _ => .srefine g (b.setWidth 3) i)
  | 0x15 => some (readT w fun d _ b _ g f => .sflags g d (b.setWidth 3) (f.setWidth 2))
  | _ => none

/-- The opcode maps by slot number. -/
def rawSlot (k : Nat) (w : Nat) (x : Option (BitVec 7)) : Option Instr :=
  match k with
  | 0 => raw0 w x
  | 1 => raw1 w x
  | 2 => raw2 w x
  | 3 => raw3 w x
  | _ => none

/-- The slot word of an operation (R109 to R116), in slot 0 without the energy code; an event has
none. -/
def Instr.word : Instr → Nat
  | .nopS0 => 0
  | .br g o => wordB 0x01 g o.low
  | .bri g a => wordR 0x02 g 0 a 0 false
  | .call g o => wordB 0x03 g o.low
  | .ret g a => wordR 0x04 g 0 a 0 false
  | .loopI l o c => wordLoopI 0x08 l o c
  | .loopR l o r => wordLoopR 0x08 l 1 o r 0
  | .loopSr l o r => wordLoopR 0x08 l 2 o r 0
  | .loopRot l o r n => wordLoopR 0x08 l 3 o r (n.setWidth 5)
  | .lexit g l => wordR 0x09 g 0 0 0 l
  | .lstat g d w l => wordR 0x0A g d 0 (w.setWidth 5) l
  | .lset g a w l => wordR 0x0B g 0 a (w.setWidth 5) l
  | .setfmt i => wordL 0x0C 0 i
  | .safept i => wordL 0x10 0 i
  | .yield i => wordL 0x11 0 i
  | .done g => wordR 0x12 g 0 0 0 false
  | .barg g d => wordR 0x13 g d 0 0 false
  | .pause a i => wordI 0x14 0 a i
  | .waitev g d a => wordR 0x15 g d a 0 false
  | .trap i => wordI 0x16 0 0 i
  | .rft g => wordR 0x17 g 0 0 0 false
  | .mfsr d i => wordI 0x18 d 0 i
  | .mtsr a i => wordI 0x19 0 a i
  | .ecap d => wordR 0x1A ⟨0, false⟩ d 0 0 false
  | .add g d a b w => wordR 0x20 g d a b w
  | .sub g d a b w => wordR 0x21 g d a b w
  | .mul g d a b w => wordR 0x22 g d a b w
  | .mulhi g d a b => wordR 0x23 g d a b false
  | .mulhn g d a b => wordR 0x24 g d a b false
  | .and g d a b => wordR 0x25 g d a b false
  | .or g d a b => wordR 0x26 g d a b false
  | .xor g d a b => wordR 0x27 g d a b false
  | .shl g d a b w => wordR 0x28 g d a b w
  | .shr g d a b w => wordR 0x29 g d a b w
  | .sar g d a b w => wordR 0x2A g d a b w
  | .min g d a b => wordR 0x2B g d a b false
  | .max g d a b => wordR 0x2C g d a b false
  | .minn g d a b => wordR 0x2D g d a b false
  | .maxn g d a b => wordR 0x2E g d a b false
  | .sel g d a b => wordR 0x2F g d a b false
  | .clz g d a w => wordR 0x30 g d a 0 w
  | .popc g d a w => wordR 0x31 g d a 0 w
  | .bfx g d a b sx => wordR 0x32 g d a b sx
  | .bfi g d a b => wordR 0x33 g d a b false
  | .cmp g p c a b inv => wordC 0x34 g p c a b inv
  | .plog d a b t => wordP 0x35 d a b t
  | .addi d a i => wordI 0x38 d a i
  | .andi d a i => wordI 0x39 d a i
  | .ori d a i => wordI 0x3A d a i
  | .xori d a i => wordI 0x3B d a i
  | .shli d a i => wordI 0x3C d a (i.setWidth 10)
  | .shri d a i => wordI 0x3D d a (i.setWidth 10)
  | .sari d a i => wordI 0x3E d a (i.setWidth 10)
  | .cmpi p c a i => wordCI 0x3F p c a i
  | .li d i => wordL 0x40 d i.low
  | .lih d i => wordL 0x41 d i.low
  | .s2a g d a => wordR 0x48 g d a 0 false
  | .s2v g d a => wordR 0x49 g (d.setWidth 5) a 0 (d.getLsbD 5)
  | .s2t g d a b => wordR 0x4A g (d.setWidth 5) a b false
  | .s2k g d a b => wordR 0x4B g (d.setWidth 5) a b false
  | .nopS1 => 0
  | .aadd g d a b => wordMX 0x01 0 d a g b 0
  | .aaddi g d a i => wordM 0x02 0 d a g i.low
  | .asub g d a b => wordMX 0x03 0 d a g b 0
  | .ashli g d a i => wordM 0x04 0 d a g (i.setWidth 8)
  | .alea g d a b s => wordMX 0x05 0 d a g b s
  | .aand g d a b => wordMX 0x06 0 d a g b 0
  | .ali d i => wordAL 0x07 d i.low
  | .acmp g p c a b inv => wordAC 0x08 p c a g b inv
  | .a2s g d a => wordMX 0x09 0 d a g 0 0
  | .ldBI g k d b o => wordM 0x10 k d b g o.low
  | .ldBN g k d b o => wordM 0x11 k d b g o.low
  | .ldHI g k d b o => wordM 0x12 k d b g o.low
  | .ldHN g k d b o => wordM 0x13 k d b g o.low
  | .ldWI g k d b o => wordM 0x14 k d b g o.low
  | .ldWN g k d b o => wordM 0x15 k d b g o.low
  | .ldD g k d b o => wordM 0x16 k d b g o.low
  | .ldxBI g k d b x => wordMX 0x18 k d b g x 0
  | .ldxBN g k d b x => wordMX 0x19 k d b g x 0
  | .ldxHI g k d b x => wordMX 0x1A k d b g x 0
  | .ldxHN g k d b x => wordMX 0x1B k d b g x 0
  | .ldxWI g k d b x => wordMX 0x1C k d b g x 0
  | .ldxWN g k d b x => wordMX 0x1D k d b g x 0
  | .ldxD g k d b x => wordMX 0x1E k d b g x 0
  | .stB g k d b o => wordM 0x20 k d b g o.low
  | .stH g k d b o => wordM 0x21 k d b g o.low
  | .stW g k d b o => wordM 0x22 k d b g o.low
  | .stD g k d b o => wordM 0x23 k d b g o.low
  | .stxB g k d b x => wordMX 0x24 k d b g x 0
  | .stxH g k d b x => wordMX 0x25 k d b g x 0
  | .stxW g k d b x => wordMX 0x26 k d b g x 0
  | .stxD g k d b x => wordMX 0x27 k d b g x 0
  | .ldacqW g k d b sc o => wordMA 0x28 k d b g sc o.low
  | .ldacqD g k d b sc o => wordMA 0x29 k d b g sc o.low
  | .strelW g k d b sc o => wordMA 0x2A k d b g sc o.low
  | .strelD g k d b sc o => wordMA 0x2B k d b g sc o.low
  | .sldW g k d b o => wordM 0x2C k d b g o.low
  | .sldD g k d b o => wordM 0x2D k d b g o.low
  | .sstW g k d b o => wordM 0x2E k d b g o.low
  | .sstD g k d b o => wordM 0x2F k d b g o.low
  | .amo g k d b f z sc => wordMT 0x30 k d b g f z sc
  | .cas g k d b z sc => wordMT 0x31 k d b g 0 z sc
  | .afadd g k d b sc => wordMT 0x32 k d b g 0 false sc
  | .fence m sc => wordF 0x33 m sc
  | .fencesc sc => wordF 0x34 0 sc
  | .xfence m => wordF 0x35 m 0
  | .rslot g d a i => wordM 0x36 0 d a g i.low
  | .copy g acq rel sc t x mval mark ds ss => wordE 0x37 acq rel sc t x g 0 (BitVec.ofBool mval ++ BitVec.ofBool mark) ds ss
  | .copym g acq rel sc t x mval mark ss => wordE 0x38 acq rel sc t x g 0 (BitVec.ofBool mval ++ BitVec.ofBool mark) 0 ss
  | .coll g acq rel sc t x ty op ds ss => wordE 0x39 acq rel sc t x g ty op ds ss
  | .rcopy g acq rel sc t x mval mark ss => wordE 0x3A acq rel sc t x g 0 (BitVec.ofBool mval ++ BitVec.ofBool mark) 0 ss
  | .xpose g d a b z => wordMX 0x3B 0 d a g b z
  | .tokst g d a s => wordMX 0x3C 0 d a g 0 s
  | .rport g d a b => wordMX 0x3D 0 d a g b 0
  | .rack g d a => wordMX 0x3E 0 d a g 0 0
  | .nopS2 => 0
  | .vld d a o m r => wordV 0x01 d a o.low m r 0
  | .vlds d a b m r => wordV 0x02 d a b m r 0
  | .vgath d a b m r => wordV 0x03 d a b m r 0
  | .vst d a o m r => wordV 0x04 d a o.low m r 0
  | .vsts d a b m r => wordV 0x05 d a b m r 0
  | .vscat d a b m r => wordV 0x06 d a b m r 0
  | .vldacc d a o m r => wordV 0x07 d a o.low m r 0
  | .vstacc d a o m r => wordV 0x08 d a o.low m r 0
  | .vadd d a b m r w => wordV 0x10 d a b m r w
  | .vsub d a b m r w => wordV 0x11 d a b m r w
  | .vmul d a b m r w => wordV 0x12 d a b m r w
  | .vmulhi d a b m r w => wordV 0x13 d a b m r w
  | .vmin d a b m r w => wordV 0x14 d a b m r w
  | .vmax d a b m r w => wordV 0x15 d a b m r w
  | .vminn d a b m r w => wordV 0x16 d a b m r w
  | .vmaxn d a b m r w => wordV 0x17 d a b m r w
  | .vand d a b m r w => wordV 0x18 d a b m r w
  | .vor d a b m r w => wordV 0x19 d a b m r w
  | .vxor d a b m r w => wordV 0x1A d a b m r w
  | .vshl d a b m r w => wordV 0x1B d a b m r w
  | .vshr d a b m r w => wordV 0x1C d a b m r w
  | .vsar d a b m r w => wordV 0x1D d a b m r w
  | .vabs d a m r w => wordV 0x1E d a 0 m r w
  | .vfadd d a b m r => wordV 0x20 d a b m r 0
  | .vfsub d a b m r => wordV 0x21 d a b m r 0
  | .vfmul d a b m r => wordV 0x22 d a b m r 0
  | .vfma d a b m r s => wordV 0x23 d a b m r s
  | .vfmin d a b m r => wordV 0x24 d a b m r 0
  | .vfmax d a b m r => wordV 0x25 d a b m r 0
  | .vfdiv d a b m r => wordV 0x26 d a b m r 0
  | .vfsqrt d a m r => wordV 0x27 d a 0 m r 0
  | .vfrsqrt d a m r => wordV 0x28 d a 0 m r 0
  | .vfexp2 d a m r => wordV 0x29 d a 0 m r 0
  | .vflog2 d a m r => wordV 0x2A d a 0 m r 0
  | .vcmp d a b m r c => wordV 0x30 (d.setWidth 6) a b m r c
  | .vfcmp d a b m r c => wordV 0x31 (d.setWidth 6) a b m r c
  | .vsel d a b m r => wordV 0x32 d a b m r 0
  | .mlog d a b t => wordV 0x33 (d.setWidth 6) (a.setWidth 6) (b.setWidth 6) 0 (t.getLsbD 3) (t.setWidth 3)
  | .mpopc d a m => wordV 0x34 d (a.setWidth 6) 0 m false 0
  | .vuni p a m r => wordV 0x35 (p.setWidth 6) a 0 m r 0
  | .vuniM p a m => wordV 0x35 (p.setWidth 6) (a.setWidth 6) 0 m false 1
  | .vcvt d a src dst m r c => wordV 0x38 d a (src ++ dst) m r c
  | .vmxq d a u o r f => wordV 0x39 d a ((BitVec.ofBool u ++ o).setWidth 6) 0 r (f.setWidth 3)
  | .vmxd d a m r f => wordV 0x3A d a 0 m r (f.setWidth 3)
  | .vpack d a p m r b => wordV 0x3B d a (p.setWidth 6) m r b
  | .vunpack d a sx p m r b => wordV 0x3C d a ((BitVec.ofBool sx ++ p).setWidth 6) m r b
  | .vred d a m r o => wordV 0x40 d a 0 m r o
  | .vfred d a m r o => wordV 0x41 d a 0 m r o
  | .vperm d a b m r => wordV 0x42 d a b m r 0
  | .vrot d a b m r s => wordV 0x43 d a b m r s
  | .vbcast d a b m r s => wordV 0x44 d a b m r s
  | .vsigf d a m r => wordV 0x48 d a 0 m r 0
  | .vsigr d a m r => wordV 0x49 d a 0 m r 0
  | .vnfs a m r s => wordV 0x4A 0 a 0 m r s
  | .vnfsClr => wordV 0x4A 0 0 0 0 false 4
  | .vseed a r s => wordV 0x4B 0 a 0 0 r s
  | .v2s d a l r s => wordV 0x4C (d.setWidth 6) a l 0 r s
  | .vli d i m s => wordVX 0x4D d i.low m s
  | .nopS3 => 0
  | .tset g d a i f => wordT 0x01 d a 0 i g (f.setWidth 4)
  | .t2s g a s h => wordT 0x02 0 a 0 (s ++ BitVec.ofBool h) g 0
  | .k2s g k s h => wordT 0x03 0 0 (k.setWidth 4) (s ++ BitVec.ofBool h) g 0
  | .tzero g d => wordT 0x04 d 0 0 0 g 0
  | .tcvt g d a f => wordT 0x05 d a 0 0 g (f.setWidth 4)
  | .tcheck g d => wordT 0x06 d 0 0 0 g 0
  | .tadd g d a => wordT 0x07 d a 0 0 g 0
  | .mstep g d a b i => wordT 0x08 d a b (i.setWidth 6) g 0
  | .mstepRev g d a b i => wordT 0x09 d a b (i.setWidth 6) g 0
  | .bseal g i v => wordT 0x0A 0 0 0 (i.setWidth 6) g (v.setWidth 4)
  | .sstep g d a k i => wordT 0x10 d a (k.setWidth 4) i g 0
  | .sdstep g d a k i => wordT 0x11 d a (k.setWidth 4) i g 0
  | .sgrad g a k i => wordT 0x12 0 a (k.setWidth 4) i g 0
  | .sgzero g i => wordT 0x13 0 0 0 i g 0
  | .srefine g k i => wordT 0x14 0 0 (k.setWidth 4) i g 0
  | .sflags g d k f => wordT 0x15 d 0 (k.setWidth 4) 0 g (f.setWidth 4)
  | .pauseEnd _ _ => 0
  | .resultLand _ _ _ => 0
  | .doneRetire _ _ => 0
  | .strandSuspension _ _ => 0
  | .strandResume _ _ => 0
  | .loadValueReturn _ _ => 0
  | .storeReachHome _ _ => 0
  | .atomicAtHome _ _ => 0
  | .pageWalk _ _ => 0
  | .retryRingAdmit _ => 0
  | .retryMirrorPublish _ => 0
  | .rrmirrorWrite _ _ => 0
  | .hostRport _ => 0
  | .hostRack _ => 0
  | .rrkillWrite _ _ => 0
  | .tlbinvAll => 0
  | .tlbinvPage64k _ => 0
  | .tlbinvPage32m _ => 0
  | .tlbinvComplete => 0
  | .engineCompletion _ _ => 0
  | .engineFault _ _ _ => 0
  | .collInstanceMeet _ _ => 0
  | .xposeWriteback _ => 0
  | .arrayStepStart _ => 0
  | .arrayResultLand _ => 0
  | .tileOpComplete _ => 0
  | .pipelineError _ _ _ => 0
  | .dupVote _ => 0
  | .containmentRelease _ => 0
  | .containmentLineFreed _ => 0
  | .topologyChange _ _ => 0
  | .uncorrectableError _ _ _ _ _ => 0
  | .correctableError _ _ _ _ _ => 0
  | .ebstatClear _ _ _ => 0
  | .patrolScrub _ _ _ => 0
  | .sramScrub _ _ _ _ => 0
  | .errinjWrite _ _ => 0
  | .lqdoorWrite _ => 0
  | .launchWord => 0
  | .predecessorDecrement _ _ _ => 0
  | .nodeReadiness _ => 0
  | .copyNodeInstance _ _ => 0
  | .nodeCompletion _ => 0
  | .agePeriodTick _ => 0
  | .gangDispatch _ => 0
  | .gangStart _ _ => 0
  | .yieldDeadlineExpiry _ _ => 0
  | .hostBar2Read _ _ => 0
  | .hostBar2Write _ _ => 0
  | .hostApertureReadTimeout _ _ => 0
  | .evlostRead => 0
  | .yewidxWrite _ _ => 0
  | .flitTransmit _ _ _ _ => 0
  | .flitReceive _ _ _ => 0
  | .replayTimeout _ => 0
  | .laneFailure _ _ => 0
  | .linkTrainingComplete _ => 0
  | .lctlRetrain _ _ => 0
  | .lcntRead _ => 0
  | .feccntRead _ => 0
  | .inboundWrite _ _ _ => 0
  | .clkpatUpdate _ => 0
  | .energyRefill => 0
  | .pstepWrite _ => 0
  | .powerEstimate _ _ => 0
  | .regulatorPhaseLoss _ _ _ _ => 0
  | .energyReadLow _ => 0
  | .powerFail => 0
  | .moduleReset => 0
  | .imageCheck _ _ => 0
  | .hbmTraining _ _ => 0
  | .selfTest _ => 0
  | .featAccept1Write _ => 0
  | .dbgctlHalt _ _ => 0
  | .dbgctlStep _ => 0
  | .stepDrainDone _ => 0
  | .registerWrite _ _ => 0
  | .energyCount _ _ => 0
  | .grantUpdate _ _ => 0

/-- The slot of an operation (R113 to R116); 4 for an event, which no slot holds. -/
def Instr.slotNo : Instr → Nat
  | .nopS0 => 0
  | .br _ _ => 0
  | .bri _ _ => 0
  | .call _ _ => 0
  | .ret _ _ => 0
  | .loopI _ _ _ => 0
  | .loopR _ _ _ => 0
  | .loopSr _ _ _ => 0
  | .loopRot _ _ _ _ => 0
  | .lexit _ _ => 0
  | .lstat _ _ _ _ => 0
  | .lset _ _ _ _ => 0
  | .setfmt _ => 0
  | .safept _ => 0
  | .yield _ => 0
  | .done _ => 0
  | .barg _ _ => 0
  | .pause _ _ => 0
  | .waitev _ _ _ => 0
  | .trap _ => 0
  | .rft _ => 0
  | .mfsr _ _ => 0
  | .mtsr _ _ => 0
  | .ecap _ => 0
  | .add _ _ _ _ _ => 0
  | .sub _ _ _ _ _ => 0
  | .mul _ _ _ _ _ => 0
  | .mulhi _ _ _ _ => 0
  | .mulhn _ _ _ _ => 0
  | .and _ _ _ _ => 0
  | .or _ _ _ _ => 0
  | .xor _ _ _ _ => 0
  | .shl _ _ _ _ _ => 0
  | .shr _ _ _ _ _ => 0
  | .sar _ _ _ _ _ => 0
  | .min _ _ _ _ => 0
  | .max _ _ _ _ => 0
  | .minn _ _ _ _ => 0
  | .maxn _ _ _ _ => 0
  | .sel _ _ _ _ => 0
  | .clz _ _ _ _ => 0
  | .popc _ _ _ _ => 0
  | .bfx _ _ _ _ _ => 0
  | .bfi _ _ _ _ => 0
  | .cmp _ _ _ _ _ _ => 0
  | .plog _ _ _ _ => 0
  | .addi _ _ _ => 0
  | .andi _ _ _ => 0
  | .ori _ _ _ => 0
  | .xori _ _ _ => 0
  | .shli _ _ _ => 0
  | .shri _ _ _ => 0
  | .sari _ _ _ => 0
  | .cmpi _ _ _ _ => 0
  | .li _ _ => 0
  | .lih _ _ => 0
  | .s2a _ _ _ => 0
  | .s2v _ _ _ => 0
  | .s2t _ _ _ _ => 0
  | .s2k _ _ _ _ => 0
  | .nopS1 => 1
  | .aadd _ _ _ _ => 1
  | .aaddi _ _ _ _ => 1
  | .asub _ _ _ _ => 1
  | .ashli _ _ _ _ => 1
  | .alea _ _ _ _ _ => 1
  | .aand _ _ _ _ => 1
  | .ali _ _ => 1
  | .acmp _ _ _ _ _ _ => 1
  | .a2s _ _ _ => 1
  | .ldBI _ _ _ _ _ => 1
  | .ldBN _ _ _ _ _ => 1
  | .ldHI _ _ _ _ _ => 1
  | .ldHN _ _ _ _ _ => 1
  | .ldWI _ _ _ _ _ => 1
  | .ldWN _ _ _ _ _ => 1
  | .ldD _ _ _ _ _ => 1
  | .ldxBI _ _ _ _ _ => 1
  | .ldxBN _ _ _ _ _ => 1
  | .ldxHI _ _ _ _ _ => 1
  | .ldxHN _ _ _ _ _ => 1
  | .ldxWI _ _ _ _ _ => 1
  | .ldxWN _ _ _ _ _ => 1
  | .ldxD _ _ _ _ _ => 1
  | .stB _ _ _ _ _ => 1
  | .stH _ _ _ _ _ => 1
  | .stW _ _ _ _ _ => 1
  | .stD _ _ _ _ _ => 1
  | .stxB _ _ _ _ _ => 1
  | .stxH _ _ _ _ _ => 1
  | .stxW _ _ _ _ _ => 1
  | .stxD _ _ _ _ _ => 1
  | .ldacqW _ _ _ _ _ _ => 1
  | .ldacqD _ _ _ _ _ _ => 1
  | .strelW _ _ _ _ _ _ => 1
  | .strelD _ _ _ _ _ _ => 1
  | .sldW _ _ _ _ _ => 1
  | .sldD _ _ _ _ _ => 1
  | .sstW _ _ _ _ _ => 1
  | .sstD _ _ _ _ _ => 1
  | .amo _ _ _ _ _ _ _ => 1
  | .cas _ _ _ _ _ _ => 1
  | .afadd _ _ _ _ _ => 1
  | .fence _ _ => 1
  | .fencesc _ => 1
  | .xfence _ => 1
  | .rslot _ _ _ _ => 1
  | .copy _ _ _ _ _ _ _ _ _ _ => 1
  | .copym _ _ _ _ _ _ _ _ _ => 1
  | .coll _ _ _ _ _ _ _ _ _ _ => 1
  | .rcopy _ _ _ _ _ _ _ _ _ => 1
  | .xpose _ _ _ _ _ => 1
  | .tokst _ _ _ _ => 1
  | .rport _ _ _ _ => 1
  | .rack _ _ _ => 1
  | .nopS2 => 2
  | .vld _ _ _ _ _ => 2
  | .vlds _ _ _ _ _ => 2
  | .vgath _ _ _ _ _ => 2
  | .vst _ _ _ _ _ => 2
  | .vsts _ _ _ _ _ => 2
  | .vscat _ _ _ _ _ => 2
  | .vldacc _ _ _ _ _ => 2
  | .vstacc _ _ _ _ _ => 2
  | .vadd _ _ _ _ _ _ => 2
  | .vsub _ _ _ _ _ _ => 2
  | .vmul _ _ _ _ _ _ => 2
  | .vmulhi _ _ _ _ _ _ => 2
  | .vmin _ _ _ _ _ _ => 2
  | .vmax _ _ _ _ _ _ => 2
  | .vminn _ _ _ _ _ _ => 2
  | .vmaxn _ _ _ _ _ _ => 2
  | .vand _ _ _ _ _ _ => 2
  | .vor _ _ _ _ _ _ => 2
  | .vxor _ _ _ _ _ _ => 2
  | .vshl _ _ _ _ _ _ => 2
  | .vshr _ _ _ _ _ _ => 2
  | .vsar _ _ _ _ _ _ => 2
  | .vabs _ _ _ _ _ => 2
  | .vfadd _ _ _ _ _ => 2
  | .vfsub _ _ _ _ _ => 2
  | .vfmul _ _ _ _ _ => 2
  | .vfma _ _ _ _ _ _ => 2
  | .vfmin _ _ _ _ _ => 2
  | .vfmax _ _ _ _ _ => 2
  | .vfdiv _ _ _ _ _ => 2
  | .vfsqrt _ _ _ _ => 2
  | .vfrsqrt _ _ _ _ => 2
  | .vfexp2 _ _ _ _ => 2
  | .vflog2 _ _ _ _ => 2
  | .vcmp _ _ _ _ _ _ => 2
  | .vfcmp _ _ _ _ _ _ => 2
  | .vsel _ _ _ _ _ => 2
  | .mlog _ _ _ _ => 2
  | .mpopc _ _ _ => 2
  | .vuni _ _ _ _ => 2
  | .vuniM _ _ _ => 2
  | .vcvt _ _ _ _ _ _ _ => 2
  | .vmxq _ _ _ _ _ _ => 2
  | .vmxd _ _ _ _ _ => 2
  | .vpack _ _ _ _ _ _ => 2
  | .vunpack _ _ _ _ _ _ _ => 2
  | .vred _ _ _ _ _ => 2
  | .vfred _ _ _ _ _ => 2
  | .vperm _ _ _ _ _ => 2
  | .vrot _ _ _ _ _ _ => 2
  | .vbcast _ _ _ _ _ _ => 2
  | .vsigf _ _ _ _ => 2
  | .vsigr _ _ _ _ => 2
  | .vnfs _ _ _ _ => 2
  | .vnfsClr => 2
  | .vseed _ _ _ => 2
  | .v2s _ _ _ _ _ => 2
  | .vli _ _ _ _ => 2
  | .nopS3 => 3
  | .tset _ _ _ _ _ => 3
  | .t2s _ _ _ _ => 3
  | .k2s _ _ _ _ => 3
  | .tzero _ _ => 3
  | .tcvt _ _ _ _ => 3
  | .tcheck _ _ => 3
  | .tadd _ _ _ => 3
  | .mstep _ _ _ _ _ => 3
  | .mstepRev _ _ _ _ _ => 3
  | .bseal _ _ _ => 3
  | .sstep _ _ _ _ _ => 3
  | .sdstep _ _ _ _ _ => 3
  | .sgrad _ _ _ _ => 3
  | .sgzero _ _ => 3
  | .srefine _ _ _ => 3
  | .sflags _ _ _ _ => 3
  | .pauseEnd _ _ => 4
  | .resultLand _ _ _ => 4
  | .doneRetire _ _ => 4
  | .strandSuspension _ _ => 4
  | .strandResume _ _ => 4
  | .loadValueReturn _ _ => 4
  | .storeReachHome _ _ => 4
  | .atomicAtHome _ _ => 4
  | .pageWalk _ _ => 4
  | .retryRingAdmit _ => 4
  | .retryMirrorPublish _ => 4
  | .rrmirrorWrite _ _ => 4
  | .hostRport _ => 4
  | .hostRack _ => 4
  | .rrkillWrite _ _ => 4
  | .tlbinvAll => 4
  | .tlbinvPage64k _ => 4
  | .tlbinvPage32m _ => 4
  | .tlbinvComplete => 4
  | .engineCompletion _ _ => 4
  | .engineFault _ _ _ => 4
  | .collInstanceMeet _ _ => 4
  | .xposeWriteback _ => 4
  | .arrayStepStart _ => 4
  | .arrayResultLand _ => 4
  | .tileOpComplete _ => 4
  | .pipelineError _ _ _ => 4
  | .dupVote _ => 4
  | .containmentRelease _ => 4
  | .containmentLineFreed _ => 4
  | .topologyChange _ _ => 4
  | .uncorrectableError _ _ _ _ _ => 4
  | .correctableError _ _ _ _ _ => 4
  | .ebstatClear _ _ _ => 4
  | .patrolScrub _ _ _ => 4
  | .sramScrub _ _ _ _ => 4
  | .errinjWrite _ _ => 4
  | .lqdoorWrite _ => 4
  | .launchWord => 4
  | .predecessorDecrement _ _ _ => 4
  | .nodeReadiness _ => 4
  | .copyNodeInstance _ _ => 4
  | .nodeCompletion _ => 4
  | .agePeriodTick _ => 4
  | .gangDispatch _ => 4
  | .gangStart _ _ => 4
  | .yieldDeadlineExpiry _ _ => 4
  | .hostBar2Read _ _ => 4
  | .hostBar2Write _ _ => 4
  | .hostApertureReadTimeout _ _ => 4
  | .evlostRead => 4
  | .yewidxWrite _ _ => 4
  | .flitTransmit _ _ _ _ => 4
  | .flitReceive _ _ _ => 4
  | .replayTimeout _ => 4
  | .laneFailure _ _ => 4
  | .linkTrainingComplete _ => 4
  | .lctlRetrain _ _ => 4
  | .lcntRead _ => 4
  | .feccntRead _ => 4
  | .inboundWrite _ _ _ => 4
  | .clkpatUpdate _ => 4
  | .energyRefill => 4
  | .pstepWrite _ => 4
  | .powerEstimate _ _ => 4
  | .regulatorPhaseLoss _ _ _ _ => 4
  | .energyReadLow _ => 4
  | .powerFail => 4
  | .moduleReset => 4
  | .imageCheck _ _ => 4
  | .hbmTraining _ _ => 4
  | .selfTest _ => 4
  | .featAccept1Write _ => 4
  | .dbgctlHalt _ _ => 4
  | .dbgctlStep _ => 4
  | .stepDrainDone _ => 4
  | .registerWrite _ _ => 4
  | .energyCount _ _ => 4
  | .grantUpdate _ _ => 4

/-- What an operation does with lend bits: `field` tells those its lendable field was read with,
`index` is a slot-3 index that LEND3[1:0] extends, and `none` leaves them reserved (R95). -/
inductive LendUse where
  | none
  | field (x : Option (BitVec 7))
  | index (i : WIndex)
deriving DecidableEq, Repr

def Instr.lendUse : Instr → LendUse
  | .nopS0 => .none
  | .br _ o => .field o.lend
  | .bri _ _ => .none
  | .call _ o => .field o.lend
  | .ret _ _ => .none
  | .loopI _ _ _ => .none
  | .loopR _ _ _ => .none
  | .loopSr _ _ _ => .none
  | .loopRot _ _ _ _ => .none
  | .lexit _ _ => .none
  | .lstat _ _ _ _ => .none
  | .lset _ _ _ _ => .none
  | .setfmt _ => .none
  | .safept _ => .none
  | .yield _ => .none
  | .done _ => .none
  | .barg _ _ => .none
  | .pause _ _ => .none
  | .waitev _ _ _ => .none
  | .trap _ => .none
  | .rft _ => .none
  | .mfsr _ _ => .none
  | .mtsr _ _ => .none
  | .ecap _ => .none
  | .add _ _ _ _ _ => .none
  | .sub _ _ _ _ _ => .none
  | .mul _ _ _ _ _ => .none
  | .mulhi _ _ _ _ => .none
  | .mulhn _ _ _ _ => .none
  | .and _ _ _ _ => .none
  | .or _ _ _ _ => .none
  | .xor _ _ _ _ => .none
  | .shl _ _ _ _ _ => .none
  | .shr _ _ _ _ _ => .none
  | .sar _ _ _ _ _ => .none
  | .min _ _ _ _ => .none
  | .max _ _ _ _ => .none
  | .minn _ _ _ _ => .none
  | .maxn _ _ _ _ => .none
  | .sel _ _ _ _ => .none
  | .clz _ _ _ _ => .none
  | .popc _ _ _ _ => .none
  | .bfx _ _ _ _ _ => .none
  | .bfi _ _ _ _ => .none
  | .cmp _ _ _ _ _ _ => .none
  | .plog _ _ _ _ => .none
  | .addi _ _ _ => .none
  | .andi _ _ _ => .none
  | .ori _ _ _ => .none
  | .xori _ _ _ => .none
  | .shli _ _ _ => .none
  | .shri _ _ _ => .none
  | .sari _ _ _ => .none
  | .cmpi _ _ _ _ => .none
  | .li _ i => .field i.lend
  | .lih _ i => .field i.lend
  | .s2a _ _ _ => .none
  | .s2v _ _ _ => .none
  | .s2t _ _ _ _ => .none
  | .s2k _ _ _ _ => .none
  | .nopS1 => .none
  | .aadd _ _ _ _ => .none
  | .aaddi _ _ _ i => .field i.lend
  | .asub _ _ _ _ => .none
  | .ashli _ _ _ _ => .none
  | .alea _ _ _ _ _ => .none
  | .aand _ _ _ _ => .none
  | .ali _ i => .field i.lend
  | .acmp _ _ _ _ _ _ => .none
  | .a2s _ _ _ => .none
  | .ldBI _ _ _ _ o => .field o.lend
  | .ldBN _ _ _ _ o => .field o.lend
  | .ldHI _ _ _ _ o => .field o.lend
  | .ldHN _ _ _ _ o => .field o.lend
  | .ldWI _ _ _ _ o => .field o.lend
  | .ldWN _ _ _ _ o => .field o.lend
  | .ldD _ _ _ _ o => .field o.lend
  | .ldxBI _ _ _ _ _ => .none
  | .ldxBN _ _ _ _ _ => .none
  | .ldxHI _ _ _ _ _ => .none
  | .ldxHN _ _ _ _ _ => .none
  | .ldxWI _ _ _ _ _ => .none
  | .ldxWN _ _ _ _ _ => .none
  | .ldxD _ _ _ _ _ => .none
  | .stB _ _ _ _ o => .field o.lend
  | .stH _ _ _ _ o => .field o.lend
  | .stW _ _ _ _ o => .field o.lend
  | .stD _ _ _ _ o => .field o.lend
  | .stxB _ _ _ _ _ => .none
  | .stxH _ _ _ _ _ => .none
  | .stxW _ _ _ _ _ => .none
  | .stxD _ _ _ _ _ => .none
  | .ldacqW _ _ _ _ _ o => .field o.lend
  | .ldacqD _ _ _ _ _ o => .field o.lend
  | .strelW _ _ _ _ _ o => .field o.lend
  | .strelD _ _ _ _ _ o => .field o.lend
  | .sldW _ _ _ _ o => .field o.lend
  | .sldD _ _ _ _ o => .field o.lend
  | .sstW _ _ _ _ o => .field o.lend
  | .sstD _ _ _ _ o => .field o.lend
  | .amo _ _ _ _ _ _ _ => .none
  | .cas _ _ _ _ _ _ => .none
  | .afadd _ _ _ _ _ => .none
  | .fence _ _ => .none
  | .fencesc _ => .none
  | .xfence _ => .none
  | .rslot _ _ _ i => .field i.lend
  | .copy _ _ _ _ _ _ _ _ _ _ => .none
  | .copym _ _ _ _ _ _ _ _ _ => .none
  | .coll _ _ _ _ _ _ _ _ _ _ => .none
  | .rcopy _ _ _ _ _ _ _ _ _ => .none
  | .xpose _ _ _ _ _ => .none
  | .tokst _ _ _ _ => .none
  | .rport _ _ _ _ => .none
  | .rack _ _ _ => .none
  | .nopS2 => .none
  | .vld _ _ o _ _ => .field o.lend
  | .vlds _ _ _ _ _ => .none
  | .vgath _ _ _ _ _ => .none
  | .vst _ _ o _ _ => .field o.lend
  | .vsts _ _ _ _ _ => .none
  | .vscat _ _ _ _ _ => .none
  | .vldacc _ _ o _ _ => .field o.lend
  | .vstacc _ _ o _ _ => .field o.lend
  | .vadd _ _ _ _ _ _ => .none
  | .vsub _ _ _ _ _ _ => .none
  | .vmul _ _ _ _ _ _ => .none
  | .vmulhi _ _ _ _ _ _ => .none
  | .vmin _ _ _ _ _ _ => .none
  | .vmax _ _ _ _ _ _ => .none
  | .vminn _ _ _ _ _ _ => .none
  | .vmaxn _ _ _ _ _ _ => .none
  | .vand _ _ _ _ _ _ => .none
  | .vor _ _ _ _ _ _ => .none
  | .vxor _ _ _ _ _ _ => .none
  | .vshl _ _ _ _ _ _ => .none
  | .vshr _ _ _ _ _ _ => .none
  | .vsar _ _ _ _ _ _ => .none
  | .vabs _ _ _ _ _ => .none
  | .vfadd _ _ _ _ _ => .none
  | .vfsub _ _ _ _ _ => .none
  | .vfmul _ _ _ _ _ => .none
  | .vfma _ _ _ _ _ _ => .none
  | .vfmin _ _ _ _ _ => .none
  | .vfmax _ _ _ _ _ => .none
  | .vfdiv _ _ _ _ _ => .none
  | .vfsqrt _ _ _ _ => .none
  | .vfrsqrt _ _ _ _ => .none
  | .vfexp2 _ _ _ _ => .none
  | .vflog2 _ _ _ _ => .none
  | .vcmp _ _ _ _ _ _ => .none
  | .vfcmp _ _ _ _ _ _ => .none
  | .vsel _ _ _ _ _ => .none
  | .mlog _ _ _ _ => .none
  | .mpopc _ _ _ => .none
  | .vuni _ _ _ _ => .none
  | .vuniM _ _ _ => .none
  | .vcvt _ _ _ _ _ _ _ => .none
  | .vmxq _ _ _ _ _ _ => .none
  | .vmxd _ _ _ _ _ => .none
  | .vpack _ _ _ _ _ _ => .none
  | .vunpack _ _ _ _ _ _ _ => .none
  | .vred _ _ _ _ _ => .none
  | .vfred _ _ _ _ _ => .none
  | .vperm _ _ _ _ _ => .none
  | .vrot _ _ _ _ _ _ => .none
  | .vbcast _ _ _ _ _ _ => .none
  | .vsigf _ _ _ _ => .none
  | .vsigr _ _ _ _ => .none
  | .vnfs _ _ _ _ => .none
  | .vnfsClr => .none
  | .vseed _ _ _ => .none
  | .v2s _ _ _ _ _ => .none
  | .vli _ i _ _ => .field i.lend
  | .nopS3 => .none
  | .tset _ _ _ _ _ => .none
  | .t2s _ _ _ _ => .none
  | .k2s _ _ _ _ => .none
  | .tzero _ _ => .none
  | .tcvt _ _ _ _ => .none
  | .tcheck _ _ => .none
  | .tadd _ _ _ => .none
  | .mstep _ _ _ _ i => .index i
  | .mstepRev _ _ _ _ i => .index i
  | .bseal _ i v => if v == 2 then .none else .index i
  | .sstep _ _ _ _ _ => .none
  | .sdstep _ _ _ _ _ => .none
  | .sgrad _ _ _ _ => .none
  | .sgzero _ _ => .none
  | .srefine _ _ _ => .none
  | .sflags _ _ _ _ => .none
  | .pauseEnd _ _ => .none
  | .resultLand _ _ _ => .none
  | .doneRetire _ _ => .none
  | .strandSuspension _ _ => .none
  | .strandResume _ _ => .none
  | .loadValueReturn _ _ => .none
  | .storeReachHome _ _ => .none
  | .atomicAtHome _ _ => .none
  | .pageWalk _ _ => .none
  | .retryRingAdmit _ => .none
  | .retryMirrorPublish _ => .none
  | .rrmirrorWrite _ _ => .none
  | .hostRport _ => .none
  | .hostRack _ => .none
  | .rrkillWrite _ _ => .none
  | .tlbinvAll => .none
  | .tlbinvPage64k _ => .none
  | .tlbinvPage32m _ => .none
  | .tlbinvComplete => .none
  | .engineCompletion _ _ => .none
  | .engineFault _ _ _ => .none
  | .collInstanceMeet _ _ => .none
  | .xposeWriteback _ => .none
  | .arrayStepStart _ => .none
  | .arrayResultLand _ => .none
  | .tileOpComplete _ => .none
  | .pipelineError _ _ _ => .none
  | .dupVote _ => .none
  | .containmentRelease _ => .none
  | .containmentLineFreed _ => .none
  | .topologyChange _ _ => .none
  | .uncorrectableError _ _ _ _ _ => .none
  | .correctableError _ _ _ _ _ => .none
  | .ebstatClear _ _ _ => .none
  | .patrolScrub _ _ _ => .none
  | .sramScrub _ _ _ _ => .none
  | .errinjWrite _ _ => .none
  | .lqdoorWrite _ => .none
  | .launchWord => .none
  | .predecessorDecrement _ _ _ => .none
  | .nodeReadiness _ => .none
  | .copyNodeInstance _ _ => .none
  | .nodeCompletion _ => .none
  | .agePeriodTick _ => .none
  | .gangDispatch _ => .none
  | .gangStart _ _ => .none
  | .yieldDeadlineExpiry _ _ => .none
  | .hostBar2Read _ _ => .none
  | .hostBar2Write _ _ => .none
  | .hostApertureReadTimeout _ _ => .none
  | .evlostRead => .none
  | .yewidxWrite _ _ => .none
  | .flitTransmit _ _ _ _ => .none
  | .flitReceive _ _ _ => .none
  | .replayTimeout _ => .none
  | .laneFailure _ _ => .none
  | .linkTrainingComplete _ => .none
  | .lctlRetrain _ _ => .none
  | .lcntRead _ => .none
  | .feccntRead _ => .none
  | .inboundWrite _ _ _ => .none
  | .clkpatUpdate _ => .none
  | .energyRefill => .none
  | .pstepWrite _ => .none
  | .powerEstimate _ _ => .none
  | .regulatorPhaseLoss _ _ _ _ => .none
  | .energyReadLow _ => .none
  | .powerFail => .none
  | .moduleReset => .none
  | .imageCheck _ _ => .none
  | .hbmTraining _ _ => .none
  | .selfTest _ => .none
  | .featAccept1Write _ => .none
  | .dbgctlHalt _ _ => .none
  | .dbgctlStep _ => .none
  | .stepDrainDone _ => .none
  | .registerWrite _ _ => .none
  | .energyCount _ _ => .none
  | .grantUpdate _ _ => .none

/-- The lend bits supplied agree with the operation: those of its field, zero above the index, zero
where they are reserved (R95, R96). -/
def LendUse.agrees (x : Option (BitVec 7)) : LendUse → Bool
  | .none => x == .none || x == some 0
  | .field y => x == y
  | .index i => (x.getD 0).toNat == i.toNat / 64

/-- The lend bits that an operation needs: zero where it needs none. -/
def LendUse.bits : LendUse → BitVec 7
  | .none => 0
  | .field y => y.getD 0
  | .index i => BitVec.ofNat 7 (i.toNat / 64)

/-- Why a word is refused (R117). -/
inductive DecodeError where
  /-- the opcode map assigns no operation to the code -/
  | unassigned
  /-- a reserved bit of the word is nonzero -/
  | reservedBits
  /-- an operand, sub-op or type that the operation does not assign -/
  | operand
  /-- reserved lend bits are nonzero (R95, R148, R149) -/
  | lendBits
deriving DecidableEq, Repr

/-- The operation in slot k, from its word and the lend bits (R117). -/
def decodeSlot (k w : Nat) (x : Option (BitVec 7)) : Except DecodeError Instr :=
  match rawSlot k w x with
  | none => .error .unassigned
  | some i =>
    if i.word != w then .error .reservedBits
    else if !i.lendUse.agrees x then .error .lendBits
    else if !i.wf then .error .operand
    else .ok i

/-- A register whose writes are discarded (R98). -/
def Reg.fixed : Reg → Bool
  | .s r => r == 0
  | .a r => r == 0
  | .m r => r == 0
  | .p r => r == 0
  | .v _ | .t _ | .k _ => false

/-- The registers that an operation names as destinations (R101). An engine's token is one, and
CALL's link; the tile operand of a tile-unit or array operation is none. -/
def Instr.dests : Instr → List Reg
  | .nopS0 => []
  | .br _ _ => []
  | .bri _ _ => []
  | .call _ _ => [.s 31]
  | .ret _ _ => []
  | .loopI _ _ _ => []
  | .loopR _ _ _ => []
  | .loopSr _ _ _ => []
  | .loopRot _ _ _ _ => []
  | .lexit _ _ => []
  | .lstat _ d _ _ => [.s d]
  | .lset _ _ _ _ => []
  | .setfmt _ => []
  | .safept _ => []
  | .yield _ => []
  | .done _ => []
  | .barg _ d => [.s d]
  | .pause _ _ => []
  | .waitev _ d _ => [.s d]
  | .trap _ => []
  | .rft _ => []
  | .mfsr d _ => [.s d]
  | .mtsr _ _ => []
  | .ecap d => [.s d, .s (d + 1)]
  | .add _ d _ _ _ => [.s d]
  | .sub _ d _ _ _ => [.s d]
  | .mul _ d _ _ _ => [.s d]
  | .mulhi _ d _ _ => [.s d]
  | .mulhn _ d _ _ => [.s d]
  | .and _ d _ _ => [.s d]
  | .or _ d _ _ => [.s d]
  | .xor _ d _ _ => [.s d]
  | .shl _ d _ _ _ => [.s d]
  | .shr _ d _ _ _ => [.s d]
  | .sar _ d _ _ _ => [.s d]
  | .min _ d _ _ => [.s d]
  | .max _ d _ _ => [.s d]
  | .minn _ d _ _ => [.s d]
  | .maxn _ d _ _ => [.s d]
  | .sel _ d _ _ => [.s d]
  | .clz _ d _ _ => [.s d]
  | .popc _ d _ _ => [.s d]
  | .bfx _ d _ _ _ => [.s d]
  | .bfi _ d _ _ => [.s d]
  | .cmp _ p _ _ _ _ => [.p p]
  | .plog d _ _ _ => [.p d]
  | .addi d _ _ => [.s d]
  | .andi d _ _ => [.s d]
  | .ori d _ _ => [.s d]
  | .xori d _ _ => [.s d]
  | .shli d _ _ => [.s d]
  | .shri d _ _ => [.s d]
  | .sari d _ _ => [.s d]
  | .cmpi p _ _ _ => [.p p]
  | .li d _ => [.s d]
  | .lih d _ => [.s d]
  | .s2a _ d _ => [.a d]
  | .s2v _ d _ => [.v d]
  | .s2t _ d _ _ => [.t d]
  | .s2k _ d _ _ => [.k d]
  | .nopS1 => []
  | .aadd _ d _ _ => [.a d]
  | .aaddi _ d _ _ => [.a d]
  | .asub _ d _ _ => [.a d]
  | .ashli _ d _ _ => [.a d]
  | .alea _ d _ _ _ => [.a d]
  | .aand _ d _ _ => [.a d]
  | .ali d _ => [.a d]
  | .acmp _ p _ _ _ _ => [.p p]
  | .a2s _ d _ => [.s d]
  | .ldBI _ _ d _ _ => [.a d]
  | .ldBN _ _ d _ _ => [.a d]
  | .ldHI _ _ d _ _ => [.a d]
  | .ldHN _ _ d _ _ => [.a d]
  | .ldWI _ _ d _ _ => [.a d]
  | .ldWN _ _ d _ _ => [.a d]
  | .ldD _ _ d _ _ => [.a d]
  | .ldxBI _ _ d _ _ => [.a d]
  | .ldxBN _ _ d _ _ => [.a d]
  | .ldxHI _ _ d _ _ => [.a d]
  | .ldxHN _ _ d _ _ => [.a d]
  | .ldxWI _ _ d _ _ => [.a d]
  | .ldxWN _ _ d _ _ => [.a d]
  | .ldxD _ _ d _ _ => [.a d]
  | .stB _ _ _ _ _ => []
  | .stH _ _ _ _ _ => []
  | .stW _ _ _ _ _ => []
  | .stD _ _ _ _ _ => []
  | .stxB _ _ _ _ _ => []
  | .stxH _ _ _ _ _ => []
  | .stxW _ _ _ _ _ => []
  | .stxD _ _ _ _ _ => []
  | .ldacqW _ _ d _ _ _ => [.a d]
  | .ldacqD _ _ d _ _ _ => [.a d]
  | .strelW _ _ _ _ _ _ => []
  | .strelD _ _ _ _ _ _ => []
  | .sldW _ _ d _ _ => [.a d]
  | .sldD _ _ d _ _ => [.a d]
  | .sstW _ _ _ _ _ => []
  | .sstD _ _ _ _ _ => []
  | .amo _ _ d _ _ _ _ => [.a d]
  | .cas _ _ d _ _ _ => [.a d]
  | .afadd _ _ d _ _ => [.a d]
  | .fence _ _ => []
  | .fencesc _ => []
  | .xfence _ => []
  | .rslot _ d _ _ => [.a d]
  | .copy _ _ _ _ t _ _ _ _ _ => [.a t]
  | .copym _ _ _ _ t _ _ _ _ => [.a t]
  | .coll _ _ _ _ t _ _ _ _ _ => [.a t]
  | .rcopy _ _ _ _ t _ _ _ _ => [.a t]
  | .xpose _ _ _ _ _ => []
  | .tokst _ d _ _ => [.a d]
  | .rport _ d _ _ => [.a d]
  | .rack _ d _ => [.a d]
  | .nopS2 => []
  | .vld d _ _ _ _ => [.v d]
  | .vlds d _ _ _ _ => [.v d]
  | .vgath d _ _ _ _ => [.v d]
  | .vst _ _ _ _ _ => []
  | .vsts _ _ _ _ _ => []
  | .vscat _ _ _ _ _ => []
  | .vldacc d _ _ _ _ => [.v d]
  | .vstacc _ _ _ _ _ => []
  | .vadd d _ _ _ _ _ => [.v d]
  | .vsub d _ _ _ _ _ => [.v d]
  | .vmul d _ _ _ _ _ => [.v d]
  | .vmulhi d _ _ _ _ _ => [.v d]
  | .vmin d _ _ _ _ _ => [.v d]
  | .vmax d _ _ _ _ _ => [.v d]
  | .vminn d _ _ _ _ _ => [.v d]
  | .vmaxn d _ _ _ _ _ => [.v d]
  | .vand d _ _ _ _ _ => [.v d]
  | .vor d _ _ _ _ _ => [.v d]
  | .vxor d _ _ _ _ _ => [.v d]
  | .vshl d _ _ _ _ _ => [.v d]
  | .vshr d _ _ _ _ _ => [.v d]
  | .vsar d _ _ _ _ _ => [.v d]
  | .vabs d _ _ _ _ => [.v d]
  | .vfadd d _ _ _ _ => [.v d]
  | .vfsub d _ _ _ _ => [.v d]
  | .vfmul d _ _ _ _ => [.v d]
  | .vfma d _ _ _ _ _ => [.v d]
  | .vfmin d _ _ _ _ => [.v d]
  | .vfmax d _ _ _ _ => [.v d]
  | .vfdiv d _ _ _ _ => [.v d]
  | .vfsqrt d _ _ _ => [.v d]
  | .vfrsqrt d _ _ _ => [.v d]
  | .vfexp2 d _ _ _ => [.v d]
  | .vflog2 d _ _ _ => [.v d]
  | .vcmp d _ _ _ _ _ => [.m d]
  | .vfcmp d _ _ _ _ _ => [.m d]
  | .vsel d _ _ _ _ => [.v d]
  | .mlog d _ _ _ => [.m d]
  | .mpopc d _ _ => [.v d]
  | .vuni p _ _ _ => [.p p]
  | .vuniM p _ _ => [.p p]
  | .vcvt d _ _ _ _ _ _ => [.v d]
  | .vmxq d _ _ _ _ _ => [.v d]
  | .vmxd d _ _ _ _ => [.v d]
  | .vpack d _ _ _ _ _ => [.v d]
  | .vunpack d _ _ _ _ _ _ => [.v d]
  | .vred d _ _ _ _ => [.v d]
  | .vfred d _ _ _ _ => [.v d]
  | .vperm d _ _ _ _ => [.v d]
  | .vrot d _ _ _ _ _ => [.v d]
  | .vbcast d _ _ _ _ _ => [.v d]
  | .vsigf d _ _ _ => [.v d]
  | .vsigr d _ _ _ => [.v d]
  | .vnfs _ _ _ _ => []
  | .vnfsClr => []
  | .vseed _ _ _ => []
  | .v2s d _ _ _ _ => [.s d]
  | .vli d _ _ _ => [.v d]
  | .nopS3 => []
  | .tset _ d _ _ _ => [.t d]
  | .t2s _ _ s _ => [.s s]
  | .k2s _ _ s _ => [.s s]
  | .tzero _ _ => []
  | .tcvt _ _ _ _ => []
  | .tcheck _ _ => []
  | .tadd _ _ _ => []
  | .mstep _ _ _ _ _ => []
  | .mstepRev _ _ _ _ _ => []
  | .bseal _ _ _ => []
  | .sstep _ _ _ _ _ => []
  | .sdstep _ _ _ _ _ => []
  | .sgrad _ _ _ _ => []
  | .sgzero _ _ => []
  | .srefine _ _ _ => []
  | .sflags _ _ _ _ => []
  | .pauseEnd _ _ => []
  | .resultLand _ _ _ => []
  | .doneRetire _ _ => []
  | .strandSuspension _ _ => []
  | .strandResume _ _ => []
  | .loadValueReturn _ _ => []
  | .storeReachHome _ _ => []
  | .atomicAtHome _ _ => []
  | .pageWalk _ _ => []
  | .retryRingAdmit _ => []
  | .retryMirrorPublish _ => []
  | .rrmirrorWrite _ _ => []
  | .hostRport _ => []
  | .hostRack _ => []
  | .rrkillWrite _ _ => []
  | .tlbinvAll => []
  | .tlbinvPage64k _ => []
  | .tlbinvPage32m _ => []
  | .tlbinvComplete => []
  | .engineCompletion _ _ => []
  | .engineFault _ _ _ => []
  | .collInstanceMeet _ _ => []
  | .xposeWriteback _ => []
  | .arrayStepStart _ => []
  | .arrayResultLand _ => []
  | .tileOpComplete _ => []
  | .pipelineError _ _ _ => []
  | .dupVote _ => []
  | .containmentRelease _ => []
  | .containmentLineFreed _ => []
  | .topologyChange _ _ => []
  | .uncorrectableError _ _ _ _ _ => []
  | .correctableError _ _ _ _ _ => []
  | .ebstatClear _ _ _ => []
  | .patrolScrub _ _ _ => []
  | .sramScrub _ _ _ _ => []
  | .errinjWrite _ _ => []
  | .lqdoorWrite _ => []
  | .launchWord => []
  | .predecessorDecrement _ _ _ => []
  | .nodeReadiness _ => []
  | .copyNodeInstance _ _ => []
  | .nodeCompletion _ => []
  | .agePeriodTick _ => []
  | .gangDispatch _ => []
  | .gangStart _ _ => []
  | .yieldDeadlineExpiry _ _ => []
  | .hostBar2Read _ _ => []
  | .hostBar2Write _ _ => []
  | .hostApertureReadTimeout _ _ => []
  | .evlostRead => []
  | .yewidxWrite _ _ => []
  | .flitTransmit _ _ _ _ => []
  | .flitReceive _ _ _ => []
  | .replayTimeout _ => []
  | .laneFailure _ _ => []
  | .linkTrainingComplete _ => []
  | .lctlRetrain _ _ => []
  | .lcntRead _ => []
  | .feccntRead _ => []
  | .inboundWrite _ _ _ => []
  | .clkpatUpdate _ => []
  | .energyRefill => []
  | .pstepWrite _ => []
  | .powerEstimate _ _ => []
  | .regulatorPhaseLoss _ _ _ _ => []
  | .energyReadLow _ => []
  | .powerFail => []
  | .moduleReset => []
  | .imageCheck _ _ => []
  | .hbmTraining _ _ => []
  | .selfTest _ => []
  | .featAccept1Write _ => []
  | .dbgctlHalt _ _ => []
  | .dbgctlStep _ => []
  | .stepDrainDone _ => []
  | .registerWrite _ _ => []
  | .energyCount _ _ => []
  | .grantUpdate _ _ => []

/-- Two operations name the same destination register (R101). -/
def sharesDest (i j : Instr) : Bool :=
  i.dests.any fun r => !r.fixed && j.dests.contains r

/-- VSEED and an MTSR write the same one of SRKEY and SRCTR (R191). -/
def seedClash (i j : Instr) : Bool :=
  match i, j with
  | .mtsr _ n, .vseed _ _ s =>
    (n == 2 && (s == 0 || s == 1)) || (n == 3 && (s == 0 || s == 2))
  | _, _ => false

/-- A slot-0 operation of format L or B, which a lend word can extend (R96). -/
def Instr.takesLendWord : Instr → Bool
  | .br _ _ | .call _ _ | .setfmt _ | .safept _ | .yield _ | .li _ _ | .lih _ _ => true
  | _ => false

/-- The four words of a bundle, slot 0 first (R92). -/
structure BundleWords where
  w0 : BitVec 32
  w1 : BitVec 32
  w2 : BitVec 32
  w3 : BitVec 32
deriving DecidableEq, Repr

/-- The words of a bundle's 16 bytes, little-endian (R92). -/
def bundleWords (x : BitVec 128) : BundleWords :=
  ⟨BitVec.ofNat 32 x.toNat, BitVec.ofNat 32 (x.toNat / 2 ^ 32), BitVec.ofNat 32 (x.toNat / 2 ^ 64),
    BitVec.ofNat 32 (x.toNat / 2 ^ 96)⟩

/-- The 128 bits of a bundle's words. -/
def BundleWords.bits (x : BundleWords) : BitVec 128 :=
  BitVec.ofNat 128 (x.w0.toNat + x.w1.toNat * 2 ^ 32 + x.w2.toNat * 2 ^ 64 + x.w3.toNat * 2 ^ 96)

/-- A destination field of slot 0 or 2 that is wider than the register's number names a register outside the file
(R117): `diff` are the bits of the word that its operation does not give back. -/
def outsideFile (k diff : Nat) : Bool :=
  (k == 0 && diff / 2 ^ 18 % 4 != 0) || (k == 2 && diff / 2 ^ 22 % 8 != 0)

/-- What a slot's word names (R117): its operation, a fault of its own, and a fault of its lend bits. Each is
found whether the other holds or not. An operation whose reserved bits are set, or that breaks a limit, still
names its destinations and its lendable field, but for a register outside its file. A word that selects no
operation names nothing (log 11). -/
def slotParts (k w : Nat) (x : Option (BitVec 7)) : Instr × Bool × Bool :=
  match rawSlot k w x with
  | none => (.nopS0, true, false)
  | some i => (if outsideFile k (i.word ^^^ w) then .nopS0 else i, i.word != w || !i.wf, !(i.lendUse.agrees x))

/-- The mask of slots at fault. -/
def faultMask (f0 f1 f2 f3 : Bool) : BitVec 4 :=
  BitVec.ofNat 4 (bit f0 + 2 * bit f1 + 4 * bit f2 + 8 * bit f3)

/-- A bundle, or the slots whose words are at fault (R117): a header fault is charged to slot 0, a
lend-word fault to slot 1, and two slots that name one destination are both charged. -/
def decodeBundle (x : BundleWords) : Except (BitVec 4) Bundle :=
  let hdr := natBit x.w0.toNat 27
  let low := x.w0.toNat % 2 ^ 28
  let isLend := x.w1.toNat / 2 ^ 26 == 0x3F
  let lend (lo : Nat) : Option (BitVec 7) := if hdr then some (fld low lo 7) else none
  let lendOnly := match rawSlot 0 low none with
    | some i => i.takesLendWord
    | none => false
  let p0 : Instr × Bool × Bool := if hdr then (.nopS0, false, false)
    else slotParts 0 low (if isLend && lendOnly then some (fld x.w1.toNat 0 7) else none)
  let p1 : Instr × Bool × Bool := if isLend then
      (.nopS1, x.w1.toNat % 2 ^ 26 / 2 ^ 7 != 0 || hdr || !lendOnly, false)
    else slotParts 1 x.w1.toNat (lend 14)
  let p2 := slotParts 2 x.w2.toNat (lend 7)
  let p3 := slotParts 3 x.w3.toNat (lend 0)
  let lendHdr := hdr && ((isLend && lend 14 != some 0) || p1.2.2 || p2.2.2 || p3.2.2)
  let same (i j : Instr) : Bool := sharesDest i j || seedClash i j
  let f0 := p0.2.1 || lendHdr || same p0.1 p1.1 || same p0.1 p2.1 || same p0.1 p3.1
  let f1 := p1.2.1 || p0.2.2 || same p0.1 p1.1 || same p1.1 p2.1 || same p1.1 p3.1
  let f2 := p2.2.1 || same p0.1 p2.1 || same p1.1 p2.1 || same p2.1 p3.1
  let f3 := p3.2.1 || same p0.1 p3.1 || same p1.1 p3.1 || same p2.1 p3.1
  if f0 || f1 || f2 || f3 then .error (faultMask f0 f1 f2 f3)
  else .ok ⟨fld x.w0.toNat 28 4, if hdr then some (fld low 21 6) else none, isLend,
    p0.1, p1.1, p2.1, p3.1⟩

/-- The words of a bundle (R92 to R96). -/
def Bundle.words (b : Bundle) : BundleWords :=
  let s1 := b.s1.lendUse.bits.toNat
  let s2 := b.s2.lendUse.bits.toNat
  let s3 := b.s3.lendUse.bits.toNat
  let low := match b.te with
    | some te => 2 ^ 27 + te.toNat * 2 ^ 21 + s1 * 2 ^ 14 + s2 * 2 ^ 7 + s3
    | none => b.s0.word
  ⟨BitVec.ofNat 32 (b.e.toNat * 2 ^ 28 + low),
    BitVec.ofNat 32 (if b.lendWord then 0x3F * 2 ^ 26 + b.s0.lendUse.bits.toNat else b.s1.word),
    BitVec.ofNat 32 b.s2.word, BitVec.ofNat 32 b.s3.word⟩

/-- Lend bits that a bundle supplies to a slot, as `decodeBundle` finds them again. -/
def Bundle.lendFor (on : Bool) (i : Instr) : Option (BitVec 7) :=
  if on then some i.lendUse.bits else none

/-- A bundle that the encoding can hold and that R117 does not refuse. -/
def Bundle.wf (b : Bundle) : Bool :=
  let h := b.te.isSome
  let ok (k : Nat) (on : Bool) (i : Instr) : Bool :=
    i.slotNo == k && i.wf && i.lendUse.agrees (Bundle.lendFor on i)
  let apart (i j : Instr) : Bool := !(sharesDest i j || seedClash i j)
  ok 0 b.lendWord b.s0 && ok 1 h b.s1 && ok 2 h b.s2 && ok 3 h b.s3 &&
    (!h || (b.s0 == .nopS0 && !b.lendWord)) &&
    (!b.lendWord || (b.s0.takesLendWord && b.s1 == .nopS1)) &&
    apart b.s0 b.s1 && apart b.s0 b.s2 && apart b.s0 b.s3 && apart b.s1 b.s2 && apart b.s1 b.s3 &&
    apart b.s2 b.s3

/-- The slot that a lone slot word stands for: of the slots that accept it (slot 0 only where bits 31:28 are zero),
the one whose opcode leaves the smallest number in the bits below it, the lowest of equal ones; slot 0 where none
accepts it (DESIGN CHOICE, log 8: a word alone does not tell its slot). -/
def tableSlot (w : Nat) : Nat :=
  let takes (k : Nat) : Bool := match decodeSlot k (if k = 0 then w % 2 ^ 28 else w) none with
    | .ok _ => true
    | .error _ => false
  let below (k : Nat) : Nat := w % 2 ^ (if k = 0 then 20 else if k = 2 then 25 else 26)
  match (if w / 2 ^ 28 == 0 then [0, 1, 2, 3] else [1, 2, 3]).filter takes with
  | [] => 0
  | k :: r => r.foldl (fun b k => if below k < below b then k else b) k

/-- The instruction read from a lone slot word of the opcode table (log 8); an event has no word. -/
def decodeTableWord (nbits w : Nat) : Option Instr :=
  if nbits = 0 || 32 < nbits then none
  else
    let v := w % 2 ^ nbits
    let k := tableSlot v
    match decodeSlot k (if k = 0 then v % 2 ^ 28 else v) none with
    | .ok i => some i
    | .error _ => none

end Sys2Proof
end

