-- ==== Sys2Proof/Machine/Float.lean ====
section
/-!
DEFINITION. Number formats and rounding (R70 to R85, R88 to R90): exact values, one rounding into a
destination format, the operations of FP32, MX blocks, and the stochastic-rounding generator.
-/
namespace Sys2Proof.Machine

/-- The exact value of a float: NaN, an infinity, or (-1)^neg * m * 2^e (R71, R72). -/
inductive FVal where
  | nan
  | inf (neg : Bool)
  | fin (neg : Bool) (m : Nat) (e : Int)
deriving DecidableEq, Repr

/-- The NFSTAT bits that an operation sets (R87). -/
structure Flags where
  nf : Bool
  ovf : Bool
  sat : Bool
deriving DecidableEq, Repr

def Flags.none : Flags := ⟨false, false, false⟩

/-- Several setters at once are ORed (R88). -/
def Flags.or (x y : Flags) : Flags := ⟨x.nf || y.nf, x.ovf || y.ovf, x.sat || y.sat⟩

/-- NFSTAT's layout: NF, OVF, SAT in bits 0, 1, 2 (R87). -/
def Flags.bits (x : Flags) : BitVec 3 := BitVec.ofNat 3 (bit x.nf + 2 * bit x.ovf + 4 * bit x.sat)

/-- A float format: its width, precision p in bits and least normal exponent (R83). -/
structure FloatFmt where
  width : Nat
  p : Nat
  emin : Int
deriving DecidableEq, Repr

def fp32 : FloatFmt := ⟨32, 24, -126⟩
def bf16 : FloatFmt := ⟨16, 8, -126⟩
def e4m3 : FloatFmt := ⟨8, 4, -6⟩

/-- E4M3 has no infinity (R70). -/
def FloatFmt.noInf (f : FloatFmt) : Bool := f.width == 8

/-- The exponent of the last place of the least normal number. -/
def FloatFmt.qmin (f : FloatFmt) : Int := f.emin - ((f.p : Int) - 1)

/-- The code of the largest finite magnitude (R70). -/
def FloatFmt.maxCode (f : FloatFmt) : Nat :=
  if f.noInf then 0x7E else 2 ^ (f.width - 1) - 2 ^ (f.p - 1) - 1

/-- The code of +infinity of a format that has one. -/
def FloatFmt.infCode (f : FloatFmt) : Nat := 2 ^ (f.width - 1) - 2 ^ (f.p - 1)

/-- The canonical NaN (R73). -/
def FloatFmt.nanCode (f : FloatFmt) : Nat :=
  if f.noInf then 0x7F else f.infCode + 2 ^ (f.p - 2)

/-- The sign bit of a code. -/
def FloatFmt.signBit (f : FloatFmt) (neg : Bool) : Nat := if neg then 2 ^ (f.width - 1) else 0

/-- The exact value of a code (R71, R72). -/
def FloatFmt.value (f : FloatFmt) (c : Nat) : FVal :=
  let neg := natBit c (f.width - 1)
  let mag := c % 2 ^ (f.width - 1)
  let ex := mag / 2 ^ (f.p - 1)
  let fr := mag % 2 ^ (f.p - 1)
  if f.noInf && mag == 0x7F then .nan
  else if !f.noInf && mag == f.infCode then .inf neg
  else if !f.noInf && f.infCode < mag then .nan
  else if ex == 0 then .fin neg fr f.qmin
  else .fin neg (2 ^ (f.p - 1) + fr) (f.qmin + (ex : Int) - 1)

/-- m * 2^k rounded down, and whether anything was cut. -/
def scaleFloor (m : Nat) (k : Int) : Nat :=
  if 0 ≤ k then m * 2 ^ k.toNat else m / 2 ^ (-k).toNat

def scaleExact (m : Nat) (k : Int) : Bool :=
  if 0 ≤ k then true else m % 2 ^ (-k).toNat == 0

/-- The magnitude m * 2^k rounded to an integer by a mode of R80 or R83 (b: the random value). -/
def roundMag (mode : Nat) (b : Nat) (neg : Bool) (m : Nat) (k : Int) : Nat :=
  let fl := scaleFloor m k
  if scaleExact m k then fl
  else
    let n := (-k).toNat
    let rem := m % 2 ^ n
    match mode with
    | 0 => if 2 ^ n < 2 * rem || (2 * rem == 2 ^ n && fl % 2 == 1) then fl + 1 else fl
    | 1 => fl
    | 2 => if neg then fl + 1 else fl
    | 3 => if neg then fl else fl + 1
    | _ => (m * 2 ^ 32 / 2 ^ n + b) / 2 ^ 32

/-- The result of an overflow by the table of R81. -/
def FloatFmt.overflow (f : FloatFmt) (mode : Nat) (neg : Bool) : Nat :=
  if f.noInf then 0x7F
  else
    let toMax := mode == 1 || (mode == 2 && !neg) || (mode == 3 && neg)
    f.signBit neg + (if toMax then f.maxCode else f.infCode)

/-- One rounding of an exact finite value into a float format (R79 to R83): the code, and whether it
overflowed. -/
def FloatFmt.roundFin (f : FloatFmt) (mode b : Nat) (neg : Bool) (m : Nat) (e : Int) : Nat × Bool :=
  if m = 0 then (f.signBit neg, false)
  else
    let top := e + (Nat.log2 m : Int)
    let q := max top f.emin - ((f.p : Int) - 1)
    let y := roundMag mode b neg m (e - q)
    let code := (q - f.qmin).toNat * 2 ^ (f.p - 1) + y
    if f.maxCode < code then (f.overflow mode neg, true)
    else (f.signBit neg + code, false)

/-- A code of an infinity or a NaN (R70). -/
def FloatFmt.nonFinite (f : FloatFmt) (c : Nat) : Bool :=
  f.maxCode < c % 2 ^ (f.width - 1)

/-- One rounding of any exact value into a float format, with the flags it sets (R79, R81, R170). -/
def FloatFmt.round (f : FloatFmt) (mode b : Nat) : FVal → Nat × Flags
  | .nan => (f.nanCode, ⟨true, false, false⟩)
  | .inf neg => (if f.noInf then 0x7F else f.signBit neg + f.infCode, ⟨true, false, false⟩)
  | .fin neg m e =>
    let r := f.roundFin mode b neg m e
    (r.1, ⟨f.nonFinite r.1 || r.2, r.2, false⟩)

/-! ## Exact arithmetic -/

/-- The signed significand of a finite value at exponent e. -/
def signedAt (neg : Bool) (m : Nat) (e f : Int) : Int :=
  let v : Nat := m * 2 ^ (e - f).toNat
  if neg then -(v : Int) else v

/-- The exact sum of two finite values; an exact zero is +0, except that (-0) + (-0) is -0 (R80). -/
def addFin (n1 : Bool) (m1 : Nat) (e1 : Int) (n2 : Bool) (m2 : Nat) (e2 : Int) : FVal :=
  if m1 = 0 && m2 = 0 then .fin (n1 && n2) 0 0
  else if m1 = 0 then .fin n2 m2 e2
  else if m2 = 0 then .fin n1 m1 e1
  else
    let e := min e1 e2
    let t := signedAt n1 m1 e1 e + signedAt n2 m2 e2 e
    .fin (t < 0) t.natAbs e

def FVal.neg : FVal → FVal
  | .nan => .nan
  | .inf n => .inf (!n)
  | .fin n m e => .fin (!n) m e

def FVal.add : FVal → FVal → FVal
  | .nan, _ => .nan
  | _, .nan => .nan
  | .inf a, .inf b => if a == b then .inf a else .nan
  | .inf a, .fin _ _ _ => .inf a
  | .fin _ _ _, .inf b => .inf b
  | .fin a m e, .fin b n f => addFin a m e b n f

def FVal.mul : FVal → FVal → FVal
  | .nan, _ => .nan
  | _, .nan => .nan
  | .inf a, .inf b => .inf (a != b)
  | .inf a, .fin b n _ => if n = 0 then .nan else .inf (a != b)
  | .fin a m _, .inf b => if m = 0 then .nan else .inf (a != b)
  | .fin a m e, .fin b n f => .fin (a != b) (m * n) (e + f)

/-- A quotient or root cut to many places, with a last bit that tells whether anything was cut; one
rounding of it equals one rounding of the exact value. -/
def withSticky (m : Nat) (cut : Bool) : Nat := 2 * m + bit cut

/-- The exact quotient, cut as above (R178, R179). -/
def FVal.div : FVal → FVal → FVal
  | .nan, _ => .nan
  | _, .nan => .nan
  | .inf _, .inf _ => .nan
  | .inf a, .fin b _ _ => .inf (a != b)
  | .fin a _ _, .inf b => .fin (a != b) 0 0
  | .fin a m e, .fin b n f =>
    if n = 0 then (if m = 0 then .nan else .inf (a != b))
    else if m = 0 then .fin (a != b) 0 0
    else
      let k := 64 + Nat.log2 n
      let x := m * 2 ^ k
      .fin (a != b) (withSticky (x / n) (x % n != 0)) (e - f - k - 1)

/-- The integer square root, bit by bit: r holds the bits found above bit k. -/
def isqrtFrom (n : Nat) : Nat → Nat → Nat
  | 0, r => r
  | k + 1, r =>
    let t := r + 2 ^ k
    isqrtFrom n k (if t * t ≤ n then t else r)

def isqrt (n : Nat) : Nat := isqrtFrom n (Nat.log2 n / 2 + 1) 0

/-- m * 2^e as a significand times 4 to a power. -/
def evenExp (m : Nat) (e : Int) : Nat × Int :=
  if e % 2 = 0 then (m, e) else (2 * m, e - 1)

def FVal.sqrt : FVal → FVal
  | .nan => .nan
  | .inf neg => if neg then .nan else .inf false
  | .fin neg m e =>
    if m = 0 then .fin neg 0 0
    else if neg then .nan
    else
      let x := evenExp m e
      let n := x.1 * 2 ^ 128
      let r := isqrt n
      .fin false (withSticky r (r * r != n)) (x.2 / 2 - 64 - 1)

def FVal.rsqrt : FVal → FVal
  | .nan => .nan
  | .inf neg => if neg then .nan else .fin false 0 0
  | .fin neg m e =>
    if m = 0 then .inf neg
    else if neg then .nan
    else
      let x := evenExp m e
      let k := 64 + Nat.log2 x.1
      let r := isqrt (2 ^ (2 * k) / x.1)
      .fin false (withSticky r (r * r * x.1 != 2 ^ (2 * k))) (-(x.2 / 2) - k - 1)

/-- The places kept by the long functions (DEDUCED, log 9: enough for one correct rounding). -/
def longPlaces : Nat := 160

/-- 2^f for a fraction f of n bits: the product of 2^(2^-i) over its one bits, each a repeated square
root of 2. c: the current 2^(2^-i), acc: the product so far, both times 2^160. -/
def exp2Frac (f : Nat) : Nat → Nat → Nat → Nat
  | 0, _, acc => acc
  | n + 1, c, acc =>
    let c' := isqrt (c * 2 ^ longPlaces)
    exp2Frac f n c' (if natBit f n then acc * c' / 2 ^ longPlaces else acc)

/-- 2^a (R178, R179). Below -200 every result rounds to +0; a fraction below 2^-60 leaves 1. -/
def FVal.exp2 : FVal → FVal
  | .nan => .nan
  | .inf neg => if neg then .fin false 0 0 else .inf false
  | .fin neg m e =>
    if m = 0 then .fin false 1 0
    else if 0 ≤ e + (Nat.log2 m : Int) - 12 then (if neg then .fin false 1 (-1000) else .fin false 1 1000)
    else if e < -90 then .fin false (withSticky (if neg then 2 ^ 80 - 1 else 2 ^ 80) true) (-81)
    else
      let n := (max (-e) 0).toNat
      let v : Int := signedAt neg m e (-(n : Int))
      let i := v / 2 ^ n
      let f := (v % 2 ^ n).toNat
      if f = 0 then .fin false 1 i
      else .fin false (withSticky (exp2Frac f n (2 * 2 ^ longPlaces) (2 ^ longPlaces)) true)
        (i - longPlaces - 1)

/-- The first n fraction bits of log2 of x / 2^256, for x / 2^256 in [1, 2): squaring doubles the
logarithm. -/
def log2Frac : Nat → Nat → Nat → Nat
  | 0, _, acc => acc
  | n + 1, x, acc =>
    let y := x * x / 2 ^ 256
    if 2 ^ 257 ≤ y then log2Frac n (y / 2) (2 * acc + 1) else log2Frac n y (2 * acc)

/-- log2 of a (R178, R179). -/
def FVal.log2 : FVal → FVal
  | .nan => .nan
  | .inf neg => if neg then .nan else .inf false
  | .fin neg m e =>
    if m = 0 then .inf true
    else if neg then .nan
    else
      let l := Nat.log2 m
      let i : Int := e + l
      if m == 2 ^ l then .fin (i < 0) i.natAbs 0
      else
        let f := log2Frac 100 (m * 2 ^ (256 - l)) 0
        let t : Int := i * 2 ^ 100 + f
        if 0 ≤ t then .fin false (withSticky t.natAbs true) (-101)
        else .fin true (withSticky (t.natAbs - 1) true) (-101)

/-- The order of two values that are no NaN, -0 below +0: a < b (R178). -/
def FVal.ltTotal (a b : FVal) : Bool :=
  let key : FVal → Int × Nat × Int × Bool := fun
    | .nan => (0, 0, 0, false)
    | .inf n => (if n then -2 else 2, 0, 0, n)
    | .fin n m e => (if m = 0 then 0 else if n then -1 else 1, m, e, n)
  let x := key a
  let y := key b
  if x.1 != y.1 then x.1 < y.1
  else if x.1 == 0 then x.2.2.2 && !y.2.2.2
  else if x.1 == 2 || x.1 == -2 then false
  else
    let e := min x.2.2.1 y.2.2.1
    let p := signedAt x.2.2.2 x.2.1 x.2.2.1 e
    let q := signedAt y.2.2.2 y.2.1 y.2.2.1 e
    p < q

def FVal.isNaN : FVal → Bool
  | .nan => true
  | .inf _ | .fin _ _ _ => false

def FVal.isZero : FVal → Bool
  | .fin _ m _ => m == 0
  | .nan | .inf _ => false

/-- a < b and a = b of ordered values; -0 equals +0 (R180). -/
def FVal.lt (a b : FVal) : Bool := !(a.isZero && b.isZero) && a.ltTotal b
def FVal.eq (a b : FVal) : Bool := !(a.lt b) && !(b.lt a)

/-- The lesser and the greater of a and b, NaN if either is (R178). -/
def FVal.least (a b : FVal) : FVal :=
  if a.isNaN || b.isNaN then .nan else if b.ltTotal a then b else a

def FVal.greatest (a b : FVal) : FVal :=
  if a.isNaN || b.isNaN then .nan else if a.ltTotal b then b else a

/-! ## FP32 operations of one rounding (R178) -/

def f32 (x : Lane) : FVal := fp32.value x.toNat

/-- One rounding by RNE into FP32, with its flags. -/
def toF32 (v : FVal) : Lane × Flags :=
  let r := fp32.round 0 0 v
  (BitVec.ofNat 32 r.1, r.2)

/-! ## Conversion into integers (R79, R82) -/

/-- The integer that a value rounds to; none for a NaN or an infinity. -/
def FVal.toInt (mode b : Nat) : FVal → Option Int
  | .fin neg m e =>
    let y := roundMag mode b neg m e
    some (if neg then -(y : Int) else y)
  | .nan | .inf _ => none

/-- Saturation into lo to hi: the value and whether SAT is set. A NaN gives 0. -/
def FVal.toIntSat (lo hi : Int) (mode b : Nat) (v : FVal) : Int × Bool :=
  match v with
  | .nan => (0, true)
  | .inf neg => (if neg then lo else hi, true)
  | .fin _ _ _ =>
    let x := (v.toInt mode b).getD 0
    if x < lo then (lo, true) else if hi < x then (hi, true) else (x, false)

/-- The exact value of an integer. -/
def FVal.ofInt (x : Int) : FVal := .fin (x < 0) x.natAbs 0

/-! ## The stochastic-rounding generator (R84) -/

def rotl64 (x n : Nat) : Nat := (x * 2 ^ n + x / 2 ^ (64 - n)) % 2 ^ 64

def srgRound (key x kadd kmul krot : Nat) : Nat :=
  rotl64 ((x + key + kadd) % 2 ^ 64 * kmul % 2 ^ 64) krot

/-- SRG(key, ctr) of R84. -/
def srg (key ctr : Word) : Word :=
  let k := key.toNat
  let x := srgRound k ctr.toNat 0x7A4E19C35D82B06F 0x9E6C63D0676A9A99 23
  let x := srgRound k x 0x2C9BE5710A6DF348 0xB5A71F3C8E4D2A6B 41
  let x := srgRound k x 0xD13F8A269E074CB5 0xE3D49B617C05F2A5 17
  let x := srgRound k x 0x64E2B0F93718AD5C 0x8F1BC6E24A93D75D 37
  BitVec.ofNat 64 x

/-- The i-th random value that an SR operation draws, from the counter at its issue (R83, R86). -/
def srBits (key ctr : Word) (i : Nat) : Nat := (srg key (ctr + BitVec.ofNat 64 i)).toNat / 2 ^ 32

/-! ## MX blocks (R74 to R76) -/

/-- The fraction width F of MXINT8, MXINT6, MXINT4, by the codes 0, 1, 2 of R185. -/
def mxFrac (f : Nat) : Nat := 6 - 2 * f

/-- An MX block: its scale byte and its element codes as integers. -/
structure MxBlock where
  scale : Nat
  codes : List Int
deriving DecidableEq, Repr

/-- A NaN block of n elements (R73). -/
def MxBlock.nan (n : Nat) : MxBlock := ⟨0xFF, List.replicate n 0⟩

/-- The magnitude of a finite value against another: |a| < |b|. -/
def FVal.magLt : FVal → FVal → Bool
  | .fin _ m e, .fin _ n f =>
    let x := min e f
    m * 2 ^ (e - x).toNat < n * 2 ^ (f - x).toNat
  | _, _ => false

/-- MXQ's scale and codes for finite values not all zero, amax = m * 2^e among them (R76): `rnd`
gives the rounding of element j. -/
def mxScale (F m : Nat) (e : Int) : Int :=
  let k : Int := e + Nat.log2 m
  if 2 ^ (F + 1) - 1 < roundMag 0 0 false m (e + F - k) then k + 1 else k

def mxCodes (F : Nat) (ex : Nat) (mode : Nat) (draw : Nat → Nat) : Nat → List FVal → List Int
  | _, [] => []
  | j, .fin neg m e :: r =>
    let c := roundMag mode (draw j) neg m (e + F - ((ex : Int) - 127))
    (if neg then -(c : Int) else c) :: mxCodes F ex mode draw (j + 1) r
  | j, _ :: r => 0 :: mxCodes F ex mode draw (j + 1) r

/-- MXQ (R76): the block, and NF and OVF. `draw j` is the random value of element j. -/
def mxq (F mode : Nat) (draw : Nat → Nat) (xs : List FVal) : MxBlock × Flags :=
  let n := xs.length
  let finite := xs.all fun x => match x with | .fin _ _ _ => true | .nan | .inf _ => false
  if !finite then (MxBlock.nan n, ⟨true, false, false⟩)
  else
    match xs.foldl (fun b x => if b.magLt x then x else b) (.fin false 0 0) with
    | .fin _ m e =>
      if m = 0 then (⟨0x7F, List.replicate n 0⟩, .none)
      else
        let k := mxScale F m e
        if 254 < k + 127 then (MxBlock.nan n, ⟨true, true, false⟩)
        else
          let ex := (max (k + 127) 0).toNat
          let cs := mxCodes F ex mode draw 0 xs
          if cs.any fun c => 2 ^ (F + 1) - 1 < c.natAbs then (MxBlock.nan n, ⟨true, true, false⟩)
          else (⟨ex, cs⟩, .none)
    | .nan | .inf _ => (MxBlock.nan n, ⟨true, false, false⟩)

/-- The exact value of an MX element: 2^(e - 127) * c * 2^-F, NaN when e = 0xFF (R74). -/
def mxValue (F e : Nat) (c : Int) : FVal :=
  if e = 0xFF then .nan else .fin (c < 0) c.natAbs ((e : Int) - 127 - F)

end Sys2Proof.Machine
end

