-- ==== Sys2Proof/Machine/State.lean ====
section
/-!
DEFINITION. The state of the module: contexts, cores, dies, links, memory, the scheduler's records,
and the reset state. Plain data throughout.
-/
namespace Sys2Proof.Machine

/-- A byte memory in canonical form: addresses rise strictly and no listed byte is 0, which is what
an unlisted address reads as (DESIGN CHOICE, log 3). -/
abbrev Mem := List Host.Cell

/-! ## A context (R31, R98) -/

/-- A loop context (R137): START and END, REMAIN, and the FLAGS word's fields; `frozen` by R146. -/
structure LoopCtx where
  first : BitVec 13
  last : BitVec 13
  remain : BitVec 36
  later : Bool
  n : BitVec 4
  rot : Bool
  active : Bool
  frozen : Bool
deriving DecidableEq, Repr

/-- The register files of a context with their full/empty bits (R98, R99); `aFault` marks an
a register that holds a faulted token (R257). -/
structure Regs where
  s : Vector Word 32
  sFull : BitVec 32
  a : Vector Word 32
  aFull : BitVec 32
  aFault : BitVec 32
  v : Vector VReg 64
  vFull : BitVec 64
  m : Vector Word 8
  p : Vector Bool 8
  t : Vector Desc 16
  tFull : BitVec 16
  k : Vector Desc 8
  kFull : BitVec 8
  q : BitVec 16
deriving DecidableEq, Repr

/-- TINFO (R314). -/
structure TInfo where
  info : BitVec 32
  code : BitVec 10
  slots : BitVec 4
  imp : Bool
  hm : Bool
  cause : BitVec 8
deriving DecidableEq, Repr

/-- The guard-granule fault record of R227, in the layout of R318; none while empty. -/
structure GuardRec where
  space : BitVec 2
  bank : BitVec 5
  offset : BitVec 14
  granule : BitVec 19
  path : BitVec 2
  count : BitVec 8
deriving DecidableEq, Repr

/-- A barrier that the strand has joined and whose destination is still empty (R152): the register,
the number of the arrival, whether the release of R153 has been made, the first access number after
the BARG, the store path's number once the accesses before it have performed (R211), and whether the barrier
is complete, its value on the way to the destination. -/
structure BargWait where
  reg : BitVec 5
  k : Nat
  arrived : Bool
  upTo : Nat
  mark : Option Nat
  complete : Bool
deriving DecidableEq, Repr

/-- A hold that a fence places on later bundles (R215, R217, R222, R250): its class mask and scope,
whether it is FENCESC or XFENCE, the access number it was issued at, and the store path's number once
the accesses before it have performed: every store that one of them has read stands below it. -/
structure Hold where
  mask : BitVec 16
  scope : BitVec 3
  sc : Bool
  xf : Bool
  upTo : Nat
  mark : Option Nat
deriving DecidableEq, Repr

/-- What a running strand is (R22, R40, R41). -/
structure Strand where
  record : Word
  slot : Word
  nodeId : BitVec 32
  inst : BitVec 32
  stage : BitVec 4
  rank : BitVec 4
  width : BitVec 4
  cls : BitVec 2
  run : Nat
  nbundle : Nat
  image : Word
  sptab : Word
  spdlim : Nat
  ydl : Nat
  prio : BitVec 8
  gen : BitVec 32
  /-- the safe point of the last suspension, 0xFFFF before one; AGE at the last placement (R44); parked
  with no reserving entry (R32). `gen` is the topology's generation when the strand was placed, then when its
  SAFEPT or YIELD retired (R39) -/
  spidx : BitVec 16
  age : BitVec 8
  alone : Bool
deriving DecidableEq, Repr

/-- The status of a context (R31, R327, R151). -/
inductive CtxStatus where
  | free
  | running
  | parked
  /-- a suspension that waits for its drain: safe-point id and resume bundle (R327) -/
  | suspending (id : BitVec 15) (resume : Nat)
  /-- a DONE that waits for its strand's work (R151) -/
  | ending
  /-- ended by a fault; its node fails at the next step (R68, R315) -/
  | faulted (cause : BitVec 8)
  /-- its node fails at the next step with a code of R68 -/
  | failing (code : BitVec 8)
  /-- placed by the scheduler, not started yet (R58) -/
  | placed
deriving DecidableEq, Repr

/-- What holds up the issue of a context, and the registers that await an event. -/
structure CtxWait where
  /-- barrier arrivals made, and the barrier that is outstanding (R152) -/
  bargCount : Nat
  barg : Option BargWait
  /-- WAITEV destinations and their event masks (R155) -/
  waitev : List (BitVec 5 × BitVec 3)
  holds : List Hold
  /-- the near latch's register (R105), and the core clock at which the stall of the bundle next to
  issue ends -/
  latch : Option (BitVec 6)
  latchTill : Option Nat
  /-- core clock at which a pause ends (R154); nothing issues before it -/
  pauseTill : Nat
  /-- core clock of the last redirect and the bundles issued since (R104) -/
  redirect : Option (Nat × Nat)
  /-- master clock at which the yield deadline expires (R61) -/
  deadline : Option Nat
  /-- master clock in which PREQ was set: a SAFEPT sees it from the next clock on (R327) -/
  preqAt : Nat
  /-- the count word that a LOOP.SR at issue awaits: `none` before it asks (R139) -/
  countWord : Option (Option (BitVec 32))
  /-- the store path's number when the drain of a suspension or of DONE was over (R211, R216) -/
  drainMark : Option Nat
deriving DecidableEq, Repr

/-- A plan entry as dispatch read it (R126): its kind, first bank, offset, size, guard granules and the
source of its initial bytes. -/
structure PlanRec where
  kind : BitVec 2
  off : Nat
  size : Nat
  before : Nat
  after : Nat
  src : Word
deriving DecidableEq, Repr

/-- A context of a core. -/
structure Ctx where
  regs : Regs
  lc0 : LoopCtx
  lc1 : LoopCtx
  /-- bundle index: the code offset divided by 16 (R92, R132) -/
  pc : BitVec 14
  fmt : BitVec 15
  /-- FMT values set by the bundles of the shadow, newest first, with the bundles still to issue
  before each takes effect (R108) -/
  fmtNext : List (Nat × BitVec 15)
  nfstat : BitVec 3
  /-- the bits of NFSTAT and of EVT that hardware has last set, each with the master clock (R7) -/
  nfNow : Nat × BitVec 3
  evtNow : Nat × BitVec 3
  srkey : Word
  srctr : Word
  evt : BitVec 3
  spcount : BitVec 21
  tinfo : TInfo
  epc : BitVec 14
  tvecUnset : Bool
  tvec : BitVec 14
  guardRec : Option GuardRec
  pipeErr : Option (BitVec 3)
  diverted : BitVec 16
  ringSeq : BitVec 32
  ringDie : Option Nat
  strand : Option Strand
  plan : List PlanRec
  status : CtxStatus
  /-- which half of the instruction store holds its image (R58) -/
  half : Bool
  wait : CtxWait
deriving DecidableEq, Repr

/-! ## A core -/

/-- The kinds of slot-1 global accesses (R238 to R247) and the count read of LOOP.SR (R139). -/
inductive AccKind where
  | load | store | ldacq | strel | amo | cas | afadd | count
deriving DecidableEq, Repr

/-- A cached leaf translation (R202, R204): the virtual page base, its size in bytes, the frame, and
the permissions. -/
structure Transl where
  base : Nat
  size : Nat
  frame : Nat
  place : BitVec 2
  w : Bool
  rd : Bool
deriving DecidableEq, Repr

/-- How far an access has come: it awaits its walk; its leaf or its fault is known, and earlier accesses of
the context have still to leave translation; it is translated and unperformed; it is a
store on its die's store path or on its way to a PLACE 3 target; it has faulted or has been diverted
and waits to enter the retry ring (R239, R251, R252). -/
inductive AccState where
  | walking
  | found (t : Transl)
  | failed (code : BitVec 8)
  | ready
  | onPath
  | faulted (code : BitVec 8)
deriving DecidableEq, Repr

/-- A global access that counts against the 1,536 of R231. `dword` marks LD.d and ST.d (R241); `lo` and
`len` are the virtual page that its translation maps (R205); `mark` is the store path's number once the
accesses before it have performed (R216); `sent` that the read of the host aperture has gone to the host
(R359). -/
structure Access where
  id : Nat
  x : Bool
  kind : AccKind
  size : Nat
  sx : Bool
  dword : Bool
  reg : BitVec 5
  va : Word
  cls : BitVec 4
  scope : BitVec 3
  func : BitVec 4
  d0 : Word
  d1 : Word
  st : AccState
  pa : Nat
  place : BitVec 2
  lo : Nat
  len : Nat
  mark : Option Nat
  sent : Bool
deriving DecidableEq, Repr

/-- The checksum strip of a tile (R299). -/
structure Strip where
  rows : Vector Lane 64
  cols : Vector Lane 64
  valid : Bool
deriving DecidableEq, Repr

/-- An injected error (R351): its target (1: a cell's integer), row, column and bit. -/
structure Inject where
  cell : Bool
  row : Nat
  col : Nat
  pos : Nat
deriving DecidableEq, Repr

/-- A slot-3 operation in flight on the array or the tile unit (R289): its number in issue order, the
operation, its context, the descriptors of t-dest, t-A and the third operand, the knot register, FMT
and the SR stream as it took them at issue, the scratchpad as its bundle saw it (R224), the first
access number of a later bundle (R284), the core clock of its start, and the S2T or S2K results that
wait for it (R289). -/
structure Job where
  seq : Nat
  op : Instr
  x : Bool
  dd : Desc
  da : Desc
  db : Desc
  dk : Desc
  fmt : BitVec 15
  key : Word
  ctr : Word
  spadIn : Mem
  mark : Nat
  startAt : Option Nat
  after : List Landing
  /-- the error that ERRINJ injects into it, and its NOCHG (R351) -/
  inj : Option (Inject × Bool)
deriving DecidableEq, Repr

/-- A transpose in flight (R273, R274): the words to write back, with their offsets. -/
structure XJob where
  x : Bool
  at_ : Nat
  cells : List Host.Cell
  touches : List Nat
deriving DecidableEq, Repr

/-- A counter that a read clears (RC): its value, the master clock of the last event, the value before that
clock, and what arrived in it (R6, R7). -/
structure Tally where
  total : BitVec 32
  at_ : Nat
  before : BitVec 32
  recent : BitVec 32
deriving DecidableEq, Repr

/-- An error bank of a unit: EBSTAT and EBADDR (R345). -/
structure ErrBank where
  unit : BitVec 8
  stat : Word
  addr : Word
deriving DecidableEq, Repr

/-- DBGCTL of a core, and the step it is making (R331, R332): whether its bundle has issued, and the numbers
of the first access, array operation and engine command that the bundle may launch. -/
structure Dbg where
  halt : Bool
  drain : Bool
  halted : Bool
  stepping : Bool
  issued : Bool
  accMark : Nat
  jobMark : Nat
  cmdMark : Nat
deriving DecidableEq, Repr

/-- A core (R20). -/
structure Core where
  c0 : Ctx
  c1 : Ctx
  /-- the context that issues, if one does (R31) -/
  cur : Option Bool
  /-- its running context has ended, and its parked strand has not yet been resumed or spilled (R60) -/
  ended : Bool
  spad : Mem
  guardMap : BitVec 6144
  /-- rows of the accumulator store that are not zero, by row number (R175) -/
  acc : List (Nat × VReg)
  /-- strips of tiles that are not at reset -/
  strips : List (Nat × Strip)
  /-- the instruction store: half h's bundle i stands at byte 131072 h + 16 i (R58) -/
  istore : Mem
  array : List Job
  tile : List Job
  nextJob : Nat
  xq : List XJob
  portFree : Nat
  accs : List Access
  nextAcc : Nat
  tcache : List Transl
  timers : List (Nat × Instr)
  ewt : Vector Word 4
  grant : BitVec 32
  balance : Int
  dbg : Dbg
  errinj : Word
  banks : List ErrBank
  /-- poisoned 32-byte units of the scratchpad and of the accumulator store, by number (R348) -/
  spadPoison : List Nat
  accPoison : List Nat
  /-- core clock of the last slot-2 arithmetic (R377, stage 4) -/
  vlast : Option Nat
  /-- the pipeline error that is due charges no suspicion (R351) -/
  nochg : Bool
deriving DecidableEq, Repr

/-! ## The bundle that executes, and the state -/

/-- What a bundle's commit does besides: nothing, a pause (R154), a safe point with or without
a suspension (R149), the end of the strand (R151), or the trap of TRAP (R156). -/
inductive AfterCommit where
  | none
  | pause (n : Nat)
  | safept (id : BitVec 15) (go : Bool)
  | done
  | trap (code : BitVec 10)
deriving DecidableEq, Repr

/-- The bundle that executes: whether one is open, its core and context, whether it
issues in handler mode, the scratchpad and the
accumulator rows as they stood before it (R10, R224), the bundle that follows where the bundle itself
says (R133) and whether a taken transfer says it (R144), the
writes of SRKEY and SRCTR that wait for its draws (R86), SRCTR before the bundle (R158), NFSTAT's sets and
clears (R88), the loop context that LSET writes, which runs from the next bundle (R147), and what its
commit does besides. -/
structure Issue where
  isOpen : Bool
  c : Nat
  x : Bool
  hm0 : Bool
  spad0 : Mem
  acc0 : List (Nat × VReg)
  next : Option Nat
  redirect : Bool
  taken : Bool
  key : Option Word
  ctr : Option Word
  ctr0 : Word
  nfSet : BitVec 3
  nfClr : BitVec 3
  lset : Option Bool
  /-- the array step or tile operation that slot 3 has launched (R289) -/
  job : Option Nat
  after : AfterCommit
deriving DecidableEq, Repr

/-! ## A die -/

/-- A store on a die's store path (R209): its place in the path's order, the strand that made it, the
access that it completes, its bytes, and the virtual page of the translation that it used (R205). -/
structure PathStore where
  id : Nat
  core : Nat
  x : Bool
  run : Nat
  acc : Nat
  pa : Nat
  data : List Byte
  lo : Nat
  len : Nat
deriving DecidableEq, Repr

/-- A page walk in progress (R204): the 64 KiB page, and the core and the number of the access whose miss
began it. -/
structure Walk where
  page : Nat
  core : Nat
  acc : Nat
deriving DecidableEq, Repr

/-- An entry of a retry ring (R320): its free-running index, its strand, the access, and its service
state. `core` and `x` are where the access was issued. -/
structure RingEntry where
  idx : Nat
  run : Nat
  rank : BitVec 4
  stage : BitVec 4
  core : Nat
  x : Bool
  acc : Access
  code : BitVec 8
  ported : Bool
  prot : Bool
  val : Word
  cont : Word
  nodeId : BitVec 32
  inst : BitVec 32
  seq : BitVec 32
  published : Bool
  /-- a protected entry whose replay has been made while its RACK waits (R324, R337) -/
  done : Bool
  /-- the master clock at which its replay, a host-aperture read that the host does not answer, times out
  (R324, R359) -/
  due : Option Nat
deriving DecidableEq, Repr

/-- A RACK of a strand that waits for a line of the containment buffer (R324, R337): its entry word, its
strand and its status register. -/
structure RackWait where
  w : Word
  core : Nat
  x : Bool
  run : Nat
  rank : BitVec 4
  reg : BitVec 5
deriving DecidableEq, Repr

/-- A write held in containment (R336), in the order of the writes, with the first byte and the length of the
virtual page that its translation maps, none for a write of TCVT, which needs none; `old` once an invalidation has
dropped that translation (R205). -/
structure Held where
  run : Nat
  rank : BitVec 4
  pa : Nat
  data : List Byte
  page : Option (Nat × Nat)
  old : Bool
deriving DecidableEq, Repr

/-- What a queue entry starts: a gang afresh, a spilled strand, or a parked strand pinned to its core
(R52, R60). -/
inductive EntryKind where
  | fresh
  | spilled (run : Nat) (rank : BitVec 4)
  | pinned (run : Nat) (rank : BitVec 4) (c : Nat) (x : Bool)
deriving DecidableEq, Repr

/-- An entry of a die's ready queue (R50 to R55): its number in order of creation, the node record, the
gang, the priority, when it entered the queue, and the dies it may not take (R53). -/
structure QEntry where
  id : Nat
  node : Word
  gang : Nat
  nodeId : BitVec 32
  inst : BitVec 32
  stage : BitVec 4
  prio : BitVec 8
  width : BitVec 4
  mask : BitVec 64
  since : Nat
  twin : Bool
  kind : EntryKind
deriving DecidableEq, Repr

/-- An armed predecessor counter (R48). -/
structure Counter where
  count : BitVec 16
  addr : Word
deriving DecidableEq, Repr

/-- An entry of the Yew record (R384). -/
structure YewEntry where
  time : Word
  code : BitVec 16
  die : BitVec 8
  core : BitVec 8
  a : BitVec 32
  b : Word
  c : Word
deriving DecidableEq, Repr

/-- What an engine's miss has learnt of a 64 KiB page from the walker (R204): its leaf, or the code of its fault. -/
structure EngPage where
  page : Nat
  leaf : Option Transl
  code : BitVec 8
deriving DecidableEq, Repr

/-- An engine command in its queue (R256): who issued it, the operation and its group, or the copy
node's instance (R43); a COLL also holds the instance that it joined (R267). `mark` is the store path's number
that its acquire waits for (R221), `running` whether an engine has taken it. -/
structure Cmd where
  id : Nat
  core : Nat
  x : Bool
  run : Nat
  rank : BitVec 4
  op : Instr
  g0 : Word
  g1 : Word
  g2 : Word
  g3 : Word
  copyNode : Option (Word × BitVec 32)
  mark : Nat
  running : Bool
  coll : Option (BitVec 32 × Nat)
  /-- the node is SIG or DUP (R272) -/
  prot : Bool
  /-- it waits for a line of the containment buffer (R337) -/
  waits : Bool
  /-- the completion value, once the transfer is made -/
  result : Option Word
  /-- an RCOPY's write requests, by window offset and length, once they are on the link (R264) -/
  writes : List (Nat × Nat)
  /-- the fault of an RCOPY's source, told once the blocks before it have been answered (R271) -/
  late : Option Word
  /-- the pages whose misses the walker has answered, and the page that the command waits for (R204) -/
  xl : List EngPage
  need : Option Nat
  /-- the master clock from which throttle stage 2 has left its requests room (R377) -/
  paced : Nat
deriving DecidableEq, Repr

/-- The reservation that a die's head entry holds (R59): the run's first core, and the cores that an
expired deadline has released from it, with the master clock until which they are not asked for again
(R63). -/
structure Resv where
  entry : Nat
  c0 : Nat
  width : Nat
  bans : List (Nat × Nat)
deriving DecidableEq, Repr

/-- A die (R15, R20). -/
structure Die where
  /-- R206 -/
  lreq : Word
  rreq : Word
  /-- the store path, oldest first, and the number of the next store that it accepts (R209) -/
  path : List PathStore
  nextPath : Nat
  /-- walks of the die's walker, 64 at most (R204) -/
  walks : List Walk
  /-- occupied slots of the retry ring in index order, and TAIL (R321) -/
  ring : List RingEntry
  ringTail : Nat
  racks : List RackWait
  /-- RRMIRROR (R362) and HRWORD, HRVAL, HRSTAT (R363) -/
  mirrorBase : BitVec 32
  mirrorEn : Bool
  hrWord : Word
  hrVal : Word
  hrBusy : Bool
  hrStatus : BitVec 2
  /-- the containment buffer (R336) -/
  contain : List Held
  /-- the ready queue (R52) and the armed predecessor counters by index (R48) -/
  queue : List QEntry
  counters : List (Nat × Counter)
  resv : Option Resv
  /-- engine commands in arrival order, and COLL commands counted by tag (R256, R267) -/
  cmds : List Cmd
  collCount : List (Nat × Nat)
  /-- translations of the die's engines (R204) -/
  ecache : List Transl
  /-- SUSP: CLEAN, RET, the clusters' scores and DS (R342) -/
  clean : BitVec 10
  ret : BitVec 3
  cs : Vector (BitVec 8) 3
  ds : BitVec 8
  /-- clusters that are being retired (R343), with the score that did it -/
  retiring : List Nat
  banks : List ErrBank
  patrol : BitVec 16
  yewIdx : BitVec 12
  /-- newest first -/
  yew : List YewEntry
  /-- CLKPAT as programmed and in effect (R373) -/
  pat : BitVec 48
  effPat : BitVec 48
  /-- RAILLIM, whether the die has lost a phase, and whether its draw would exceed the limit, so that stages 5
  and 6 hold (R378) -/
  phases : BitVec 8
  railLim : BitVec 16
  derated : Bool
  overLim : Bool
  /-- ENERGY, the latch of its high half, ESTAT.SAT, and ENERGY and SAT as they stood before the last clock
  in which they changed, with that clock (R379) -/
  energy : Word
  energyLatch : Option (BitVec 32)
  energySat : Bool
  energyWas : Nat × Word × Bool
deriving DecidableEq, Repr

/-! ## The module -/

/-- A node record as it was read (R40). -/
structure NodeRec where
  image : Word
  entry : BitVec 16
  nbundle : BitVec 16
  nodeId : BitVec 32
  sptab : Word
  plan : Word
  args : Word
  ind : Bool
  icnt : BitVec 48
  imax : BitVec 32
  prio : BitVec 8
  copy : Bool
  cls : BitVec 2
  stg : BitVec 4
  width : BitVec 4
  notify : Bool
  dieMask : BitVec 64
  succ : Word
  nsucc : BitVec 16
  nrecomp : BitVec 16
  cdie : BitVec 6
  cidx : BitVec 16
  recomp : Word
  wmark : BitVec 32
  spdlim : BitVec 21
  ydl : BitVec 32
  initPred : BitVec 16
  nplan : BitVec 16
  save : Word
  sstride : BitVec 32
  seed : BitVec 32
  reserved : Bool
deriving DecidableEq, Repr

/-- A live node (R47, R69): the address of its record, the graph's tag, the record as read, its state,
the instance count and the completed instances, and, for a run that a recompute makes, the node that
waits for it and how many runs it waits for itself (R51). `gangsDone` counts the completed stage gangs of each instance. -/
structure Node where
  addr : Word
  tag : BitVec 32
  r : NodeRec
  st : BitVec 3
  n : Nat
  done : Nat
  unyield : BitVec 8
  fail : BitVec 8
  parent : Option Word
  held : Nat
  /-- the die whose scheduler acts for it (R48) -/
  die : Nat
  gangsDone : List (Nat × Nat)
deriving DecidableEq, Repr

/-- What fills a place in a strand's store stream (R339): a tile operation, an engine command, or a store. -/
inductive SigSrc where
  | job
  | cmd
  | store
deriving DecidableEq, Repr

/-- A place in a strand's store stream (R339): which operation fills it (its number, a store's with that of its
core), and its bytes once they are known. -/
structure SigSlot where
  src : SigSrc
  key : Nat
  data : Option (List Byte)
deriving DecidableEq, Repr

/-- One strand of a run (R152, R339): its barrier arrivals, its retirement, its signature with the
records that still await their bytes, and where it is held (core and context), none while it is
spilled or has ended. -/
structure RankRec where
  arrived : Nat
  retired : Bool
  sig : Word
  pend : List SigSlot
  place : Option (Nat × Bool)
  /-- values of its ring entries that were freed while it was suspended (R324, R325) -/
  vals : List (BitVec 5 × Word)
  /-- the topology's generation when it suspended (R39), and the number of its next ring entry (R320) -/
  gen : BitVec 32
  seq : BitVec 32
  /-- an injected error with NOCHG has struck the run here, and the accumulator tiles that carry such an error's
  flipped bit still (R351) -/
  struck : Bool
  quiet : List Nat
deriving DecidableEq, Repr

/-- A run of a gang (R335): its node and gang, its die and first core, whether it is a DUP twin or
a later run, whether it has started, how many barriers it has completed, and its strands by rank. -/
structure Run where
  id : Nat
  gang : Nat
  node : Word
  inst : BitVec 32
  stage : BitVec 4
  die : Nat
  c0 : Nat
  twin : Bool
  started : Bool
  barriers : Nat
  ranks : List RankRec
deriving DecidableEq, Repr

/-- A gang of one instance and stage (R24): the dies that have run it (R53), the runs that take part
in its vote (R340), and whether it is complete. -/
structure Gang where
  id : Nat
  node : Word
  inst : BitVec 32
  stage : BitVec 4
  dies : List Nat
  votes : List Nat
  complete : Bool
deriving DecidableEq, Repr

/-- A member that has issued (R267): its rank, die and command, and the N and the CRC-64 of its table. -/
structure CollMember where
  rank : Nat
  die : Nat
  cmd : Nat
  n : Nat
  crc : Word
deriving DecidableEq, Repr

/-- An instance of a collective (R267): its tag and number, the members that have issued, the dies of this
module and the links to other modules that its table names, and the fault code that a member has brought upon
it, 0 before one. -/
structure CollInst where
  tag : BitVec 32
  k : Nat
  members : List CollMember
  dies : List Nat
  links : List Nat
  fail : Nat
deriving DecidableEq, Repr

/-- A Bramble link (R367 to R372). -/
structure Link where
  en : Bool
  state : BitVec 3
  failed : BitVec 16
  /-- the next sequence number to send, the last accepted, the last one acknowledged to us, and the master
  clock in which that one last advanced -/
  txSeq : BitVec 16
  rxSeq : BitVec 16
  acked : BitVec 16
  ackAt : Nat
  replay : List Flit
  /-- payloads that wait for room among the flits held, oldest first -/
  outq : List (BitVec 4 × BitVec 20 × List Byte)
  /-- the 256-byte flits handed to the wire, oldest first -/
  wire : List (List Byte)
  /-- payloads delivered, oldest first -/
  delivered : List (BitVec 20 × List Byte)
  /-- uncorrectable FEC blocks of the last millisecond: lane, master clock, blocks (R369) -/
  fecLog : List (Nat × Nat × Nat)
  /-- inbound commands of which a write was refused, and the answers returned to the peer, oldest first: a
  command, and whether all its writes were made (R372) -/
  refused : List (BitVec 20)
  answers : List (BitVec 20 × Bool)
  crcErr : Tally
  replays : Tally
  uncorr : Tally
  corr : Tally
  inBase : BitVec 32
  inEn : Bool
  inLim : BitVec 42
deriving DecidableEq, Repr

/-- An invalidation of translations in progress (R205): the accesses (core and number) and the stores of store
paths (die and number) that it waits for. -/
structure Inval where
  accs : List (Nat × Nat)
  stores : List (Nat × Nat)
deriving DecidableEq, Repr

/-- The last completion that the device returned to the host: its bytes, whether it was poisoned. -/
structure HostResp where
  data : List Byte
  poisoned : Bool
deriving DecidableEq, Repr

/-- What the module holds once. -/
structure Module where
  /-- topology generation (R36), MODID (R38), HBMSPLIT.ILV (R198) -/
  gen : BitVec 32
  modid : BitVec 16
  ilv : BitVec 7
  /-- LQBASE, LQHEAD and the last TAIL written to LQDOOR (R45) -/
  lqBase : Word
  lqHead : BitVec 9
  lqTail : BitVec 9
  memFree : BitVec 32
  agePer : BitVec 32
  nodes : List Node
  gangs : List Gang
  runs : List Run
  colls : List CollInst
  /-- the next number of an entry, a gang, a run or a command -/
  nextId : Nat
  ptroot : Word
  inval : Option Inval
  /-- TLBSTAT.DROP, and the master clock in which it was last set (R7) -/
  tlbDrop : Bool
  tlbDropAt : Nat
  hapBase : Word
  w2Base : Word
  /-- log₂ of BAR2's size (R357) -/
  bar2 : BitVec 6
  /-- EVBASE, EVHEAD, EVTAIL, EVLOST, whether the ring is in the full state (R365), and the MSI-X
  vectors signalled, newest first (R366) -/
  evBase : Word
  evHead : BitVec 32
  evTail : BitVec 32
  evLost : Tally
  evFull : Bool
  msix : List (BitVec 6)
  /-- the MSI-X table, by offset (R360) -/
  msixTable : List (Nat × Word)
  /-- power (R375 to R377, R380); pAt is the clock of the last command, pStageAt that of the last change of
  PSTAT.STAGE -/
  pstep : BitVec 4
  pAt : Nat
  pLvl : BitVec 4
  pStage : BitVec 3
  pStageAt : Nat
  /-- the clock of the last estimate of module power (R377) -/
  pEstAt : Nat
  pSettled : Bool
  plim : Vector (BitVec 32) 16
  pfroot : Vector Word 16
  halted : Bool
  /-- start-up (R381 to R383), and the count of failed starts in board flash -/
  phase : BitVec 3
  fails : BitVec 2
  lastFail : BitVec 8
  bootCode : BitVec 8
  flashFails : BitVec 2
  trained : BitVec 32
  repairs : List Byte
  featOffer0 : Word
  featAccept0 : Word
  featOffer1 : Word
  featAccept1 : Word
  links : Vector Link 16
  pwin : Vector Word 16
  /-- 32-byte units of device memory that are poisoned (R348) -/
  poison : List Nat
  /-- host memory as the device has written and reads it (R359, R365), and the board flash (R380) -/
  hostMem : Mem
  flash : List Byte
  resp : HostResp
deriving DecidableEq, Repr

/-- The state of the module. -/
structure State where
  /-- master clocks since the first release of reset (R5) -/
  now : Nat
  /-- events that are due, by master clock: inputs from outside and the module's own (log 1) -/
  agenda : List (Nat × Instr)
  /-- open choices still to come: latencies and orders that the spec leaves open (log 6) -/
  picks : List Nat
  /-- the core that issues next in this master clock (log 1) -/
  turn : Nat
  /-- core clocks of each cluster (R5) -/
  coreClk : Vector Nat 192
  cores : Vector Core 768
  /-- the core and context that a lone operation acts on -/
  focusC : Nat
  focusX : Bool
  issue : Issue
  dies : Vector Die 64
  mdl : Module
  /-- the bytes of HBM and of the vaults, by physical address (R195) -/
  mem : Mem
deriving DecidableEq, Repr

/-! ## Reset -/

/-- An inactive loop context (R137). -/
def LoopCtx.reset : LoopCtx := ⟨0, 0, 0, false, 0, false, false, false⟩

/-- A context's registers: zero and full (R28; before the first strand DESIGN CHOICE, log 4). -/
def Regs.reset : Regs :=
  { s := Vector.replicate 32 0, sFull := BitVec.allOnes 32, a := Vector.replicate 32 0,
    aFull := BitVec.allOnes 32, aFault := 0, v := Vector.replicate 64 0,
    vFull := BitVec.allOnes 64, m := Vector.replicate 8 0, p := Vector.replicate 8 false,
    t := Vector.replicate 16 0, tFull := BitVec.allOnes 16,
    k := Vector.replicate 8 0, kFull := BitVec.allOnes 8, q := 0 }

def TInfo.reset : TInfo := ⟨0, 0, 0, false, false, 0⟩

def CtxWait.reset : CtxWait :=
  { bargCount := 0, barg := none, waitev := [], holds := [], latch := none, latchTill := none,
    pauseTill := 0, redirect := none, deadline := none, preqAt := 0, countWord := none,
    drainMark := none }

/-- A context that no strand occupies (R106, R314, R87, R85, R39, R137). -/
def Ctx.reset : Ctx :=
  { regs := Regs.reset, lc0 := LoopCtx.reset, lc1 := LoopCtx.reset, pc := 0, fmt := 0x0033,
    fmtNext := [], nfstat := 0, nfNow := (0, 0), evtNow := (0, 0), srkey := 0, srctr := 0, evt := 0, spcount := 0,
    tinfo := TInfo.reset, epc := 0, tvecUnset := true, tvec := 0, guardRec := none,
    pipeErr := none, diverted := 0, ringSeq := 0, ringDie := none, strand := none, plan := [], status := .free,
    half := false, wait := CtxWait.reset }

/-- A core after reset (R374, R331; memories as log 3 says). -/
def Core.reset : Core :=
  { c0 := Ctx.reset, c1 := Ctx.reset, cur := none, ended := false, spad := [], guardMap := 0, acc := [],
    strips := [], istore := [], array := [], tile := [], nextJob := 0, xq := [], portFree := 0, accs := [],
    nextAcc := 0, tcache := [], timers := [], ewt := Vector.replicate 4 0,
    grant := 0xFFFFFFFF, balance := 0, dbg := ⟨false, false, false, false, false, 0, 0, 0⟩, errinj := 0,
    banks := [], spadPoison := [], accPoison := [], vlast := none, nochg := false }

def Issue.reset : Issue :=
  { isOpen := false, c := 0, x := false, hm0 := false, spad0 := [], acc0 := [], next := none, redirect := false,
    taken := false, key := none, ctr := none, ctr0 := 0, nfSet := 0, nfClr := 0, lset := none, job := none, after := .none }

/-- A die after reset; LREQ, RREQ, TAIL and the cfg fields as log 5 says. -/
def Die.reset : Die :=
  { lreq := 0, rreq := 0, path := [], nextPath := 0, walks := [], ring := [], ringTail := 0, racks := [], mirrorBase := 0,
    mirrorEn := false, hrWord := 0, hrVal := 0, hrBusy := false, hrStatus := 0, contain := [],
    queue := [], counters := [], resv := none, cmds := [], collCount := [], ecache := [], clean := 0, ret := 0,
    cs := Vector.replicate 3 0, ds := 0, retiring := [], banks := [], patrol := 0, yewIdx := 0,
    yew := [], pat := BitVec.allOnes 48, effPat := BitVec.allOnes 48, phases := 0, railLim := 0,
    derated := false, overLim := false, energy := 0, energyLatch := none, energySat := false,
    energyWas := (0, 0, false) }

def Tally.reset : Tally := ⟨0, 0, 0, 0⟩

def Link.reset : Link :=
  { en := false, state := 0, failed := 0, txSeq := 0, rxSeq := 0xFFFF, acked := 0xFFFF,
    ackAt := 0, replay := [], outq := [], wire := [],
    delivered := [], fecLog := [], refused := [], answers := [], crcErr := Tally.reset, replays := Tally.reset,
    uncorr := Tally.reset, corr := Tally.reset, inBase := 0,
    inEn := false, inLim := 0 }

/-- The module's registers after reset (R36, R38, R45, R51, R54, R201, R360, R365, R375, R382); cfg
fields as log 5 says. -/
def Module.reset : Module :=
  { gen := 0, modid := 0, ilv := 32, lqBase := 0, lqHead := 0, lqTail := 0, memFree := 0xFFFFFFFF,
    agePer := 240000, nodes := [], gangs := [], runs := [], colls := [], nextId := 1, ptroot := 0,
    inval := none, tlbDrop := false, tlbDropAt := 0, hapBase := 0, w2Base := 0, bar2 := 36, evBase := 0, evHead := 0, evTail := 0,
    evLost := Tally.reset, evFull := false, msix := [], msixTable := [], pstep := 0, pAt := 0, pLvl := 0, pStage := 0, pStageAt := 0, pEstAt := 0, pSettled := true,
    plim := Vector.replicate 16 0x7FFF0578, pfroot := Vector.replicate 16 0, halted := false, phase := 0,
    fails := 0, lastFail := 0, bootCode := 0, flashFails := 0, trained := 0, repairs := [], featOffer0 := 31,
    featAccept0 := 0, featOffer1 := 0, featAccept1 := 0, links := Vector.replicate 16 Link.reset,
    pwin := Vector.replicate 16 0, poison := [], hostMem := [], flash := [],
    resp := ⟨[], false⟩ }

/-- The module right after reset. -/
def State.reset : State :=
  { now := 0, agenda := [], picks := [], turn := 0, coreClk := Vector.replicate 192 0,
    cores := Vector.replicate 768 Core.reset, focusC := 0, focusX := false, issue := Issue.reset,
    dies := Vector.replicate 64 Die.reset, mdl := Module.reset, mem := [] }

/-! ## Stops -/

/-- Why a step stops with a fault. -/
inductive Fault where
  /-- raised by an event whose arguments name what the module does not have (an event placed in the
  agenda from outside): safe, the run stops -/
  | badEvent
deriving DecidableEq, Repr

/-- Why a step is refused. -/
inductive Refusal where
  /-- raised by `exec` for an operation that has no meaning yet: safe, nothing is claimed of it -/
  | notModelled (mnemonic : String)
deriving DecidableEq, Repr

end Sys2Proof.Machine
end

