-- ==== Sys2Proof/Machine/Mem.lean ====
section
/-!
DEFINITION. Byte memories in canonical form, little-endian accesses (R3), access to the elements of a
register file, and lists of events in order of their clocks.
-/
namespace Sys2Proof.Machine

/-- The byte at an address; an unlisted address reads 0 (log 3). -/
def memRead : Mem → Nat → Byte
  | [], _ => 0
  | (k, b) :: r, a => if k = a then b else memRead r a

/-- The memory with byte v at address a. -/
def memWrite : Mem → Nat → Byte → Mem
  | [], a, v => if v = 0 then [] else [(a, v)]
  | (k, b) :: r, a, v =>
    if a < k then (if v = 0 then (k, b) :: r else (a, v) :: (k, b) :: r)
    else if a = k then (if v = 0 then r else (a, v) :: r)
    else (k, b) :: memWrite r a v

/-- The canonical form: addresses rise strictly above lo and no listed byte is 0. -/
def memWfFrom : Nat → Mem → Bool
  | _, [] => true
  | lo, (k, b) :: r => lo ≤ k && b != 0 && memWfFrom (k + 1) r

def Mem.wf (m : Mem) : Bool := memWfFrom 0 m

/-- n bytes from a, as a little-endian number. -/
def memReadLE (m : Mem) (a : Nat) : Nat → Nat
  | 0 => 0
  | n + 1 => (memRead m a).toNat + 256 * memReadLE m (a + 1) n

/-- The low n bytes of v stored at a, little-endian. -/
def memWriteLE (m : Mem) (a : Nat) : Nat → Nat → Mem
  | 0, _ => m
  | n + 1, v => memWriteLE (memWrite m a (BitVec.ofNat 8 v)) (a + 1) n (v / 256)

/-- A list of bytes from a. -/
def memReadList (m : Mem) (a : Nat) : Nat → List Byte
  | 0 => []
  | n + 1 => memRead m a :: memReadList m (a + 1) n

def memWriteList (m : Mem) (a : Nat) : List Byte → Mem
  | [] => m
  | b :: r => memWriteList (memWrite m a b) (a + 1) r

/-- Cells written in order. -/
def memWriteCells (m : Mem) : List Host.Cell → Mem
  | [] => m
  | (a, b) :: r => memWriteCells (memWrite m a b) r

/-- n zero bytes from a. -/
def memZero (m : Mem) (a : Nat) : Nat → Mem
  | 0 => m
  | n + 1 => memZero (memWrite m a 0) (a + 1) n

/-- A little-endian number as n bytes, and back. -/
def bytesLE : Nat → Nat → List Byte
  | 0, _ => []
  | n + 1, v => BitVec.ofNat 8 v :: bytesLE n (v / 256)

def numLE : List Byte → Nat
  | [] => 0
  | b :: r => b.toNat + 256 * numLE r

/-- Element i of a register file, d outside it. -/
def vget {α : Type} {n : Nat} (v : Vector α n) (i : Nat) (d : α) : α :=
  if h : i < n then v[i] else d

/-- The register file with element i replaced. -/
def vset {α : Type} {n : Nat} (v : Vector α n) (i : Nat) (x : α) : Vector α n :=
  v.setIfInBounds i x

/-- The place of an event within its master clock (log 1): a clock pattern that takes effect in it (R373);
what the host does to the module, so that what hardware sets in the same clock stands (R7, R342, R347); then
decrements, by the die that sends them (R48); then the rest. -/
def eventOrder : Instr → Nat
  | .clkpatUpdate _ => 0
  | .registerWrite _ _ | .ebstatClear _ _ _ | .evlostRead | .lcntRead _ | .feccntRead _
  | .energyReadLow _ | .rrmirrorWrite _ _ | .rrkillWrite _ _ | .errinjWrite _ _ | .lqdoorWrite _
  | .yewidxWrite _ _ | .pstepWrite _ | .featAccept1Write _ | .dbgctlHalt _ _ | .dbgctlStep _
  | .hostBar2Read _ _ | .hostBar2Write _ _ | .lctlRetrain _ _ => 1
  | .predecessorDecrement _ _ src => 2 + src
  | _ => 66

/-- An event put into a list in order of clocks and, within a clock, of places, after those of the same
place. -/
def addEvent (l : List (Nat × Instr)) (t : Nat) (i : Instr) : List (Nat × Instr) :=
  match l with
  | [] => [(t, i)]
  | (u, j) :: r =>
    if t < u || (t == u && eventOrder i < eventOrder j) then (t, i) :: (u, j) :: r
    else (u, j) :: addEvent r t i

/-- What arrived in master clock t (R7). -/
def Tally.inClock (c : Tally) (t : Nat) : BitVec 32 := if c.at_ = t then c.recent else 0

/-- What a read in master clock t returns: the value before that clock (R7). -/
def Tally.value (c : Tally) (t : Nat) : BitVec 32 := if c.at_ = t then c.before else c.total

/-- n more events in master clock t; the counter stops at its largest value. -/
def Tally.addN (c : Tally) (t n : Nat) : Tally :=
  let up (v : BitVec 32) : BitVec 32 := BitVec.ofNat 32 (min (v.toNat + n) (2 ^ 32 - 1))
  if n = 0 then c else ⟨up c.total, t, c.value t, up (c.inClock t)⟩

def Tally.add (c : Tally) (t : Nat) : Tally := c.addN t 1

/-- The counter after a read in master clock t: the events of that clock (R7). -/
def Tally.cleared (c : Tally) (t : Nat) : Tally := ⟨c.inClock t, t, 0, c.inClock t⟩

/-- Bit i of a vector, and the vector with bit i set or cleared. -/
def getBit {n : Nat} (x : BitVec n) (i : Nat) : Bool := x.getLsbD i

def putBit {n : Nat} (x : BitVec n) (i : Nat) (b : Bool) : BitVec n :=
  if b then x ||| BitVec.ofNat n (2 ^ i) else x &&& ~~~(BitVec.ofNat n (2 ^ i))

/-- The first entry of an association list under a key, and the list with the key's entry replaced. -/
def assocGet {α : Type} (l : List (Nat × α)) (k : Nat) : Option α :=
  match l with
  | [] => none
  | (j, x) :: r => if j = k then some x else assocGet r k

/-- Association lists stand in order of their keys, one entry a key. -/
def assocPut {α : Type} (l : List (Nat × α)) (k : Nat) (x : α) : List (Nat × α) :=
  match l with
  | [] => [(k, x)]
  | (j, y) :: r =>
    if k < j then (k, x) :: (j, y) :: r else if k = j then (k, x) :: r else (j, y) :: assocPut r k x

def assocDel {α : Type} (l : List (Nat × α)) (k : Nat) : List (Nat × α) :=
  l.filter fun e => e.1 != k

end Sys2Proof.Machine
end

