-- ==== Sys2Proof/Machine/Ops.lean ====
section
/-!
DEFINITION. The named operations over the state: cores and contexts, register reads (R98), results in
flight (R99), guards (R102), opening and committing a bundle (R133, R141 to R144, R313), trap entry
(R315) and the return from it (R157).
-/
namespace Sys2Proof.Machine

/-! ## Cores and contexts -/

def State.core (s : State) (c : Nat) : Core := vget s.cores c Core.reset

def State.setCore (s : State) (c : Nat) (k : Core) : State := { s with cores := vset s.cores c k }

def State.modCore (s : State) (c : Nat) (f : Core → Core) : State := s.setCore c (f (s.core c))

/-- The context of a core: 0 for false, 1 for true (R31). -/
def Core.ctx (k : Core) (x : Bool) : Ctx := if x then k.c1 else k.c0

def Core.setCtx (k : Core) (x : Bool) (t : Ctx) : Core :=
  if x then { k with c1 := t } else { k with c0 := t }

def State.ctx (s : State) (c : Nat) (x : Bool) : Ctx := (s.core c).ctx x

def State.setCtx (s : State) (c : Nat) (x : Bool) (t : Ctx) : State :=
  s.modCore c fun k => k.setCtx x t

def State.modCtx (s : State) (c : Nat) (x : Bool) (f : Ctx → Ctx) : State :=
  s.setCtx c x (f (s.ctx c x))

def State.modRegs (s : State) (c : Nat) (x : Bool) (f : Regs → Regs) : State :=
  s.modCtx c x fun t => { t with regs := f t.regs }

def State.modWait (s : State) (c : Nat) (x : Bool) (f : CtxWait → CtxWait) : State :=
  s.modCtx c x fun t => { t with wait := f t.wait }

def State.die (s : State) (d : Nat) : Die := vget s.dies d Die.reset

def State.modDie (s : State) (d : Nat) (f : Die → Die) : State :=
  { s with dies := vset s.dies d (f (s.die d)) }

/-- The die of a global core number, and the local core (R19). -/
def dieOf (c : Nat) : Nat := c / 12
def localOf (c : Nat) : Nat := c % 12

/-- The global cluster of a core (R18, R19). -/
def clusterOf (c : Nat) : Nat := c / 4

/-- The core clock of a core's cluster (R5). -/
def State.clk (s : State) (c : Nat) : Nat := vget s.coreClk (clusterOf c) 0

/-- An event put into the agenda, due after n master clocks. -/
def State.later (s : State) (n : Nat) (i : Instr) : State :=
  { s with agenda := addEvent s.agenda (s.now + n) i }

/-- The next open choice, or its usual value where none is given (log 6). -/
def State.pick (s : State) (usual : Nat) : Nat × State :=
  match s.picks with
  | [] => (usual, s)
  | p :: r => (p, { s with picks := r })

/-- An event of a core, due at a core clock. -/
def State.timer (s : State) (c : Nat) (t : Nat) (i : Instr) : State :=
  s.modCore c fun k => { k with timers := addEvent k.timers t i }

/-! ## Register reads: fixed registers read their constants (R98) -/

def Regs.sVal (r : Regs) (i : BitVec 5) : Word := if i = 0 then 0 else vget r.s i.toNat 0
def Regs.aVal (r : Regs) (i : BitVec 5) : Word := if i = 0 then 0 else vget r.a i.toNat 0
def Regs.vVal (r : Regs) (i : BitVec 6) : VReg := vget r.v i.toNat 0
def Regs.mVal (r : Regs) (i : BitVec 3) : Word :=
  if i = 0 then BitVec.allOnes 64 else vget r.m i.toNat 0
def Regs.pVal (r : Regs) (i : BitVec 3) : Bool := if i = 0 then true else vget r.p i.toNat false
def Regs.tVal (r : Regs) (i : BitVec 4) : Desc := vget r.t i.toNat 0
def Regs.kVal (r : Regs) (i : BitVec 3) : Desc := vget r.k i.toNat 0

/-- Whether a register is full; a fixed register always is (R98). m and p have no full/empty bit. -/
def Regs.isFull (r : Regs) : Reg → Bool
  | .s i => i == 0 || getBit r.sFull i.toNat
  | .a i => i == 0 || getBit r.aFull i.toNat
  | .v i => getBit r.vFull i.toNat
  | .t i => getBit r.tFull i.toNat
  | .k i => getBit r.kFull i.toNat
  | .m _ | .p _ => true

/-- A register's full/empty bit set to b. -/
def Regs.setFull (r : Regs) (b : Bool) : Reg → Regs
  | .s i => { r with sFull := putBit r.sFull i.toNat b }
  | .a i => { r with aFull := putBit r.aFull i.toNat b }
  | .v i => { r with vFull := putBit r.vFull i.toNat b }
  | .t i => { r with tFull := putBit r.tFull i.toNat b }
  | .k i => { r with kFull := putBit r.kFull i.toNat b }
  | .m _ | .p _ => r

/-- The register that a landing writes. -/
def landReg : Landing → Reg
  | .s i _ => .s i
  | .a i _ => .a i
  | .v i _ => .v i
  | .m i _ => .m i
  | .p i _ => .p i
  | .t i _ => .t i
  | .k i _ => .k i

/-- A value put into its register; a fixed register discards it (R98). -/
def Regs.put (r : Regs) : Landing → Regs
  | .s i v => if i = 0 then r else { r with s := vset r.s i.toNat v }
  | .a i v => if i = 0 then r else { r with a := vset r.a i.toNat v }
  | .v i v => { r with v := vset r.v i.toNat v }
  | .m i v => if i = 0 then r else { r with m := vset r.m i.toNat v }
  | .p i v => if i = 0 then r else { r with p := vset r.p i.toNat v }
  | .t i v => { r with t := vset r.t i.toNat v }
  | .k i v => { r with k := vset r.k i.toNat v }

/-- A result that lands: its register holds the value and is full; an a register that a token had
marked faulted is so no more (R99, R257). -/
def Regs.landed (r : Regs) (l : Landing) : Regs :=
  let r' := (r.put l).setFull true (landReg l)
  match l with
  | .a i _ => { r' with aFault := putBit r'.aFault i.toNat false }
  | .s _ _ | .v _ _ | .m _ _ | .p _ _ | .t _ _ | .k _ _ => r'

/-- p XOR n (R102). -/
def guardHolds (g : Guard) (r : Regs) : Bool := r.pVal g.p != g.neg

/-- The stage guard of slot 3 (R102, R112). -/
def stageHolds (g : BitVec 4) (r : Regs) : Bool := g == 0 || getBit r.q g.toNat

/-- A result of latency n, in core clocks: its register is marked empty now and full at the start of
clock n; a fixed register takes none (R98, R99). -/
def State.result (s : State) (c : Nat) (x : Bool) (n : Nat) (l : Landing) : State :=
  if (landReg l).fixed then s
  else (s.modRegs c x fun r => r.setFull false (landReg l)).timer c (s.clk c + n) (.resultLand c x l)

/-- A destination marked empty with its value still to come (R99). -/
def State.await (s : State) (c : Nat) (x : Bool) (g : Reg) : State :=
  if g.fixed then s
  else s.modRegs c x fun r =>
    let r' := r.setFull false g
    match g with
    | .a i => { r' with aFault := putBit r'.aFault i.toNat false }
    | .s _ | .v _ | .m _ | .p _ | .t _ | .k _ => r'

/-- The context that the open bundle belongs to, and its core. -/
def State.me (s : State) : Ctx := s.ctx s.issue.c s.issue.x
def State.myCore (s : State) : Core := s.core s.issue.c

/-- ENERGY and SAT as a read in master clock t finds them: before what that clock adds (R379). -/
def Die.energyAt (d : Die) (t : Nat) : Word := if d.energyWas.1 = t then d.energyWas.2.1 else d.energy
def Die.satAt (d : Die) (t : Nat) : Bool := if d.energyWas.1 = t then d.energyWas.2.2 else d.energySat

/-- A result of the open bundle. -/
def State.res (s : State) (n : Nat) (l : Landing) : State := s.result s.issue.c s.issue.x n l

/-- A destination of the open bundle whose value is still to come. -/
def State.awaitMe (s : State) (g : Reg) : State := s.await s.issue.c s.issue.x g

def State.modMe (s : State) (f : Ctx → Ctx) : State := s.modCtx s.issue.c s.issue.x f

/-- The strand of the open bundle ends with STRAND_FAULT where b holds (R348). -/
def State.stopIf (s : State) (b : Bool) : State := if b then s.modMe fun t => { t with status := .faulted 0 } else s

def State.modIssue (s : State) (f : Issue → Issue) : State := { s with issue := f s.issue }

/-! ## Lanes of a v register (R167) -/

def lane (v : VReg) (j : Nat) : Lane := v.extractLsb' (32 * j) 32

/-- A number from its base-2^w digits, lowest first. -/
def packNat (w : Nat) : List Nat → Nat
  | [] => 0
  | x :: r => x % 2 ^ w + 2 ^ w * packNat w r

/-- A v register from its lanes. -/
def ofLanes (f : Nat → Lane) : VReg :=
  BitVec.ofNat 2048 (packNat 32 ((List.range 64).map fun j => (f j).toNat))

/-! ## Trap entry and return -/

/-- A trap cause that holds for a bundle, with what TINFO records of it (R313). -/
structure Trap where
  prec : Nat
  cause : BitVec 8
  slots : BitVec 4
  info : BitVec 32
deriving DecidableEq, Repr

/-- The cause that is taken: the one of lowest precedence number; where several slots are at fault by it, SLOTS
has the bits of them all (R313). -/
def worstTrap : List Trap → Option Trap
  | [] => none
  | t :: r =>
    match worstTrap r with
    | none => some t
    | some u => if u.prec < t.prec then some u
      else if t.prec < u.prec then some t
      else some { t with slots := t.slots ||| u.slots }

def Ctx.nbundle (t : Ctx) : Nat :=
  match t.strand with
  | some n => n.nbundle
  | none => 0

/-- Both loop contexts frozen, or unfrozen (R146). -/
def Ctx.freeze (t : Ctx) (b : Bool) : Ctx :=
  { t with lc0 := { t.lc0 with frozen := b }, lc1 := { t.lc1 with frozen := b } }

/-- The newest value of FMT, with every pending shadow ended (R108). -/
def Ctx.endShadows (t : Ctx) : Ctx :=
  match t.fmtNext with
  | [] => t
  | (_, v) :: _ => { t with fmt := v, fmtNext := [] }

/-- The redirect of issue in core clock n: the prefetched stream is broken and the near latch is
invalid (R104, R105). -/
def Ctx.redirected (t : Ctx) (n : Nat) : Ctx :=
  { t with wait := { t.wait with redirect := some (n, 0), latch := none, latchTill := none } }

/-- TRAP_ENTRY (R315): EPC, TINFO, frozen loops, ended shadows, and issue at TVEC; or the end of the
strand where no handler can be entered. n: the core clock; epc: the bundle that EPC names. -/
def Ctx.trapEntry (t : Ctx) (n : Nat) (cause : BitVec 8) (slots : BitVec 4) (info : BitVec 32)
    (code : BitVec 10) (imp : Bool) (epc : Nat) : Ctx :=
  if t.tinfo.hm || t.tvecUnset || t.nbundle ≤ t.tvec.toNat then { t with status := .faulted cause }
  else
    (({ t with
        tinfo := { info := info, code := code, slots := slots, imp := imp, hm := true,
                   cause := cause },
        epc := BitVec.ofNat 14 epc, pc := t.tvec }.freeze true).endShadows).redirected n

/-- The entry of a precise trap at a bundle that does not commit; SPDIST also clears SPCOUNT (R317). -/
def State.takeTrap (s : State) (c : Nat) (x : Bool) (t : Trap) : State :=
  s.modCtx c x fun u =>
    let v := u.trapEntry (s.clk c) t.cause t.slots t.info 0 false u.pc.toNat
    if t.cause == 0x05 then { v with spcount := 0 } else v

/-- RFT (R157): out of handler mode, loops unfrozen, shadows ended, on at EPC. -/
def Ctx.returnFromTrap (t : Ctx) : Ctx :=
  (({ t with tinfo := { t.tinfo with hm := false } }.freeze false).endShadows)

/-! ## Commit -/

/-- A context's end step is due: it is active, not frozen, and ends at the bundle (R141, R146). -/
def LoopCtx.endsAt (l : LoopCtx) (i : Nat) : Bool := l.active && !l.frozen && l.last.toNat == i

/-- Stage bits from a list of numbers of set bits. -/
def stageBits (f : Nat → Bool) : BitVec 16 :=
  BitVec.ofNat 16 (packNat 1 ((List.range 16).map fun j => if j = 0 then 0 else bit (f j)))

/-- END_STEP of R141: the context after it, the stage bits, and the bundle that follows. -/
def endStep (l : LoopCtx) (q : BitVec 16) : LoopCtx × BitVec 16 × Nat :=
  if 1 < l.remain.toNat then
    let q' := if l.rot then
        stageBits fun j =>
          if j = 1 then l.n.toNat < l.remain.toNat
          else if j ≤ l.n.toNat then getBit q (j - 1) else getBit q j
      else q
    ({ l with remain := l.remain - 1 }, q', l.first.toNat)
  else ({ l with active := false }, if l.rot then 0 else q, l.last.toNat + 1)

/-- The context that ended by LEXIT's effect, and the stage bits after it (R144, R145). -/
def exitLoop (l : LoopCtx) (q : BitVec 16) : LoopCtx × BitVec 16 :=
  ({ l with active := false }, if l.active && l.rot then 0 else q)

/-- The end steps that fall due when bundle i commits without a transfer, and the bundle that follows
(R141, R142). Where both loops end there and their LATER bits are equal, R142 names no order: lc1 steps first where
both are 1, lc0 where both are 0 (DESIGN CHOICE, log 89). -/
def Ctx.endSteps (t : Ctx) (i : Nat) : Ctx × Nat :=
  let e0 := t.lc0.endsAt i
  let e1 := t.lc1.endsAt i
  if e0 && e1 then
    if t.lc1.later then
      let r := endStep t.lc1 t.regs.q
      let t1 := { t with lc1 := r.1, regs := { t.regs with q := r.2.1 } }
      if r.1.active then (t1, r.2.2)
      else
        let u := endStep t.lc0 r.2.1
        ({ t1 with lc0 := u.1, regs := { t1.regs with q := u.2.1 } }, u.2.2)
    else
      let r := endStep t.lc0 t.regs.q
      let t1 := { t with lc0 := r.1, regs := { t.regs with q := r.2.1 } }
      if r.1.active then (t1, r.2.2)
      else
        let u := endStep t.lc1 r.2.1
        ({ t1 with lc1 := u.1, regs := { t1.regs with q := u.2.1 } }, u.2.2)
  else if e0 then
    let r := endStep t.lc0 t.regs.q
    ({ t with lc0 := r.1, regs := { t.regs with q := r.2.1 } }, r.2.2)
  else if e1 then
    let r := endStep t.lc1 t.regs.q
    ({ t with lc1 := r.1, regs := { t.regs with q := r.2.1 } }, r.2.2)
  else (t, i + 1)

/-- A taken transfer to bundle n ends each active, unfrozen context whose range does not hold n
(R144). -/
def Ctx.leaveLoops (t : Ctx) (n : Nat) : Ctx :=
  let out (l : LoopCtx) : Bool :=
    l.active && !l.frozen && !(l.first.toNat ≤ n && n ≤ l.last.toNat)
  let r0 := if out t.lc0 then exitLoop t.lc0 t.regs.q else (t.lc0, t.regs.q)
  let r1 := if out t.lc1 then exitLoop t.lc1 r0.2 else (t.lc1, r0.2)
  { t with lc0 := r0.1, lc1 := r1.1, regs := { t.regs with q := r1.2 } }

def Ctx.lc (t : Ctx) (l : Bool) : LoopCtx := if l then t.lc1 else t.lc0
def Ctx.setLc (t : Ctx) (l : Bool) (v : LoopCtx) : Ctx :=
  if l then { t with lc1 := v } else { t with lc0 := v }

/-- The bundle that follows a commit, after any end step (R133, R140 to R144). A context that LSET writes
runs from the next bundle: it takes no end step in this one (R147). An RFT in the END bundle of a loop that
the handler opened takes no end step either (DESIGN CHOICE, log 62). -/
def Ctx.advance (t : Ctx) (u : Issue) : Ctx × Nat :=
  match u.next with
  | none =>
    match u.lset with
    | none => t.endSteps t.pc.toNat
    | some l =>
      let r := (t.setLc l { t.lc l with active := false }).endSteps t.pc.toNat
      (r.1.setLc l (t.lc l), r.2)
  | some n => if u.taken then (t.leaveLoops n, n) else (t, n)

/-- One more bundle has issued: each pending FMT value comes one bundle nearer (R108). -/
def Ctx.stepShadow (t : Ctx) : Ctx :=
  let due := t.fmtNext.filter fun e => e.1 ≤ 1
  let rest := (t.fmtNext.filter fun e => 1 < e.1).map fun e => (e.1 - 1, e.2)
  match due with
  | [] => { t with fmtNext := rest }
  | (_, v) :: _ => { t with fmt := v, fmtNext := rest }

/-- Bits that software clears, those that hardware sets in the same clock left set (R7, R88). -/
def nfstatAfter (v set clr : BitVec 3) : BitVec 3 := (v &&& ~~~clr) ||| set

/-- The bits of a W1C field that hardware set in master clock t (R7). -/
def setIn (w : Nat × BitVec 3) (t : Nat) : BitVec 3 := if w.1 = t then w.2 else 0

/-- The record of what hardware has set, with more bits set in master clock t (R7). -/
def setMore (w : Nat × BitVec 3) (t : Nat) (v : BitVec 3) : Nat × BitVec 3 := (t, setIn w t ||| v)

/-- Bits of EVT that hardware sets in master clock t (R39, R7). -/
def Ctx.raise (k : Ctx) (t : Nat) (v : BitVec 3) : Ctx :=
  { k with evt := k.evt ||| v, evtNow := setMore k.evtNow t v }

/-- Bits of EVT set in every context of the module. -/
def State.raiseAll (s : State) (v : BitVec 3) : State :=
  { s with cores := s.cores.map fun (k : Core) => { k with c0 := k.c0.raise s.now v, c1 := k.c1.raise s.now v } }

/-- A bundle opened on the focus context: its reads of memory see the state before it (R10). -/
def State.openIssue (s : State) : State :=
  let k := s.core s.focusC
  { s with issue := { Issue.reset with isOpen := true, c := s.focusC, x := s.focusX,
                                       hm0 := (k.ctx s.focusX).tinfo.hm, spad0 := k.spad, acc0 := k.acc,
                                       ctr0 := (k.ctx s.focusX).srctr } }

/-- The registers that a commit writes at its end: the end step and the next bundle, SPCOUNT, NFSTAT,
the SR stream, FMT's shadow (R141, R317, R88, R86, R108). n is the core clock, `now` the master clock. -/
def Ctx.commit (t : Ctx) (u : Issue) (n now : Nat) : Ctx :=
  let t := t.stepShadow
  let t := { t with
    nfstat := nfstatAfter t.nfstat (u.nfSet ||| (t.nfstat &&& setIn t.nfNow now)) u.nfClr,
    nfNow := setMore t.nfNow now u.nfSet,
    srkey := u.key.getD t.srkey, srctr := u.ctr.getD t.srctr,
    spcount := if u.hm0 then t.spcount else t.spcount + 1 }
  let r := t.advance u
  let t := { r.1 with pc := BitVec.ofNat 14 r.2 }
  if u.redirect then t.redirected n
  else { t with wait := { t.wait with
    latchTill := none, redirect := t.wait.redirect.map fun e => (e.1, e.2 + 1) } }

/-- The status that a commit gives a strand, unless the bundle has ended it. -/
def CtxStatus.orEnded (old new : CtxStatus) : CtxStatus :=
  match old with
  | .faulted c => .faulted c
  | .failing c => .failing c
  | .free | .running | .parked | .suspending _ _ | .ending | .placed => new

/-- What a commit does besides (R149, R151, R154, R156). n: the core clock. -/
def Ctx.afterCommit (t : Ctx) (n : Nat) : AfterCommit → Ctx
  | .none => t
  | .pause k =>
    if k = 0 then t else { t with wait := { t.wait with pauseTill := n + 1 + k } }
  | .safept i go =>
    if go then { t with spcount := 0, status := t.status.orEnded (.suspending i t.pc.toNat) }
    else { t with spcount := 0 }
  | .done => { t with status := t.status.orEnded .ending }
  | .trap code => t.trapEntry n 0x08 1 0 code false t.pc.toNat

/-- The topology's generation noted by a strand whose SAFEPT or YIELD has just retired (R39, R62). -/
def Ctx.noteGen (t : Ctx) (g : BitVec 32) : Ctx :=
  match t.status with
  | .suspending _ _ => { t with strand := t.strand.map fun n => { n with gen := g } }
  | .free | .running | .parked | .ending | .faulted _ | .failing _ | .placed => t

/-- The commit of the open bundle. -/
def State.closeIssue (s : State) : State :=
  let u := s.issue
  let n := s.clk u.c
  let s := s.modCtx u.c u.x fun t => ((t.commit u n s.now).afterCommit n u.after).noteGen s.mdl.gen
  let s := match u.after with
    | .pause k => if k = 0 then s else s.timer u.c (n + 1 + k) (.pauseEnd u.c u.x)
    | .none | .safept _ _ | .done | .trap _ => s
  { s with issue := Issue.reset }

end Sys2Proof.Machine
end

