-- ==== Sys2Proof/Machine/Operands.lean ====
section
/-!
DEFINITION. Operand forms: scalar values and their 32-bit forms (R160), bit fields (R161), effective
addresses (R236, R238, R242, R244), branch targets (R134), counts of loops (R138) and system register
values (R158).
-/
namespace Sys2Proof.Machine

/-! ## Scalar values (R160 to R163) -/

def low32 (x : Word) : BitVec 32 := x.setWidth 32

/-- The result of a 32-bit form: sign-extended to 64 bits (R160). -/
def wide32 (x : BitVec 32) : Word := x.signExtend 64

def addVal (w : Bool) (a b : Word) : Word := if w then wide32 (low32 a + low32 b) else a + b
def subVal (w : Bool) (a b : Word) : Word := if w then wide32 (low32 a - low32 b) else a - b
def mulVal (w : Bool) (a b : Word) : Word := if w then wide32 (low32 a * low32 b) else a * b

/-- The high half of the signed and of the unsigned product. -/
def mulhiVal (a b : Word) : Word := wrapInt 64 (a.toInt * b.toInt / 2 ^ 64)
def mulhnVal (a b : Word) : Word := BitVec.ofNat 64 (a.toNat * b.toNat / 2 ^ 64)

def shlVal (w : Bool) (a : Word) (n : Nat) : Word :=
  if w then wide32 (low32 a <<< (n % 32)) else a <<< (n % 64)
def shrVal (w : Bool) (a : Word) (n : Nat) : Word :=
  if w then wide32 (low32 a >>> (n % 32)) else a >>> (n % 64)
def sarVal (w : Bool) (a : Word) (n : Nat) : Word :=
  if w then wide32 ((low32 a).sshiftRight (n % 32)) else a.sshiftRight (n % 64)

def minVal (a b : Word) : Word := if b.slt a then b else a
def maxVal (a b : Word) : Word := if a.slt b then b else a
def minnVal (a b : Word) : Word := if b.ult a then b else a
def maxnVal (a b : Word) : Word := if a.ult b then b else a

/-- Leading zero bits of an n-bit number. -/
def leadingZeros (n x : Nat) : Nat := if x = 0 then n else n - 1 - Nat.log2 x

/-- One bits of an n-bit number. -/
def oneBits (x : Nat) : Nat → Nat
  | 0 => 0
  | n + 1 => bit (natBit x n) + oneBits x n

def clzVal (w : Bool) (a : Word) : Word :=
  BitVec.ofNat 64 (if w then leadingZeros 32 (low32 a).toNat else leadingZeros 64 a.toNat)
def popcVal (w : Bool) (a : Word) : Word :=
  BitVec.ofNat 64 (if w then oneBits (low32 a).toNat 32 else oneBits a.toNat 64)

/-- The position and the length of a bit field (R161). -/
def fieldPos (b : Word) : Nat := slice b 5 0
def fieldLen (b : Word) : Nat := if slice b 13 8 = 0 then 64 else slice b 13 8

def bfxVal (sx : Bool) (a b : Word) : Word :=
  let f := a.toNat / 2 ^ fieldPos b % 2 ^ fieldLen b
  if sx then wrapInt 64 (sextNat f (fieldLen b)) else BitVec.ofNat 64 f

def bfiVal (d a b : Word) : Word :=
  let n := min (fieldLen b) (64 - fieldPos b)
  let mask := BitVec.ofNat 64 ((2 ^ n - 1) * 2 ^ fieldPos b)
  (d &&& ~~~mask) ||| BitVec.ofNat 64 (a.toNat % 2 ^ n * 2 ^ fieldPos b)

def addiVal (a : Word) (i : BitVec 10) : Word := a + i.signExtend 64
def andiVal (a : Word) (i : BitVec 10) : Word := a &&& i.signExtend 64
def oriVal (a : Word) (i : BitVec 10) : Word := a ||| i.setWidth 64
def xoriVal (a : Word) (i : BitVec 10) : Word := a ^^^ i.setWidth 64

def liVal (i : Imm 15) : Word := wrapInt 64 i.sval
def lihVal (d : Word) (i : Imm 15) : Word := BitVec.ofNat 64 (d.toNat * 2 ^ i.width + i.uval)

/-! ## Effective addresses -/

/-- a[base] + n * o (R238, R242, R244). -/
def eaOff (base : Word) (n : Nat) (o : Int) : Word := wrapInt 64 (base.toNat + (n : Int) * o)

/-- a[base] + n * a[idx] (R238). -/
def eaIdx (base idx : Word) (n : Nat) : Word := BitVec.ofNat 64 (base.toNat + n * idx.toNat)

/-- The scratchpad offset of SLD and SST (R244). -/
def spadOff (base : Word) (n : Nat) (o : Int) : Nat :=
  let x := (eaOff base n o).toNat % 2 ^ 19
  x / n * n

/-- RSLOT's address (R236). -/
def rslotVal (desc idx : Word) (k : Int) : Word :=
  let i := (wrapInt 64 (idx.toNat + k)).toNat
  BitVec.ofNat 64 (slice desc 47 0 + i % 2 ^ slice desc 57 53 * 2 ^ slice desc 52 48)

/-! ## Control transfers -/

/-- The bundle that a branch names: the bundle's own index plus o (R134). -/
def branchTo (t : Ctx) (o : Imm 16) : Int := (t.pc.toNat : Int) + o.sval

/-- A target bundle inside the image (R134). -/
def inImage (t : Ctx) (n : Int) : Bool := 0 ≤ n && n < (t.nbundle : Int)

/-- A code offset in a register that names a bundle of the image (R135). -/
def offsetOk (t : Ctx) (v : Word) : Bool := v.toNat % 16 == 0 && v.toNat < 16 * t.nbundle

/-! ## System registers (R118) -/

/-- A cluster survives until it is retired (R36). -/
def State.clusterAlive (s : State) (g : Nat) : Bool := !(getBit (s.die (g / 3)).ret (g % 3))

/-- Surviving clusters below g (R36). -/
def State.clusterRank (s : State) : Nat → Nat
  | 0 => 0
  | g + 1 => s.clusterRank g + bit (s.clusterAlive g)

def State.dieAlive (s : State) (d : Nat) : Bool :=
  s.clusterAlive (3 * d) || s.clusterAlive (3 * d + 1) || s.clusterAlive (3 * d + 2)

/-- Surviving dies below d (R36). -/
def State.dieRank (s : State) : Nat → Nat
  | 0 => 0
  | d + 1 => s.dieRank d + bit (s.dieAlive d)

/-- COREID (R35). -/
def coreIdWord (c : Nat) : Word :=
  let d := dieOf c
  let l := localOf c
  BitVec.ofNat 64 (c * 2 ^ 32 + clusterOf c * 2 ^ 24 + d * 2 ^ 18 + d / 16 * 2 ^ 16 +
    d % 16 * 2 ^ 12 + l / 4 * 2 ^ 10 + l * 2 ^ 4)

/-- COORD (R36). -/
def State.coordWord (s : State) (c : Nat) : Word :=
  let g := s.clusterRank (clusterOf c)
  BitVec.ofNat 64 ((4 * g + c % 4) * 2 ^ 32 + g * 2 ^ 24 + s.dieRank (dieOf c) * 2 ^ 16)

/-- CLUSTERS (R36). -/
def State.clustersWord (s : State) : Word :=
  BitVec.ofNat 64 (s.mdl.gen.toNat * 2 ^ 32 + s.dieRank 64 * 2 ^ 16 + s.clusterRank 192)

/-- TINFO's layout (R314). -/
def TInfo.word (i : TInfo) : Word :=
  BitVec.ofNat 64 (i.info.toNat * 2 ^ 32 + i.code.toNat * 2 ^ 22 + i.slots.toNat * 2 ^ 18 +
    bit i.imp * 2 ^ 17 + bit i.hm * 2 ^ 16 + i.cause.toNat)

/-- SPCOUNT's layout (R314). -/
def Ctx.spcountWord (t : Ctx) : Word :=
  let lim := match t.strand with
    | some n => n.spdlim
    | none => 65536
  BitVec.ofNat 64 (lim * 2 ^ 32 + t.spcount.toNat)

/-- What MFSR returns for a register number (R118, R158). -/
def State.sysReg (s : State) (c : Nat) (x : Bool) (i : BitVec 10) : Word :=
  let t := s.ctx c x
  match i.toNat with
  | 0x000 => t.fmt.setWidth 64
  | 0x001 => t.nfstat.setWidth 64
  | 0x002 => t.srkey
  | 0x003 => t.srctr
  | 0x004 => (match t.strand with | some n => n.stage | none => 0).setWidth 64
  | 0x005 => t.evt.setWidth 64
  | 0x006 => t.spcountWord
  | 0x008 => t.tinfo.word
  | 0x009 => BitVec.ofNat 64 (t.epc.toNat * 16)
  | 0x00A => BitVec.ofNat 64 (bit t.tvecUnset * 2 ^ 63 + t.tvec.toNat * 16)
  | 0x010 => coreIdWord c
  | 0x011 => s.coordWord c
  | 0x012 => s.clustersWord
  | 0x013 => s.mdl.modid.setWidth 64
  | _ => 0

/-! ## Loop words (R137) -/

def LoopCtx.word (l : LoopCtx) (q : BitVec 16) (w : BitVec 2) : Word :=
  match w.toNat with
  | 0 => BitVec.ofNat 64 (l.last.toNat * 2 ^ 16 + l.first.toNat)
  | 1 => l.remain.setWidth 64
  | 2 => BitVec.ofNat 64 (bit l.later * 2 ^ 6 + l.n.toNat * 2 ^ 2 + bit l.rot * 2 + bit l.active)
  | _ => BitVec.ofNat 64 (q.toNat / 2 * 2)

/-- The reserved bits of a loop word. -/
def loopReserved (w : BitVec 2) : Word :=
  match w.toNat with
  | 0 => 0xFFFFFFFFE000E000
  | 1 => 0xFFFFFFF000000000
  | 2 => 0xFFFFFFFFFFFFFF80
  | _ => 0xFFFFFFFFFFFF0001

/-- The context with one of its words 0 to 2 replaced. -/
def LoopCtx.setWord (l : LoopCtx) (w : BitVec 2) (v : Word) : LoopCtx :=
  match w.toNat with
  | 0 => { l with first := BitVec.ofNat 13 v.toNat, last := BitVec.ofNat 13 (v.toNat / 2 ^ 16) }
  | 1 => { l with remain := v.setWidth 36 }
  | 2 => { l with later := getBit v 6, n := BitVec.ofNat 4 (v.toNat / 4), rot := getBit v 1,
                  active := getBit v 0 }
  | _ => l

/-- The whole context is fit to be active (R147). -/
def LoopCtx.fit (l : LoopCtx) (nb : Nat) : Bool :=
  l.first.toNat ≤ l.last.toNat && l.last.toNat < nb && l.last.toNat - l.first.toNat ≤ 126 &&
    1 ≤ l.remain.toNat && (if l.rot then 1 ≤ l.n.toNat else l.n == 0)

end Sys2Proof.Machine
end

