-- ==== Sys2Proof/Machine/Flags.lean ====
section
/-!
DEFINITION. Conditions and flags: compares (R164, R180, R234), truth tables (R165, R182), and NFSTAT
as a bundle sets it (R88, R170).
-/
namespace Sys2Proof.Machine

/-- cond(a, b) of CMP, CMPI and ACMP (R164, R234). -/
def condHolds (c : BitVec 2) (a b : Word) : Bool :=
  match c.toNat with
  | 0 => a == b
  | 1 => a.slt b
  | 2 => a.ult b
  | _ => a &&& b != 0

/-- tt[2 * a + b] (R165). -/
def truth (t : BitVec 4) (a b : Bool) : Bool := t.getLsbD (2 * bit a + bit b)

/-- VCMP's condition (R180): codes 4 to 7 are the complements of 0 to 3. -/
def vcmpHolds (c : BitVec 3) (a b : Lane) : Bool :=
  let r := match c.toNat % 4 with
    | 0 => a == b
    | 1 => a.slt b
    | 2 => a.ult b
    | _ => a &&& b != 0
  r != (4 ≤ c.toNat)

/-- VFCMP's condition (R180). -/
def vfcmpHolds (c : BitVec 3) (a b : Lane) : Bool :=
  let x := f32 a
  let y := f32 b
  let un := x.isNaN || y.isNaN
  let r := match c.toNat % 4 with
    | 0 => !un && x.eq y
    | 1 => !un && x.lt y
    | 2 => !un && (x.lt y || x.eq y)
    | _ => un
  r != (4 ≤ c.toNat)

/-- NFSTAT bits that the open bundle sets at its commit (R88). -/
def State.setFlags (s : State) (f : Flags) : State :=
  s.modIssue fun u => { u with nfSet := u.nfSet ||| f.bits }

end Sys2Proof.Machine
end

