-- ==== Sys2Proof/Machine/Tiles.lean ====
section
/-!
DEFINITION. Tiles: descriptors and their limits (R285 to R291), guarded scratchpad bytes (R227), the
accumulator store and its checksum strip (R175, R299), the array window (R279 to R282) and knot
registers (R293).
-/
namespace Sys2Proof.Machine

/-! ## Guard granules (R227) -/

/-- A scratchpad byte that the strand does not reach: at or above 393,216, or in a guard granule. -/
def Core.barred (k : Core) (a : Nat) : Bool :=
  393216 ≤ a || getBit k.guardMap (a / 64)

/-- A byte among n at a scratchpad offset lies in a poisoned unit and is not guarded (R348). -/
def Core.spadBad (k : Core) (a n : Nat) : Bool :=
  !k.spadPoison.isEmpty && (List.range n).any fun i =>
    !(k.barred (a + i)) && k.spadPoison.any fun u => u == (a + i) / 32

/-- Poisoned scratchpad units of which a write covers every byte are sound again (R348). -/
def Core.healSpad (k : Core) (covers : Nat → Bool) : Core :=
  { k with spadPoison := k.spadPoison.filter fun u => !((List.range 32).all fun i => covers (32 * u + i)) }

/-- Poisoned units of the accumulator store, eight to a row, that a write covers are sound again (R348). -/
def Core.healAcc (k : Core) (covers : Nat → Bool) : Core :=
  { k with accPoison := k.accPoison.filter fun u => !(covers u) }

/-- Lanes of a row fill unit u of the accumulator store, and one of them lies in it. -/
def lanesFill (u row : Nat) (on : Nat → Bool) : Bool :=
  u / 8 == row && (List.range 8).all fun i => on (8 * (u % 8) + i)

def lanesMeet (u row : Nat) (on : Nat → Bool) : Bool :=
  u / 8 == row && (List.range 8).any fun i => on (8 * (u % 8) + i)

/-- A byte of a scratchpad image as the strand reads it: barred bytes read 0. -/
def Core.spadByte (k : Core) (m : Mem) (a : Nat) : Byte := if k.barred a then 0 else memRead m a

/-- n bytes of a scratchpad image, little-endian. -/
def Core.spadLE (k : Core) (m : Mem) (a : Nat) : Nat → Nat
  | 0 => 0
  | n + 1 => (k.spadByte m a).toNat + 256 * k.spadLE m (a + 1) n

/-- Bytes stored to the scratchpad; barred bytes are not written. -/
def Core.spadPut (k : Core) (m : Mem) (a : Nat) : List Byte → Mem
  | [] => m
  | b :: r => k.spadPut (if k.barred a then m else memWrite m a b) (a + 1) r

/-- The first barred byte among n bytes from a. -/
def Core.firstBarred (k : Core) (a : Nat) : Nat → Option Nat
  | 0 => none
  | n + 1 => if k.barred a then some a else k.firstBarred (a + 1) n

/-- The record of one access's touch (R227, R318): the first fills it, later ones are counted. -/
def GuardRec.touch (r : Option GuardRec) (new : GuardRec) : Option GuardRec :=
  match r with
  | none => some new
  | some g => some { g with count := if g.count = 255 then 255 else g.count + 1 }

/-- A touch of scratchpad byte a by a path (R227). An offset of 2^19 or more, which the bank field cannot hold, gives
its bank modulo 32 (DESIGN CHOICE, log 92). -/
def spadTouch (a : Nat) (path : BitVec 2) : GuardRec :=
  ⟨0, BitVec.ofNat 5 (a / 16384), BitVec.ofNat 14 (a % 16384 / 64 * 64), 0, path, 0⟩

/-- A touch of accumulator row ar, 12,288 or more. -/
def accTouch (ar : Nat) (path : BitVec 2) : GuardRec := ⟨1, 0, BitVec.ofNat 14 ar, 0, path, 0⟩

/-- A touch of vault byte a, at or above 0x02D4_0000. -/
def vaultTouch (a : Nat) (path : BitVec 2) : GuardRec :=
  ⟨2, 0, 0, BitVec.ofNat 19 (min ((a - 0x02D40000) / 64) 524287), path, 0⟩

/-- A touch recorded in a context, if there is one. -/
def State.touch (s : State) (c : Nat) (x : Bool) (g : Option GuardRec) : State :=
  match g with
  | none => s
  | some g => s.modCtx c x fun t => { t with guardRec := GuardRec.touch t.guardRec g }

/-- The touches of an access, in order (R172, R227). -/
def State.touches (s : State) (c : Nat) (x : Bool) (l : List GuardRec) : State :=
  l.foldl (fun s g => s.touch c x (some g)) s

/-! ## The accumulator store (R175) and its strip (R299) -/

def accRow (a : List (Nat × VReg)) (r : Nat) : VReg := (assocGet a r).getD 0

/-- A row written; zero rows are not listed. -/
def accPut (a : List (Nat × VReg)) (r : Nat) (v : VReg) : List (Nat × VReg) :=
  if v = 0 then assocDel a r else assocPut a r v

def Strip.zero (v : Bool) : Strip := ⟨Vector.replicate 64 0, Vector.replicate 64 0, v⟩

def Core.strip (k : Core) (tile : Nat) : Strip := (assocGet k.strips tile).getD (Strip.zero false)

def Core.setStrip (k : Core) (tile : Nat) (p : Strip) : Core :=
  { k with strips := if p = Strip.zero false then assocDel k.strips tile
                     else assocPut k.strips tile p }

def Core.invalidate (k : Core) (tile : Nat) : Core :=
  k.setStrip tile { k.strip tile with valid := false }

/-- The sum of a row's 64 elements modulo 2^32. -/
def rowSum (v : VReg) : Lane := (List.range 64).foldl (fun t j => t + lane v j) 0

/-- VSTACC's write of a row: the row's sum is set and the column sums follow the change (R299). -/
def Core.storeRow (k : Core) (ar : Nat) (v : VReg) : Core :=
  let old := accRow k.acc ar
  let p := k.strip (ar / 64)
  let p' : Strip := { p with
    rows := vset p.rows (ar % 64) (rowSum v),
    cols := Vector.ofFn fun (j : Fin 64) => vget p.cols j.val 0 + (lane v j.val - lane old j.val) }
  { (k.setStrip (ar / 64) p') with acc := accPut k.acc ar v }

/-! ## Tile descriptors (R285) -/

def dBase (d : Desc) : Nat := slice d 25 0
def dSpace (d : Desc) : Nat := slice d 27 26
def dRows (d : Desc) : Nat := slice d 34 28
def dCols (d : Desc) : Nat := slice d 45 35
def dType (d : Desc) : Nat := slice d 49 46
def dStride (d : Desc) : Nat := slice d 83 64

/-- A value that S2T and TSET refuse (R286). -/
def descBad (d : Desc) : Bool :=
  slice d 127 100 != 0 || slice d 85 85 != 0 || slice d 63 50 != 0 ||
    dSpace d == 3 || (12 ≤ dType d && dType d ≤ 14) || 64 < dRows d || 1024 < dCols d ||
    (dSpace d == 0 && 393216 ≤ dBase d) ||
    (dSpace d == 1 && (191 < dBase d || 192 < dBase d + (dCols d + 63) / 64)) ||
    (dSpace d == 2 && (dBase d < 0x00840000 || 0x02D3FFFF < dBase d)) ||
    (dSpace d != 1 && (dBase d % 4 != 0 || dStride d % 4 != 0))

/-- A null descriptor (R286). -/
def descNull (d : Desc) : Bool := dRows d == 0 || dCols d == 0

/-- A value that S2K refuses (R293). -/
def knotBad (d : Desc) : Bool := slice d 127 75 != 0 || slice d 71 70 == 3 || 32 < slice d 69 64

/-- TSET's unit U and its result's BASE (R296); none where U is not defined. -/
def tsetUnit (a : Desc) (f : BitVec 2) : Option Nat :=
  match f.toNat with
  | 0 => some 0
  | 1 => if dSpace a == 1 then none else some (dStride a)
  | 2 => some (if dSpace a == 1 then 1 else 64)
  | _ => none

/-- TSET's value, none where it traps (R296). -/
def tsetVal (a : Desc) (n : BitVec 6) (f : BitVec 2) : Option Desc :=
  match tsetUnit a f with
  | none => none
  | some u =>
    let base := dBase a + n.toNat * u
    if 2 ^ 26 ≤ base then none
    else
      let v := a - BitVec.ofNat 128 (dBase a) + BitVec.ofNat 128 base
      if descBad v then none else some v

/-! ## Types (R107, R291) -/

/-- The role of a descriptor, for TYPE 15 (R291). -/
inductive Role where
  | a | b | other
deriving DecidableEq, Repr

/-- FMT's fields (R106). -/
def fmtA (f : BitVec 15) : Nat := slice f 3 0
def fmtB (f : BitVec 15) : Nat := slice f 7 4
def fmtAcc (f : BitVec 15) : Nat := slice f 10 10
def fmtRnd (f : BitVec 15) : Nat := slice f 13 11
def fmtSpline (f : BitVec 15) : Bool := slice f 14 14 == 1

/-- The element type that a descriptor resolves to (R291): 0 FP32, 1 BF16, 2 E4M3, 3 to 5 MXINT8, 6
and 4, 6 INT8, 7 UINT8, 8 INT16, 9 UINT16, 10 INT32, 11 UINT32. -/
def resolve (f : BitVec 15) (role : Role) (d : Desc) : Nat :=
  if dType d != 15 then dType d
  else match role with
    | .b => fmtB f
    | .a | .other => if dSpace d == 1 then (if fmtAcc f == 0 then 0 else 10) else fmtA f

def isMx (ty : Nat) : Bool := ty == 3 || ty == 4 || ty == 5

/-- The fraction width F of an MX type (R74). -/
def fracOf (ty : Nat) : Nat := 6 - 2 * (ty - 3)

/-- Bytes of a packed block of 32 codes (R75). -/
def blockBytes (ty : Nat) : Nat := if ty == 3 then 32 else if ty == 4 then 24 else 16

/-- Bits of an element code. -/
def codeBits (ty : Nat) : Nat := fracOf ty + 2

/-- Bytes of an element of a type that is not MX. -/
def elemBytes (ty : Nat) : Nat :=
  if ty == 0 || ty == 10 || ty == 11 then 4 else if ty == 1 || ty == 8 || ty == 9 then 2 else 1

/-- Bytes of a row of a scratchpad or vault tile (R287). -/
def rowBytes (ty cols : Nat) : Nat :=
  if isMx ty then (cols + 31) / 32 * (blockBytes ty + 1) else cols * elemBytes ty

/-! ## Elements of a scratchpad tile (R287, R288) -/

/-- Element code k of row m of an MX tile, 0 outside its bounds. -/
def mxCode (k : Core) (m : Mem) (ty : Nat) (d : Desc) (r c : Nat) : Int :=
  if dRows d ≤ r || dCols d ≤ c then 0
  else
    let at_ := dBase d + r * dStride d + c / 32 * blockBytes ty
    let i := c % 32 * codeBits ty
    sextNat (k.spadLE m (at_ + i / 8) 2 / 2 ^ (i % 8)) (codeBits ty)

/-- The scale byte of block β of row r. -/
def mxScaleByte (k : Core) (m : Mem) (ty : Nat) (d : Desc) (r b : Nat) : Nat :=
  if dRows d ≤ r || dCols d ≤ 32 * b then 0
  else
    let nb := (dCols d + 31) / 32
    (k.spadByte m (dBase d + r * dStride d + nb * blockBytes ty + b)).toNat

/-- An FP32 or BF16 element of row r, widened exactly; +0 outside the bounds. -/
def floatElem (k : Core) (m : Mem) (ty : Nat) (d : Desc) (r c : Nat) : FVal :=
  if dRows d ≤ r || dCols d ≤ c then .fin false 0 0
  else if ty == 1 then bf16.value (k.spadLE m (dBase d + r * dStride d + 2 * c) 2)
  else fp32.value (k.spadLE m (dBase d + r * dStride d + 4 * c) 4)

/-- The first barred byte that a scratchpad tile's rows hold, if any. -/
def tileBarred (k : Core) (ty : Nat) (d : Desc) : Option Nat :=
  if dSpace d != 0 || descNull d then none
  else (List.range (dRows d)).findSome? fun r =>
    k.firstBarred (dBase d + r * dStride d) (rowBytes ty (dCols d))

/-- The accumulator tiles that a descriptor spans. -/
def accTiles (d : Desc) : List Nat :=
  if dSpace d != 1 || descNull d then []
  else (List.range ((dCols d + 63) / 64)).map (dBase d + ·)

/-- Element (r, c) of an accumulator descriptor. -/
def accElem (a : List (Nat × VReg)) (d : Desc) (r c : Nat) : Lane :=
  lane (accRow a ((dBase d + c / 64) * 64 + r)) (c % 64)

/-- Every element of a descriptor's bounds replaced: f r c old. -/
def accMap (a : List (Nat × VReg)) (d : Desc) (f : Nat → Nat → Lane → Lane) : List (Nat × VReg) :=
  (accTiles d).foldl (fun a t =>
    (List.range (dRows d)).foldl (fun a r =>
      let old := accRow a (t * 64 + r)
      accPut a (t * 64 + r) (ofLanes fun j =>
        let c := (t - dBase d) * 64 + j
        if c < dCols d then f r c (lane old j) else lane old j)) a) a

/-- As `accMap`, with the flags that the elements set: f r c old. -/
def accMapF (a : List (Nat × VReg)) (d : Desc) (f : Nat → Nat → Lane → Lane × Flags) :
    List (Nat × VReg) × Flags :=
  (accTiles d).foldl (fun z t =>
    (List.range (dRows d)).foldl (fun z r =>
      let old := accRow z.1 (t * 64 + r)
      let es := (List.range 64).map fun j =>
        let c := (t - dBase d) * 64 + j
        if c < dCols d then f r c (lane old j) else (lane old j, Flags.none)
      (accPut z.1 (t * 64 + r) (BitVec.ofNat 2048 (packNat 32 (es.map fun e => e.1.toNat))),
        es.foldl (fun u e => u.or e.2) z.2)) z) (a, Flags.none)

/-! ## The array window (R279 to R282) -/

/-- Physical address of byte 0 of a core's vault (R195). -/
def vaultBase (c : Nat) : Nat := 0x100000000000 + dieOf c * 0x40000000 + localOf c * 0x03000000

/-- Coefficient byte x of cell (i, j). -/
def coefAt (c i j x : Nat) : Nat := vaultBase c + 1024 * (64 * i + j) + x

/-- Gradient entry e of set g of cell (i, j). -/
def gradAt (c i j g e : Nat) : Nat := vaultBase c + 0x00400000 + 1024 * (64 * i + j) + 144 * g + 4 * e

/-- The checksum halfword of coefficient byte x of row i. -/
def checkAt (c i x : Nat) : Nat := vaultBase c + 0x00800000 + 2048 * i + 2 * x

/-- Scale strip byte y. -/
def stripAt (c y : Nat) : Nat := vaultBase c + 0x00820000 + y

/-- Weight W[k][j] of linear slot b (R280). -/
def weight (m : Mem) (c ty b k j : Nat) : Int :=
  if ty == 5 then
    let q := k % 16
    let v := (memRead m (coefAt c (k / 16) j (8 * b + q / 2))).toNat
    sextNat (if q % 2 = 0 then v else v / 16) 4
  else
    sextNat (memRead m (coefAt c (k / 4) j (4 * b + k % 4))).toNat (codeBits ty)

/-- The scale byte of block β for column j of linear slot b (R280). -/
def weightScale (m : Mem) (c ty b β j : Nat) : Nat :=
  (memRead m (stripAt c ((if ty == 5 then 2048 else 512) * b + 64 * β + j))).toNat

/-- The checksum RS[k] of linear slot b: of the byte, or of its nibble modulo 2^8 (R282). -/
def weightCheck (m : Mem) (c ty b k : Nat) : Int :=
  if ty == 5 then
    let q := k % 16
    let h := memReadLE m (checkAt c (k / 16) (8 * b + q / 2)) 2
    ((if q % 2 = 0 then h % 256 else h / 256 : Nat) : Int)
  else sextNat (memReadLE m (checkAt c (k / 4) (4 * b + k % 4)) 2) 16

/-- Coefficient c_k of spline set s in cell (i, j); an index above 34 reads 0 (R281). -/
def splineCoef (m : Mem) (c i j s : Nat) (k : Nat) : Int :=
  if 34 < k then 0 else sextNat (memRead m (coefAt c i j (36 * s + k))).toNat 8

/-- The scale byte of a cell's spline set. -/
def splineScale (m : Mem) (c i j s : Nat) : Nat := (memRead m (coefAt c i j (36 * s + 35))).toNat

/-- The checksum halfword S_k of spline set s in row i. -/
def splineCheck (m : Mem) (c i s k : Nat) : Int :=
  if 34 < k then 0 else sextNat (memReadLE m (checkAt c i (36 * s + k)) 2) 16

/-! ## Knot registers (R293) -/

def kG0 (d : Desc) : Nat := slice d 31 0
def kRinv (d : Desc) : Nat := slice d 63 32
def kG (d : Desc) : Nat := slice d 69 64
def kOog (d : Desc) : Nat := slice d 71 70

/-- A knot register with its sticky flags FOG, FNF and FXL set besides those it holds. -/
def kSetFlags (d : Desc) (fog fnf fxl : Bool) : Desc :=
  d ||| BitVec.ofNat 128 (bit fog * 2 ^ 72 + bit fnf * 2 ^ 73 + bit fxl * 2 ^ 74)

/-! ## Legality at issue (R291) -/

/-- The operands of a slot-3 operation that R291's table refuses. -/
def slot3Bad (r : Regs) (f : BitVec 15) : Instr → Bool
  | .mstep _ d a b i | .mstepRev _ d a b i =>
    let ta := resolve f .a (r.tVal a)
    let td := resolve f .other (r.tVal d)
    !(dSpace (r.tVal a) == 0 && isMx ta && resolve f .b (r.tVal b) == ta &&
      dSpace (r.tVal d) == 1 && (td == 0 || (td == 10 && ta != 5)) && (ta != 5 || i.toNat ≤ 63))
  | .sstep _ d a k _ =>
    let ta := resolve f .a (r.tVal a)
    !(dSpace (r.tVal a) == 0 && (ta == 0 || ta == 1) && dSpace (r.tVal d) == 1 &&
      resolve f .other (r.tVal d) == 0 && 1 ≤ kG (r.kVal k) && kG (r.kVal k) ≤ 32)
  | .sdstep _ d a k _ =>
    let ta := resolve f .a (r.tVal a)
    !(dSpace (r.tVal a) == 0 && (ta == 0 || ta == 1) && dSpace (r.tVal d) == 1 &&
      resolve f .other (r.tVal d) == 0 && 1 ≤ kG (r.kVal k) && kG (r.kVal k) ≤ 32 &&
      dSpace (r.tVal (a + 1)) == 0 && resolve f .other (r.tVal (a + 1)) == 3)
  | .sgrad _ a k _ =>
    let ta := resolve f .a (r.tVal a)
    !(dSpace (r.tVal a) == 0 && (ta == 0 || ta == 1) && 1 ≤ kG (r.kVal k) && kG (r.kVal k) ≤ 32 &&
      dSpace (r.tVal (a + 1)) == 0 && resolve f .other (r.tVal (a + 1)) == 3)
  | .srefine _ k _ => !(1 ≤ kG (r.kVal k) && kG (r.kVal k) ≤ 16)
  | .bseal _ i v =>
    if v == 2 || (v == 0 && fmtSpline f) then 27 < i.toNat
    else !(isMx (fmtB f)) || (fmtB f == 5 && 63 < i.toNat)
  | .tzero _ d =>
    let ty := resolve f .other (r.tVal d)
    !(dSpace (r.tVal d) == 1 && (ty == 0 || ty == 10))
  | .tadd _ d a =>
    let ty := resolve f .other (r.tVal d)
    !(dSpace (r.tVal d) == 1 && dSpace (r.tVal a) == 1 && (ty == 0 || ty == 10) &&
      resolve f .a (r.tVal a) == ty)
  | .tcheck _ d =>
    !(dSpace (r.tVal d) == 1 && resolve f .other (r.tVal d) == 10 && dCols (r.tVal d) ≤ 64)
  | .tcvt _ d a _ =>
    let ta := resolve f .a (r.tVal a)
    let td := resolve f .other (r.tVal d)
    !(dSpace (r.tVal a) == 1 && (ta == 0 || ta == 10) &&
      (dSpace (r.tVal d) == 0 || dSpace (r.tVal d) == 2) && td != 7 && td != 9 && td != 11)
  | _ => false

/-- The COLS limits of R291's table. -/
def slot3Wide (r : Regs) (f : BitVec 15) : Instr → Bool
  | .mstep _ d _ _ _ => 64 < dCols (r.tVal d)
  | .mstepRev _ d a _ _ =>
    (if resolve f .a (r.tVal a) == 5 then 1024 else 256) < dCols (r.tVal d)
  | _ => false

end Sys2Proof.Machine
end

