-- ==== Sys2Proof/Machine/Spline.lean ====
section
/-!
DEFINITION. What the array and the tile unit compute: exact step sums (R89), the knot units and the
basis (R294, R295), the linear and the spline steps (R304 to R311), conversions (R302), the checksum
strip (R299) and the checks of protected classes (R312).
-/
namespace Sys2Proof.Machine

/-- The effect of a slot-3 operation when its result lands: the core's new accumulator store and
strips, scratchpad and physical memory, the flags for NFSTAT, whether the descriptor's NF is set, a
new value for the t-dest descriptor or the knot register, the touches of guarded bytes, a failed
check (R312), and bytes that are stores to the vault (R302). -/
structure StepOut where
  core : Core
  mem : Mem
  flags : Flags
  nf : Bool
  desc : Option (BitVec 16)
  knot : Bool × Bool × Bool
  touch : Option GuardRec
  failed : Bool
  stores : List Host.Cell
deriving DecidableEq, Repr

def StepOut.of (k : Core) (m : Mem) : StepOut :=
  ⟨k, m, Flags.none, false, none, (false, false, false), none, false, []⟩

/-- An exact integer times 2^e as a sum S: an exact zero is -0 (R89). -/
def exactSum (t : Int) (e : Int) : FVal := if t = 0 then .fin true 0 0 else .fin (t < 0) t.natAbs e

/-- C := RNE(C + S, FP32) (R89). Where C is a NaN and S an exact zero the sum is the canonical NaN, with NF (R73;
DESIGN CHOICE, log 69). -/
def accumulate (c : Lane) (s : FVal) : Lane × Flags := toF32 ((f32 c).add s)

def sumRange (n : Nat) (f : Nat → Int) : Int := (List.range n).foldl (fun t i => t + f i) 0

/-! ## MSTEP and MSTEP.REV (R304, R305) -/

/-- The 18-bit integer v of a cell with one bit flipped (R351). -/
def flip18 (v : Int) (pos : Nat) : Int := sextNat ((v % 2 ^ 18).toNat ^^^ 2 ^ pos) 18

/-- What an injected error adds to the integer v that cell (i, j) forms for sample m (R351). -/
def cellError (f : Option (Inject × Bool)) (m i j : Nat) (v : Int) : Int :=
  match f with
  | some (e, _) => if e.cell && m == 0 && e.row == i && e.col == j then flip18 v e.pos - v else 0
  | none => 0

/-- Weights of a cell: 4, or 16 for MXINT4 (R280). -/
def perCell (ty : Nat) : Nat := if ty == 5 then 16 else 4

/-- The sum D of block β for sample m and column j; fl is an injected error. -/
def blockDot (fl : Option (Inject × Bool)) (k : Core) (sp : Mem) (mem : Mem) (c ty b : Nat) (da : Desc)
    (m β j : Nat) : Int :=
  let term (q : Nat) : Int := mxCode k sp ty da m q * weight mem c ty b q j
  let n := perCell ty
  sumRange (32 / n) fun g =>
    let i := 32 * β / n + g
    let v := sumRange n fun q => term (n * i + q)
    v + cellError fl m i j v

/-- The blocks that MSTEP does not skip. -/
def usedBlocks (ty : Nat) (da : Desc) : List Nat :=
  (List.range (if ty == 5 then 32 else 8)).filter fun β => 32 * β < dCols da

/-- A sum of blocks: the scaled integer, the plain integer, a scale of 0xFF, a scale other than 0x7F. -/
structure BlockSum where
  scaled : Int
  plain : Int
  nan : Bool
  odd : Bool
deriving DecidableEq, Repr

def BlockSum.add (z : BlockSum) (d : Int) (e1 e2 : Nat) : BlockSum :=
  ⟨z.scaled + d * 2 ^ (e1 + e2), z.plain + d, z.nan || e1 == 0xFF || e2 == 0xFF,
    z.odd || e1 != 0x7F || e2 != 0x7F⟩

/-- S as an exact value; the scaled integer counts units of 2^(-254 - 2F). -/
def BlockSum.value (z : BlockSum) (ty : Nat) : FVal :=
  if z.nan then .nan else exactSum z.scaled (-254 - 2 * (fracOf ty : Int))

/-- A block sum added to an element of type td, FP32 or INT32. -/
def BlockSum.into (z : BlockSum) (ty td : Nat) (old : Lane) : Lane × Flags :=
  if td == 0 then accumulate old (z.value ty)
  else (old + wrapInt 32 z.plain, ⟨z.odd, false, false⟩)

def mstepSum (fl : Option (Inject × Bool)) (k : Core) (sp : Mem) (mem : Mem) (c ty b : Nat) (da : Desc) (m j : Nat) : BlockSum :=
  (usedBlocks ty da).foldl (fun z β =>
    z.add (blockDot fl k sp mem c ty b da m β j) (mxScaleByte k sp ty da m β)
      (weightScale mem c ty b β j)) ⟨0, 0, false, false⟩

def mstepRevSum (fl : Option (Inject × Bool)) (k : Core) (sp : Mem) (mem : Mem) (c ty b : Nat)
    (dy : Desc) (rows m kk : Nat) : BlockSum :=
  ((List.range 2).filter fun γ => 32 * γ < dCols dy).foldl (fun z γ =>
    (List.range 32).foldl (fun z q =>
      let j := 32 * γ + q
      if j < dCols dy && j < rows then
        let v := mxCode k sp ty dy m j * weight mem c ty b kk j
        let err := if kk % perCell ty = 0 then cellError fl m (kk / perCell ty) j v else 0
        z.add (v + err) (mxScaleByte k sp ty dy m γ)
          (weightScale mem c ty b (kk / 32) j)
      else z) z) ⟨0, 0, false, false⟩

/-- An injected error strikes a cell of a used block; the column's check then fails (R312). -/
def cellStruck (fl : Option (Inject × Bool)) (ty : Nat) (da : Desc) : Bool :=
  match fl with
  | some (e, _) => e.cell && (usedBlocks ty da).any fun β => β == e.row * perCell ty / 32
  | none => false

/-- MSTEP's checks: against the checksum column for every sample and block, and by column (R312). The
column's two sides differ by an injected error and by nothing else. -/
def mstepCheckOk (fl : Option (Inject × Bool)) (k : Core) (sp : Mem) (mem : Mem) (c ty b : Nat) (da : Desc) : Bool :=
  !(cellStruck fl ty da) && (List.range 64).all fun m => (usedBlocks ty da).all fun β =>
    let l := sumRange 64 fun j => blockDot fl k sp mem c ty b da m β j
    let r := sumRange 32 fun q =>
      mxCode k sp ty da m (32 * β + q) * weightCheck mem c ty b (32 * β + q)
    if ty == 5 then (l - r) % 256 == 0 else l == r

/-- The strip after an INT32 MSTEP over a whole tile (R299): predicted sums are added. -/
def predictStrip (k : Core) (sp : Mem) (mem : Mem) (c ty b : Nat) (da : Desc) (p : Strip) : Strip :=
  let ks := (usedBlocks ty da).flatMap fun β => (List.range 32).map (32 * β + ·)
  let col (kk : Nat) : Int := sumRange 64 fun m => mxCode k sp ty da m kk
  { p with
    rows := Vector.ofFn fun (r : Fin 64) => vget p.rows r.val 0 +
      wrapInt 32 (ks.foldl (fun t kk =>
        t + mxCode k sp ty da r.val kk * weightCheck mem c ty b kk) 0)
    cols := Vector.ofFn fun (j : Fin 64) => vget p.cols j.val 0 +
      wrapInt 32 (ks.foldl (fun t kk => t + col kk * weight mem c ty b kk j.val) 0) }

def Core.invalidateAll (k : Core) (ts : List Nat) : Core := ts.foldl Core.invalidate k

/-- MSTEP's result (R304). prot: the node is SIG or DUP. -/
def mstepOut (k : Core) (mem : Mem) (c : Nat) (j : Job) (b : Nat) (prot : Bool) : StepOut :=
  let ty := resolve j.fmt .a j.da
  let td := resolve j.fmt .other j.dd
  let out := accMapF k.acc j.dd fun m col old =>
    if m < dRows j.da && col < dRows j.db && col < 64 then
      (mstepSum j.inj k j.spadIn mem c ty b j.da m col).into ty td old
    else (old, Flags.none)
  let whole := td == 10 && dRows j.da == 64 && dRows j.dd == 64 && dCols j.dd == 64 &&
    dRows j.db == 64
  let k' := if whole then
      k.setStrip (dBase j.dd) (predictStrip k j.spadIn mem c ty b j.da (k.strip (dBase j.dd)))
    else k.invalidateAll (accTiles j.dd)
  { StepOut.of { k' with acc := out.1 } mem with
    flags := out.2, nf := out.2.nf || out.2.ovf,
    touch := (tileBarred k ty j.da).map fun a => spadTouch a 2,
    failed := prot && !(mstepCheckOk j.inj k j.spadIn mem c ty b j.da) }

/-- MSTEP.REV's check (R312): for each k and block γ the sum over m of the integers is the sum over the block
of the column sums of y and W. The two sides differ by an injected error and by nothing else. -/
def mstepRevCheckOk (fl : Option (Inject × Bool)) (k : Core) (sp : Mem) (mem : Mem) (c ty b : Nat) (dy : Desc)
    (rows : Nat) : Bool :=
  (List.range (64 * perCell ty)).all fun kk => (List.range 2).all fun γ =>
    let js := (List.range 32).filterMap fun q =>
      if 32 * γ + q < dCols dy && 32 * γ + q < rows then some (32 * γ + q) else none
    let v (m j : Nat) : Int := mxCode k sp ty dy m j * weight mem c ty b kk j
    let l := js.foldl (fun z j => z + sumRange 64 fun m => v m j +
      (if kk % perCell ty = 0 then cellError fl m (kk / perCell ty) j (v m j) else 0)) 0
    let r := js.foldl (fun z j => z + (sumRange 64 fun m => mxCode k sp ty dy m j) * weight mem c ty b kk j) 0
    l == r

/-- MSTEP.REV's result (R305). prot: the node is SIG or DUP. -/
def mstepRevOut (k : Core) (mem : Mem) (c : Nat) (j : Job) (b : Nat) (prot : Bool) : StepOut :=
  let ty := resolve j.fmt .a j.da
  let td := resolve j.fmt .other j.dd
  let out := accMapF k.acc j.dd fun m kk old =>
    if m < dRows j.da then
      (mstepRevSum j.inj k j.spadIn mem c ty b j.da (dRows j.db) m kk).into ty td old
    else (old, Flags.none)
  { StepOut.of { (k.invalidateAll (accTiles j.dd)) with acc := out.1 } mem with
    flags := out.2, nf := out.2.nf || out.2.ovf,
    touch := (tileBarred k ty j.da).map fun a => spadTouch a 2,
    failed := prot && !(mstepRevCheckOk j.inj k j.spadIn mem c ty b j.da (dRows j.db)) }

/-! ## BSEAL (R282, R306) -/

/-- The checksum halfword of coefficient byte x of row i for a type: the sum of the byte's codes, or the sums
of its two MXINT4 codes modulo 2^8 (log 67). -/
def sealHalf (mem : Mem) (c ty i x : Nat) : Nat :=
  let byte (j : Nat) : Nat := (memRead mem (coefAt c i j x)).toNat
  if ty == 5 then
    ((sumRange 64 fun j => sextNat (byte j) 4) % 256).toNat +
      256 * ((sumRange 64 fun j => sextNat (byte j / 16) 4) % 256).toNat
  else ((sumRange 64 fun j => sextNat (byte j) (codeBits ty)) % 65536).toNat

def sealRow (mem : Mem) (c ty i lo n : Nat) (m : Mem) : Mem :=
  (List.range n).foldl (fun m q => memWriteLE m (checkAt c i (lo + q)) 2 (sealHalf mem c ty i (lo + q))) m

/-- BSEAL of linear slot b (R306). -/
def sealLinear (mem : Mem) (c ty b : Nat) : Mem :=
  (List.range 64).foldl (fun m i =>
    if ty == 5 then sealRow mem c ty i (8 * b) 8 m else sealRow mem c ty i (4 * b) 4 m) mem

/-- BSEAL of spline set s: 35 sums, and 0 for the scale byte (R306). -/
def sealSpline (mem : Mem) (c s : Nat) : Mem :=
  (List.range 64).foldl (fun m i =>
    memWriteLE (sealRow mem c 3 i (36 * s) 35 m) (checkAt c i (36 * s + 35)) 2 0) mem

def bsealOut (k : Core) (mem : Mem) (c : Nat) (j : Job) (i : Nat) (v : BitVec 2) : StepOut :=
  StepOut.of k (if v == 2 || (v == 0 && fmtSpline j.fmt) then sealSpline mem c i
    else sealLinear mem c (fmtB j.fmt) i)

/-! ## Knot units (R294, R295) -/

/-- What a knot unit finds for one sample: poisoned, no contribution, or the interval and τ; outside
the grid it says so. -/
inductive KnotOut where
  | poisoned
  | nothing
  | at_ (m : Nat) (tau : Int) (outside : Bool)
deriving DecidableEq, Repr

/-- floor(x * 2^n) of a finite value. -/
def floorScaled (neg : Bool) (m : Nat) (e n : Int) : Int :=
  let f := scaleFloor m (e + n)
  if neg then (if scaleExact m (e + n) then -(f : Int) else -(f : Int) - 1) else f

/-- τ cut to -8192 to 9215, and whether it was (R294). -/
def clampTau (t : Int) : Int × Bool :=
  if t < -8192 then (-8192, true) else if 9215 < t then (9215, true) else (t, false)

/-- The knot unit for input x (R294): its outcome, and FOG, FNF, FXL. -/
def knotUnit (d : Desc) (x : FVal) : KnotOut × Bool × Bool × Bool :=
  let xinf := match x with | .inf _ => true | .nan | .fin _ _ _ => false
  let g := kG d
  if x.isNaN then (.poisoned, false, true, false)
  else
    let t := toF32 (x.add (fp32.value (kG0 d)).neg)
    let u := f32 (toF32 ((f32 t.1).mul (fp32.value (kRinv d)))).1
    match u with
    | .nan => (.poisoned, false, true, false)
    | .inf neg =>
      if kOog d == 1 then (.nothing, true, xinf, false)
      else if kOog d == 0 then (.at_ (if neg then 0 else g) 0 true, true, xinf, false)
      else (.at_ (if neg then 0 else g - 1) (if neg then -8192 else 9215) true, true, xinf, true)
    | .fin neg m e =>
      let fl := floorScaled neg m e 0
      if (m = 0 || !neg) && fl < g then
        (.at_ fl.toNat (floorScaled false m e 10 - 1024 * fl) false, false, xinf, false)
      else if kOog d == 1 then (.nothing, true, xinf, false)
      else if kOog d == 0 then (.at_ (if neg then 0 else g) 0 true, true, xinf, false)
      else if neg then
        let r := clampTau (floorScaled true m e 10)
        (.at_ 0 r.1 true, true, xinf, r.2)
      else
        let r := clampTau (floorScaled false m e 10 - 1024 * ((g : Int) - 1))
        (.at_ (g - 1) r.1 true, true, xinf, r.2)

/-- Round half to even of n / d. -/
def roundDiv (n d : Int) : Int :=
  let q := n / d
  let r := n % d
  if d < 2 * r || (2 * r == d && q % 2 == 1) then q + 1 else q

/-- The basis b_q (R295). -/
def basis (t : Int) : Nat → Int
  | 0 => roundDiv ((1024 - t) ^ 3) (6 * 2 ^ 22)
  | 1 => roundDiv (3 * t ^ 3 - 6144 * t ^ 2 + 4 * 2 ^ 30) (6 * 2 ^ 22)
  | 3 => roundDiv (t ^ 3) (6 * 2 ^ 22)
  | _ => 256 - roundDiv ((1024 - t) ^ 3) (6 * 2 ^ 22) -
      roundDiv (3 * t ^ 3 - 6144 * t ^ 2 + 4 * 2 ^ 30) (6 * 2 ^ 22) - roundDiv (t ^ 3) (6 * 2 ^ 22)

/-- The derivative basis d_q (R295). -/
def dbasis (t : Int) : Nat → Int
  | 0 => roundDiv (-(1024 - t) ^ 2) (2 ^ 13)
  | 1 => roundDiv (3 * t ^ 2 - 4096 * t) (2 ^ 13)
  | 3 => roundDiv (t ^ 2) (2 ^ 13)
  | _ => -roundDiv (-(1024 - t) ^ 2) (2 ^ 13) - roundDiv (3 * t ^ 2 - 4096 * t) (2 ^ 13) -
      roundDiv (t ^ 2) (2 ^ 13)

/-- The knot units of sample m for the rows that take part. -/
def knotRow (k : Core) (j : Job) (m i : Nat) : KnotOut × Bool × Bool × Bool :=
  knotUnit j.dk (floatElem k j.spadIn (resolve j.fmt .a j.da) j.da m i)

/-- The rows taking part: i < x.COLS. -/
def splineRows (j : Job) : List Nat := List.range (min 64 (dCols j.da))

/-- FOG, FNF and FXL of the rows and samples whose results a step uses (R294). -/
def knotFlags (k : Core) (j : Job) (samples : Nat) : Bool × Bool × Bool :=
  (List.range samples).foldl (fun z m => (splineRows j).foldl (fun z i =>
    let r := (knotRow k j m i).2
    (z.1 || r.1, z.2.1 || r.2.1, z.2.2 || r.2.2)) z) (false, false, false)

/-- SSTEP's sum S of sample m and column j (R307). -/
def sstepSum (k : Core) (mem : Mem) (c : Nat) (j : Job) (set m col : Nat) : FVal :=
  let z := (splineRows j).foldl (fun (z : Int × Bool) i =>
    match (knotRow k j m i).1 with
    | .poisoned => (z.1, true)
    | .nothing => z
    | .at_ p t _ =>
      let e := splineScale mem c i col set
      let v := sumRange 4 fun q => basis t q * splineCoef mem c i col set (p + q)
      let v := v + cellError j.inj m i col v
      (z.1 + v * 2 ^ e, z.2 || e == 0xFF)) (0, false)
  if z.2 then .nan else exactSum z.1 (-141)

/-- SSTEP's check for one sample (R312). -/
def sstepCheckOk (k : Core) (mem : Mem) (c : Nat) (j : Job) (set : Nat) : Bool :=
  (List.range 64).all fun m =>
    let side (f : Nat → Nat → Int) : Int := (splineRows j).foldl (fun z i =>
      match (knotRow k j m i).1 with
      | .poisoned | .nothing => z
      | .at_ p t _ => z + sumRange 4 fun q => basis t q * f i (p + q)) 0
    let err := (splineRows j).foldl (fun z i =>
      match (knotRow k j m i).1 with
      | .poisoned | .nothing => z
      | .at_ p t _ => z + sumRange 64 fun col => cellError j.inj m i col
          (sumRange 4 fun q => basis t q * splineCoef mem c i col set (p + q))) 0
    side (fun i x => sumRange 64 fun col => splineCoef mem c i col set x) + err ==
      side (fun i x => splineCheck mem c i set x)

def sstepOut (k : Core) (mem : Mem) (c : Nat) (j : Job) (set : Nat) (prot : Bool) : StepOut :=
  let out := accMapF k.acc j.dd fun m col old =>
    if m < dRows j.da && col < 64 then accumulate old (sstepSum k mem c j set m col)
    else (old, Flags.none)
  { StepOut.of { (k.invalidateAll (accTiles j.dd)) with acc := out.1 } mem with
    flags := out.2, nf := out.2.nf || out.2.ovf, knot := knotFlags k j (dRows j.da),
    touch := (tileBarred k (resolve j.fmt .a j.da) j.da).map fun a => spadTouch a 2,
    failed := prot && !(sstepCheckOk k mem c j set) }

/-- δ(m, j): its code and its scale byte. -/
def deltaCode (k : Core) (j : Job) (m col : Nat) : Int := mxCode k j.spadIn 3 j.db m col
def deltaScale (k : Core) (j : Job) (m col : Nat) : Nat := mxScaleByte k j.spadIn 3 j.db m (col / 32)

/-- SDSTEP's S of sample m and row i (R308). -/
def sdstepSum (k : Core) (mem : Mem) (c : Nat) (j : Job) (set m i : Nat) : FVal :=
  let cols := List.range (min 64 (dCols j.db))
  let bad := cols.any fun col => deltaScale k j m col == 0xFF || splineScale mem c i col set == 0xFF
  match (knotRow k j m i).1 with
  | .poisoned => .nan
  | .nothing => if bad then .nan else .fin true 0 0
  | .at_ p t outside =>
    if bad then .nan
    else if outside && kOog j.dk == 0 then .fin true 0 0
    else
      let z := cols.foldl (fun z col =>
        let v := sumRange 4 fun q => dbasis t q * splineCoef mem c i col set (p + q)
        let v := v + cellError j.inj m i col v
        z + deltaCode k j m col * v * 2 ^ (deltaScale k j m col + splineScale mem c i col set)) 0
      match (fp32.value (kRinv j.dk)).mul (.fin (z < 0) z.natAbs (-127 - 6 - 127 - 14)) with
      | .fin neg m e => if m = 0 then .fin true 0 0 else .fin neg m e
      | .nan => .nan
      | .inf n => .inf n

def sdstepOut (k : Core) (mem : Mem) (c : Nat) (j : Job) (set : Nat) : StepOut :=
  let out := accMapF k.acc j.dd fun m i old =>
    if m < dRows j.da && m < dRows j.db && i < dCols j.da && i < 64 then
      accumulate old (sdstepSum k mem c j set m i)
    else (old, Flags.none)
  let t := match tileBarred k (resolve j.fmt .a j.da) j.da with
    | some a => some a
    | none => tileBarred k 3 j.db
  { StepOut.of { (k.invalidateAll (accTiles j.dd)) with acc := out.1 } mem with
    flags := out.2, nf := out.2.nf || out.2.ovf,
    knot := knotFlags k j (min (dRows j.da) (dRows j.db)),
    touch := t.map fun a => spadTouch a 2 }

/-! ## SGRAD, SGZERO, SREFINE (R309 to R311) -/

/-- One term added to a gradient entry: an exact zero leaves it as it is, a NaN too, and sets no flag (R309; DESIGN
CHOICE, log 69). -/
def gradTerm (mem : Mem) (a : Nat) (t : FVal) : Mem × Flags :=
  if t.isZero then (mem, Flags.none)
  else
    let r := accumulate (BitVec.ofNat 32 (memReadLE mem a 4)) t
    (memWriteLE mem a 4 r.1.toNat, r.2)

def sgradOut (k : Core) (mem : Mem) (c : Nat) (j : Job) (g : Nat) : StepOut :=
  let n := min (dRows j.da) (dRows j.db)
  let out := (List.range n).foldl (fun z m => (splineRows j).foldl (fun z i =>
    match (knotRow k j m i).1 with
    | .poisoned | .nothing => z
    | .at_ p t _ =>
      (List.range (min 64 (dCols j.db))).foldl (fun z col =>
        (List.range 4).foldl (fun (z : Mem × Flags) q =>
          let b := basis t q
          if b = 0 || 35 < p + q then z
          else
            let e := deltaScale k j m col
            let v := b * deltaCode k j m col
            let term : FVal := if e = 0xFF then .nan
              else .fin (v < 0) v.natAbs ((e : Int) - 127 - 6 - 8)
            let r := gradTerm z.1 (gradAt c i col g (p + q)) term
            (r.1, z.2.or r.2)) z) z) z) (mem, Flags.none)
  let t := match tileBarred k (resolve j.fmt .a j.da) j.da with
    | some a => some a
    | none => tileBarred k 3 j.db
  { StepOut.of k out.1 with
    flags := out.2, knot := knotFlags k j n, touch := t.map fun a => spadTouch a 2 }

def sgzeroOut (k : Core) (mem : Mem) (c g : Nat) : StepOut :=
  StepOut.of k ((List.range 4096).foldl (fun m n =>
    memZero m (gradAt c (n / 64) (n % 64) g 0) 144) mem)

/-- The refined values of a cell, in units of 2^(e - 127) * 2^-6 / 8 (R311). -/
def refined (cs : Nat → Int) (g : Nat) : List Int :=
  (List.range (2 * g + 3)).map fun i =>
    let k := (i + 1) / 2
    if i % 2 = 0 then 4 * (cs (i / 2) + cs (i / 2 + 1))
    else cs (k - 1) + 6 * cs k + cs (k + 1)

def refineCell (mem : Mem) (c i col set g : Nat) (z : Mem × Flags) : Mem × Flags :=
  let e := splineScale mem c i col set
  let vs := (refined (splineCoef mem c i col set) g).map fun v =>
    FVal.fin (v < 0) v.natAbs ((e : Int) - 127 - 6 - 3)
  let r := if e = 0xFF then (MxBlock.nan 35, (⟨true, false, false⟩ : Flags)) else mxq 6 0 (fun _ => 0) vs
  let codes := r.1.codes ++ List.replicate (35 - r.1.codes.length) 0
  let bytes := (codes.take 35).map (fun v => wrapInt 8 v) ++ [BitVec.ofNat 8 r.1.scale]
  (memWriteList z.1 (coefAt c i col (36 * set)) bytes, z.2.or r.2)

def srefineOut (k : Core) (mem : Mem) (c : Nat) (j : Job) (set : Nat) : StepOut :=
  let out := (List.range 4096).foldl (fun z n =>
    refineCell mem c (n / 64) (n % 64) set (kG j.dk) z) (mem, Flags.none)
  { StepOut.of k (sealSpline out.1 c set) with flags := out.2 }

/-! ## The tile unit (R299 to R303) -/

/-- TZERO (R300). -/
def tzeroOut (k : Core) (mem : Mem) (j : Job) : StepOut :=
  let int := resolve j.fmt .other j.dd == 10
  let k' := (accTiles j.dd).foldl (fun k t =>
    let full := dRows j.dd == 64 && (t - dBase j.dd) * 64 + 64 ≤ dCols j.dd
    if full then k.setStrip t (Strip.zero int) else k.invalidate t) k
  StepOut.of { k' with acc := accMap k.acc j.dd fun _ _ _ => 0 } mem

/-- The strips after a TADD into INT32 tiles (R299). -/
def Strip.plus (p q : Strip) : Strip :=
  ⟨Vector.ofFn fun (i : Fin 64) => vget p.rows i.val 0 + vget q.rows i.val 0,
    Vector.ofFn fun (i : Fin 64) => vget p.cols i.val 0 + vget q.cols i.val 0, p.valid && q.valid⟩

/-- TADD (R301). -/
def taddOut (k : Core) (mem : Mem) (j : Job) : StepOut :=
  let int := resolve j.fmt .other j.dd == 10
  let out := accMapF k.acc j.dd fun r c old =>
    if r < dRows j.da && c < dCols j.da then
      let a := accElem k.acc j.da r c
      if int then (old + a, Flags.none) else accumulate old (f32 a)
    else (old, Flags.none)
  let n := min (accTiles j.dd).length (accTiles j.da).length
  let k' := if !int then k else (List.range n).foldl (fun z i =>
    z.setStrip (dBase j.dd + i) ((k.strip (dBase j.dd + i)).plus (k.strip (dBase j.da + i)))) k
  { StepOut.of { k' with acc := out.1 } mem with
    flags := if int then Flags.none else out.2, nf := !int && (out.2.nf || out.2.ovf) }

/-- The row and the column sums of a tile's elements (R303). -/
def tileRowSum (k : Core) (t r : Nat) : Lane := rowSum (accRow k.acc (64 * t + r))
def tileColSum (k : Core) (t c : Nat) : Lane :=
  (List.range 64).foldl (fun z r => z + lane (accRow k.acc (64 * t + r)) c) 0

/-- TCHECK's outcome for a tile: CKST, CKROW, CKCOL (R303). -/
def checkTile (k : Core) (t : Nat) : Nat × Nat × Nat :=
  let p := k.strip t
  if !p.valid then (0, 0, 0)
  else
    let rs := (List.range 64).filter fun r => vget p.rows r 0 != tileRowSum k t r
    let cs := (List.range 64).filter fun c => vget p.cols c 0 != tileColSum k t c
    match rs, cs with
    | [], [] => (1, 0, 0)
    | [r], [c] => (2, r, c)
    | _, _ => (3, rs.headD 0, cs.headD 0)

/-- TCHECK (R303): the check fields, bits 99:86 of the descriptor with bit 85 zero. -/
def tcheckOut (k : Core) (mem : Mem) (j : Job) (prot : Bool) : StepOut :=
  if descNull j.dd then StepOut.of k mem
  else
    let r := checkTile k (dBase j.dd)
    { StepOut.of k mem with
      desc := some (BitVec.ofNat 16 (r.1 + 4 * r.2.1 + 256 * r.2.2)), failed := prot && 2 ≤ r.1 }

/-- The integer range of a type (R70). -/
def intRange (ty : Nat) : Int × Int :=
  match ty with
  | 6 => (-128, 127)
  | 7 => (0, 255)
  | 8 => (-32768, 32767)
  | 9 => (0, 65535)
  | 11 => (0, 2 ^ 32 - 1)
  | _ => (-(2 ^ 31), 2 ^ 31 - 1)

/-- One element rounded into a type that is not MX (R79 to R83): its bits and flags. -/
def convertElem (ty mode b : Nat) (v : FVal) : Nat × Flags :=
  if ty == 0 then fp32.round mode b v
  else if ty == 1 then bf16.round mode b v
  else if ty == 2 then e4m3.round mode b v
  else
    let g := intRange ty
    let r := v.toIntSat g.1 g.2 mode b
    ((r.1 % 2 ^ 32).toNat, ⟨false, false, r.2⟩)

/-- TCVT's source element as an exact value, 0 outside the bounds (R302). -/
def tcvtElem (k : Core) (j : Job) (r c : Nat) : FVal :=
  if dRows j.da ≤ r || dCols j.da ≤ c || dCols j.dd ≤ c then .fin false 0 0
  else
    let e := accElem k.acc j.da r c
    if resolve j.fmt .a j.da == 10 then FVal.ofInt e.toInt else f32 e

/-- The random value of element (r, c) under SR (R302). -/
def tcvtDraw (j : Job) (mode r c : Nat) : Nat :=
  if mode == 4 then srBits j.key j.ctr (1024 * r + c) else 0

/-- The bytes of row r, by offset from the row's first byte, with the flags (R302). -/
def tcvtRow (k : Core) (j : Job) (mode r : Nat) : List Host.Cell × Flags :=
  let ty := resolve j.fmt .other j.dd
  let cols := dCols j.dd
  if isMx ty then
    let nb := (cols + 31) / 32
    (List.range nb).foldl (fun (z : List Host.Cell × Flags) β =>
      let q := mxq (fracOf ty) mode (fun i => tcvtDraw j mode r (32 * β + i))
        ((List.range 32).map fun i => tcvtElem k j r (32 * β + i))
      let bits := packNat (codeBits ty) (q.1.codes.map fun v => (v % 2 ^ codeBits ty).toNat)
      let codes := (bytesLE (blockBytes ty) bits).zipIdx.map fun e => (β * blockBytes ty + e.2, e.1)
      (z.1 ++ codes ++ [(nb * blockBytes ty + β, BitVec.ofNat 8 q.1.scale)], z.2.or q.2))
      ([], Flags.none)
  else
    (List.range cols).foldl (fun (z : List Host.Cell × Flags) c =>
      let q := convertElem ty mode (tcvtDraw j mode r c) (tcvtElem k j r c)
      let es := (bytesLE (elemBytes ty) q.1).zipIdx.map fun e => (c * elemBytes ty + e.2, e.1)
      (z.1 ++ es, z.2.or q.2)) ([], Flags.none)

/-- TCVT (R302): scratchpad bytes are written, vault bytes below 0x02D4_0000 become stores. -/
def tcvtOut (k : Core) (mem : Mem) (c : Nat) (j : Job) (f : BitVec 3) (prot : Bool) : StepOut :=
  let mode := if f == 7 then fmtRnd j.fmt else f.toNat
  let bad := prot && resolve j.fmt .a j.da == 10 && (accTiles j.da).any fun t =>
    2 ≤ (checkTile k t).1
  if bad then { StepOut.of k mem with failed := true }
  else
    let rows := (List.range (dRows j.dd)).map fun r => (r, tcvtRow k j mode r)
    let flags := rows.foldl (fun z e => z.or e.2.2) Flags.none
    let cells := rows.flatMap fun e =>
      e.2.1.map fun b => (dBase j.dd + e.1 * dStride j.dd + b.1, b.2)
    let base := { StepOut.of k mem with flags := flags, nf := flags.nf || flags.ovf }
    if dSpace j.dd == 0 then
      { base with
        core := { k with spad := memWriteCells k.spad (cells.filter fun e => !(k.barred e.1)) },
        touch := (cells.find? fun e => k.barred e.1).map fun e => spadTouch e.1 2 }
    else
      { base with
        stores := (cells.filter fun e => e.1 < 0x02D40000).map fun e => (vaultBase c + e.1, e.2),
        touch := (cells.find? fun e => 0x02D40000 ≤ e.1).map fun e => vaultTouch e.1 2 }

/-- The result of a slot-3 operation that lands (R304 to R311, R300 to R303). -/
def Job.out (j : Job) (k : Core) (mem : Mem) (c : Nat) (prot : Bool) : StepOut :=
  match j.op with
  | .mstep _ _ _ _ i => mstepOut k mem c j i.toNat prot
  | .mstepRev _ _ _ _ i => mstepRevOut k mem c j i.toNat prot
  | .bseal _ i v => bsealOut k mem c j i.toNat v
  | .sstep _ _ _ _ i => sstepOut k mem c j i.toNat prot
  | .sdstep _ _ _ _ i => sdstepOut k mem c j i.toNat
  | .sgrad _ _ _ i => sgradOut k mem c j i.toNat
  | .sgzero _ i => sgzeroOut k mem c i.toNat
  | .srefine _ _ i => srefineOut k mem c j i.toNat
  | .tzero _ _ => tzeroOut k mem j
  | .tadd _ _ _ => taddOut k mem j
  | .tcheck _ _ => tcheckOut k mem j prot
  | .tcvt _ _ _ f => tcvtOut k mem c j f prot
  | _ => StepOut.of k mem

end Sys2Proof.Machine
end

