-- ==== Sys2Proof/Machine/Traps.lean ====
section
/-!
DEFINITION. The precise traps whose cause lies in an operation and its operands (R313), and how an
operation performs: within the bundle that is open, or as a bundle of its own.
-/
namespace Sys2Proof.Machine

/-- What a step answers. -/
abbrev Step := Host.Outcome State Fault Refusal

/-- ILLEGAL, charged to slot k (R117, R313). -/
def illegalTrap (k : Nat) : Trap := ⟨1, 0x01, BitVec.ofNat 4 (2 ^ k), 0⟩

/-- JUMPOUT at a target code offset (R134, R135). -/
def jumpTrap (off : Int) : Trap := ⟨8, 0x06, 1, wrapInt 32 off⟩

/-- PROT_ATOMIC, XQOVF and VUNI (R249, R274, R183). -/
def protTrap : Trap := ⟨5, 0x07, 2, 0⟩
def xqTrap : Trap := ⟨6, 0x04, 2, 0⟩
def vuniTrap : Trap := ⟨7, 0x03, 4, 0⟩

/-- The count that a LOOP.SR's count word gave (R139). -/
def Ctx.countValue (t : Ctx) : Nat :=
  match t.wait.countWord with
  | some (some v) => v.toNat
  | some none | none => 0

/-- LOOP's two traps (R140). -/
def loopBad (t : Ctx) (l : Bool) (e : Nat) (rot : Bool) : Bool :=
  let o := t.lc (!l)
  let oa := o.active && !o.frozen
  oa && (o.last.toNat < t.pc.toNat + e || (rot && o.rot))

/-- The values that LSET refuses (R147). -/
def lsetBad (t : Ctx) (a : BitVec 5) (w : BitVec 2) (l : Bool) : Bool :=
  let v := t.regs.sVal a
  v &&& loopReserved w != 0 ||
    (w == 2 && getBit v 0 && !(((t.lc l).setWord w v).fit t.nbundle))

/-- The class of the strand in a context is SIG or DUP (R67). -/
def Ctx.protected_ (t : Ctx) : Bool :=
  match t.strand with
  | some n => n.cls != 0
  | none => false

/-- The conditions of VUNI's enabled lanes: none where they differ, else the predicate (R183). -/
def uniform (mask : Word) (f : Nat → Bool) : Option Bool :=
  let ls := (List.range 64).filter fun j => getBit mask j
  if ls.all f then some (!ls.isEmpty) else if ls.all fun j => !(f j) then some false else none

def vuniCond (r : Regs) (a m : BitVec 6) : Option Bool :=
  uniform (r.mVal (m.setWidth 3)) fun j => lane (r.vVal a) j != 0

def vuniMCond (r : Regs) (a m : BitVec 3) : Option Bool :=
  uniform (r.mVal m) fun j => getBit (r.mVal a) j

/-- The trap causes of one operation at a context (R313). -/
def trapsOf (i : Instr) (s : State) (c : Nat) (x : Bool) : List Trap :=
  let k := s.core c
  let t := k.ctx x
  let r := t.regs
  let when_ (b : Bool) (u : Trap) : List Trap := if b then [u] else []
  match i with
  | .br g o | .call g o =>
    when_ (guardHolds g r && !inImage t (branchTo t o)) (jumpTrap (16 * branchTo t o))
  | .bri g a | .ret g a =>
    when_ (guardHolds g r && !offsetOk t (r.sVal a)) (jumpTrap (r.sVal a).toNat)
  | .loopI l o _ => when_ (loopBad t l o.toNat false) (illegalTrap 0)
  | .loopR l o _ => when_ (loopBad t l o.toNat false) (illegalTrap 0)
  | .loopSr l o _ => when_ (loopBad t l o.toNat false) (illegalTrap 0)
  | .loopRot l o _ _ => when_ (loopBad t l o.toNat true) (illegalTrap 0)
  | .lset g a w l => when_ (guardHolds g r && lsetBad t a w l) (illegalTrap 0)
  | .rft g => when_ (guardHolds g r && !t.tinfo.hm) (illegalTrap 0)
  | .mtsr a n =>
    when_ (n == 0 && ((r.sVal a).toNat / 2 ^ 15 != 0 || !fmtOk ((r.sVal a).setWidth 15)))
      (illegalTrap 0)
  | .s2t g _ a b =>
    when_ (guardHolds g r && descBad (BitVec.ofNat 128 ((r.sVal a).toNat + (r.sVal b).toNat * 2 ^ 64)))
      (illegalTrap 0)
  | .s2k g _ a b =>
    when_ (guardHolds g r && knotBad (BitVec.ofNat 128 ((r.sVal a).toNat + (r.sVal b).toNat * 2 ^ 64)))
      (illegalTrap 0)
  | .amo _ _ _ _ _ _ _ | .cas _ _ _ _ _ _ | .afadd _ _ _ _ _ => when_ t.protected_ protTrap
  | .xpose g _ _ _ _ => when_ (guardHolds g r && 4 ≤ k.xq.length) xqTrap
  | .vuni _ a m _ => when_ (vuniCond r a (m.setWidth 6)).isNone vuniTrap
  | .vuniM _ a m => when_ (vuniMCond r a m).isNone vuniTrap
  | .tset g _ a n f => when_ (stageHolds g r && (tsetVal (r.tVal a) n f).isNone) (illegalTrap 3)
  | .tzero g _ | .tcvt g _ _ _ | .tcheck g _ | .tadd g _ _ | .mstep g _ _ _ _
  | .mstepRev g _ _ _ _ | .bseal g _ _ | .sstep g _ _ _ _ | .sdstep g _ _ _ _ | .sgrad g _ _ _
  | .srefine g _ _ =>
    when_ (stageHolds g r && (slot3Bad r t.fmt i || slot3Wide r t.fmt i)) (illegalTrap 3)
  | _ => []

/-- An operation performed: in the open bundle its body alone; otherwise as a bundle that holds it
alone, on the focus context, which traps or commits (R313). -/
def perform (i : Instr) (body : State → State) (s : State) : Step :=
  if s.issue.isOpen then .next (body s)
  else
    match worstTrap (trapsOf i s s.focusC s.focusX) with
    | some t => .next (s.takeTrap s.focusC s.focusX t)
    | none => .next (body s.openIssue).closeIssue

end Sys2Proof.Machine
end

