-- ==== Sys2Proof/Machine/Report.lean ====
section
/-!
DEFINITION. Reports: host events (R365, R366), Yew entries (R384), error banks (R347), and the CRC-64
of R339.
-/
namespace Sys2Proof.Machine

/-! ## Module access -/

def State.modMdl (s : State) (f : Module → Module) : State := { s with mdl := f s.mdl }

/-- An event put into the agenda after an open delay of at least one clock (log 6). -/
def State.laterPick (s : State) (usual : Nat) (i : Instr) : State :=
  let r := s.pick usual
  r.2.later (max 1 r.1) i

/-- An event put into the agenda after an open delay of at least `least` clocks. -/
def State.laterLeast (s : State) (least usual : Nat) (i : Instr) : State :=
  let r := s.pick usual
  r.2.later (max (max 1 least) r.1) i

/-- A number that no entry, gang, run or command has had. -/
def State.fresh (s : State) : Nat × State :=
  (s.mdl.nextId, s.modMdl fun m => { m with nextId := m.nextId + 1 })

/-! ## Host events -/

/-- The size of the event ring in records, 0 while it is disabled (R365). -/
def Module.evSize (m : Module) : Nat :=
  let sz := slice m.evBase 3 0
  if sz = 0 then 0 else 2 ^ (sz + 8)

/-- The MSI-X vector of an event code (R366). -/
def eventVector (code : Nat) : BitVec 6 :=
  if code ≤ 3 then 1 else if code = 4 then 2 else if code ≤ 6 then 3
  else if code = 7 || code = 15 then 4 else if code ≤ 9 then 5 else if code ≤ 11 then 6
  else if code = 12 then 7 else 8

/-- A host event in master clock t: its record, if the ring takes it, and its vector (R365, R366). Vector 0 is
signalled at the first event that a full ring drops. -/
def Module.event (m : Module) (t code die : Nat) (a : BitVec 32) (b : Word) : Module :=
  let v := eventVector code
  if m.evSize = 0 then { m with evLost := m.evLost.add t, msix := v :: m.msix }
  else if (m.evTail - m.evHead).toNat = m.evSize then
    { m with evLost := m.evLost.add t, evFull := true,
             msix := if m.evFull then m.msix else 0 :: m.msix }
  else
    let at_ := slice m.evBase 63 12 * 4096 + m.evTail.toNat % m.evSize * 16
    let w := memWriteLE m.hostMem at_ 16
      (code + die * 2 ^ 16 + a.toNat * 2 ^ 32 + b.toNat * 2 ^ 64)
    { m with hostMem := w, evTail := m.evTail + 1, evFull := false, msix := v :: m.msix }

/-! ## The Yew record -/

/-- An entry appended to a die's Yew record; the oldest of 4,096 gives way (R384). -/
def State.yewAdd (s : State) (d : Nat) (code : Nat) (core : BitVec 8) (a : BitVec 32) (b c : Word) :
    State :=
  s.modDie d fun k => { k with yew := (⟨BitVec.ofNat 64 s.now, BitVec.ofNat 16 code, BitVec.ofNat 8 d,
    core, a, b, c⟩ :: k.yew).take 4096 }

/-- An entry's 32 bytes as a number (R384). -/
def YewEntry.word (e : YewEntry) : Nat :=
  e.time.toNat + e.code.toNat * 2 ^ 64 + e.die.toNat * 2 ^ 80 + e.core.toNat * 2 ^ 88 +
    e.a.toNat * 2 ^ 96 + e.b.toNat * 2 ^ 128 + e.c.toNat * 2 ^ 192

/-! ## Error banks (R345, R347) -/

def bankFind (l : List ErrBank) (u : BitVec 8) : Option ErrBank := l.find? fun b => b.unit == u

/-- A bank after an error (R347); COUNT stands in bits 47:32 and saturates. -/
def bankRecord (l : List ErrBank) (u : BitVec 8) (ue : Bool) (synd : BitVec 16) (addr : Word) :
    List ErrBank :=
  let word (count : Nat) (sy : Nat) (ovf ueBit : Bool) : Word :=
    BitVec.ofNat 64 (min count 65535 * 2 ^ 32 + sy * 2 ^ 16 + u.toNat * 2 ^ 8 + bit ovf * 8 +
      bit ueBit * 4 + 1)
  match bankFind l u with
  | none => ⟨u, word 1 synd.toNat false ue, addr⟩ :: l
  | some b =>
    let n := slice b.stat 47 32 + 1
    let new : ErrBank :=
      if getBit b.stat 2 || !ue then ⟨u, word n (slice b.stat 31 16) true (getBit b.stat 2), b.addr⟩
      else ⟨u, word n synd.toNat true true, addr⟩
    new :: l.filter fun e => e.unit != u

/-- An error of unit u at die d, local core c: the banks of units below 0x10 stand at the cores. -/
def State.bankAdd (s : State) (d c : Nat) (u : BitVec 8) (ue : Bool) (synd : BitVec 16) (addr : Word) :
    State :=
  if u.toNat < 0x10 then
    s.modCore (12 * d + c) fun k => { k with banks := bankRecord k.banks u ue synd addr }
  else s.modDie d fun k => { k with banks := bankRecord k.banks u ue synd addr }

/-! ## CRC-64 (R339) -/

def crcBit (c : Word) : Word :=
  if getBit c 63 then (c <<< 1) ^^^ 0x42F0E1EBA9EA3693 else c <<< 1

def crcByte (c : Word) (b : Byte) : Word :=
  crcBit (crcBit (crcBit (crcBit (crcBit (crcBit (crcBit (crcBit (c ^^^ (b.setWidth 64 <<< 56)))))))))

def crc64 (c : Word) (l : List Byte) : Word := l.foldl crcByte c

/-- A record of the store stream: address, length and data (R339). -/
def sigBytes (va : Word) (data : List Byte) : List Byte :=
  bytesLE 8 va.toNat ++ bytesLE 4 data.length ++ data

/-- The signature once the records that are known have been appended, in order. -/
def sigDrain (sig : Word) : List SigSlot → Word × List SigSlot
  | [] => (sig, [])
  | e :: r =>
    match e.data with
    | some l => sigDrain (crc64 sig l) r
    | none => (sig, e :: r)

def RankRec.drain (k : RankRec) : RankRec :=
  let r := sigDrain k.sig k.pend
  { k with sig := r.1, pend := r.2 }

/-! ## Runs -/

def Module.run? (m : Module) (id : Nat) : Option Run := m.runs.find? fun r => r.id == id

def Module.modRun (m : Module) (id : Nat) (f : Run → Run) : Module :=
  { m with runs := m.runs.map fun r => if r.id == id then f r else r }

def Run.modRank (r : Run) (k : Nat) (f : RankRec → RankRec) : Run :=
  { r with ranks := r.ranks.zipIdx.map fun e => if e.2 == k then f e.1 else e.1 }

def State.modRank (s : State) (run : Nat) (k : Nat) (f : RankRec → RankRec) : State :=
  s.modMdl fun m => m.modRun run fun r => r.modRank k f

/-- A place added to the stream. -/
def RankRec.push (k : RankRec) (e : SigSlot) : RankRec := ({ k with pend := k.pend ++ [e] } : RankRec).drain

/-- The place of an operation filled with its records. -/
def RankRec.fill (k : RankRec) (src : SigSrc) (key : Nat) (bytes : List Byte) : RankRec :=
  ({ k with pend := k.pend.map fun (e : SigSlot) =>
      if e.src == src && e.key == key && e.data.isNone then { e with data := some bytes } else e } :
    RankRec).drain

/-- A place in the store stream of a DUP node's strand (R339). -/
def State.signSlot (s : State) (n : Strand) (e : SigSlot) : State :=
  if n.cls == 2 then s.modRank n.run n.rank.toNat fun k => k.push e else s

/-- A record whose bytes are known at issue. -/
def State.sign (s : State) (n : Strand) (va : Word) (data : List Byte) : State :=
  s.signSlot n ⟨.job, 0, some (sigBytes va data)⟩

/-- The records of an operation that issued earlier. -/
def State.signFill (s : State) (n : Strand) (src : SigSrc) (key : Nat) (bytes : List Byte) : State :=
  if n.cls == 2 then s.modRank n.run n.rank.toNat fun k => k.fill src key bytes else s

/-- The number of a store's place in the stream: its access number, with its core. -/
def storeKey (c id : Nat) : Nat := 1024 * id + c

end Sys2Proof.Machine
end

