-- ==== Sys2Proof/Machine/Translate.lean ====
section
/-!
DEFINITION. The physical space (R195 to R200), page walks and cached translations (R201 to R205), and
device memory at its homes (R209, R348).
-/
namespace Sys2Proof.Machine

/-! ## The physical space -/

/-- Where a physical address leads (R195). -/
inductive Site where
  | hbm (stack : Nat)
  | vault (c off : Nat)
  | aperture (off : Nat)
  | register (die off : Nat)
  | nowhere
deriving DecidableEq, Repr

/-- The stack of an interleaved address (R199). -/
def stackOf (p : Nat) : Nat :=
  (p / 2 ^ 12 % 32) ^^^ (p / 2 ^ 17 % 32) ^^^ (p / 2 ^ 22 % 32) ^^^ (p / 2 ^ 27 % 32) ^^^
    (p / 2 ^ 32 % 32) ^^^ (p / 2 ^ 37 % 32)

/-- The stack byte of an interleaved address (R199). -/
def stackByte (p : Nat) : Nat := p / 2 ^ 17 % 2 ^ 24 * 4096 + p % 4096

/-- The home die of a stack (R16). -/
def stackDie (k : Nat) : Nat := if k < 16 then k else 48 + (k - 16)

def siteOf (ilv : BitVec 7) (p : Nat) : Site :=
  let i := ilv.toNat * 2 ^ 30
  if p < 32 * i then .hbm (stackOf p)
  else if 0x100000000000 ≤ p && p < 0x101000000000 then
    let o := (p - 0x100000000000) % 0x40000000
    if o / 0x03000000 < 12 then
      .vault ((p - 0x100000000000) / 0x40000000 * 12 + o / 0x03000000) (o % 0x03000000)
    else .nowhere
  else if 0x200000000000 ≤ p && p < 0x300000000000 then .aperture (p - 0x200000000000)
  else if 0x300000000000 ≤ p && p < 0x300000400000 then
    .register ((p - 0x300000000000) / 0x10000) (p % 0x10000)
  else if 0x400000000000 ≤ p && p < 0x800000000000 then
    if p % 2 ^ 41 < 64 * 2 ^ 30 - i then .hbm (p / 2 ^ 41 % 32) else .nowhere
  else .nowhere

def State.site (s : State) (p : Nat) : Site := siteOf s.mdl.ilv p

/-- The home die of a memory address, 64 for what is no memory (R16, R199, R200). -/
def Site.home : Site → Nat
  | .hbm k => stackDie k
  | .vault c _ => dieOf c
  | .aperture _ | .register _ _ | .nowhere => 64

def Site.isMemory : Site → Bool
  | .hbm _ | .vault _ _ => true
  | .aperture _ | .register _ _ | .nowhere => false

/-- Device memory outside the die-reserved parts (R197). -/
def Site.open_ : Site → Bool
  | .hbm _ => true
  | .vault _ o => o < 0x02D40000
  | .aperture _ | .register _ _ | .nowhere => false

/-- The array window of some core (R284). -/
def Site.inWindow : Site → Bool
  | .vault _ o => o < 0x00840000
  | .hbm _ | .aperture _ | .register _ _ | .nowhere => false

/-! ## Memory at its homes -/

/-- Bytes written at their homes; a unit of 32 bytes that one write covers is poisoned no more
(R348). -/
def State.physWrite (s : State) (p : Nat) (l : List Byte) : State :=
  let s := { s with mem := memWriteList s.mem p l }
  if s.mdl.poison.isEmpty then s
  else s.modMdl fun m =>
    { m with poison := m.poison.filter fun u => !(p ≤ 32 * u && 32 * u + 32 ≤ p + l.length) }

def State.poisonedAt (s : State) (p : Nat) : Bool := s.mdl.poison.any fun u => u == p / 32

def State.poisonedIn (s : State) (p n : Nat) : Bool :=
  s.mdl.poison.any fun u => p < 32 * u + 32 && 32 * u < p + n

/-! ## Page walks (R201 to R203) -/

/-- What an access needs of its page: reading, writing, and whether it is LD.d or ST.d (R203, R241). -/
structure Need where
  r : Bool
  w : Bool
  dword : Bool
deriving DecidableEq, Repr

/-- An address that a 64 KiB block of a frame may have for its PLACE (R202, R203). -/
def placeOk (place : Nat) : Site → Bool
  | .hbm _ => place ≤ 1
  | .vault _ o => place == 2 && o < 0x02D40000
  | .aperture _ | .register _ _ => place == 3
  | .nowhere => false

def State.frameOk (s : State) (place frame size : Nat) : Bool :=
  (List.range (size / 65536)).all fun i =>
    let p := frame + 65536 * i
    placeOk place (s.site p) && (place != 0 || p < 2 ^ 46) && (place != 1 || 2 ^ 46 ≤ p)

/-- The PERM causes of an access (R203, R241, and the host aperture while it is off, R383). -/
def State.permBad (s : State) (t : Transl) (n : Need) : Bool :=
  (n.r && !t.rd) || (n.w && !t.w) || (t.place == 3 && !n.dword) ||
    (t.place == 3 && 0x200000000000 ≤ t.frame && t.frame < 0x300000000000 &&
      !(getBit s.mdl.featAccept0 1))

/-- What a walk answers: a leaf or a fault code. -/
inductive WalkOut where
  | leaf (t : Transl)
  | fault (code : BitVec 8)
deriving DecidableEq, Repr

/-- ADDR of an entry, bits 47:12. -/
def pteAddr (e : Word) : Nat := slice e 47 12 * 4096

/-- The reserved bits of every entry are zero (R202). -/
def pteReservedOk (e : Word) : Bool := slice e 63 48 == 0 && slice e 11 7 == 0 && slice e 4 4 == 0

/-- A leaf that maps `size` bytes at va (R203). -/
def State.walkLeaf (s : State) (e : Word) (va size : Nat) : WalkOut :=
  let place := slice e 6 5
  let frame := pteAddr e
  if !pteReservedOk e || frame % size != 0 then .fault 3
  else if !(s.frameOk place frame size) then .fault 4
  else .leaf ⟨va / size * size, size, frame, BitVec.ofNat 2 place, getBit e 3, getBit e 2⟩

/-- A non-leaf entry: its table, or a fault; `align` is what its ADDR must be a multiple of. -/
def State.walkTable (s : State) (e : Word) (align : Nat) : Option (BitVec 8) :=
  if !pteReservedOk e || slice e 6 5 != 0 || slice e 3 2 != 0 || pteAddr e % align != 0 then some 3
  else if (s.site (pteAddr e)).open_ then none else some 4

/-- The walk of a virtual address, its permissions left aside (R203). -/
def State.walk (s : State) (va : Word) : WalkOut :=
  let read (p : Nat) : Word := BitVec.ofNat 64 (memReadLE s.mem p 8)
  let v := va.toNat
  if 2 ^ 48 ≤ v then .fault 1
  else if !(s.site s.mdl.ptroot.toNat).open_ then .fault 4
  else
    let p1 := s.mdl.ptroot.toNat + 8 * (v / 2 ^ 38)
    let e1 := read p1
    if s.poisonedAt p1 then .fault 3
    else if !(getBit e1 0) then .fault 1
    else if getBit e1 1 then .fault 3
    else match s.walkTable e1 65536 with
      | some f => .fault f
      | none =>
        let p2 := pteAddr e1 + 8 * (v / 2 ^ 25 % 8192)
        let e2 := read p2
        if s.poisonedAt p2 then .fault 3
        else if !(getBit e2 0) then .fault 1
        else if getBit e2 1 then s.walkLeaf e2 v 0x2000000
        else match s.walkTable e2 4096 with
          | some f => .fault f
          | none =>
            let p3 := pteAddr e2 + 8 * (v / 2 ^ 16 % 512)
            let e3 := read p3
            if s.poisonedAt p3 then .fault 3
            else if !(getBit e3 0) then .fault 1
            else if !(getBit e3 1) then .fault 3
            else s.walkLeaf e3 v 0x10000

/-- A cached translation of va (R204). -/
def cached (l : List Transl) (va : Word) : Option Transl :=
  l.find? fun t => t.base ≤ va.toNat && va.toNat < t.base + t.size

/-- The physical address that a leaf gives va. -/
def Transl.pa (t : Transl) (va : Word) : Nat := t.frame + (va.toNat - t.base)

/-- A leaf put into a cache of 512 entries. -/
def cacheAdd (l : List Transl) (t : Transl) : List Transl :=
  (t :: l.filter fun u => u != t).take 512

/-- A translation made afresh for a scheduler or engine access: the physical address or a fault. -/
def State.xlate (s : State) (va : Word) (n : Need) : Except (BitVec 8) (Nat × BitVec 2) :=
  match s.walk va with
  | .fault f => .error f
  | .leaf t => if s.permBad t n then .error 2 else .ok (t.pa va, t.place)

/-- The first byte and the length of the virtual page that maps an address. -/
def State.pageAt (s : State) (va : Word) : Option (Nat × Nat) :=
  match s.walk va with
  | .leaf t => some (t.base, t.size)
  | .fault _ => none

def needRead : Need := ⟨true, false, false⟩
def needWrite : Need := ⟨false, true, false⟩

/-- n bytes at a virtual address by the scheduler: each 4 KiB part translated; an uncorrectable error
answers 20. -/
def State.vRead (s : State) (va : Word) : Nat → Except (BitVec 8) (List Byte)
  | 0 => .ok []
  | n + 1 =>
    match s.xlate va needRead with
    | .error f => .error f
    | .ok (p, _) =>
      if s.poisonedAt p then .error 20
      else match s.vRead (va + 1) n with
        | .error f => .error f
        | .ok r => .ok (memRead s.mem p :: r)

/-- Bytes at a virtual address written at their homes, one by one. -/
def State.vBytes (s : State) (va : Word) : List Byte → Except (BitVec 8) State
  | [] => .ok s
  | b :: r =>
    match s.xlate va needWrite with
    | .error f => .error f
    | .ok (p, _) => (s.physWrite p [b]).vBytes (va + 1) r

/-- The 32-byte units that n bytes at a virtual address cover whole, by the addresses of their first bytes. -/
def wholeUnits (va : Word) (n : Nat) : List Word :=
  (List.range (n / 32)).filterMap fun i =>
    let o := (32 - va.toNat % 32) % 32 + 32 * i
    if o + 32 ≤ n then some (va + BitVec.ofNat 64 o) else none

/-- The units that a write at a virtual address has covered whole are poisoned no more (R348). -/
def State.vHeal (s : State) (va : Word) (n : Nat) : State :=
  if s.mdl.poison.isEmpty then s
  else (wholeUnits va n).foldl (fun s v => match s.xlate v needWrite with
    | .ok (p, _) => s.modMdl fun m => { m with poison := m.poison.filter fun u => u != p / 32 }
    | .error _ => s) s

/-- A write at a virtual address by the scheduler. -/
def State.vWrite (s : State) (va : Word) (l : List Byte) : Except (BitVec 8) State :=
  match s.vBytes va l with
  | .error f => .error f
  | .ok s => .ok (s.vHeal va l.length)

/-! ## Invalidation (R205) -/

/-- The bytes lo to lo + n - 1, mapped by one translation, are covered by an invalidation. -/
def pageCovered (kind va lo n : Nat) : Bool :=
  let size := if kind = 1 then 0x10000 else 0x2000000
  let base := va / size * size
  kind == 0 || (lo < base + size && base < lo + n)

/-- A cached translation that an invalidation covers: kind 0 all, kinds 1 and 2 a page of va. -/
def coveredBy (kind va : Nat) (t : Transl) : Bool := pageCovered kind va t.base t.size

/-- An access in flight used a translation that an invalidation covers. -/
def Access.used (a : Access) (kind va : Nat) : Bool :=
  match a.st with
  | .found t => coveredBy kind va t
  | .ready | .onPath => pageCovered kind va a.lo a.len
  | .walking | .failed _ | .faulted _ => false

/-- The accesses in flight, and the stores on store paths, that used a covered translation. -/
def State.covered (s : State) (kind va : Nat) : Inval :=
  { accs := (List.range 768).flatMap fun c =>
      ((s.core c).accs.filter fun a => a.used kind va).map fun a => (c, a.id),
    stores := (List.range 64).flatMap fun d =>
      ((s.die d).path.filter fun p => pageCovered kind va p.lo p.len).map fun p => (d, p.id) }

/-- A held write used a translation that an invalidation drops (R205). -/
def Held.mark (h : Held) (kind va : Nat) : Held :=
  match h.page with
  | some p => { h with old := h.old || pageCovered kind va p.1 p.2 }
  | none => h

/-- What a command has learnt of pages, without what an invalidation covers. -/
def Cmd.forget (q : Cmd) (kind va : Nat) : Cmd :=
  { q with xl := q.xl.filter fun e => match e.leaf with
      | some t => !(coveredBy kind va t)
      | none => true }

/-- TLBINV: caches drop what it covers and BUSY is 1; while it is busy a write only sets DROP. -/
def State.invalidate (s : State) (kind va : Nat) : State :=
  match s.mdl.inval with
  | some _ => s.modMdl fun m => { m with tlbDrop := true, tlbDropAt := s.now }
  | none =>
    let inv := s.covered kind va
    let keep (l : List Transl) : List Transl := l.filter fun t => !(coveredBy kind va t)
    let s := { s with
      cores := s.cores.map fun (k : Core) => { k with tcache := keep k.tcache }
      dies := s.dies.map fun (k : Die) => { k with
        ecache := keep k.ecache, cmds := k.cmds.map fun (q : Cmd) => q.forget kind va,
        contain := k.contain.map fun (h : Held) => h.mark kind va } }
    (s.modMdl fun m => { m with inval := some inv }).laterPick Config.inval .tlbinvComplete

/-- A contained write with a dropped translation has not performed at its home yet (R205, R210, R338). -/
def State.heldOld (s : State) : Bool := (List.range 64).any fun d => (s.die d).contain.any Held.old

/-- BUSY falls once every such access has performed (R205). -/
def State.invalDone (s : State) : State :=
  match s.mdl.inval with
  | none => s
  | some i =>
    let accs := i.accs.filter fun e => (s.core e.1).accs.any fun a => a.id == e.2
    let stores := i.stores.filter fun e => (s.die e.1).path.any fun p => p.id == e.2
    if accs.isEmpty && stores.isEmpty && !s.heldOld then s.modMdl fun m => { m with inval := none }
    else (s.modMdl fun m => { m with inval := some ⟨accs, stores⟩ }).later 1 .tlbinvComplete

/-! ## Die registers (R207) -/

/-- A register of a die's page as it reads. -/
def State.dieReg (s : State) (d off : Nat) : Word :=
  match off with
  | 0x000 => (s.die d).lreq
  | 0x008 => (s.die d).rreq
  | 0x018 => BitVec.ofNat 64 (bit s.mdl.inval.isSome + 2 * bit s.mdl.tlbDrop)
  | 0x020 => s.mdl.ilv.setWidth 64
  | 0x028 => s.mdl.ptroot
  | _ => 0

/-- A TLBINV word: its kind and address (R205). KIND 3 is ignored whatever BUSY is, and leaves DROP as it stands
(DESIGN CHOICE, log 93). -/
def State.tlbinv (s : State) (v : Word) : State :=
  if slice v 1 0 = 3 then s else s.invalidate (slice v 1 0) (slice v 47 16 * 65536)

/-- DROP cleared, unless a TLBINV of the same clock has set it (R205, R7). -/
def State.clearDrop (s : State) : State :=
  s.modMdl fun m => { m with tlbDrop := m.tlbDrop && m.tlbDropAt == s.now }

/-- A program's store to a register of a die's page. -/
def State.setDieReg (s : State) (d off : Nat) (v : Word) : State :=
  match off with
  | 0x000 => s.modDie d fun k => { k with lreq := v }
  | 0x008 => s.modDie d fun k => { k with rreq := v }
  | 0x010 => s.tlbinv v
  | 0x018 => if getBit v 1 then s.clearDrop else s
  | _ => s

end Sys2Proof.Machine
end

