-- ==== Sys2Proof/Machine/Path.lean ====
section
/-!
DEFINITION. Global accesses of slot 1: containment (R336, R337), the store path and visibility (R209,
R210), order (R214 to R217), performing (R239, R240, R220), and faults onto the retry ring (R251 to
R254, R321).
-/
namespace Sys2Proof.Machine

/-! ## Strands -/

def Ctx.runOf (t : Ctx) : Nat :=
  match t.strand with
  | some n => n.run
  | none => 0

def Ctx.rankOf (t : Ctx) : BitVec 4 :=
  match t.strand with
  | some n => n.rank
  | none => 0

/-! ## Containment (R336, R337) -/

/-- The newest held value of a byte by a strand. -/
def heldByte (run : Nat) (rank : BitVec 4) (a : Nat) : List Held → Option Byte
  | [] => none
  | h :: r =>
    match heldByte run rank a r with
    | some b => some b
    | none =>
      if h.run == run && h.rank == rank && h.pa ≤ a && a < h.pa + h.data.length
      then h.data[a - h.pa]? else none

/-- The 64-byte blocks of n bytes at p. -/
def blocksOf (p n : Nat) : List Nat :=
  (List.range ((p + n + 63) / 64 - p / 64)).map (p / 64 + ·)

/-- The lines that a run holds. -/
def linesOf (l : List Held) (run : Nat) : List Nat :=
  ((l.filter fun h => h.run == run).flatMap fun h => blocksOf h.pa h.data.length).eraseDups

/-- The runs that hold lines of a buffer. -/
def holdersOf (l : List Held) : List Nat := (l.map fun h => h.run).eraseDups

def totalLines (l : List Held) : Nat :=
  (holdersOf l).foldl (fun n r => n + (linesOf l r).length) 0

/-- What becomes of a write that is to be held. -/
inductive HoldOut where
  | held (l : List Held)
  | waits
  | overflow
deriving DecidableEq, Repr

def holdWrite (l : List Held) (h : Held) : HoldOut :=
  let l' := l ++ [h]
  if 524288 < (linesOf l' h.run).length then .overflow
  else if 524288 < totalLines l' && (linesOf l h.run).length < (linesOf l' h.run).length then .waits
  else .held l'

/-! ## Visibility and completion (R210, R215 to R217) -/

/-- Every running or parked strand of a run stands on one die (R210). -/
def Module.oneDie (m : Module) (run : Nat) : Bool :=
  match m.run? run with
  | none => true
  | some r =>
    match (r.ranks.filterMap fun k => k.place.map fun p => dieOf p.1) with
    | [] => true
    | d :: ds => ds.all fun e => e == d

/-- A scope whose stores are visible only at their homes (R210, R211). -/
def State.scopeHome (s : State) (run : Nat) (scope : BitVec 3) : Bool :=
  3 ≤ scope.toNat || (scope == 1 && !s.mdl.oneDie run)

/-- The retry ring that a context's entries go to (R321). -/
def State.ringOf (s : State) (c : Nat) (x : Bool) : Nat := (s.ctx c x).ringDie.getD (dieOf c)

/-- The ring entries of a context's strand, in ring order. -/
def State.myEntries (s : State) (c : Nat) (x : Bool) : List RingEntry :=
  let t := s.ctx c x
  (s.die (s.ringOf c x)).ring.filter fun e => e.run == t.runOf && e.rank == t.rankOf

/-- A job whose reads and writes are class-15 global accesses (R284, R302). -/
def Job.isGlobal (j : Job) : Bool :=
  match j.op with
  | .tcvt _ _ _ _ => dSpace j.dd == 2
  | .tzero _ _ | .tadd _ _ _ | .tcheck _ _ => false
  | _ => true

/-- Every global access of a context before number n, of a class in the mask, has performed and is
visible: at its home if `home` says so, else on the store path. -/
def State.accsDone (s : State) (c : Nat) (x : Bool) (n : Nat) (mask : BitVec 16) (home : Bool) : Bool :=
  let k := s.core c
  (k.accs.all fun a => a.x != x || n ≤ a.id || !(getBit mask a.cls.toNat) ||
    (a.st == .onPath && a.place != 3 && !home)) &&
  ((s.myEntries c x).all fun e => (e.core == c && n ≤ e.acc.id) ||
    !(e.acc.kind == .ldacq || getBit mask e.acc.cls.toNat)) &&
  (!(getBit mask 15) || (k.array ++ k.tile).all fun j => j.x != x || n < j.mark || !j.isGlobal)

/-- Every store that a die's path accepted before number n has reached its home. -/
def State.pathDone (s : State) (d n : Nat) : Bool := (s.die d).path.all fun p => n ≤ p.id

/-- The earlier accesses that a fence names have performed and are visible at its scope (R215, R217, R222); an
XFENCE wants them at their homes. -/
def State.holdReady (s : State) (c : Nat) (x : Bool) (h : Hold) : Bool :=
  s.accsDone c x h.upTo h.mask (h.xf || s.scopeHome (s.ctx c x).runOf h.scope)

/-- A mark is the store path's number at the time when the earlier accesses have performed: what one of them
has read from the path was accepted below it (R215, R216). -/
def State.markNow (s : State) (c : Nat) (m : Option Nat) (ready : Bool) : Option Nat :=
  match m with
  | some n => some n
  | none => if ready then some (s.die (dieOf c)).nextPath else none

/-- A fence with its mark, once its earlier accesses have performed. -/
def State.holdMark (s : State) (c : Nat) (x : Bool) (h : Hold) : Hold :=
  { h with mark := s.markNow c h.mark (s.holdReady c x h) }

/-- The stores below a mark are at their homes, where visibility at home is wanted. -/
def State.markDone (s : State) (c : Nat) (home : Bool) : Option Nat → Bool
  | none => false
  | some n => !home || s.pathDone (dieOf c) n

/-- A fence's condition (R215, R217, R222): its accesses have performed, and the stores of the path that they
may have read are visible at its scope. FENCESC at STRAND, GANG and DIE scope acts as FENCE with every
class set. -/
def State.holdDone (s : State) (c : Nat) (x : Bool) (h : Hold) : Bool :=
  if h.xf then s.holdReady c x h
  else s.holdReady c x h && s.markDone c (s.scopeHome (s.ctx c x).runOf h.scope) h.mark

/-! ## Order of two accesses (R214) -/

def rangesMeet (p n q m : Nat) : Bool := p < q + m && q < p + n

/-- An access has left translation, so that its bytes are known. -/
def Access.placed (a : Access) : Bool :=
  match a.st with
  | .ready | .onPath => true
  | .walking | .found _ | .failed _ | .faulted _ => false

/-- An access is still in translation. -/
def Access.inWalk (a : Access) : Bool :=
  match a.st with
  | .walking | .found _ | .failed _ => true
  | .ready | .onPath | .faulted _ => false

/-- Two accesses of one strand overlap, by virtual address or by physical address. -/
def Access.meets (a b : Access) : Bool :=
  rangesMeet a.va.toNat a.size b.va.toNat b.size ||
    (a.placed && b.placed && rangesMeet a.pa a.size b.pa b.size)

def Access.isLoad (a : Access) : Bool :=
  match a.kind with
  | .load | .ldacq | .count => true
  | .store | .strel | .amo | .cas | .afadd => false

def Access.isStore (a : Access) : Bool :=
  match a.kind with
  | .store | .strel => true
  | .load | .ldacq | .count | .amo | .cas | .afadd => false

def Access.isAtomic (a : Access) : Bool :=
  match a.kind with
  | .amo | .cas | .afadd => true
  | .load | .ldacq | .count | .store | .strel => false

/-- A number for the home of an access: a die, or a number of its own for PLACE 3. -/
def Site.homeNo : Site → Nat
  | .aperture _ => 64
  | .register d _ => 65 + d
  | .hbm k => stackDie k
  | .vault c _ => dieOf c
  | .nowhere => 129

def State.homeOf (s : State) (p : Nat) : Nat := (s.site p).homeNo

/-- An earlier access a lets a later one y perform now. Accesses of a context leave translation in their order,
so the bytes of both are known. -/
def State.lets (s : State) (a y : Access) : Bool :=
  let passed := a.st == .onPath && a.place != 3 && !y.isAtomic &&
    (y.isLoad || (y.place != 3 && s.homeOf a.pa == s.homeOf y.pa))
  (!(a.meets y) && a.cls != y.cls) || passed

/-- No earlier access of the strand holds y back (R214, R284). -/
def State.orderOk (s : State) (c : Nat) (y : Access) : Bool :=
  let k := s.core c
  (k.accs.all fun a => a.x != y.x || y.id ≤ a.id || s.lets a y) &&
  ((k.array ++ k.tile).all fun j => j.x != y.x || y.id < j.mark || !j.isGlobal ||
    !(y.cls == 15 || (vaultBase c ≤ y.pa && y.pa < vaultBase c + 0x03000000)))

/-- Every earlier access of the strand has performed and is visible at the scope of y (R216). -/
def State.releaseReady (s : State) (c : Nat) (y : Access) : Bool :=
  s.accsDone c y.x y.id (BitVec.allOnes 16) (s.scopeHome (s.ctx c y.x).runOf y.scope)

/-- The release that STREL and an atomic of scope 1 to 4 make first (R216, R248, R211). -/
def State.releaseOk (s : State) (c : Nat) (y : Access) : Bool :=
  s.releaseReady c y && s.markDone c (s.scopeHome (s.ctx c y.x).runOf y.scope) y.mark

/-- The access makes a release before it performs. -/
def Access.releases (y : Access) : Bool :=
  match y.kind with
  | .strel => true
  | .amo | .cas | .afadd => y.scope != 0
  | .load | .ldacq | .count | .store => false

/-- Releases whose earlier accesses have performed take their mark. -/
def State.markReleases (s : State) (c : Nat) : State :=
  s.modCore c fun k => { k with accs := k.accs.map fun y =>
    if y.releases then { y with mark := s.markNow c y.mark (s.releaseReady c y) } else y }

/-- No store on the die's path reaches the bytes of an atomic: the strand may have read it there (R212). -/
def State.pathClear (s : State) (c : Nat) (y : Access) : Bool :=
  (s.die (dieOf c)).path.all fun p => !(rangesMeet p.pa p.data.length y.pa y.size)

/-- An access may perform now. -/
def State.mayPerform (s : State) (c : Nat) (y : Access) : Bool :=
  y.st == .ready && s.orderOk c y &&
    (match y.kind with
     | .strel => s.releaseOk c y
     | .amo | .cas | .afadd => s.pathClear c y && (y.scope == 0 || s.releaseOk c y)
     | .load | .ldacq | .count | .store => true)

/-! ## Performing -/

/-- The newest value of a byte on a store path (R209). -/
def pathByte (a : Nat) : List PathStore → Option Byte
  | [] => none
  | p :: r =>
    match pathByte a r with
    | some b => some b
    | none => if p.pa ≤ a && a < p.pa + p.data.length then p.data[a - p.pa]? else none

/-- The host address of an aperture offset (R359). -/
def State.hostAddr (s : State) (off : Nat) : Nat := (s.mdl.hapBase.toNat + off) % 2 ^ 64

/-- A byte as die d's loads take it that find no held one: of a die register (R207), of host memory
(R359), on the die's path, or at home (R240). -/
def State.dieByteAt (s : State) (d a : Nat) : Site → Byte
  | .register e off => BitVec.ofNat 8 ((s.dieReg e (off / 8 * 8)).toNat / 2 ^ (8 * (off % 8)))
  | .aperture off => memRead s.mdl.hostMem (s.hostAddr off)
  | .hbm _ | .vault _ _ | .nowhere =>
    match pathByte a (s.die d).path with
    | some b => b
    | none => memRead s.mem a

def State.dieByte (s : State) (d a : Nat) : Byte := s.dieByteAt d a (s.site a)

/-- A byte as a rank's load on die d takes it: the newest held value first (R240, R336). -/
def State.runByte (s : State) (run : Nat) (rank : BitVec 4) (d a : Nat) : Byte :=
  match heldByte run rank a (s.die d).contain with
  | some b => b
  | none => s.dieByte d a

def State.strandByte (s : State) (c : Nat) (x : Bool) (a : Nat) : Byte :=
  let t := s.ctx c x
  s.runByte t.runOf t.rankOf (dieOf c) a

/-- Bytes written at their home: a die register, host memory, or memory (R207, R359). -/
def State.homeWriteAt (s : State) (p : Nat) (l : List Byte) : Site → State
  | .register e off => s.setDieReg e off (BitVec.ofNat 64 (numLE l))
  | .aperture off => s.modMdl fun m => { m with hostMem := memWriteList m.hostMem (s.hostAddr off) l }
  | .hbm _ | .vault _ _ | .nowhere => s.physWrite p l

def State.homeWrite (s : State) (p : Nat) (l : List Byte) : State := s.homeWriteAt p l (s.site p)

/-- Whether a byte would come from a poisoned unit at home (R348). -/
def State.strandPoison (s : State) (c : Nat) (x : Bool) (a : Nat) : Bool :=
  let t := s.ctx c x
  let d := s.die (dieOf c)
  s.poisonedAt a && (heldByte t.runOf t.rankOf a d.contain).isNone && (pathByte a d.path).isNone

/-- A loaded value extended to 64 bits (R114). -/
def extendLoad (n : Nat) (sx : Bool) (v : Nat) : Word :=
  if sx then wrapInt 64 (sextNat v (8 * n)) else BitVec.ofNat 64 v

/-- What a load returns (R240, R207, R359). -/
def State.loadVal (s : State) (c : Nat) (y : Access) : Word :=
  extendLoad y.size y.sx (numLE ((List.range y.size).map fun i => s.strandByte c y.x (y.pa + i)))

def Core.dropAcc (k : Core) (id : Nat) : Core :=
  { k with accs := k.accs.filter fun a => a.id != id }

def Core.putAcc (k : Core) (a : Access) : Core :=
  { k with accs := k.accs.map fun b => if b.id == a.id then a else b }

def Core.acc? (k : Core) (id : Nat) : Option Access := k.accs.find? fun a => a.id == id

/-- The usual latency of an access (R200). -/
def Site.usual (c : Nat) : Site → Nat
  | .vault v _ => if v = c then Config.ownVault else if dieOf v = dieOf c then Config.sameDie
                  else Config.otherDie
  | .hbm k => if stackDie k = dieOf c then Config.ownHbm else Config.otherDie
  | .register d _ => if d = dieOf c then Config.sameDie else Config.otherDie
  | .aperture _ | .nowhere => Config.otherDie

def State.usual (s : State) (c : Nat) (p : Nat) : Nat := (s.site p).usual c

/-- A write of the strand is to be held: the node is SIG or DUP, the target outside every array window
(R336, R284). -/
def State.contained (s : State) (t : Ctx) (p : Nat) : Bool :=
  t.protected_ && !(s.site p).inWindow

/-- The store y made: held, at its local home, or on the store path (R209, R336). -/
def State.makeStore (s : State) (c : Nat) (y : Access) : State :=
  let t := s.ctx c y.x
  let d := dieOf c
  let data := bytesLE y.size y.d0.toNat
  if s.contained t y.pa then
    match holdWrite (s.die d).contain ⟨t.runOf, t.rankOf, y.pa, data, some (y.lo, y.len), false⟩ with
    | .held l => (s.modDie d fun k => { k with contain := l }).modCore c fun k => k.dropAcc y.id
    | .waits => s.later 1 (.containmentLineFreed d)
    | .overflow => s.modCtx c y.x fun t => { t with status := .failing 4 }
  else if (s.site y.pa).home = d then
    (s.physWrite y.pa data).modCore c fun k => k.dropAcc y.id
  else
    let id := (s.die d).nextPath
    let s := s.modDie d fun k =>
      { k with path := k.path ++ [⟨id, c, y.x, t.runOf, y.id, y.pa, data, y.lo, y.len⟩], nextPath := id + 1 }
    (s.modCore c fun k => k.putAcc { y with st := .onPath }).laterPick (s.usual c y.pa)
      (.storeReachHome d id)

/-- The stores of a core that may be made now, made in order. -/
def State.settle (s : State) (c : Nat) : State :=
  (((s.markReleases c).core c).accs.filter Access.isStore).foldl (fun s y =>
    if s.mayPerform c y then s.makeStore c y else s) (s.markReleases c)

/-- The stores of all cores of a die that may be made now. -/
def State.settleDie (s : State) (d : Nat) : State :=
  (List.range 12).foldl (fun s l =>
    if (s.core (12 * d + l)).accs.isEmpty then s else s.settle (12 * d + l)) s

/-- A store of a die's path reaches its home, after the earlier ones to that home (R209); what waits for the
path goes on (R216). -/
def State.storeHome (s : State) (d id : Nat) : State :=
  match (s.die d).path.find? fun p => p.id == id with
  | none => s
  | some p =>
    if (s.die d).path.any fun q => q.id < id && s.homeOf q.pa == s.homeOf p.pa then
      s.later 1 (.storeReachHome d id)
    else
      let s := s.homeWrite p.pa p.data
      let s := s.modDie d fun k => { k with path := k.path.filter fun q => q.id != id }
      (s.modCore p.core fun k => k.dropAcc p.acc).settleDie d

/-! ## Host events and error records -/

/-- The writes to host memory that a die has accepted are sent, in their order: an MSI-X message follows
them (R223). -/
def State.sendAperture (s : State) (d : Nat) : State :=
  ((s.die d).path.filter fun p => s.homeOf p.pa == 64).foldl (fun s p => s.storeHome d p.id) s

/-- A host event raised by a die: its record and its message follow every earlier write of the die (R223,
R365, R366). -/
def State.event (s : State) (code die : Nat) (a : BitVec 32) (b : Word) : State :=
  (s.sendAperture die).modMdl fun m => m.event s.now code die a b

/-- A UE recorded: its bank, ERR_UE and a Yew entry (R347). -/
def State.recordUe (s : State) (d c : Nat) (u : BitVec 8) (synd : BitVec 16) (addr : Word) : State :=
  ((s.bankAdd d c u true synd addr).event 10 d (u.setWidth 32) addr).yewAdd d 1
    (if u.toNat < 0x10 then BitVec.ofNat 8 c else 0xFF) (u.setWidth 32) addr 0

/-! ## Faults onto the retry ring -/

def Access.awaitsValue (a : Access) : Bool := !a.isStore

/-- An entry has returned its value to the strand: one that RPORT has ported. An entry that counts as ported from
the start, of a protected strand or with no register, returns when RACK frees it (R248, R320, R324; log 65). -/
def RingEntry.returned (e : RingEntry) : Bool := e.ported && !e.prot && e.acc.reg != 0

/-- The classes that a faulting or diverted access adds to the diverted set (R251, R252). -/
def Access.diverts (a : Access) : BitVec 16 :=
  if a.kind == .ldacq then BitVec.allOnes 16 else BitVec.ofNat 16 (2 ^ a.cls.toNat)

/-- Whether ring d has room at TAIL (R321). -/
def Die.ringRoom (d : Die) : Bool := d.ring.all fun e => e.idx % 1024 != d.ringTail % 1024

/-- An access appended to its ring as an entry (R320, R321). -/
def State.ringAppend (s : State) (c : Nat) (a : Access) (code : BitVec 8) : State :=
  let t := s.ctx c a.x
  let d := s.ringOf c a.x
  let k := s.die d
  let e : RingEntry :=
    { idx := k.ringTail, run := t.runOf, rank := t.rankOf,
      stage := match t.strand with | some n => n.stage | none => 0,
      core := c, x := a.x, acc := a, code := code,
      ported := t.protected_ || (a.awaitsValue && a.reg == 0), prot := t.protected_, val := 0,
      cont := match t.strand with | some n => n.slot | none => 0,
      nodeId := match t.strand with | some n => n.nodeId | none => 0,
      inst := match t.strand with | some n => n.inst | none => 0,
      seq := t.ringSeq, published := false, done := false, due := none }
  let first := k.ring.isEmpty && k.mirrorEn
  let s := s.modDie d fun k => { k with ring := k.ring ++ [e], ringTail := k.ringTail + 1 }
  let s := s.modCtx c a.x fun t => { t with ringSeq := t.ringSeq + 1, ringDie := some d }
  let s := s.modCore c fun k => k.dropAcc a.id
  let s := if first then s.event 7 d (BitVec.ofNat 32 e.idx) 0 else s
  if k.mirrorEn then s.later 1 (.retryMirrorPublish d) else s

/-- The waiting accesses of a core enter their rings in their strand's order while there is room
(R254). -/
def State.enterRing (s : State) (c : Nat) : State :=
  (s.core c).accs.foldl (fun s a =>
    match a.st with
    | .faulted code =>
      let blocked := (s.core c).accs.any fun b => b.x == a.x && b.id < a.id && b.kind != .count &&
        (match b.st with
         | .faulted _ | .walking | .found _ | .failed _ => true
         | .ready | .onPath => false)
      if !blocked && (s.die (s.ringOf c a.x)).ringRoom then s.ringAppend c a code else s
    | .walking | .found _ | .failed _ | .ready | .onPath => s) s

/-- An access overlaps a ring entry of the strand, or one that waits to enter the ring (R252). -/
def State.meetsRing (s : State) (c : Nat) (a : Access) : Bool :=
  (s.myEntries c a.x).any (fun e => rangesMeet e.acc.va.toNat e.acc.size a.va.toNat a.size) ||
  (s.core c).accs.any fun b => b.x == a.x && b.id < a.id &&
    (match b.st with
     | .faulted _ => b.meets a
     | .walking | .found _ | .failed _ | .ready | .onPath => false)

/-- A later access follows an earlier one onto the ring (R252). -/
def State.mustDivert (s : State) (c : Nat) (a : Access) : Bool :=
  getBit (s.ctx c a.x).diverted a.cls.toNat || s.meetsRing c a

/-- An access marked for the ring, its class joining the diverted set. -/
def State.divert (s : State) (c : Nat) (a : Access) (code : BitVec 8) : State :=
  (s.modCore c fun k => k.putAcc { a with st := .faulted code }).modCtx c a.x fun t =>
    { t with diverted := t.diverted ||| a.diverts }

/-- A later access that must follow a faulted one: it is marked for the ring. A LOOP.SR count read makes no
entry (R139): it is given up, and its bundle asks again once it may issue (log 63). -/
def State.follow (s : State) (c : Nat) (b : Access) : State :=
  if b.kind == .count then
    (s.modCore c fun k => k.dropAcc b.id).modWait c b.x fun w => { w with countWord := none }
  else s.divert c b 0

/-- A fault of an access (R251): it is marked for the ring and later accesses that must follow it
likewise; a LOOP.SR count read ends its strand instead (R139). A later access that has performed, or has
left translation, is not touched. -/
def State.faultAccess (s : State) (c : Nat) (a : Access) (code : BitVec 8) : State :=
  if a.kind == .count then
    (s.modCore c fun k => k.dropAcc a.id).modCtx c a.x fun t => { t with status := .faulted 0 }
  else
    let s := s.divert c a code
    let s := (s.core c).accs.foldl (fun s b =>
      if b.x == a.x && a.id < b.id && b.inWalk && s.mustDivert c b then s.follow c b else s) s
    (s.enterRing c).settle c

/-! ## Translation of an access -/

/-- What an access needs of its page (R203, R241). -/
def Access.need (a : Access) : Need := ⟨!a.isStore, a.isStore || a.isAtomic, a.dword⟩

/-- R206's count of a request of die d. -/
def State.countReq (s : State) (d : Nat) (p : Nat) : State :=
  let h := (s.site p).home
  if h = 64 then s
  else s.modDie d fun k => if h = d then { k with lreq := k.lreq + 1 } else { k with rreq := k.rreq + 1 }

/-- The event that determines a load's value; a read of the host aperture is sent by it first (R359). -/
def State.scheduleLoad (s : State) (c : Nat) (a : Access) : Site → State
  | .aperture _ => s.later 1 (.loadValueReturn c a.id)
  | .hbm _ | .vault _ _ | .register _ _ | .nowhere => s.laterPick (s.usual c a.pa) (.loadValueReturn c a.id)

/-- The event that performs an access which is not a store. -/
def State.schedule (s : State) (c : Nat) (a : Access) : State :=
  if a.isStore then s.settle c
  else if a.isAtomic then s.laterPick (s.usual c a.pa) (.atomicAtHome c a.id)
  else s.scheduleLoad c a (s.site a.pa)

/-- The record of a store whose bytes go to p: none where they lie in an array window (R339, log 87). -/
def State.storeRecord (s : State) (p : Nat) (va : Word) (data : List Byte) : List Byte :=
  if (s.site p).inWindow then [] else sigBytes va data

/-- A store of a DUP strand that has left translation takes its place in the strand's store stream (R339). -/
def State.signMade (s : State) (c : Nat) (a : Access) : State :=
  match (s.ctx c a.x).strand with
  | some n => if a.isStore then
      s.signFill n .store (storeKey c a.id) (s.storeRecord a.pa a.va (bytesLE a.size a.d0.toNat)) else s
  | none => s

/-- An access leaves translation by a leaf: it is counted (R206) and goes on. -/
def State.translated (s : State) (c : Nat) (a : Access) (t : Transl) : State :=
  let a := { a with st := .ready, pa := t.pa a.va, place := t.place, lo := t.base, len := t.size }
  let s := (s.modCore c fun k => k.putAcc a).signMade c a
  (s.countReq (dieOf c) a.pa).schedule c a

/-- The accesses of a context, in their order, leave translation as far as their outcomes are known: one that
leaves is not diverted any more, and its bytes are known to every later one (log 64). -/
def State.leaveWalk (s : State) (c : Nat) (x : Bool) : List Nat → State
  | [] => s
  | id :: r =>
    match (s.core c).acc? id with
    | none => s.leaveWalk c x r
    | some a =>
      if a.x != x then s.leaveWalk c x r
      else match a.st with
        | .walking => s
        | .found t => (s.translated c a t).leaveWalk c x r
        | .failed f => (s.faultAccess c a f).leaveWalk c x r
        | .ready | .onPath | .faulted _ => s.leaveWalk c x r

/-- The outcomes of a context's accesses taken in order. -/
def State.leave (s : State) (c : Nat) (x : Bool) : State :=
  (s.leaveWalk c x ((s.core c).accs.map Access.id)).enterRing c

/-! ## Walks (R204) -/

/-- The 64 KiB page of an access. -/
def Access.page (a : Access) : Nat := a.va.toNat / 65536

/-- The outcome of a leaf for an access: PERM, or the leaf (R203). -/
def State.leafOutcome (s : State) (a : Access) (t : Transl) : AccState :=
  if s.permBad t a.need then .failed 2 else .found t

/-- The outcome of a walk for an access of core c that has waited for it. A leaf whose permissions it meets
joins the cache of its core; a walk that faults leaves nothing behind (R203, R204). -/
def State.walkOutcome (s : State) (c : Nat) (a : Access) : WalkOut → State
  | .fault f => s.modCore c fun k => k.putAcc { a with st := .failed f }
  | .leaf t => s.modCore c fun k =>
      let k := if s.permBad t a.need then k else { k with tcache := cacheAdd k.tcache t }
      k.putAcc { a with st := s.leafOutcome a t }

/-- The accesses of a core that wait for a walk of a page take its outcome. -/
def State.walkCore (s : State) (c page : Nat) (o : WalkOut) : State :=
  let l := (s.core c).accs.filter fun a => a.st == .walking && a.page == page
  if l.isEmpty then s
  else ((l.foldl (fun s a => s.walkOutcome c a o) s).leave c false).leave c true

/-- A miss joins the walk of its page that is in progress, or begins one, under access number n of core c, while
fewer than 64 are; otherwise it waits for a walk to end (R204). -/
def State.beginWalk (s : State) (c page n : Nat) : State :=
  let d := dieOf c
  let ws := (s.die d).walks
  if (ws.any fun w => w.page == page) || 64 ≤ ws.length then s
  else (s.modDie d fun k => { k with walks := k.walks ++ [⟨page, c, n⟩] }).laterPick Config.walk (.pageWalk c n)

/-- A core's miss. -/
def State.miss (s : State) (c : Nat) (a : Access) : State := s.beginWalk c a.page a.id

/-- A miss of an engine, for a command of core c: its walk takes a number of that core that no access has. -/
def State.engWalk (s : State) (c page : Nat) : State :=
  let n := (s.core c).nextAcc
  (s.modCore c fun k => { k with nextAcc := n + 1 }).beginWalk c page n

/-- The misses of a die that wait for room on its walker: those of its cores, then those of its engines. -/
def State.beginWalks (s : State) (d : Nat) : State :=
  let s := (List.range 12).foldl (fun s l =>
    (s.core (12 * d + l)).accs.foldl (fun s a => if a.st == .walking then s.miss (12 * d + l) a else s) s) s
  (s.die d).cmds.foldl (fun s q => match q.need with
    | some p => s.engWalk q.core p
    | none => s) s

/-- What a walk tells an engine of its page. -/
def WalkOut.engPage (page : Nat) : WalkOut → EngPage
  | .leaf t => ⟨page, some t, 0⟩
  | .fault f => ⟨page, none, f⟩

/-- The event by which a command that waited for a walk goes on. -/
def Cmd.goOn (d : Nat) (q : Cmd) : Instr :=
  match q.coll with
  | some e => .collInstanceMeet e.1 e.2
  | none => .engineCompletion d q.id

/-- A command that waits for a page takes the outcome of its walk. -/
def Cmd.learn (q : Cmd) (e : EngPage) : Cmd :=
  if q.need == some e.page then { q with need := none, xl := e :: q.xl.filter fun f => f.page != e.page } else q

/-- The commands of a die that wait for a walk of a page take its outcome and go on. -/
def State.walkCmds (s : State) (d page : Nat) (o : WalkOut) : State :=
  let l := (s.die d).cmds.filter fun q => q.need == some page
  if l.isEmpty then s
  else l.foldl (fun s q => s.later 1 (q.goOn d))
    (s.modDie d fun k => { k with cmds := k.cmds.map fun q => q.learn (o.engPage page) })

/-- A walk's end (R202 to R204): every miss of the die to its page, of a core or of an engine, takes its
outcome. -/
def State.walkDone (s : State) (c id : Nat) : State :=
  let d := dieOf c
  match (s.die d).walks.find? fun w => w.core == c && w.acc == id with
  | none => s
  | some w =>
    let o := s.walk (BitVec.ofNat 64 (w.page * 65536))
    let s := s.modDie d fun k => { k with walks := k.walks.filter fun v => v != w }
    (((List.range 12).foldl (fun s l => s.walkCore (12 * d + l) w.page o) s).walkCmds d w.page o).beginWalks d

/-- What is known of an access at its issue (R239): it is misaligned, its address is no virtual address, or its
core holds a translation. -/
def State.firstOutcome (s : State) (k : Core) (a : Access) : AccState :=
  if a.va.toNat % a.size != 0 then .failed 5
  else if 2 ^ 48 ≤ a.va.toNat then .failed 1
  else match cached k.tcache a.va with
    | some t => s.leafOutcome a t
    | none => .walking

/-- A global access issued by a context (R239, R252): diverted, misaligned, translated, or sent to the
walker. -/
def State.access (s : State) (c : Nat) (a : Access) : State :=
  let k := s.core c
  let a := { a with id := k.nextAcc, st := s.firstOutcome k a }
  let s := s.modCore c fun k => { k with accs := k.accs ++ [a], nextAcc := k.nextAcc + 1 }
  if s.mustDivert c a then (s.follow c a).enterRing c
  else if a.st == .walking then s.miss c a
  else s.leave c a.x

/-! ## Values that return -/

/-- A value delivered to an access's register, or to the LOOP.SR that awaits it; the access ends. -/
def State.deliver (s : State) (c : Nat) (a : Access) (v : Word) : State :=
  let s := s.modCore c fun k => k.dropAcc a.id
  let s := if a.kind == .count then
      s.modWait c a.x fun w => { w with countWord := some (some (v.setWidth 32)) }
    else s.modRegs c a.x fun r => r.landed (.a a.reg v)
  s.settle c

/-- A poisoned byte read ends the strand (R348). -/
def State.poisonEnd (s : State) (c : Nat) (a : Access) : State :=
  (s.modCore c fun k => k.dropAcc a.id).modCtx c a.x fun t => { t with status := .faulted 0 }

/-- A read of the host aperture, sent to the host, which answers with its value (choice 0), with Unsupported
Request (choice 1), with Completer Abort (choice 2), or not at all within 50 ms (R359; log 7). -/
def State.sendRead (s : State) (c : Nat) (a : Access) : State :=
  let p := (s.modCore c fun k => k.putAcc { a with sent := true }).pick 0
  let s := p.2.later Config.aperTimeout (.hostApertureReadTimeout c ⟨a.id, 3⟩)
  let n := s.usual c a.pa
  match p.1 with
  | 0 => s.laterPick n (.loadValueReturn c a.id)
  | 1 => s.laterPick n (.hostApertureReadTimeout c ⟨a.id, 1⟩)
  | 2 => s.laterPick n (.hostApertureReadTimeout c ⟨a.id, 2⟩)
  | _ => s

/-- The access has still to be sent to the host. -/
def State.unsent (s : State) (a : Access) : Bool := !a.sent && s.homeOf a.pa == 64

/-- A load's value is determined (R240); it waits while an earlier access holds it back. -/
def State.loadReturn (s : State) (c id : Nat) : State :=
  match (s.core c).acc? id with
  | none => s
  | some a =>
    if a.st != .ready || !a.isLoad then s
    else if !(s.mayPerform c a) then s.later 1 (.loadValueReturn c id)
    else if s.unsent a then s.sendRead c a
    else if a.place != 3 && (List.range a.size).any fun i => s.strandPoison c a.x (a.pa + i) then
      s.poisonEnd c a
    else s.deliver c a (s.loadVal c a)

/-- The new value of an n-byte word m under AMO function f and operand v (R245). -/
def amoVal (f : BitVec 4) (n : Nat) (m v : Nat) : Nat :=
  let w := 8 * n
  let v := v % 2 ^ w
  match f.toNat with
  | 0 => (m + v) % 2 ^ w
  | 1 => m &&& v
  | 2 => m ||| v
  | 3 => m ^^^ v
  | 4 => if sextNat v w < sextNat m w then v else m
  | 5 => if sextNat m w < sextNat v w then v else m
  | 6 => min m v
  | 7 => max m v
  | _ => v

/-- The word that an atomic stores over m (R245 to R247). -/
def atomicVal (a : Access) (m : Nat) : Nat :=
  match a.kind with
  | .cas => if m == a.d0.toNat % 2 ^ (8 * a.size) then a.d1.toNat % 2 ^ (8 * a.size) else m
  | .afadd =>
    (toF32 ((f32 (BitVec.ofNat 32 m)).add (f32 (low32 a.d0)))).1.toNat
  | .amo | .load | .store | .ldacq | .strel | .count => amoVal a.func a.size m a.d0.toNat

/-- An atomic performed at its home (R220). -/
def State.atomicHome (s : State) (c id : Nat) : State :=
  let s := s.markReleases c
  match (s.core c).acc? id with
  | none => s
  | some a =>
    if a.st != .ready || !a.isAtomic then s
    else if !(s.mayPerform c a) then s.later 1 (.atomicAtHome c id)
    else if s.poisonedIn a.pa a.size then s.poisonEnd c a
    else
      let m := memReadLE s.mem a.pa a.size
      (s.physWrite a.pa (bytesLE a.size (atomicVal a m))).deliver c a (BitVec.ofNat 64 m)


end Sys2Proof.Machine
end

