-- ==== Sys2Proof/Machine/MemSlot.lean ====
section
/-!
DEFINITION. Slot 1: address arithmetic and ring slots (R232 to R236), global loads and stores (R238 to
R243), scratchpad access (R244), atomics (R245 to R249), fences (R250), and the events that complete
them.
-/
namespace Sys2Proof.Machine

/-! ## Address arithmetic -/

/-- An operation of latency 1 that writes a[d] when its guard holds (R232). -/
def addrOp (g : Guard) (d : BitVec 5) (f : Regs → Word) (s : State) : State :=
  let r := s.me.regs
  if guardHolds g r then s.res 1 (.a d (f r)) else s

/-- R97. -/
def execNopS1 (s : State) : Step := perform .nopS1 id s

def execAadd (g : Guard) (d a b : BitVec 5) (s : State) : Step :=
  perform (.aadd g d a b) (addrOp g d fun r => r.aVal a + r.aVal b) s

def execAaddi (g : Guard) (d a : BitVec 5) (i : Imm 8) (s : State) : Step :=
  perform (.aaddi g d a i) (addrOp g d fun r => r.aVal a + wrapInt 64 i.sval) s

def execAsub (g : Guard) (d a b : BitVec 5) (s : State) : Step :=
  perform (.asub g d a b) (addrOp g d fun r => r.aVal a - r.aVal b) s

def execAshli (g : Guard) (d a : BitVec 5) (i : BitVec 6) (s : State) : Step :=
  perform (.ashli g d a i) (addrOp g d fun r => r.aVal a <<< i.toNat) s

def execAlea (g : Guard) (d a b : BitVec 5) (k : BitVec 3) (s : State) : Step :=
  perform (.alea g d a b k) (addrOp g d fun r => r.aVal a + (r.aVal b <<< k.toNat)) s

def execAand (g : Guard) (d a b : BitVec 5) (s : State) : Step :=
  perform (.aand g d a b) (addrOp g d fun r => r.aVal a &&& r.aVal b) s

/-- R233: unguarded. -/
def execAli (d : BitVec 5) (i : Imm 17) (s : State) : Step :=
  perform (.ali d i) (fun s => s.res 1 (.a d (wrapInt 64 i.sval))) s

/-- R234. -/
def execAcmp (g : Guard) (p : BitVec 3) (c : BitVec 2) (a b : BitVec 5) (inv : Bool) (s : State) :
    Step :=
  perform (.acmp g p c a b inv)
    (fun s => let r := s.me.regs
      if guardHolds g r then s.res 1 (.p p (condHolds c (r.aVal a) (r.aVal b) != inv)) else s) s

/-- R235. -/
def execA2s (g : Guard) (d a : BitVec 5) (s : State) : Step :=
  perform (.a2s g d a)
    (fun s => let r := s.me.regs; if guardHolds g r then s.res 2 (.s d (r.aVal a)) else s) s

/-- R236. -/
def execRslot (g : Guard) (d a : BitVec 5) (i : Imm 8) (s : State) : Step :=
  perform (.rslot g d a i) (addrOp g d fun r => rslotVal (r.aVal a) (r.aVal (a + 1)) i.sval) s

/-! ## Global accesses -/

/-- An access that has just issued. -/
def newAccess (x : Bool) (kind : AccKind) (n : Nat) (sx : Bool) (reg : BitVec 5) (va : Word)
    (cls : BitVec 4) : Access :=
  { id := 0, x := x, kind := kind, size := n, sx := sx, dword := false, reg := reg, va := va, cls := cls,
    scope := 0, func := 0, d0 := 0, d1 := 0, st := .walking, pa := 0, place := 0, lo := 0, len := 0,
    mark := none, sent := false }

/-- A load of the open bundle: its destination empties and the access issues (R229, R238). w: it is LD.d. -/
def loadOp (g : Guard) (k : BitVec 4) (d : BitVec 5) (n : Nat) (sx w : Bool) (ea : Regs → Word)
    (s : State) : State :=
  let r := s.me.regs
  if guardHolds g r then
    (s.awaitMe (.a d)).access s.issue.c { newAccess s.issue.x .load n sx d (ea r) k with dword := w }
  else s

/-- The low 8n bits of a register's value. -/
def lowBytes (n : Nat) (v : Word) : Word := BitVec.ofNat 64 (v.toNat % 2 ^ (8 * n))

/-- The next store of the open bundle takes its place in the store stream of a DUP node's strand (R339). -/
def State.signStore (s : State) : State :=
  match s.me.strand with
  | none => s
  | some t => s.signSlot t ⟨.store, storeKey s.issue.c s.myCore.nextAcc, none⟩

/-- A store of the open bundle (R238). w: it is ST.d. -/
def storeOp (g : Guard) (k : BitVec 4) (d : BitVec 5) (n : Nat) (w : Bool) (ea : Regs → Word) (s : State) :
    State :=
  let r := s.me.regs
  if guardHolds g r then
    s.signStore.access s.issue.c
      { newAccess s.issue.x .store n false d (ea r) k with dword := w, d0 := lowBytes n (r.aVal d) }
  else s

def execLdBI (g : Guard) (k : BitVec 4) (d b : BitVec 5) (o : Imm 8) (s : State) : Step :=
  perform (.ldBI g k d b o) (loadOp g k d 1 true false fun r => eaOff (r.aVal b) 1 o.sval) s

def execLdBN (g : Guard) (k : BitVec 4) (d b : BitVec 5) (o : Imm 8) (s : State) : Step :=
  perform (.ldBN g k d b o) (loadOp g k d 1 false false fun r => eaOff (r.aVal b) 1 o.sval) s

def execLdHI (g : Guard) (k : BitVec 4) (d b : BitVec 5) (o : Imm 8) (s : State) : Step :=
  perform (.ldHI g k d b o) (loadOp g k d 2 true false fun r => eaOff (r.aVal b) 2 o.sval) s

def execLdHN (g : Guard) (k : BitVec 4) (d b : BitVec 5) (o : Imm 8) (s : State) : Step :=
  perform (.ldHN g k d b o) (loadOp g k d 2 false false fun r => eaOff (r.aVal b) 2 o.sval) s

def execLdWI (g : Guard) (k : BitVec 4) (d b : BitVec 5) (o : Imm 8) (s : State) : Step :=
  perform (.ldWI g k d b o) (loadOp g k d 4 true false fun r => eaOff (r.aVal b) 4 o.sval) s

def execLdWN (g : Guard) (k : BitVec 4) (d b : BitVec 5) (o : Imm 8) (s : State) : Step :=
  perform (.ldWN g k d b o) (loadOp g k d 4 false false fun r => eaOff (r.aVal b) 4 o.sval) s

def execLdD (g : Guard) (k : BitVec 4) (d b : BitVec 5) (o : Imm 8) (s : State) : Step :=
  perform (.ldD g k d b o) (loadOp g k d 8 false true fun r => eaOff (r.aVal b) 8 o.sval) s

def execLdxBI (g : Guard) (k : BitVec 4) (d b x : BitVec 5) (s : State) : Step :=
  perform (.ldxBI g k d b x) (loadOp g k d 1 true false fun r => eaIdx (r.aVal b) (r.aVal x) 1) s

def execLdxBN (g : Guard) (k : BitVec 4) (d b x : BitVec 5) (s : State) : Step :=
  perform (.ldxBN g k d b x) (loadOp g k d 1 false false fun r => eaIdx (r.aVal b) (r.aVal x) 1) s

def execLdxHI (g : Guard) (k : BitVec 4) (d b x : BitVec 5) (s : State) : Step :=
  perform (.ldxHI g k d b x) (loadOp g k d 2 true false fun r => eaIdx (r.aVal b) (r.aVal x) 2) s

def execLdxHN (g : Guard) (k : BitVec 4) (d b x : BitVec 5) (s : State) : Step :=
  perform (.ldxHN g k d b x) (loadOp g k d 2 false false fun r => eaIdx (r.aVal b) (r.aVal x) 2) s

def execLdxWI (g : Guard) (k : BitVec 4) (d b x : BitVec 5) (s : State) : Step :=
  perform (.ldxWI g k d b x) (loadOp g k d 4 true false fun r => eaIdx (r.aVal b) (r.aVal x) 4) s

def execLdxWN (g : Guard) (k : BitVec 4) (d b x : BitVec 5) (s : State) : Step :=
  perform (.ldxWN g k d b x) (loadOp g k d 4 false false fun r => eaIdx (r.aVal b) (r.aVal x) 4) s

def execLdxD (g : Guard) (k : BitVec 4) (d b x : BitVec 5) (s : State) : Step :=
  perform (.ldxD g k d b x) (loadOp g k d 8 false false fun r => eaIdx (r.aVal b) (r.aVal x) 8) s

def execStB (g : Guard) (k : BitVec 4) (d b : BitVec 5) (o : Imm 8) (s : State) : Step :=
  perform (.stB g k d b o) (storeOp g k d 1 false fun r => eaOff (r.aVal b) 1 o.sval) s

def execStH (g : Guard) (k : BitVec 4) (d b : BitVec 5) (o : Imm 8) (s : State) : Step :=
  perform (.stH g k d b o) (storeOp g k d 2 false fun r => eaOff (r.aVal b) 2 o.sval) s

def execStW (g : Guard) (k : BitVec 4) (d b : BitVec 5) (o : Imm 8) (s : State) : Step :=
  perform (.stW g k d b o) (storeOp g k d 4 false fun r => eaOff (r.aVal b) 4 o.sval) s

def execStD (g : Guard) (k : BitVec 4) (d b : BitVec 5) (o : Imm 8) (s : State) : Step :=
  perform (.stD g k d b o) (storeOp g k d 8 true fun r => eaOff (r.aVal b) 8 o.sval) s

def execStxB (g : Guard) (k : BitVec 4) (d b x : BitVec 5) (s : State) : Step :=
  perform (.stxB g k d b x) (storeOp g k d 1 false fun r => eaIdx (r.aVal b) (r.aVal x) 1) s

def execStxH (g : Guard) (k : BitVec 4) (d b x : BitVec 5) (s : State) : Step :=
  perform (.stxH g k d b x) (storeOp g k d 2 false fun r => eaIdx (r.aVal b) (r.aVal x) 2) s

def execStxW (g : Guard) (k : BitVec 4) (d b x : BitVec 5) (s : State) : Step :=
  perform (.stxW g k d b x) (storeOp g k d 4 false fun r => eaIdx (r.aVal b) (r.aVal x) 4) s

def execStxD (g : Guard) (k : BitVec 4) (d b x : BitVec 5) (s : State) : Step :=
  perform (.stxD g k d b x) (storeOp g k d 8 false fun r => eaIdx (r.aVal b) (r.aVal x) 8) s

/-- An acquire load (R242, R243). -/
def ldacqOp (g : Guard) (k : BitVec 4) (d b : BitVec 5) (sc : BitVec 3) (o : Imm 5) (n : Nat)
    (s : State) : State :=
  let r := s.me.regs
  if guardHolds g r then
    (s.awaitMe (.a d)).access s.issue.c
      { newAccess s.issue.x .ldacq n false d (eaOff (r.aVal b) n o.sval) k with scope := sc }
  else s

/-- A release store (R242, R243). -/
def strelOp (g : Guard) (k : BitVec 4) (d b : BitVec 5) (sc : BitVec 3) (o : Imm 5) (n : Nat)
    (s : State) : State :=
  let r := s.me.regs
  let ea := eaOff (r.aVal b) n o.sval
  if guardHolds g r then
    s.signStore.access s.issue.c
      { newAccess s.issue.x .strel n false d ea k with scope := sc, d0 := lowBytes n (r.aVal d) }
  else s

def execLdacqW (g : Guard) (k : BitVec 4) (d b : BitVec 5) (sc : BitVec 3) (o : Imm 5) (s : State) :
    Step :=
  perform (.ldacqW g k d b sc o) (ldacqOp g k d b sc o 4) s

def execLdacqD (g : Guard) (k : BitVec 4) (d b : BitVec 5) (sc : BitVec 3) (o : Imm 5) (s : State) :
    Step :=
  perform (.ldacqD g k d b sc o) (ldacqOp g k d b sc o 8) s

def execStrelW (g : Guard) (k : BitVec 4) (d b : BitVec 5) (sc : BitVec 3) (o : Imm 5) (s : State) :
    Step :=
  perform (.strelW g k d b sc o) (strelOp g k d b sc o 4) s

def execStrelD (g : Guard) (k : BitVec 4) (d b : BitVec 5) (sc : BitVec 3) (o : Imm 5) (s : State) :
    Step :=
  perform (.strelD g k d b sc o) (strelOp g k d b sc o 8) s

/-! ## Scratchpad access (R244) -/

def sldOp (g : Guard) (d b : BitVec 5) (o : Imm 8) (n : Nat) (s : State) : State :=
  let r := s.me.regs
  if guardHolds g r then
    let a := spadOff (r.aVal b) n o.sval
    let k := s.myCore
    ((s.res 6 (.a d (BitVec.ofNat 64 (k.spadLE s.issue.spad0 a n)))).touch s.issue.c s.issue.x
      ((k.firstBarred a n).map fun p => spadTouch p 0)).stopIf (k.spadBad a n)
  else s

def sstOp (g : Guard) (d b : BitVec 5) (o : Imm 8) (n : Nat) (s : State) : State :=
  let r := s.me.regs
  if guardHolds g r then
    let a := spadOff (r.aVal b) n o.sval
    (s.modCore s.issue.c fun k => { k with spad := k.spadPut k.spad a (bytesLE n (r.aVal d).toNat) }).touch
      s.issue.c s.issue.x ((s.myCore.firstBarred a n).map fun p => spadTouch p 0)
  else s

def execSldW (g : Guard) (k : BitVec 4) (d b : BitVec 5) (o : Imm 8) (s : State) : Step :=
  perform (.sldW g k d b o) (sldOp g d b o 4) s

def execSldD (g : Guard) (k : BitVec 4) (d b : BitVec 5) (o : Imm 8) (s : State) : Step :=
  perform (.sldD g k d b o) (sldOp g d b o 8) s

def execSstW (g : Guard) (k : BitVec 4) (d b : BitVec 5) (o : Imm 8) (s : State) : Step :=
  perform (.sstW g k d b o) (sstOp g d b o 4) s

def execSstD (g : Guard) (k : BitVec 4) (d b : BitVec 5) (o : Imm 8) (s : State) : Step :=
  perform (.sstD g k d b o) (sstOp g d b o 8) s

/-! ## Atomics (R245 to R249) -/

/-- An atomic of the open bundle: the operand or the CAS pair is taken at issue. -/
def atomicOp (g : Guard) (k : BitVec 4) (d b : BitVec 5) (kind : AccKind) (f : BitVec 4) (n : Nat)
    (sc : BitVec 3) (s : State) : State :=
  let r := s.me.regs
  if guardHolds g r then
    (s.awaitMe (.a d)).access s.issue.c
      { newAccess s.issue.x kind n false d (r.aVal b) k with
        scope := sc, func := f, d0 := lowBytes n (r.aVal d),
        d1 := if kind == .cas then lowBytes n (r.aVal (d + 1)) else 0 }
  else s

def execAmo (g : Guard) (k : BitVec 4) (d b : BitVec 5) (f : BitVec 4) (z : Bool) (sc : BitVec 3)
    (s : State) : Step :=
  perform (.amo g k d b f z sc) (atomicOp g k d b .amo f (if z then 8 else 4) sc) s

def execCas (g : Guard) (k : BitVec 4) (d b : BitVec 5) (z : Bool) (sc : BitVec 3) (s : State) :
    Step :=
  perform (.cas g k d b z sc) (atomicOp g k d b .cas 0 (if z then 8 else 4) sc) s

def execAfadd (g : Guard) (k : BitVec 4) (d b : BitVec 5) (sc : BitVec 3) (s : State) : Step :=
  perform (.afadd g k d b sc) (atomicOp g k d b .afadd 0 4 sc) s

/-! ## Fences (R250) -/

/-- A hold placed by a fence of the open bundle; a mask of zero places none. The fence takes a number among the
core's accesses, so that a TCVT of its own bundle or of a later one counts as later (log 66). -/
def fenceOp (mask : BitVec 16) (sc : BitVec 3) (total xf : Bool) (s : State) : State :=
  if mask = 0 then s
  else
    let n := s.myCore.nextAcc
    (s.modCore s.issue.c fun k => { k with nextAcc := n + 1 }).modMe fun t => { t with wait := { t.wait with
      holds := t.wait.holds ++ [⟨mask, sc, total, xf, n, none⟩] } }

def execFence (m : BitVec 16) (sc : BitVec 3) (s : State) : Step :=
  perform (.fence m sc) (fenceOp m sc false false) s

def execFencesc (sc : BitVec 3) (s : State) : Step :=
  perform (.fencesc sc) (fenceOp (BitVec.allOnes 16) sc true false) s

def execXfence (m : BitVec 16) (s : State) : Step :=
  perform (.xfence m) (fenceOp m 3 false true) s

/-! ## Events -/

/-- An event of core c; a number that names no core is a fault of the agenda's. -/
def onCore (c : Nat) (s' : State) : Step := if c < 768 then .next s' else .fault .badEvent

/-- An event of die d. -/
def onDie (d : Nat) (s' : State) : Step := if d < 64 then .next s' else .fault .badEvent

/-- A write of a v register makes a near latch that holds the register invalid (R105). -/
def CtxWait.written (w : CtxWait) (l : Landing) : CtxWait :=
  match l with
  | .v i _ => if w.latch == some i then { w with latch := none } else w
  | .s i _ => { w with barg := w.barg.filter fun b => !(b.complete && b.reg == i) }
  | .a _ _ | .m _ _ | .p _ _ | .t _ _ | .k _ _ => w

/-- A result of fixed latency lands (R99). -/
def execResultLand (c : Nat) (x : Bool) (l : Landing) (s : State) : Step :=
  onCore c (s.modCtx c x fun t => { t with regs := t.regs.landed l, wait := t.wait.written l })

/-- R154: the pause is over. -/
def execPauseEnd (c : Nat) (x : Bool) (s : State) : Step :=
  onCore c (s.modWait c x fun w => if w.pauseTill ≤ s.clk c then { w with pauseTill := 0 } else w)

/-- R240, R243, R139. -/
def execLoadValueReturn (c id : Nat) (s : State) : Step := onCore c (s.loadReturn c id)

/-- R209, R210. -/
def execStoreReachHome (d id : Nat) (s : State) : Step := onDie d (s.storeHome d id)

/-- R220. -/
def execAtomicAtHome (c id : Nat) (s : State) : Step := onCore c (s.atomicHome c id)

/-- R202 to R204. -/
def execPageWalk (c id : Nat) (s : State) : Step := onCore c (s.walkDone c id)

/-- R205. -/
def execTlbinvAll (s : State) : Step := .next (s.invalidate 0 0)
def execTlbinvPage64k (va : BitVec 32) (s : State) : Step := .next (s.invalidate 1 (va.toNat * 65536))
def execTlbinvPage32m (va : BitVec 32) (s : State) : Step := .next (s.invalidate 2 (va.toNat * 65536))
def execTlbinvComplete (s : State) : Step := .next s.invalDone

/-- A read of core c at an aperture offset that completes with Unsupported Request (k = 1) or Completer Abort
(k = 2), or has no completion in 50 ms (k = 3), is recorded and raises HOST_ERR (R346, R359). -/
def State.apertureBad (s : State) (c off : Nat) (k : BitVec 2) : State :=
  let d := dieOf c
  (s.recordUe d (localOf c) 0x18 (k.setWidth 16) (BitVec.ofNat 64 off)).event 11 d (BitVec.ofNat 32 off) 1

/-- R359: such a read returns all ones. -/
def apertureAt (c : Nat) (a : Access) (k : BitVec 2) (s : State) : Site → State
  | .aperture off => (s.apertureBad c off k).deliver c a (BitVec.allOnes 64)
  | .register _ _ | .hbm _ | .vault _ _ | .nowhere => s

/-- It concerns a read that has been sent and waits for its value. -/
def apertureTimeout (c id : Nat) (k : BitVec 2) (s : State) : State :=
  match (s.core c).acc? id with
  | none => s
  | some a => if a.sent && a.isLoad then apertureAt c a k s (s.site a.pa) else s

def execHostApertureReadTimeout (c : Nat) (e : AperEnd) (s : State) : Step :=
  onCore c (apertureTimeout c e.id e.k s)

end Sys2Proof.Machine
end

