-- ==== Sys2Proof/Machine/Vector.lean ====
section
/-!
DEFINITION. Slot 2 (R167 to R193): scratchpad and accumulator access, integer and float lanes,
compares and masks, conversions, reductions, permutations, signatures and seeds.
-/
namespace Sys2Proof.Machine

/-! ## Results of lanes (R168) -/

/-- Lane j is enabled by mask register m. -/
def enabled (r : Regs) (m : BitVec 3) (j : Nat) : Bool := getBit (r.mVal m) j

/-- vd with its enabled lanes replaced. -/
def mergeLanes (r : Regs) (d : BitVec 6) (m : BitVec 3) (f : Nat → Lane) : VReg :=
  ofLanes fun j => if enabled r m j then f j else lane (r.vVal d) j

/-- An operation on enabled lanes with a latency (R168, R171). -/
def laneOp (d : BitVec 6) (m : BitVec 3) (n : Nat) (f : Regs → Nat → Lane) (s : State) : State :=
  let r := s.me.regs
  s.res n (.v d (mergeLanes r d m (f r)))

/-- The flags that the enabled lanes set (R170). -/
def laneFlags (r : Regs) (m : BitVec 3) (f : Nat → Lane × Flags) : Flags :=
  (List.range 64).foldl (fun z j => if enabled r m j then z.or (f j).2 else z) Flags.none

/-- A float operation on enabled lanes: results and flags (R178). -/
def floatOp (d : BitVec 6) (m : BitVec 3) (n : Nat) (f : Regs → Nat → FVal) (s : State) : State :=
  let r := s.me.regs
  (s.res n (.v d (mergeLanes r d m fun j => (toF32 (f r j)).1))).setFlags
    (laneFlags r m fun j => toF32 (f r j))

/-- The effect of the reuse hint and of a read of va on the near latch (R105). -/
def State.latch (s : State) (a : BitVec 6) : State :=
  s.modMe fun t => { t with wait := { t.wait with latch := some a } }

/-! ## Scratchpad access (R172 to R174) -/

/-- An element address: modulo 2^19, bits 1:0 cleared. -/
def elemAddr (v : Int) : Nat := (v % 2 ^ 19).toNat / 4 * 4

def addrVld (r : Regs) (a : BitVec 6) (o : Imm 6) (i : Nat) : Nat :=
  elemAddr ((lane (r.vVal a) 0).toNat + 256 * o.sval + 4 * i)

def addrStrided (r : Regs) (a b : BitVec 6) (i : Nat) : Nat :=
  elemAddr ((lane (r.vVal a) 0).toNat + i * (lane (r.vVal b) 0).toInt)

def addrGather (r : Regs) (a b : BitVec 6) (i : Nat) : Nat :=
  elemAddr ((lane (r.vVal a) 0).toNat + 4 * ((lane (r.vVal b) i).toNat : Int))

/-- The lanes that access, with their addresses. -/
def accessLanes (r : Regs) (m : BitVec 3) (f : Nat → Nat) : List (Nat × Nat) :=
  ((List.range 64).filter fun j => enabled r m j).map fun j => (j, f j)

/-- The largest number of distinct lines that one bank supplies to the valid lanes, at least 1
(R173). -/
def portClocks (k : Core) (ls : List (Nat × Nat)) : Nat :=
  let lines := ((ls.filter fun e => !(k.barred e.2)).map fun e => e.2 / 256).eraseDups
  ((List.range 24).map fun b => (lines.filter fun l => l / 64 == b).length).foldl max 1

/-- The touches of an access: one for each lane whose address is invalid (R172, R227). The rules order no lanes: the
lowest comes first and fills the record (DEDUCED, log 14). -/
def laneTouches (k : Core) (ls : List (Nat × Nat)) : List GuardRec :=
  (ls.filter fun e => k.barred e.2).map fun e => spadTouch e.2 1

/-- The scratchpad port taken for n clocks (R173). -/
def State.takePort (s : State) (n : Nat) : State :=
  s.modCore s.issue.c fun k => { k with portFree := s.clk s.issue.c + n }

/-- A scratchpad load: it reads the scratchpad as it stood before the bundle (R174). -/
def spadLoad (d a : BitVec 6) (m : BitVec 3) (wide : Bool) (f : Regs → Nat → Nat) (s : State) :
    State :=
  let k := s.myCore
  let r := s.me.regs
  let ls := accessLanes r m (f r)
  let c := if wide then portClocks k ls else 1
  let v := mergeLanes r d m fun j =>
    BitVec.ofNat 32 (k.spadLE s.issue.spad0 (f r j) 4)
  ((((s.res (if wide then 5 + c else 6) (.v d v)).takePort c).touches s.issue.c s.issue.x
    (laneTouches k ls)).stopIf (ls.any fun e => k.spadBad e.2 4)).latch a

/-- A scratchpad store: the higher lane's value remains in a word that two lanes write (R172). -/
def spadStore (d a : BitVec 6) (m : BitVec 3) (wide : Bool) (f : Regs → Nat → Nat) (s : State) :
    State :=
  let k := s.myCore
  let r := s.me.regs
  let ls := accessLanes r m (f r)
  let s := s.modCore s.issue.c fun k => ({ k with
    spad := ls.foldl (fun z e => k.spadPut z e.2 (bytesLE 4 (lane (r.vVal d) e.1).toNat)) k.spad } :
      Core).healSpad fun p => !(k.barred p) && ls.any fun e => e.2 ≤ p && p < e.2 + 4
  ((s.takePort (if wide then portClocks k ls else 1)).touches s.issue.c s.issue.x
    (laneTouches k ls)).latch a

def execNopS2 (s : State) : Step := perform .nopS2 id s

def execVld (d a : BitVec 6) (o : Imm 6) (m : BitVec 3) (u : Bool) (s : State) : Step :=
  perform (.vld d a o m u) (spadLoad d a m false fun r i => addrVld r a o i) s

def execVlds (d a b : BitVec 6) (m : BitVec 3) (u : Bool) (s : State) : Step :=
  perform (.vlds d a b m u) (spadLoad d a m true fun r i => addrStrided r a b i) s

def execVgath (d a b : BitVec 6) (m : BitVec 3) (u : Bool) (s : State) : Step :=
  perform (.vgath d a b m u) (spadLoad d a m true fun r i => addrGather r a b i) s

def execVst (d a : BitVec 6) (o : Imm 6) (m : BitVec 3) (u : Bool) (s : State) : Step :=
  perform (.vst d a o m u) (spadStore d a m false fun r i => addrVld r a o i) s

def execVsts (d a b : BitVec 6) (m : BitVec 3) (u : Bool) (s : State) : Step :=
  perform (.vsts d a b m u) (spadStore d a m true fun r i => addrStrided r a b i) s

def execVscat (d a b : BitVec 6) (m : BitVec 3) (u : Bool) (s : State) : Step :=
  perform (.vscat d a b m u) (spadStore d a m true fun r i => addrGather r a b i) s

/-! ## Accumulator access (R175) -/

/-- The accumulator row of VLDACC and VSTACC. -/
def accRowOf (r : Regs) (a : BitVec 6) (o : Imm 6) : Nat :=
  (((lane (r.vVal a) 0).toNat + o.sval) % 2 ^ 14).toNat

/-- The touch of a row out of range, when some lane is enabled. -/
def rowTouch (r : Regs) (m : BitVec 3) (ar : Nat) : Option GuardRec :=
  if 12288 ≤ ar && r.mVal m != 0 then some (accTouch ar 1) else none

/-- It reads the row as it stood before the bundle (R176). -/
def execVldacc (d a : BitVec 6) (o : Imm 6) (m : BitVec 3) (u : Bool) (s : State) : Step :=
  perform (.vldacc d a o m u)
    (fun s => let r := s.me.regs
      let ar := accRowOf r a o
      let row := if 12288 ≤ ar then 0 else accRow s.issue.acc0 ar
      (((s.res 6 (.v d (mergeLanes r d m fun j => lane row j))).touch s.issue.c s.issue.x
        (rowTouch r m ar)).stopIf (s.myCore.accPoison.any fun u => lanesMeet u ar (enabled r m))).latch a) s

def execVstacc (d a : BitVec 6) (o : Imm 6) (m : BitVec 3) (u : Bool) (s : State) : Step :=
  perform (.vstacc d a o m u)
    (fun s => let r := s.me.regs
      let ar := accRowOf r a o
      let s := if 12288 ≤ ar then s else
        s.modCore s.issue.c fun k => (k.storeRow ar (ofLanes fun j =>
          if enabled r m j then lane (r.vVal d) j else lane (accRow k.acc ar) j)).healAcc
            fun u => lanesFill u ar (enabled r m)
      (s.touch s.issue.c s.issue.x (rowTouch r m ar)).latch a) s

/-! ## Integer lanes (R177) -/

/-- The element width of a sub-op. -/
def elemWidth (w : BitVec 3) : Nat := if w = 0 then 32 else if w = 1 then 16 else 8

/-- A lane computed element by element: f takes the width and the two elements. -/
def elementwise (w : BitVec 3) (f : Nat → Nat → Nat → Int) (a b : Lane) : Lane :=
  let n := elemWidth w
  BitVec.ofNat 32 (packNat n ((List.range (32 / n)).map fun i =>
    (f n (a.toNat / 2 ^ (n * i) % 2 ^ n) (b.toNat / 2 ^ (n * i) % 2 ^ n) % 2 ^ n).toNat))

/-- A binary integer operation of slot 2. -/
def intOp (d a b : BitVec 6) (m : BitVec 3) (w : BitVec 3) (f : Nat → Nat → Nat → Int) (s : State) :
    State :=
  (laneOp d m 4 (fun r j => elementwise w f (lane (r.vVal a) j) (lane (r.vVal b) j)) s).latch a

def execVadd (d a b : BitVec 6) (m : BitVec 3) (u : Bool) (w : BitVec 3) (s : State) : Step :=
  perform (.vadd d a b m u w) (intOp d a b m w fun _ p q => (p : Int) + q) s

def execVsub (d a b : BitVec 6) (m : BitVec 3) (u : Bool) (w : BitVec 3) (s : State) : Step :=
  perform (.vsub d a b m u w) (intOp d a b m w fun _ p q => (p : Int) - q) s

def execVmul (d a b : BitVec 6) (m : BitVec 3) (u : Bool) (w : BitVec 3) (s : State) : Step :=
  perform (.vmul d a b m u w) (intOp d a b m w fun _ p q => (p : Int) * q) s

def execVmulhi (d a b : BitVec 6) (m : BitVec 3) (u : Bool) (w : BitVec 3) (s : State) : Step :=
  perform (.vmulhi d a b m u w)
    (intOp d a b m w fun n p q => sextNat p n * sextNat q n / 2 ^ n) s

def execVmin (d a b : BitVec 6) (m : BitVec 3) (u : Bool) (w : BitVec 3) (s : State) : Step :=
  perform (.vmin d a b m u w)
    (intOp d a b m w fun n p q => if sextNat q n < sextNat p n then q else p) s

def execVmax (d a b : BitVec 6) (m : BitVec 3) (u : Bool) (w : BitVec 3) (s : State) : Step :=
  perform (.vmax d a b m u w)
    (intOp d a b m w fun n p q => if sextNat p n < sextNat q n then q else p) s

def execVminn (d a b : BitVec 6) (m : BitVec 3) (u : Bool) (w : BitVec 3) (s : State) : Step :=
  perform (.vminn d a b m u w) (intOp d a b m w fun _ p q => if q < p then q else p) s

def execVmaxn (d a b : BitVec 6) (m : BitVec 3) (u : Bool) (w : BitVec 3) (s : State) : Step :=
  perform (.vmaxn d a b m u w) (intOp d a b m w fun _ p q => if p < q then q else p) s

/-- Bitwise operations do not depend on the element width (R177). -/
def bitOp (d a b : BitVec 6) (m : BitVec 3) (f : Lane → Lane → Lane) (s : State) : State :=
  (laneOp d m 4 (fun r j => f (lane (r.vVal a) j) (lane (r.vVal b) j)) s).latch a

def execVand (d a b : BitVec 6) (m : BitVec 3) (u : Bool) (w : BitVec 3) (s : State) : Step :=
  perform (.vand d a b m u w) (bitOp d a b m fun p q => p &&& q) s

def execVor (d a b : BitVec 6) (m : BitVec 3) (u : Bool) (w : BitVec 3) (s : State) : Step :=
  perform (.vor d a b m u w) (bitOp d a b m fun p q => p ||| q) s

def execVxor (d a b : BitVec 6) (m : BitVec 3) (u : Bool) (w : BitVec 3) (s : State) : Step :=
  perform (.vxor d a b m u w) (bitOp d a b m fun p q => p ^^^ q) s

def execVshl (d a b : BitVec 6) (m : BitVec 3) (u : Bool) (w : BitVec 3) (s : State) : Step :=
  perform (.vshl d a b m u w) (intOp d a b m w fun n p q => ((p * 2 ^ (q % n) : Nat) : Int)) s

def execVshr (d a b : BitVec 6) (m : BitVec 3) (u : Bool) (w : BitVec 3) (s : State) : Step :=
  perform (.vshr d a b m u w) (intOp d a b m w fun n p q => ((p / 2 ^ (q % n) : Nat) : Int)) s

def execVsar (d a b : BitVec 6) (m : BitVec 3) (u : Bool) (w : BitVec 3) (s : State) : Step :=
  perform (.vsar d a b m u w) (intOp d a b m w fun n p q => sextNat p n / 2 ^ (q % n)) s

def execVabs (d a : BitVec 6) (m : BitVec 3) (u : Bool) (w : BitVec 3) (s : State) : Step :=
  perform (.vabs d a m u w) (intOp d a a m w fun n p _ => ((sextNat p n).natAbs : Int)) s

/-! ## Float lanes (R178, R179) -/

def vf (r : Regs) (a : BitVec 6) (j : Nat) : FVal := f32 (lane (r.vVal a) j)

def execVfadd (d a b : BitVec 6) (m : BitVec 3) (u : Bool) (s : State) : Step :=
  perform (.vfadd d a b m u)
    (fun s => (floatOp d m 4 (fun r j => (vf r a j).add (vf r b j)) s).latch a) s

def execVfsub (d a b : BitVec 6) (m : BitVec 3) (u : Bool) (s : State) : Step :=
  perform (.vfsub d a b m u)
    (fun s => (floatOp d m 4 (fun r j => (vf r a j).add (vf r b j).neg) s).latch a) s

def execVfmul (d a b : BitVec 6) (m : BitVec 3) (u : Bool) (s : State) : Step :=
  perform (.vfmul d a b m u)
    (fun s => (floatOp d m 4 (fun r j => (vf r a j).mul (vf r b j)) s).latch a) s

/-- ±(a * b) ± d (R178): sub-op bit 1 negates the product, bit 0 negates d. -/
def fmaVal (sub : BitVec 3) (a b d : FVal) : FVal :=
  let p := a.mul b
  (if sub.getLsbD 1 then p.neg else p).add (if sub.getLsbD 0 then d.neg else d)

def execVfma (d a b : BitVec 6) (m : BitVec 3) (u : Bool) (sub : BitVec 3) (s : State) : Step :=
  perform (.vfma d a b m u sub)
    (fun s => (floatOp d m 4 (fun r j => fmaVal sub (vf r a j) (vf r b j) (vf r d j)) s).latch a) s

def execVfmin (d a b : BitVec 6) (m : BitVec 3) (u : Bool) (s : State) : Step :=
  perform (.vfmin d a b m u)
    (fun s => (floatOp d m 4 (fun r j => (vf r a j).least (vf r b j)) s).latch a) s

def execVfmax (d a b : BitVec 6) (m : BitVec 3) (u : Bool) (s : State) : Step :=
  perform (.vfmax d a b m u)
    (fun s => (floatOp d m 4 (fun r j => (vf r a j).greatest (vf r b j)) s).latch a) s

def execVfdiv (d a b : BitVec 6) (m : BitVec 3) (u : Bool) (s : State) : Step :=
  perform (.vfdiv d a b m u)
    (fun s => (floatOp d m 12 (fun r j => (vf r a j).div (vf r b j)) s).latch a) s

def execVfsqrt (d a : BitVec 6) (m : BitVec 3) (u : Bool) (s : State) : Step :=
  perform (.vfsqrt d a m u) (fun s => (floatOp d m 12 (fun r j => (vf r a j).sqrt) s).latch a) s

def execVfrsqrt (d a : BitVec 6) (m : BitVec 3) (u : Bool) (s : State) : Step :=
  perform (.vfrsqrt d a m u) (fun s => (floatOp d m 12 (fun r j => (vf r a j).rsqrt) s).latch a) s

def execVfexp2 (d a : BitVec 6) (m : BitVec 3) (u : Bool) (s : State) : Step :=
  perform (.vfexp2 d a m u) (fun s => (floatOp d m 12 (fun r j => (vf r a j).exp2) s).latch a) s

def execVflog2 (d a : BitVec 6) (m : BitVec 3) (u : Bool) (s : State) : Step :=
  perform (.vflog2 d a m u) (fun s => (floatOp d m 12 (fun r j => (vf r a j).log2) s).latch a) s

/-! ## Compares, selects and masks (R180 to R183) -/

/-- A mask word from one bit for each lane. -/
def maskOf (f : Nat → Bool) : Word :=
  BitVec.ofNat 64 (packNat 1 ((List.range 64).map fun j => bit (f j)))

def execVcmp (d : BitVec 3) (a b : BitVec 6) (m : BitVec 3) (u : Bool) (c : BitVec 3) (s : State) :
    Step :=
  perform (.vcmp d a b m u c)
    (fun s => let r := s.me.regs
      (s.res 4 (.m d (maskOf fun j =>
        enabled r m j && vcmpHolds c (lane (r.vVal a) j) (lane (r.vVal b) j)))).latch a) s

def execVfcmp (d : BitVec 3) (a b : BitVec 6) (m : BitVec 3) (u : Bool) (c : BitVec 3) (s : State) :
    Step :=
  perform (.vfcmp d a b m u c)
    (fun s => let r := s.me.regs
      (s.res 4 (.m d (maskOf fun j =>
        enabled r m j && vfcmpHolds c (lane (r.vVal a) j) (lane (r.vVal b) j)))).latch a) s

/-- The mask selects; every lane is written (R181). -/
def execVsel (d a b : BitVec 6) (m : BitVec 3) (u : Bool) (s : State) : Step :=
  perform (.vsel d a b m u)
    (fun s => let r := s.me.regs
      (s.res 4 (.v d (ofLanes fun j =>
        if enabled r m j then lane (r.vVal a) j else lane (r.vVal b) j))).latch a) s

def execMlog (d a b : BitVec 3) (t : BitVec 4) (s : State) : Step :=
  perform (.mlog d a b t)
    (fun s => let r := s.me.regs
      s.res 4 (.m d (maskOf fun j => truth t (getBit (r.mVal a) j) (getBit (r.mVal b) j)))) s

def execMpopc (d : BitVec 6) (a m : BitVec 3) (s : State) : Step :=
  perform (.mpopc d a m)
    (fun s => let r := s.me.regs
      let n := oneBits (r.mVal a &&& r.mVal m).toNat 64
      s.res 4 (.v d (ofLanes fun _ => BitVec.ofNat 32 n))) s

/-- Differing conditions trap VUNI (see `trapsOf`). -/
def execVuni (p : BitVec 3) (a : BitVec 6) (m : BitVec 3) (u : Bool) (s : State) : Step :=
  perform (.vuni p a m u)
    (fun s => (s.res 4 (.p p ((vuniCond s.me.regs a (m.setWidth 6)).getD false))).latch a) s

def execVuniM (p a m : BitVec 3) (s : State) : Step :=
  perform (.vuniM p a m)
    (fun s => s.res 4 (.p p ((vuniMCond s.me.regs a m).getD false))) s

/-! ## Conversion (R184 to R186) -/

/-- The random value of result element j under SR, 0 under another mode (R86). -/
def drawAt (t : Ctx) (mode j : Nat) : Nat := if mode == 4 then srBits t.srkey t.srctr j else 0

/-- The SR counter advanced past n draws, under SR only (R86). -/
def State.drew (s : State) (mode n : Nat) : State :=
  if mode == 4 then s.modMe fun t => { t with srctr := t.srctr + BitVec.ofNat 64 n } else s

/-- The exact value of a lane's source element (R184). -/
def cvtSource (ty : BitVec 3) (v : Lane) : FVal :=
  match ty.toNat with
  | 0 => f32 v
  | 1 => bf16.value (v.toNat % 2 ^ 16)
  | 2 => e4m3.value (v.toNat % 2 ^ 8)
  | 3 => FVal.ofInt v.toInt
  | 4 => FVal.ofInt v.toNat
  | 5 => FVal.ofInt (sextNat v.toNat 16)
  | 6 => FVal.ofInt (sextNat v.toNat 8)
  | _ => FVal.ofInt (v.toNat % 2 ^ 8 : Nat)

/-- The destination lane and its flags (R184). -/
def cvtDest (ty : BitVec 3) (mode b : Nat) (v : FVal) : Lane × Flags :=
  let int (lo hi : Int) : Lane × Flags :=
    let r := v.toIntSat lo hi mode b
    (wrapInt 32 r.1, ⟨false, false, r.2⟩)
  let flt (f : FloatFmt) : Lane × Flags :=
    let r := f.round mode b v
    (BitVec.ofNat 32 r.1, r.2)
  match ty.toNat with
  | 0 => flt fp32
  | 1 => flt bf16
  | 2 => flt e4m3
  | 3 => int (-(2 ^ 31)) (2 ^ 31 - 1)
  | 4 => int 0 (2 ^ 32 - 1)
  | 5 => int (-(2 ^ 15)) (2 ^ 15 - 1)
  | 6 => int (-128) 127
  | _ => int 0 255

def execVcvt (d a : BitVec 6) (src dst m : BitVec 3) (u : Bool) (c : BitVec 3) (s : State) : Step :=
  perform (.vcvt d a src dst m u c)
    (fun s => let t := s.me
      let r := t.regs
      let f (j : Nat) : Lane × Flags :=
        cvtDest dst c.toNat (drawAt t c.toNat j) (cvtSource src (lane (r.vVal a) j))
      (((s.res 4 (.v d (mergeLanes r d m fun j => (f j).1))).setFlags (laneFlags r m f)).drew
        c.toNat 64).latch a) s

/-- MX block k of VMXQ (R185). -/
def vmxqBlock (t : Ctx) (a : BitVec 6) (f mode k : Nat) : MxBlock × Flags :=
  mxq (mxFrac f) mode (fun j => drawAt t mode (32 * k + j))
    ((List.range 32).map fun j => vf t.regs a (32 * k + j))

/-- All 64 lanes are written; USEFMT takes FMT.RND (R185). -/
def execVmxq (d a : BitVec 6) (uf : Bool) (o : BitVec 3) (u : Bool) (f : BitVec 2) (s : State) :
    Step :=
  perform (.vmxq d a uf o u f)
    (fun s => let t := s.me
      let mode := if uf then fmtRnd t.fmt else o.toNat
      let b0 := vmxqBlock t a f.toNat mode 0
      let b1 := vmxqBlock t a f.toNat mode 1
      let v := ofLanes fun j =>
        let b := if j < 32 then b0.1 else b1.1
        BitVec.ofNat 32 ((b.codes.getD (j % 32) 0 % 2 ^ 8).toNat + b.scale * 2 ^ 8)
      (((s.res 8 (.v d v)).setFlags (b0.2.or b1.2)).drew mode 64).latch a) s

def execVmxd (d a : BitVec 6) (m : BitVec 3) (u : Bool) (f : BitVec 2) (s : State) : Step :=
  perform (.vmxd d a m u f)
    (fun s => (floatOp d m 4 (fun r j =>
      let v := (lane (r.vVal a) j).toNat
      mxValue (mxFrac f.toNat) (v / 2 ^ 8 % 2 ^ 8) (sextNat v (mxFrac f.toNat + 2))) s).latch a) s

/-- The element width of VPACK and VUNPACK (R186). -/
def packWidth (b : BitVec 3) : Nat :=
  match b.toNat with
  | 0 => 16
  | 1 => 8
  | 2 => 6
  | _ => 4

/-- vd is also a source: only the enabled elements of part p change (R186). -/
def packVal (r : Regs) (d a : BitVec 6) (p m b : BitVec 3) : VReg :=
  let w := packWidth b
  let part := BitVec.ofNat 2048 ((2 ^ (64 * w) - 1) * 2 ^ (64 * w * p.toNat))
  let old := (r.vVal d).toNat / 2 ^ (64 * w * p.toNat)
  let new := packNat w ((List.range 64).map fun i =>
    if enabled r m i then (lane (r.vVal a) i).toNat % 2 ^ w else old / 2 ^ (w * i) % 2 ^ w)
  (r.vVal d &&& ~~~part) ||| BitVec.ofNat 2048 (new * 2 ^ (64 * w * p.toNat))

def execVpack (d a : BitVec 6) (p m : BitVec 3) (u : Bool) (b : BitVec 3) (s : State) : Step :=
  perform (.vpack d a p m u b)
    (fun s => (s.res 4 (.v d (packVal s.me.regs d a p m b))).latch a) s

def execVunpack (d a : BitVec 6) (sx : Bool) (p m : BitVec 3) (u : Bool) (b : BitVec 3) (s : State) :
    Step :=
  perform (.vunpack d a sx p m u b)
    (fun s => (laneOp d m 4 (fun r i =>
      let w := packWidth b
      let e := (r.vVal a).toNat / 2 ^ (64 * w * p.toNat + w * i) % 2 ^ w
      if sx then wrapInt 32 (sextNat e w) else BitVec.ofNat 32 e) s).latch a) s

/-! ## Reductions and permutations (R187, R188, R90) -/

/-- One level of the tree of R90. -/
def treeLevel {α : Type} (op : α → α → α) : List α → List α
  | x :: y :: r => op x y :: treeLevel op r
  | l => l

/-- The tree of R90 over 64 values. -/
def tree64 {α : Type} (op : α → α → α) (z : α) (l : List α) : α :=
  let t := treeLevel op
  (t (t (t (t (t (t l)))))).headD z

/-- A result in lane 0, zeros in the others. -/
def lane0 (v : Lane) : VReg := BitVec.ofNat 2048 v.toNat

def redOp (o : BitVec 3) (x y : Lane) : Lane :=
  match o.toNat with
  | 0 => x + y
  | 1 => if y.slt x then y else x
  | 2 => if x.slt y then y else x
  | 3 => if y.ult x then y else x
  | 4 => if x.ult y then y else x
  | 5 => x &&& y
  | 6 => x ||| y
  | _ => x ^^^ y

def redIdentity (o : BitVec 3) : Lane :=
  match o.toNat with
  | 1 => 0x7FFFFFFF
  | 2 => 0x80000000
  | 3 => 0xFFFFFFFF
  | 5 => 0xFFFFFFFF
  | _ => 0

def execVred (d a : BitVec 6) (m : BitVec 3) (u : Bool) (o : BitVec 3) (s : State) : Step :=
  perform (.vred d a m u o)
    (fun s => let r := s.me.regs
      let w := (List.range 64).map fun j =>
        if enabled r m j then lane (r.vVal a) j else redIdentity o
      (s.res 10 (.v d (lane0 (tree64 (redOp o) 0 w)))).latch a) s

/-- A node of VFRED's tree, with the overflows of its additions (R187). -/
def fredOp (o : BitVec 3) (x y : Lane × Bool) : Lane × Bool :=
  let p := f32 x.1
  let q := f32 y.1
  let r := toF32 (match o.toNat with
    | 0 => p.add q
    | 1 => p.least q
    | _ => p.greatest q)
  (r.1, x.2 || y.2 || r.2.ovf)

def fredIdentity (o : BitVec 3) : Lane :=
  match o.toNat with
  | 0 => 0x80000000
  | 1 => 0x7F800000
  | _ => 0xFF800000

/-- NF by the result in lane 0, OVF by any addition; no flag where no lane is enabled (R187). -/
def execVfred (d a : BitVec 6) (m : BitVec 3) (u : Bool) (o : BitVec 3) (s : State) : Step :=
  perform (.vfred d a m u o)
    (fun s => let r := s.me.regs
      let w := (List.range 64).map fun j =>
        (if enabled r m j then lane (r.vVal a) j else fredIdentity o, false)
      let z := tree64 (fredOp o) (0, false) w
      let none_ := r.mVal m == 0
      let v := if none_ then fredIdentity o else z.1
      ((s.res 10 (.v d (lane0 v))).setFlags
        (if none_ then Flags.none else ⟨fp32.nonFinite v.toNat, z.2, false⟩)).latch a) s

def execVperm (d a b : BitVec 6) (m : BitVec 3) (u : Bool) (s : State) : Step :=
  perform (.vperm d a b m u)
    (fun s => (laneOp d m 4 (fun r j =>
      lane (r.vVal a) ((lane (r.vVal b) j).toNat % 64)) s).latch a) s

/-- An immediate, or lane 0 of vb, modulo 64 (R188). -/
def laneCount (r : Regs) (b : BitVec 6) (sub : BitVec 3) : Nat :=
  if sub = 0 then b.toNat else (lane (r.vVal b) 0).toNat % 64

def execVrot (d a b : BitVec 6) (m : BitVec 3) (u : Bool) (sub : BitVec 3) (s : State) : Step :=
  perform (.vrot d a b m u sub)
    (fun s => (laneOp d m 4 (fun r j =>
      lane (r.vVal a) ((j + laneCount r b sub) % 64)) s).latch a) s

def execVbcast (d a b : BitVec 6) (m : BitVec 3) (u : Bool) (sub : BitVec 3) (s : State) : Step :=
  perform (.vbcast d a b m u sub)
    (fun s => (laneOp d m 4 (fun r _ => lane (r.vVal a) (laneCount r b sub)) s).latch a) s

/-! ## Signatures, non-finite checks and seeds (R189 to R191) -/

/-- (x * 2^32 + y) mod P, P = 2^32 - 5 (R189). -/
def sigFold (x y : Lane) : Lane := BitVec.ofNat 32 ((x.toNat * 2 ^ 32 + y.toNat) % (2 ^ 32 - 5))

def execVsigf (d a : BitVec 6) (m : BitVec 3) (u : Bool) (s : State) : Step :=
  perform (.vsigf d a m u)
    (fun s => (laneOp d m 4 (fun r j =>
      sigFold (lane (r.vVal d) j) (lane (r.vVal a) j)) s).latch a) s

def execVsigr (d a : BitVec 6) (m : BitVec 3) (u : Bool) (s : State) : Step :=
  perform (.vsigr d a m u)
    (fun s => let r := s.me.regs
      let w := (List.range 64).map fun j =>
        if enabled r m j then sigFold 0 (lane (r.vVal a) j) else 0
      (s.res 10 (.v d (lane0 (tree64 sigFold 0 w)))).latch a) s

/-- A lane holds a non-finite value in a format (R190). -/
def laneNonFinite (sub : BitVec 3) (v : Lane) : Bool :=
  match sub.toNat with
  | 0 => fp32.nonFinite v.toNat
  | 1 => bf16.nonFinite (v.toNat % 2 ^ 16) || bf16.nonFinite (v.toNat / 2 ^ 16)
  | _ => (List.range 4).any fun i => v.toNat / 2 ^ (8 * i) % 2 ^ 7 == 0x7F

def execVnfs (a : BitVec 6) (m : BitVec 3) (u : Bool) (sub : BitVec 3) (s : State) : Step :=
  perform (.vnfs a m u sub)
    (fun s => let r := s.me.regs
      let hit := (List.range 64).any fun j =>
        enabled r m j && laneNonFinite sub (lane (r.vVal a) j)
      (s.setFlags ⟨hit, false, false⟩).latch a) s

def execVnfsClr (s : State) : Step :=
  perform .vnfsClr (fun s => s.modIssue fun q => { q with nfClr := 7 }) s

/-- The write waits for the bundle's draws (R191). -/
def execVseed (a : BitVec 6) (u : Bool) (sub : BitVec 3) (s : State) : Step :=
  perform (.vseed a u sub)
    (fun s => let v := s.me.regs.vVal a
      let pair (i : Nat) : Word := BitVec.ofNat 64 ((lane v (i + 1)).toNat * 2 ^ 32 + (lane v i).toNat)
      (s.modIssue fun q => { q with
        key := if sub = 2 then q.key else some (pair 0),
        ctr := if sub = 1 then q.ctr else some (pair 2) }).latch a) s

/-! ## Lane to scalar, and immediates (R192, R193) -/

def execV2s (d : BitVec 5) (a l : BitVec 6) (u : Bool) (sub : BitVec 3) (s : State) : Step :=
  perform (.v2s d a l u sub)
    (fun s => let v := lane (s.me.regs.vVal a) l.toNat
      (s.res 6 (.s d (if sub = 1 then v.signExtend 64 else v.setWidth 64))).latch a) s

/-- VLI's lane j (R193). -/
def vliVal (i : Imm 12) (sub : BitVec 3) (j : Nat) (old : Lane) : Lane :=
  match sub.toNat with
  | 0 => wrapInt 32 i.sval
  | 1 => BitVec.ofNat 32 (i.uval * 2 ^ 13 + old.toNat % 2 ^ 13)
  | _ => wrapInt 32 (j + i.sval)

def execVli (d : BitVec 6) (i : Imm 12) (m sub : BitVec 3) (s : State) : Step :=
  perform (.vli d i m sub)
    (laneOp d m 4 fun r j => vliVal i sub j (lane (r.vVal d) j)) s

end Sys2Proof.Machine
end

