-- ==== Sys2Proof/Machine/Array.lean ====
section
/-!
DEFINITION. Slot 3: the array queue and the tile unit (R289, R290), descriptor and flag operations
(R296 to R298), and the events by which steps start and land.
-/
namespace Sys2Proof.Machine

/-! ## Times (R290) -/

/-- The occupancy of an operation and the clock, from its start, in which its result lands. -/
def jobTimes (f : BitVec 15) : Instr → Nat × Nat
  | .tzero _ _ => (4, 4)
  | .tadd _ _ _ => (64, 68)
  | .tcheck _ _ => (66, 70)
  | .tcvt _ _ _ _ => (68, 72)
  | .sstep _ _ _ _ _ => (64, 96)
  | .sdstep _ _ _ _ _ => (128, 160)
  | .sgrad _ _ _ _ => (64, 84)
  | .sgzero _ _ => (9, 12)
  | .srefine _ _ _ => (40, 48)
  | .bseal _ _ v => if v == 2 || (v == 0 && fmtSpline f) then (40, 48) else (16, 24)
  | _ => (64, 80)

def Job.occupied (j : Job) (n : Nat) : Bool :=
  match j.startAt with
  | some t => n < t + (jobTimes j.fmt j.op).1
  | none => false

def Job.due (j : Job) : Option Nat := j.startAt.map fun t => t + (jobTimes j.fmt j.op).2

def Job.waiting (j : Job) : Bool := j.startAt.isNone

/-- Array steps that have issued and not started (R289). -/
def Core.waitingSteps (k : Core) : Nat := (k.array.filter Job.waiting).length

/-- The array runs no step in core clock n. -/
def Core.arrayFree (k : Core) (n : Nat) : Bool := k.array.all fun j => !(j.occupied n)

def Core.tileFree (k : Core) (n : Nat) : Bool := k.tile.all fun j => !(j.occupied n)

/-! ## Launching -/

/-- The job of an operation: its operands as the registers hold them (R289, R291). -/
def jobOf (s : State) (op : Instr) : Job :=
  let t := s.me
  let r := t.regs
  let k := s.myCore
  let base (dd da db dk : Desc) : Job :=
    { seq := k.nextJob, op := op, x := s.issue.x, dd := dd, da := da, db := db, dk := dk, fmt := t.fmt,
      key := t.srkey, ctr := t.srctr, spadIn := s.issue.spad0, mark := k.nextAcc, startAt := none,
      after := [], inj := none }
  match op with
  | .tzero _ d | .tcheck _ d => base (r.tVal d) 0 0 0
  | .tcvt _ d a _ | .tadd _ d a => base (r.tVal d) (r.tVal a) 0 0
  | .mstep _ d a b _ | .mstepRev _ d a b _ => base (r.tVal d) (r.tVal a) (r.tVal b) 0
  | .sstep _ d a k _ => base (r.tVal d) (r.tVal a) 0 (r.kVal k)
  | .sdstep _ d a k _ => base (r.tVal d) (r.tVal a) (r.tVal (a + 1)) (r.kVal k)
  | .sgrad _ a k _ => base 0 (r.tVal a) (r.tVal (a + 1)) (r.kVal k)
  | .srefine _ k _ => base 0 0 0 (r.kVal k)
  | _ => base 0 0 0 0

/-- The element (ROW, COL) that an injected error names receives a result of the job (R351). -/
def Job.lands (j : Job) (row col : Nat) : Bool :=
  let inDest := row < dRows j.dd && col < dCols j.dd
  match j.op with
  | .mstep _ _ _ _ _ => inDest && row < dRows j.da && col < dRows j.db
  | .mstepRev _ _ _ _ _ | .sstep _ _ _ _ _ => inDest && row < dRows j.da
  | .sdstep _ _ _ _ _ => inDest && row < dRows j.da && row < dRows j.db && col < dCols j.da
  | .tadd _ _ _ => inDest && row < dRows j.da && col < dCols j.da
  | _ => false

/-- The cells form integers in the job (R304, R305, R307, R308). -/
def Job.formsIntegers (j : Job) : Bool :=
  match j.op with
  | .mstep _ _ _ _ _ | .mstepRev _ _ _ _ _ | .sstep _ _ _ _ _ | .sdstep _ _ _ _ _ => true
  | _ => false

/-- An armed ERRINJ word as an injected error, with NOCHG (R351). -/
def injectOf (w : Word) : Inject × Bool :=
  (⟨getBit w 44, slice w 43 38, slice w 37 32, slice w 7 0⟩, getBit w 46)

/-- A job that starts takes the injection that is armed, if it qualifies (R351). -/
def Core.inject (k : Core) (j : Job) : Core × Job :=
  if !(getBit k.errinj 47) then (k, j)
  else
    let e := injectOf k.errinj
    if (if e.1.cell then j.formsIntegers else j.lands e.1.row e.1.col) then
      ({ k with errinj := putBit k.errinj 47 false }, { j with inj := some e })
    else (k, j)

/-- The oldest waiting step starts if the array is free (R289). -/
def State.startStep (s : State) (c : Nat) : State :=
  let k := s.core c
  let n := s.clk c
  match k.array.find? Job.waiting with
  | none => s
  | some j =>
    if !(k.arrayFree n) then s
    else
      let r := k.inject { j with startAt := some n }
      let k := { r.1 with array := k.array.map fun i => if i.seq == j.seq then r.2 else i }
      let s := s.setCore c k
      let z := jobTimes j.fmt j.op
      (s.timer c (n + z.1) (.arrayStepStart c)).timer c (n + z.2) (.arrayResultLand c)

/-- A step put into the array queue by the open bundle. -/
def State.launchArray (s : State) (op : Instr) : State :=
  let c := s.issue.c
  let j := jobOf s op
  ((s.modCore c fun k => { k with array := k.array ++ [j], nextJob := k.nextJob + 1 }).modIssue fun u =>
    { u with job := some j.seq }).startStep c

/-- A tile operation started by the open bundle; a TCVT into vault takes its place in the store stream
of a DUP node (R339). -/
def State.launchTile (s : State) (op : Instr) : State :=
  let c := s.issue.c
  let n := s.clk c
  let r := s.myCore.inject { jobOf s op with startAt := some n }
  let j := r.2
  let k := { r.1 with tile := r.1.tile ++ [j], nextJob := r.1.nextJob + 1 }
  let s := ((s.setCore c k).modIssue fun u => { u with job := some j.seq }).timer c
    (n + (jobTimes j.fmt op).2) (.tileOpComplete c)
  match op, s.me.strand with
  | .tcvt _ _ _ _, some t => if dSpace j.dd == 2 then s.signSlot t ⟨.job, j.seq, none⟩ else s
  | _, _ => s

/-- An array step under its stage guard (R102). -/
def arrayOp (g : BitVec 4) (op : Instr) (s : State) : State :=
  if stageHolds g s.me.regs then s.launchArray op else s

def tileOp (g : BitVec 4) (op : Instr) (s : State) : State :=
  if stageHolds g s.me.regs then s.launchTile op else s

/-! ## The operations -/

/-- R97. -/
def execNopS3 (s : State) : Step := perform .nopS3 id s

/-- R296; the value's checks are in `trapsOf`. -/
def execTset (g : BitVec 4) (d a : BitVec 4) (i : BitVec 6) (f : BitVec 2) (s : State) : Step :=
  perform (.tset g d a i f)
    (fun s => let r := s.me.regs
      if stageHolds g r then s.res 2 (.t d ((tsetVal (r.tVal a) i f).getD 0)) else s) s

/-- Half h of a 128-bit register. -/
def halfOf (v : Desc) (h : Bool) : Word := if h then v.extractLsb' 64 64 else v.extractLsb' 0 64

/-- R297. -/
def execT2s (g : BitVec 4) (a : BitVec 4) (d : BitVec 5) (h : Bool) (s : State) : Step :=
  perform (.t2s g a d h)
    (fun s => let r := s.me.regs
      if stageHolds g r then s.res 3 (.s d (halfOf (r.tVal a) h)) else s) s

/-- R297. -/
def execK2s (g : BitVec 4) (k : BitVec 3) (d : BitVec 5) (h : Bool) (s : State) : Step :=
  perform (.k2s g k d h)
    (fun s => let r := s.me.regs
      if stageHolds g r then s.res 3 (.s d (halfOf (r.kVal k) h)) else s) s

/-- R300. -/
def execTzero (g : BitVec 4) (d : BitVec 4) (s : State) : Step :=
  perform (.tzero g d) (tileOp g (.tzero g d)) s

/-- R302: under SR it draws 65,536 values, under a false guard too (R86). -/
def execTcvt (g : BitVec 4) (d a : BitVec 4) (f : BitVec 3) (s : State) : Step :=
  perform (.tcvt g d a f)
    (fun s => let mode := if f == 7 then fmtRnd s.me.fmt else f.toNat
      (tileOp g (.tcvt g d a f) s).drew mode 65536) s

/-- R303. -/
def execTcheck (g : BitVec 4) (d : BitVec 4) (s : State) : Step :=
  perform (.tcheck g d) (tileOp g (.tcheck g d)) s

/-- R301. -/
def execTadd (g : BitVec 4) (d a : BitVec 4) (s : State) : Step :=
  perform (.tadd g d a) (tileOp g (.tadd g d a)) s

/-- R304. -/
def execMstep (g : BitVec 4) (d a b : BitVec 4) (i : WIndex) (s : State) : Step :=
  perform (.mstep g d a b i) (arrayOp g (.mstep g d a b i)) s

/-- R305. -/
def execMstepRev (g : BitVec 4) (d a b : BitVec 4) (i : WIndex) (s : State) : Step :=
  perform (.mstepRev g d a b i) (arrayOp g (.mstepRev g d a b i)) s

/-- R306. -/
def execBseal (g : BitVec 4) (i : WIndex) (v : BitVec 2) (s : State) : Step :=
  perform (.bseal g i v) (arrayOp g (.bseal g i v)) s

/-- R307. -/
def execSstep (g : BitVec 4) (d a : BitVec 4) (k : BitVec 3) (i : BitVec 6) (s : State) : Step :=
  perform (.sstep g d a k i) (arrayOp g (.sstep g d a k i)) s

/-- R308. -/
def execSdstep (g : BitVec 4) (d a : BitVec 4) (k : BitVec 3) (i : BitVec 6) (s : State) : Step :=
  perform (.sdstep g d a k i) (arrayOp g (.sdstep g d a k i)) s

/-- R309. -/
def execSgrad (g : BitVec 4) (a : BitVec 4) (k : BitVec 3) (i : BitVec 6) (s : State) : Step :=
  perform (.sgrad g a k i) (arrayOp g (.sgrad g a k i)) s

/-- R310. -/
def execSgzero (g : BitVec 4) (i : BitVec 6) (s : State) : Step :=
  perform (.sgzero g i) (arrayOp g (.sgzero g i)) s

/-- R311. -/
def execSrefine (g : BitVec 4) (k : BitVec 3) (i : BitVec 6) (s : State) : Step :=
  perform (.srefine g k i) (arrayOp g (.srefine g k i)) s

/-- The sticky flags that SFLAGS clears (R298). -/
def clearFlags (r : Regs) (d : BitVec 4) (k : BitVec 3) (f : BitVec 2) : Regs :=
  let r := if getBit f 0 then r.put (.k k (r.kVal k &&& ~~~(BitVec.ofNat 128 (7 * 2 ^ 72)))) else r
  if getBit f 1 then r.put (.t d (putBit (r.tVal d) 84 false)) else r

/-- R298: the next bundle finds the flags cleared. -/
def execSflags (g : BitVec 4) (d : BitVec 4) (k : BitVec 3) (f : BitVec 2) (s : State) : Step :=
  perform (.sflags g d k f)
    (fun s => if stageHolds g s.me.regs then
        s.modMe fun t => { t with regs := clearFlags t.regs d k f } else s) s

/-! ## S2T and S2K beside a slot-3 operation (R289) -/

/-- The tile registers and the knot register that an operation names. -/
def jobRegs : Instr → List (BitVec 4) × Option (BitVec 3)
  | .tzero _ d | .tcheck _ d => ([d], none)
  | .tcvt _ d a _ | .tadd _ d a => ([d, a], none)
  | .mstep _ d a b _ | .mstepRev _ d a b _ => ([d, a, b], none)
  | .sstep _ d a k _ => ([d, a], some k)
  | .sdstep _ d a k _ => ([d, a, a + 1], some k)
  | .sgrad _ a k _ => ([a, a + 1], some k)
  | .srefine _ k _ => ([], some k)
  | _ => ([], none)

def Job.names (j : Job) : Reg → Bool
  | .t r => (jobRegs j.op).1.any fun q => q == r
  | .k r => (jobRegs j.op).2 == some r
  | .s _ | .a _ | .v _ | .m _ | .p _ => false

/-- A value for a descriptor or knot register: it lands after 2 clocks, or after the operation of the
same bundle that names the register. -/
def State.setDesc (s : State) (l : Landing) : State :=
  let mine (j : Job) : Bool := s.issue.job == some j.seq && j.names (landReg l)
  if (s.myCore.array ++ s.myCore.tile).any mine then
    let put (q : List Job) : List Job :=
      q.map fun j => if mine j then { j with after := j.after ++ [l] } else j
    (s.awaitMe (landReg l)).modCore s.issue.c fun k =>
      { k with array := put k.array, tile := put k.tile }
  else s.res 2 l

/-- A 128-bit register from its two halves (R166). -/
def pair128 (lo hi : Word) : Desc := BitVec.ofNat 128 (lo.toNat + hi.toNat * 2 ^ 64)

/-- R166; the value's checks are R286's (see `trapsOf`). -/
def execS2t (g : Guard) (d : BitVec 4) (a b : BitVec 5) (s : State) : Step :=
  perform (.s2t g d a b)
    (fun s => let r := s.me.regs
      if guardHolds g r then s.setDesc (.t d (pair128 (r.sVal a) (r.sVal b))) else s) s

/-- R166; the value's checks are R293's (see `trapsOf`). -/
def execS2k (g : Guard) (d : BitVec 3) (a b : BitVec 5) (s : State) : Step :=
  perform (.s2k g d a b)
    (fun s => let r := s.me.regs
      if guardHolds g r then s.setDesc (.k d (pair128 (r.sVal a) (r.sVal b))) else s) s

/-! ## Landing -/

/-- The accumulator tiles that a job reads or writes. -/
def Job.tiles (j : Job) : List Nat := accTiles j.dd ++ accTiles j.da

/-- A job that writes the core's vault (R284, R302). -/
def Job.writesVault (j : Job) : Bool :=
  match j.op with
  | .sgrad _ _ _ _ | .sgzero _ _ | .srefine _ _ _ | .bseal _ _ _ => true
  | .tcvt _ _ _ _ => j.isGlobal
  | _ => false

/-- A job that writes bytes which a step may read: coefficients, checksums, or rows of a TCVT. -/
def Job.writesRead (j : Job) : Bool :=
  match j.op with
  | .srefine _ _ _ | .bseal _ _ _ => true
  | .tcvt _ _ _ _ => j.isGlobal
  | _ => false

/-- An earlier job holds a later one's landing: they share a tile (R289), or their window accesses, all of
class 15, are ordered by R214: a write before anything, and a read before a write of the bytes that it may
read (R284). The model reads the window at the landing (log 66). -/
def Job.holdsBack (i j : Job) : Bool :=
  (i.tiles.any fun t => j.tiles.any fun u => t == u) ||
    (i.x == j.x && i.isGlobal && j.isGlobal && (i.writesVault || j.writesRead))

/-- An address in the vault of core c. -/
def inOwnVault (c p : Nat) : Bool := vaultBase c ≤ p && p < vaultBase c + 0x03000000

/-- An access that has faulted or been diverted stands before later accesses of class 15: it diverts that class
(R252), or its page maps, as the tables stand, bytes of the core's own vault (R214, R284; log 66). -/
def State.faultBefore (s : State) (c : Nat) (a : Access) : Bool :=
  getBit a.diverts 15 || (match s.walk a.va with
    | .leaf t => inOwnVault c (t.pa a.va)
    | .fault _ => false)

/-- An access of a strand is one that a later window access of its core performs after: of class 15, to the
core's own vault, still in translation, or on its way to the retry ring (R214, R284). -/
def State.beforeWindow (s : State) (c : Nat) (a : Access) : Bool :=
  match a.st with
  | .walking | .found _ | .failed _ => true
  | .ready => a.cls == 15 || inOwnVault c a.pa
  | .onPath => a.cls == 15
  | .faulted _ => s.faultBefore c a

/-- A write of TCVT into the vault, a global store of class 15 by the strand (R302). -/
def Job.isStore (j : Job) : Bool :=
  match j.op with
  | .tcvt _ _ _ _ => j.isGlobal
  | _ => false

/-- An acquire that issued before a job of its context has not returned: in the core, or on the ring. -/
def State.acquireBefore (s : State) (c : Nat) (j : Job) : Bool :=
  let acquires (a : Access) : Bool := a.kind == .ldacq || (a.isAtomic && a.scope != 0)
  ((s.core c).accs.any fun a => a.x == j.x && a.id < j.mark && acquires a) ||
  (s.myEntries c j.x).any fun e => (e.core != c || e.acc.id < j.mark) && acquires e.acc && !e.returned

/-- A FENCE or FENCESC that holds class 15 issued before a job and is not done (R215, R217). -/
def State.fenceBefore (s : State) (c : Nat) (j : Job) : Bool :=
  (s.ctx c j.x).wait.holds.any fun h =>
    !h.xf && (h.sc || getBit h.mask 15) && h.upTo < j.mark && !(s.holdDone c j.x h)

/-- A job waits to land while an earlier one holds it back, or an earlier access of the strand, on the ring or
not, that stands before its window accesses has not performed (R214, R284); a TCVT into the vault, a global store,
waits for earlier fences and acquires too (R215 to R217, R302). -/
def State.landBlocked (s : State) (c : Nat) (j : Job) : Bool :=
  let k := s.core c
  ((k.array ++ k.tile).any fun i => i.seq < j.seq && i.holdsBack j) ||
  (j.isGlobal && k.accs.any fun a => a.x == j.x && a.id < j.mark && s.beforeWindow c a) ||
  (j.isGlobal && (s.myEntries c j.x).any fun e => (e.core != c || e.acc.id < j.mark) && s.faultBefore c e.acc) ||
  (j.isStore && (s.fenceBefore c j || s.acquireBefore c j))

/-- The destination register whose descriptor a job's flags go to. -/
def Job.dest (j : Job) : Option (BitVec 4) :=
  match j.op with
  | .tcvt _ d _ _ | .tadd _ d _ | .tcheck _ d | .tzero _ d | .mstep _ d _ _ _ | .mstepRev _ d _ _ _
  | .sstep _ d _ _ _ | .sdstep _ d _ _ _ => some d
  | _ => none

/-- The field writes of a result: NF and the check fields of the descriptor, the flags of the knot
register, NFSTAT, which the set keeps against a clear in the same master clock (R7, R88), and then the S2T or S2K
that waited (R292, R303, R289). -/
def Ctx.landFields (t : Ctx) (now : Nat) (j : Job) (o : StepOut) : Ctx :=
  let r := t.regs
  let r := match j.dest with
    | none => r
    | some d =>
      let v := r.tVal d
      let v := if o.nf then putBit v 84 true else v
      let v := match o.desc with
        | none => v
        | some f => (v &&& ~~~(BitVec.ofNat 128 (0x3FFF * 2 ^ 86))) |||
            BitVec.ofNat 128 (f.toNat % 0x4000 * 2 ^ 86)
      r.put (.t d v)
  let r := match (jobRegs j.op).2 with
    | some k => r.put (.k k (kSetFlags (r.kVal k) o.knot.1 o.knot.2.1 o.knot.2.2))
    | none => r
  let r := j.after.foldl (fun r l => r.landed l) r
  { t with regs := r, nfstat := t.nfstat ||| o.flags.bits, nfNow := setMore t.nfNow now o.flags.bits }

/-- The rows of a TCVT into vault of which bytes are written: the offset in the vault, the physical address,
the bytes (R302, R339). -/
def Job.storeRows (j : Job) (o : StepOut) : List (Nat × Nat × List Byte) :=
  let n := rowBytes (resolve j.fmt .other j.dd) (dCols j.dd)
  if o.stores.isEmpty then []
  else ((List.range (dRows j.dd)).filter fun r => dBase j.dd + r * dStride j.dd < 0x02D40000).map fun r =>
    let off := dBase j.dd + r * dStride j.dd
    let w := min n (0x02D40000 - off)
    let p0 := (o.stores.head?.map Prod.fst).getD 0 - dBase j.dd
    (off, p0 + off, memReadList (memWriteCells [] (o.stores.filter fun e => p0 + off ≤ e.1 &&
      e.1 < p0 + off + w)) (p0 + off) w)

/-- 256-byte blocks that n bytes at p meet (R206). -/
def blocks256 (p n : Nat) : Nat := if n = 0 then 0 else (p + n + 255) / 256 - p / 256

/-- The vault rows as stores of class 15: counted, and held or made (R302, R206, R336). -/
def State.rowStores (s : State) (c : Nat) (j : Job) (rows : List (Nat × Nat × List Byte)) :
    Option State :=
  let t := s.ctx c j.x
  let d := dieOf c
  rows.foldl (fun o e =>
    match o with
    | none => none
    | some s =>
      let n := blocks256 e.2.1 e.2.2.length
      let s := s.modDie d fun k => { k with lreq := k.lreq + BitVec.ofNat 64 n }
      if s.contained t e.2.1 then
        match holdWrite (s.die d).contain ⟨t.runOf, t.rankOf, e.2.1, e.2.2, none, false⟩ with
        | .held l => some (s.modDie d fun k => { k with contain := l })
        | .waits => none
        | .overflow => some (s.modCtx c j.x fun t => { t with status := .failing 4 })
      else some (s.physWrite e.2.1 e.2.2)) (some s)

/-- The adder of a job's results is checked by residue: FP32 accumulation, and TADD of either type (R334). -/
def Job.residueChecked (j : Job) : Bool :=
  match j.op with
  | .tadd _ _ _ => true
  | _ => resolve j.fmt .other j.dd == 0

/-- A scratchpad byte, and a unit of the accumulator store, that a job's result writes (R302, R304, R348). -/
def Job.fillsByte (j : Job) (p : Nat) : Bool :=
  match j.op with
  | .tcvt _ _ _ _ => dSpace j.dd == 0 && (List.range (dRows j.dd)).any fun r =>
      dBase j.dd + r * dStride j.dd ≤ p &&
        p < dBase j.dd + r * dStride j.dd + rowBytes (resolve j.fmt .other j.dd) (dCols j.dd)
  | _ => false

def Job.fillsUnit (j : Job) (u : Nat) : Bool :=
  match j.op with
  | .mstep _ _ _ _ _ | .mstepRev _ _ _ _ _ | .sstep _ _ _ _ _ | .sdstep _ _ _ _ _ | .tzero _ _ | .tadd _ _ _ =>
    (accTiles j.dd).any fun t => t == u / 512 && u / 8 % 64 < dRows j.dd &&
      (t - dBase j.dd) * 64 + 8 * (u % 8) + 7 < dCols j.dd
  | _ => false

/-! ### Poison in the array window (R348) -/

/-- Offset o lies in bytes lo to lo + n - 1 of one of the shares of `size` bytes between base and top (R279). -/
def inShare (o base top size lo n : Nat) : Bool :=
  base ≤ o && o < top && lo ≤ (o - base) % size && (o - base) % size < lo + n

/-- The coefficient bytes of every cell that a BSEAL sums: their first, and their number (R306). -/
def Job.sealed (j : Job) : Nat × Nat :=
  match j.op with
  | .bseal _ i v =>
    if v == 2 || (v == 0 && fmtSpline j.fmt) then (36 * i.toNat, 35)
    else if fmtB j.fmt == 5 then (8 * i.toNat, 8) else (4 * i.toNat, 4)
  | _ => (0, 0)

/-- A BSEAL reads window byte o (R306). -/
def Job.sealReads (j : Job) (o : Nat) : Bool := inShare o 0 0x400000 1024 j.sealed.1 j.sealed.2

/-- An array step writes window byte o whatever the bytes there (R306, R310, R311); a spline set's checksums end
with that of its scale byte. -/
def Job.fillsWindow (j : Job) (o : Nat) : Bool :=
  match j.op with
  | .sgzero _ i => inShare o 0x400000 0x800000 1024 (144 * i.toNat) 144
  | .srefine _ _ i => inShare o 0 0x400000 1024 (36 * i.toNat) 36 ||
      inShare o 0x800000 0x820000 2048 (72 * i.toNat) 72
  | .bseal _ _ _ =>
    let n := if j.sealed.2 = 35 then 36 else j.sealed.2
    inShare o 0x800000 0x820000 2048 (2 * j.sealed.1) (2 * n)
  | _ => false

/-- A class-15 load of a BSEAL meets a poisoned unit. -/
def State.sealPoisoned (s : State) (c : Nat) (j : Job) : Bool :=
  s.mdl.poison.any fun u => (List.range 32).any fun i =>
    vaultBase c ≤ 32 * u + i && j.sealReads (32 * u + i - vaultBase c)

/-- The units of the window that a step covers whole are poisoned no more. -/
def State.healWindow (s : State) (c : Nat) (j : Job) : State :=
  if s.mdl.poison.isEmpty then s
  else s.modMdl fun m => { m with poison := m.poison.filter fun u =>
    !((List.range 32).all fun i => vaultBase c ≤ 32 * u + i && j.fillsWindow (32 * u + i - vaultBase c)) }

/-! ### Injected errors that charge nothing (R351) -/

/-- A bit of a job's adder output is flipped; an injection that charges nothing strikes the job. -/
def Job.flips (j : Job) : Bool :=
  match j.inj with
  | some (e, _) => !e.cell
  | none => false

def Job.silent (j : Job) : Bool :=
  match j.inj with
  | some (_, q) => q
  | none => false

/-- The flip in the accumulator store. -/
def Job.flipIn (j : Job) (k : Core) : Core :=
  match j.inj with
  | some (e, _) =>
    if e.cell then k
    else
      let ar := dBase j.dd * 64 + e.row
      { k with acc := accPut k.acc ar (accRow k.acc ar ^^^ BitVec.ofNat 2048 (2 ^ (32 * e.col + e.pos))) }
  | none => k

/-- The tiles of a strand that carry a flipped bit of an injection with NOCHG. -/
def State.quietTiles (s : State) (t : Ctx) : List Nat :=
  match t.strand with
  | none => []
  | some n => ((s.mdl.run? n.run).bind fun r => (r.ranks[n.rank.toNat]?).map RankRec.quiet).getD []

/-- A job whose check of a tile's strip may detect such a bit: the tile is TCHECK's, or TCVT's source. -/
def Job.detectsIn (j : Job) (l : List Nat) : Bool :=
  match j.op with
  | .tcheck _ _ => (accTiles j.dd).any fun t => l.contains t
  | .tcvt _ _ _ _ => (accTiles j.da).any fun t => l.contains t
  | _ => false

/-- Those tiles after a job: TZERO clears the bit, TADD adds it into its destination, and an injection into an
adder's output sets it. -/
def Job.quietAfter (j : Job) (l : List Nat) : List Nat :=
  let l := match j.op with
    | .tzero _ _ => l.filter fun t => !((accTiles j.dd).contains t)
    | .tadd _ _ _ => ((List.range (accTiles j.dd).length).filter fun i =>
        l.contains (dBase j.da + i)).map (dBase j.dd + ·) ++ l
    | _ => l
  if j.flips && j.silent then dBase j.dd :: l else l

/-- What a run keeps of an injection with NOCHG once a job has landed. -/
def State.noteQuiet (s : State) (t : Ctx) (j : Job) : State :=
  match t.strand with
  | none => s
  | some n => s.modRank n.run n.rank.toNat fun k => { k with
      quiet := j.quietAfter k.quiet, struck := k.struck || j.silent }

/-- A job of a queue is gone. -/
def Core.dropJob (k : Core) (seq : Nat) : Core :=
  { k with array := k.array.filter fun i => i.seq != seq, tile := k.tile.filter fun i => i.seq != seq }

/-- The core after a job: the flip of an injected error, and what the job's bytes heal (R351, R348). -/
def Job.coreAfter (j : Job) (k : Core) : Core :=
  (((j.flipIn k).dropJob j.seq).healSpad fun p => !(k.barred p) && j.fillsByte p).healAcc j.fillsUnit

/-- A job's result made: none where the containment buffer has no line for its stores. -/
def State.landResult (s : State) (c : Nat) (j : Job) : Option State :=
  let t := s.ctx c j.x
  let k := s.core c
  let o := j.out k s.mem c t.protected_
  let rows := j.storeRows o
  match State.rowStores { s with mem := o.mem } c j rows with
  | none => none
  | some s =>
    let tileUnit := k.tile.any fun i => i.seq == j.seq
    let quiet := j.silent || j.detectsIn (s.quietTiles t)
    let s := (((s.setCore c (j.coreAfter o.core)).healWindow c j).noteQuiet t j).modCtx c j.x fun t => t.landFields s.now j o
    let s := s.touch c j.x o.touch
    let s := match t.strand with
      | some n => s.signFill n .job j.seq
          (rows.flatMap fun e => sigBytes (BitVec.ofNat 64 e.1) e.2.2)
      | none => s
    if o.failed || (j.flips && j.residueChecked) then
      let s := s.modCore c fun k => { k with nochg := quiet }
      some (s.later 0 (.pipelineError c j.x (if tileUnit then 4 else 3)))
    else some s

/-- A job lands: a BSEAL that meets a poisoned unit ends its strand (R348), any other makes its result. -/
def State.applyJob (s : State) (c : Nat) (j : Job) : Option State :=
  if s.sealPoisoned c j then
    some ((s.modCore c fun k => k.dropJob j.seq).modCtx c j.x fun t => { t with status := .faulted 0 })
  else s.landResult c j

/-- The job whose result is due, the one that is due first. -/
def dueJob (n : Nat) : List Job → Option Job
  | [] => none
  | j :: r =>
    let rest := dueJob n r
    match j.due with
    | none => rest
    | some t =>
      if n < t then rest
      else match rest with
        | none => some j
        | some i => match i.due with
          | some u => if u < t then some i else some j
          | none => some j

/-- The landing of a queue's due result, put off by a clock while it is blocked. -/
def State.landJob (s : State) (c : Nat) (tile : Bool) : State :=
  let n := s.clk c
  let k := s.core c
  let again : Instr := if tile then .tileOpComplete c else .arrayResultLand c
  match dueJob n (if tile then k.tile else k.array) with
  | none => s
  | some j =>
    if s.landBlocked c j then s.timer c (n + 1) again
    else match s.applyJob c j with
      | some s => s.settle c
      | none => (s.timer c (n + 1) again).later 1 (.containmentLineFreed (dieOf c))

def execArrayStepStart (c : Nat) (s : State) : Step := onCore c (s.startStep c)
def execArrayResultLand (c : Nat) (s : State) : Step := onCore c (s.landJob c false)
def execTileOpComplete (c : Nat) (s : State) : Step := onCore c (s.landJob c true)

/-! ## The transpose engine's write-back (R225, R273) -/

/-- The entries that are due write their bytes and leave the queue. -/
def State.xposeDue (s : State) (c : Nat) : State :=
  let n := s.clk c
  (s.core c).xq.foldl (fun s j =>
    if j.at_ ≤ n then
      let s := s.modCore c fun k =>
        ({ k with spad := memWriteCells k.spad (j.cells.filter fun e => !(k.barred e.1)) } :
          Core).healSpad fun p => !(k.barred p) && j.cells.any fun e => e.1 == p
      s.touch c j.x (j.touches.head?.map fun a => spadTouch a 3)
    else s)
    (s.modCore c fun k => { k with xq := k.xq.filter fun j => n < j.at_ })

def execXposeWriteback (c : Nat) (s : State) : Step := onCore c (s.xposeDue c)

end Sys2Proof.Machine
end

