-- ==== Sys2Proof/Machine/Gang.lean ====
section
/-!
DEFINITION. What the scheduler works with: node records (R40, R41), plans (R126), ready queues (R52 to
R55), strand slots (R41, R44), freeing contexts, and the failure of a node (R68) and the abandonment of
a run (R335).
-/
namespace Sys2Proof.Machine

/-! ## Node records -/

/-- Field of a record: `len` bits from bit `lo` of byte `k`. -/
def recField (w k lo len : Nat) : Nat := w / 2 ^ (8 * k + lo) % 2 ^ len

/-- A record from its 128 bytes as a number (R40). -/
def parseRec (w : Nat) : NodeRec :=
  let f := recField w
  { image := BitVec.ofNat 64 (f 0 0 64), entry := BitVec.ofNat 16 (f 8 0 16),
    nbundle := BitVec.ofNat 16 (f 10 0 16), nodeId := BitVec.ofNat 32 (f 12 0 32),
    sptab := BitVec.ofNat 64 (f 16 0 64), plan := BitVec.ofNat 64 (f 24 0 64),
    args := BitVec.ofNat 64 (f 32 0 64), ind := f 40 63 1 == 1, icnt := BitVec.ofNat 48 (f 40 0 48),
    imax := BitVec.ofNat 32 (f 48 0 32), prio := BitVec.ofNat 8 (f 52 0 8), copy := f 53 2 1 == 1,
    cls := BitVec.ofNat 2 (f 53 0 2), stg := BitVec.ofNat 4 (f 54 4 4),
    width := BitVec.ofNat 4 (f 54 0 4), notify := f 55 0 1 == 1,
    dieMask := BitVec.ofNat 64 (f 56 0 64), succ := BitVec.ofNat 64 (f 64 0 64),
    nsucc := BitVec.ofNat 16 (f 72 0 16), nrecomp := BitVec.ofNat 16 (f 74 0 16),
    cdie := BitVec.ofNat 6 (f 76 16 6), cidx := BitVec.ofNat 16 (f 76 0 16),
    recomp := BitVec.ofNat 64 (f 80 0 64), wmark := BitVec.ofNat 32 (f 88 0 32),
    spdlim := BitVec.ofNat 21 (f 92 0 21), ydl := BitVec.ofNat 32 (f 96 0 32),
    initPred := BitVec.ofNat 16 (f 100 0 16), nplan := BitVec.ofNat 16 (f 102 0 16),
    save := BitVec.ofNat 64 (f 104 0 64), sstride := BitVec.ofNat 32 (f 112 0 32),
    seed := BitVec.ofNat 32 (f 116 0 32),
    reserved := f 40 48 15 != 0 || f 53 3 5 != 0 || f 55 1 7 != 0 || f 76 22 10 != 0 ||
      f 92 21 11 != 0 || f 120 24 8 != 0 || f 120 3 5 != 0 }

/-- A record read; none where a fault or an uncorrectable error prevents it. -/
def State.readRec (s : State) (addr : Word) : Option NodeRec :=
  match s.vRead addr 128 with
  | .ok l => some (parseRec (numLE l))
  | .error _ => none

/-- A number of n bytes read by the scheduler. -/
def State.vNum (s : State) (va : Word) (n : Nat) : Except (BitVec 8) Nat :=
  match s.vRead va n with
  | .ok l => .ok (numLE l)
  | .error f => .error f

/-- The largest SAVESZ of n safe-point entries; none where one cannot be read (R41, R127). -/
def State.maxSave (s : State) (va : Word) : Nat → Option Nat
  | 0 => some 0
  | n + 1 =>
    match s.vNum va 128, s.maxSave (va + 128) n with
    | .ok w, some m => some (max m (recField w 32 0 32))
    | _, _ => none

def State.sptabSave (s : State) (va : Word) : Option Nat :=
  match s.vNum va 16 with
  | .ok w => s.maxSave (va + 16) (w % 2 ^ 32)
  | .error _ => none

/-- n plan entries (R126). -/
def State.readPlan (s : State) (va : Word) : Nat → Except (BitVec 8) (List PlanRec)
  | 0 => .ok []
  | n + 1 =>
    match s.vNum va 32, s.readPlan (va + 32) n with
    | .ok w, .ok r =>
      .ok (⟨BitVec.ofNat 2 (recField w 3 0 2), recField w 4 0 32, recField w 8 0 32,
        recField w 16 0 16, recField w 18 0 16, BitVec.ofNat 64 (recField w 24 0 64)⟩ :: r)
    | .error f, _ => .error f
    | _, .error f => .error f

/-- The surviving dies that a mask selects. -/
def State.maskDies (s : State) (mask : BitVec 64) : List Nat :=
  (List.range 64).filter fun d => getBit mask d && s.dieAlive d

/-- R41's list, and the class that the SIG and DUP feature forbids while it is off (R383). -/
def State.recordBad (s : State) (addr : Word) (r : NodeRec) : Bool :=
  let dies := (s.maskDies r.dieMask).length
  r.reserved || r.cls == 3 || r.width == 0 || 12 < r.width.toNat || r.nbundle == 0 ||
    8192 < r.nbundle.toNat || r.nbundle.toNat ≤ r.entry.toNat || r.imax == 0 ||
    1024 < r.nsucc.toNat || 64 < r.nrecomp.toNat || 4096 < r.nplan.toNat ||
    addr.toNat % 128 != 0 || r.image.toNat % 16 != 0 || r.succ.toNat % 4 != 0 ||
    r.recomp.toNat % 8 != 0 || r.save.toNat % 64 != 0 || (r.ind && r.icnt.toNat % 4 != 0) ||
    (!r.ind && slice r.icnt 47 32 != 0) ||
    (match s.sptabSave r.sptab with
     | some m => r.sstride.toNat < 64 + m
     | none => true) ||
    (match s.readPlan r.plan r.nplan.toNat with
     | .ok _ => false
     | .error _ => true) ||
    dies == 0 || (r.cls == 2 && dies < 2) ||
    (r.copy && (r.width != 1 || r.stg != 0 || r.cls != 0)) ||
    (r.cls != 0 && !(getBit s.mdl.featAccept0 2))

/-! ## Live nodes -/

def Module.node? (m : Module) (addr : Word) : Option Node := m.nodes.find? fun n => n.addr == addr

/-- The first live node of an address replaced. -/
def putNode (n : Node) : List Node → List Node
  | [] => []
  | m :: r => if m.addr == n.addr then n :: r else m :: putNode n r

def State.setNode (s : State) (n : Node) : State := s.modMdl fun m => { m with nodes := putNode n m.nodes }

/-- The first live node of an address removed. -/
def dropNode (addr : Word) : List Node → List Node
  | [] => []
  | m :: r => if m.addr == addr then r else m :: dropNode addr r

/-- What the scheduler writes into bytes 120 to 127 of a record (R40, R69). A run that a recompute makes writes
nothing there: only the held node's counter records it (R51, R69). A write that faults is dropped, and the node
goes on (DESIGN CHOICE, log 84). -/
def State.writeNode (s : State) (n : Node) : State :=
  if n.parent.isSome then s
  else
    let w := n.st.toNat + n.unyield.toNat * 2 ^ 8 + n.fail.toNat * 2 ^ 16 + n.done * 2 ^ 32
    match s.vWrite (n.addr + 120) (bytesLE 8 w) with
    | .ok s => s
    | .error _ => s

/-- A node's new data, also in its record. -/
def State.updateNode (s : State) (n : Node) : State := (s.setNode n).writeNode n

/-! ## Queues -/

def State.agePeriod (s : State) : Nat := max 2400 s.mdl.agePer.toNat

/-- Effective priority (R54). -/
def State.effPrio (s : State) (e : QEntry) : Nat :=
  min 255 (e.prio.toNat + (s.now - e.since) / s.agePeriod)

/-- Whole AGE_PERIODs that an entry has waited, at most 255 (R44). -/
def State.ageOf (s : State) (e : QEntry) : BitVec 8 :=
  BitVec.ofNat 8 (min 255 ((s.now - e.since) / s.agePeriod))

/-- e comes before f in the queue (R55). -/
def State.entryBefore (s : State) (e f : QEntry) : Bool :=
  let k (q : QEntry) : List Nat :=
    [255 - s.effPrio q, q.since, q.nodeId.toNat, q.inst.toNat, q.stage.toNat, bit q.twin, q.id]
  k e < k f

def insertEntry (s : State) (e : QEntry) : List QEntry → List QEntry
  | [] => [e]
  | f :: r => if s.entryBefore e f then e :: f :: r else f :: insertEntry s e r

/-- A die's entries in the order of R55. -/
def State.sorted (s : State) (d : Nat) : List QEntry := (s.die d).queue.foldr (insertEntry s) []

/-- A core that may be used: its cluster survives and is not being retired. -/
def State.coreUsable (s : State) (c : Nat) : Bool :=
  s.clusterAlive (clusterOf c) && !((s.die (dieOf c)).retiring.any fun g => g == clusterOf c)

/-- First local cores of runs of w usable cores on die d (R24). -/
def State.runsOf (s : State) (d w : Nat) : List Nat :=
  (List.range (13 - w)).filter fun c0 => (List.range w).all fun k => s.coreUsable (12 * d + c0 + k)

/-- R52's choice of a die among those of a mask, some excluded. -/
def State.chooseDie (s : State) (mask : BitVec 64) (w : Nat) (excl : List Nat) : Option Nat :=
  ((s.maskDies mask).filter fun d => !(excl.any fun e => e == d) && !(s.runsOf d w).isEmpty).foldl
    (fun o d =>
      match o with
      | none => some d
      | some b => if (s.die d).queue.length < (s.die b).queue.length then some d else some b) none

/-- Master clocks until an entry is next one AGE_PERIOD older (R54). -/
def State.nextAge (s : State) (e : QEntry) : Nat := s.agePeriod - (s.now - e.since) % s.agePeriod

/-- An entry put into a die's queue, which looks at its cores again and ages it. -/
def State.enqueue (s : State) (d : Nat) (e : QEntry) : State :=
  ((s.modDie d fun k => { k with queue := k.queue ++ [e] }).later 1 (.gangDispatch d)).later
    (s.nextAge e) (.agePeriodTick d)

/-- The slot of the entry that follows entry e in a die's queue, 0xFFFF where none does (R44). -/
def State.linkOf (s : State) (d : Nat) (e : QEntry) : BitVec 16 :=
  match (s.sorted d).find? fun f => f.id != e.id && s.entryBefore e f with
  | some f => Config.queueSlot f.id
  | none => 0xFFFF

/-! ## Strand slots (R41, R44) -/

/-- How a write into a strand's slot ends. -/
inductive SlotOut where
  | done (s : State)
  | fault
  | waits
  | overflow

/-- Bytes that a strand's core writes into its slot: held in a protected node (R336), else made at
home. -/
def State.slotWrite (s : State) (d run : Nat) (rank : BitVec 4) (prot : Bool) (va : Word)
    (l : List Byte) : SlotOut :=
  if prot then
    l.zipIdx.foldl (fun o e =>
      match o with
      | .fault | .waits | .overflow => o
      | .done s =>
        match s.xlate (va + BitVec.ofNat 64 e.2) needWrite with
        | .error _ => .fault
        | .ok (p, _) =>
          match holdWrite (s.die d).contain
              ⟨run, rank, p, [e.1], s.pageAt (va + BitVec.ofNat 64 e.2), false⟩ with
          | .held q => .done (s.modDie d fun k => { k with contain := q })
          | .waits => .waits
          | .overflow => .overflow) (.done s)
  else match s.vWrite va l with
    | .ok s => .done s
    | .error _ => .fault

/-- Bytes of a strand's slot as its core reads them. -/
def State.slotRead (s : State) (d run : Nat) (rank : BitVec 4) (va : Word) :
    Nat → Except (BitVec 8) (List Byte)
  | 0 => .ok []
  | n + 1 =>
    match s.xlate va needRead, s.slotRead d run rank (va + 1) n with
    | .ok (p, _), .ok r =>
      if s.poisonedAt p then .error 20
      else .ok ((match heldByte run rank p (s.die d).contain with
        | some b => b
        | none => memRead s.mem p) :: r)
    | .error f, _ => .error f
    | _, .error f => .error f

/-- A continuation record's 64 bytes (R44). `flag` is DONE 4, SPILLED 2, PARKED 1, or 0; `link` names the
queue's next entry as it stands at the write (log 70). -/
def contBytes (n : Strand) (c : Nat) (flag : Nat) (link : BitVec 16) (sv : List Word) : List Byte :=
  let w1 := dieOf c + localOf c * 2 ^ 8 + n.stage.toNat * 2 ^ 12 + flag * 2 ^ 18 + n.spidx.toNat * 2 ^ 32
  bytesLE 4 n.nodeId.toNat ++ bytesLE 4 n.inst.toNat ++ bytesLE 8 w1 ++
    bytesLE 8 (n.slot + 64).toNat ++ (sv.flatMap fun v => bytesLE 8 v.toNat) ++
    bytesLE 8 (n.prio.toNat + n.age.toNat * 2 ^ 8 + link.toNat * 2 ^ 16)

/-- An address lies in a node's strand-slot pool (R42). -/
def Node.poolHolds (n : Node) (a : Nat) : Bool :=
  let r := n.r
  r.save.toNat ≤ a && a < r.save.toNat + r.imax.toNat * (r.stg.toNat + 1) * r.width.toNat * r.sstride.toNat

/-- An address lies in a node's own argument block as it stands at clock t: the record gives the block no end
(R42, log 19). -/
def Node.argsHold (n : Node) (t a : Nat) : Bool :=
  n.r.args.toNat ≤ a && a < n.r.args.toNat + Config.argsLen t n.r.args.toNat

/-- Bytes that a node's strand leaves at va of its slot: what lies in another live node's pool, or in the
node's own argument block, is undefined (R42, log 19). -/
def State.slotBytes (s : State) (node va : Word) (l : List Byte) : List Byte :=
  l.mapIdx fun i b =>
    if s.mdl.nodes.any fun n => if n.addr == node then n.argsHold s.now (va.toNat + i)
        else n.poolHolds (va.toNat + i) then
      Config.overlapByte s.now (va.toNat + i)
    else b

/-- A strand's continuation as its slot takes it (R42, R44). -/
def State.contData (s : State) (n : Strand) (c : Nat) (flag : Nat) (link : BitVec 16) (sv : List Word) :
    List Byte :=
  s.slotBytes n.record n.slot (contBytes n c flag link sv)

def Regs.s1to4 (r : Regs) : List Word := [r.sVal 1, r.sVal 2, r.sVal 3, r.sVal 4]

/-! ## Freeing contexts -/

/-- An event that belongs to a context. -/
def ofContext (c : Nat) (x : Bool) : Instr → Bool
  | .resultLand c' x' _ | .pauseEnd c' x' | .strandSuspension c' x' | .strandResume c' x'
  | .doneRetire c' x' | .yieldDeadlineExpiry c' x' | .pipelineError c' x' _ => c' == c && x' == x
  | _ => false

/-- The guard map that the plans of a core's contexts give it (R126, R227). -/
def guardMapOf (l : List PlanRec) : BitVec 6144 :=
  l.foldl (fun m p =>
    if p.kind != 0 then m
    else
      let g := p.off / 64
      let lo := BitVec.ofNat 6144 ((2 ^ p.before - 1) * 2 ^ (g - p.before))
      let hi := BitVec.ofNat 6144 ((2 ^ p.after - 1) * 2 ^ (g + p.size / 64))
      m ||| lo ||| hi) 0

/-- A context freed: of its work only the engine commands go on, and its plan guards nothing. -/
def Core.freeCtx (k : Core) (c : Nat) (x : Bool) : Core :=
  let ends := k.cur == some x
  let k := k.setCtx x { Ctx.reset with half := (k.ctx x).half }
  { k with
    cur := if ends then none else k.cur, ended := k.ended || ends,
    guardMap := guardMapOf (k.c0.plan ++ k.c1.plan),
    array := k.array.filter fun j => j.x != x, tile := k.tile.filter fun j => j.x != x,
    xq := k.xq.filter fun j => j.x != x, accs := k.accs.filter fun a => a.x != x,
    timers := k.timers.filter fun e => !(ofContext c x e.2) }

def State.freeCtx (s : State) (c : Nat) (x : Bool) : State :=
  let s := s.modCore c fun k => k.freeCtx c x
  let s := { s with agenda := s.agenda.filter fun e => !(ofContext c x e.2) }
  s.later 1 (.gangDispatch (dieOf c))

/-! ## Reservations and pre-emption requests (R59, R61) -/

/-- EVT.PREQ cleared and its deadline cancelled (R61). -/
def State.clearPreq (s : State) (c : Nat) (x : Bool) : State :=
  s.modCtx c x fun t => { t with evt := t.evt &&& 3, wait := { t.wait with deadline := none } }

/-- The cores that a reservation holds. -/
def Resv.cores (r : Resv) (d : Nat) : List Nat :=
  ((List.range r.width).map fun k => 12 * d + r.c0 + k).filter fun c => !(r.bans.any fun b => b.1 == c)

/-- The reservation given up: requests on its cores are withdrawn (R61). -/
def State.dropResv (s : State) (d : Nat) : State :=
  match (s.die d).resv with
  | none => s
  | some r =>
    let s := (r.cores d).foldl (fun s c =>
      match (s.core c).cur with
      | some x => if (s.die d).retiring.any fun g => g == clusterOf c then s else s.clearPreq c x
      | none => s) s
    s.modDie d fun k => { k with resv := none }

/-- The reservations of entries that have left their queues are given up (R61). -/
def State.tidyResv (s : State) : State :=
  (List.range 64).foldl (fun s d =>
    match (s.die d).resv with
    | none => s
    | some r => if (s.die d).queue.any fun e => e.id == r.entry then s else s.dropResv d) s

/-- The contexts that a run's strands hold. -/
def Run.places (r : Run) : List (Nat × Bool) := r.ranks.filterMap RankRec.place

/-- A run ended without passing: its contexts freed, its held writes and ring entries discarded, its
queue entries removed (R68, R335). -/
def State.endRun (s : State) (r : Run) : State :=
  let s := r.places.foldl (fun s p => s.freeCtx p.1 p.2) s
  let mine (e : QEntry) : Bool :=
    match e.kind with
    | .fresh => false
    | .spilled q _ | .pinned q _ _ _ => q == r.id
  let s := { s with dies := s.dies.map fun (k : Die) => { k with
    contain := k.contain.filter fun h => h.run != r.id,
    ring := k.ring.filter fun e => e.run != r.id,
    queue := k.queue.filter fun e => !(mine e) } }
  (s.modMdl fun m => { m with runs := m.runs.filter fun q => q.id != r.id }).tidyResv

/-! ## Failure -/

/-- A predecessor counter freed (R48). -/
def State.freeCounter (s : State) (r : NodeRec) : State :=
  s.modDie r.cdie.toNat fun k => { k with counters := assocDel k.counters r.cidx.toNat }

/-- A node fails (R68). `d` is the die that records it. Where it is a recompute's run of a listed node, or the
run that such a run waits for, the held node's counter is not decremented: it stays HELD (DESIGN CHOICE, log 82). -/
def State.failNode (s : State) (addr : Word) (inst : BitVec 32) (code d : Nat) : State :=
  match s.mdl.node? addr with
  | none => s
  | some n =>
    let s := (s.mdl.runs.filter fun r => r.node == addr).foldl (fun s r => s.endRun r) s
    let s := { s with dies := s.dies.map fun (k : Die) => { k with
      queue := k.queue.filter fun e => e.node != addr,
      cmds := k.cmds.filter fun q => match q.copyNode with
        | some (a, _) => a != addr
        | none => true } }
    let s := s.tidyResv
    let n := { n with st := 6, fail := BitVec.ofNat 8 code }
    let s := s.updateNode n
    let s := if n.parent.isNone then s.freeCounter n.r else s
    let s := s.modMdl fun m => { m with nodes := dropNode addr m.nodes,
                                        gangs := m.gangs.filter fun g => g.node != addr }
    s.event 6 d n.r.nodeId (BitVec.ofNat 64 (inst.toNat + code * 2 ^ 32))

/-- The Yew entry of a strand that ends with STRAND_FAULT (R315, R384); core 0xFF where it is in none. -/
def State.yewStrand (s : State) (d : Nat) (core cause : BitVec 8) (nodeId inst : BitVec 32) : State :=
  s.yewAdd d 4 core (cause.setWidth 32) (BitVec.ofNat 64 (nodeId.toNat + inst.toNat * 2 ^ 32)) 0

/-- A strand that ends with STRAND_FAULT: a Yew entry names the cause, and its node fails (R315,
R68). A context with no strand is freed. -/
def State.strandFault (s : State) (c : Nat) (x : Bool) (cause : BitVec 8) : State :=
  match (s.ctx c x).strand with
  | none => s.freeCtx c x
  | some n =>
    let s := s.yewStrand (dieOf c) (BitVec.ofNat 8 (localOf c)) cause n.nodeId n.inst
    (s.freeCtx c x).failNode n.record n.inst 6 (dieOf c)

/-- A strand whose node fails with another code. -/
def State.strandFail (s : State) (c : Nat) (x : Bool) (code : BitVec 8) : State :=
  match (s.ctx c x).strand with
  | none => s.freeCtx c x
  | some n => (s.freeCtx c x).failNode n.record n.inst code.toNat (dieOf c)

/-- What follows a slot write: a fault or an overflow ends the strand; a write that waits for a line of the
containment buffer is tried again (R337). -/
def State.afterSlot (s : State) (c : Nat) (x : Bool) (o : SlotOut) (k : State → State) : State :=
  match o with
  | .done s => k s
  | .fault => s.strandFault c x 0
  | .waits => s.later 1 (.containmentLineFreed (dieOf c))
  | .overflow => s.strandFail c x 4

/-! ## Entries of gangs -/

/-- A fresh entry of a gang on R52's die, or the node's failure where none can hold it, recorded by the
scheduler of die `by_`: CDIE's at readiness, the failing run's die for a run that is placed again (R366). -/
def State.queueGang (s : State) (n : Node) (g : Gang) (twin : Bool) (excl : List Nat) (code by_ : Nat) :
    State :=
  match s.chooseDie n.r.dieMask n.r.width.toNat excl with
  | none => s.failNode n.addr g.inst code by_
  | some d =>
    let f := s.fresh
    f.2.enqueue d
      { id := f.1, node := n.addr, gang := g.id, nodeId := n.r.nodeId, inst := g.inst, stage := g.stage,
        prio := n.r.prio, width := n.r.width, mask := n.r.dieMask, since := s.now, twin := twin,
        kind := .fresh }

/-- The gang of a run, and its replacement. -/
def Module.gang? (m : Module) (id : Nat) : Option Gang := m.gangs.find? fun g => g.id == id

def Module.modGang (m : Module) (id : Nat) (f : Gang → Gang) : Module :=
  { m with gangs := m.gangs.map fun g => if g.id == id then f g else g }

/-- The dies that a new run of a gang may not take: those that have run it, and those where an entry
of it waits (R53). -/
def State.triedDies (s : State) (g : Gang) : List Nat :=
  g.dies ++ (List.range 64).filter fun d => (s.die d).queue.any fun e => e.gang == g.id

/-- A run abandoned, and its gang queued again (R335). `same` re-queues it for the same die (R337). -/
def State.abandonRun (s : State) (id : Nat) (same : Bool) : State :=
  match s.mdl.run? id with
  | none => s
  | some r =>
    let id32 := match s.mdl.node? r.node with
      | some n => n.r.nodeId.toNat
      | none => 0
    let s := (s.endRun r).yewAdd r.die 3 0xFF 0 (BitVec.ofNat 64 (id32 + r.inst.toNat * 2 ^ 32)) 0
    match s.mdl.gang? r.gang, s.mdl.node? r.node with
    | some g, some n =>
      let s := s.modMdl fun m => m.modGang g.id fun g => { g with votes := g.votes.filter fun v => v != id }
      if same then
        let f := s.fresh
        f.2.enqueue r.die
          { id := f.1, node := n.addr, gang := g.id, nodeId := n.r.nodeId, inst := g.inst,
            stage := g.stage, prio := n.r.prio, width := n.r.width, mask := n.r.dieMask, since := s.now,
            twin := false, kind := .fresh }
      else s.queueGang n g false (s.triedDies g) 2 r.die
    | _, _ => s

end Sys2Proof.Machine
end

