-- ==== Sys2Proof/Machine/Sched.lean ====
section
/-!
DEFINITION. The scheduler: the launch queue (R45 to R47), counters (R48), readiness and recompute (R50,
R51), completion (R67), dispatch and reservation (R57 to R60), the start of a gang (R24, R28, R58), and
pre-emption requests (R61 to R64).
-/
namespace Sys2Proof.Machine

/-! ## The launch queue -/

/-- R45. -/
def State.lqdoor (s : State) (v : Word) : State :=
  let t := BitVec.ofNat 9 v.toNat
  let m := s.mdl
  if 256 < (t - m.lqHead).toNat then s.event 2 0xFF (t.setWidth 32) 0
  else if t = m.lqTail then s
  else
    let idle := m.lqHead == m.lqTail
    let s := s.modMdl fun m => { m with lqTail := t }
    if idle then s.later 1 .launchWord else s

def execLqdoorWrite (v : Word) (s : State) : Step := .next (s.lqdoor v)

/-- n doublewords read through translation. -/
def State.vWords (s : State) (va : Word) : Nat → Option (List Word)
  | 0 => some []
  | n + 1 =>
    match s.vNum va 8, s.vWords (va + 8) n with
    | .ok w, some r => some (BitVec.ofNat 64 w :: r)
    | _, _ => none

/-- LAUNCH_FAIL. -/
def State.launchFail (s : State) (tag entry code : Nat) : State :=
  s.event 1 0xFF (BitVec.ofNat 32 tag) (BitVec.ofNat 64 (entry + code * 2 ^ 16))

/-- The first entry, from number i on, whose record fails R41. -/
def State.firstBad (s : State) (i : Nat) : List Word → Option Nat
  | [] => none
  | a :: r =>
    match s.readRec a with
    | none => some i
    | some n => if s.recordBad a n then some i else s.firstBad (i + 1) r

/-- The first entry whose counter is not free or is named twice (R47). -/
def State.firstBusy (s : State) (i : Nat) (seen : List (Nat × Nat)) : List NodeRec → Option Nat
  | [] => none
  | n :: r =>
    let k := (n.cdie.toNat, n.cidx.toNat)
    if (assocGet (s.die k.1).counters k.2).isSome || seen.any (fun e => e == k) then some i
    else s.firstBusy (i + 1) (k :: seen) r

/-- A node armed: its counter, its record's written fields, its place among the live nodes (R47). Where a
recompute's run of the same record is in flight, its node is dropped, and what its strands complete is credited to
the node armed now (DESIGN CHOICE, log 83). -/
def State.arm (s : State) (tag : Nat) (addr : Word) (r : NodeRec) : State :=
  let n : Node := { addr := addr, tag := BitVec.ofNat 32 tag, r := r, st := 1, n := 0, done := 0,
                    unyield := 0, fail := 0, parent := none, held := 0, die := r.cdie.toNat,
                    gangsDone := [] }
  let s := s.modDie r.cdie.toNat fun k =>
    { k with counters := assocPut k.counters r.cidx.toNat ⟨r.initPred, addr⟩ }
  ((s.modMdl fun m => { m with nodes := dropNode addr m.nodes ++ [n] }).writeNode n)

/-- A launch, all or none (R46, R47). -/
def State.launch (s : State) (w : Word) : State :=
  if slice w 63 48 != 0 || slice w 2 0 != 0 then s.launchFail 0 0xFFFF 3
  else match s.vNum w 8 with
    | .error _ => s.launchFail 0 0xFFFF 3
    | .ok h =>
      let n := h % 65536
      let tag := h / 2 ^ 32
      if n = 0 || h / 65536 % 65536 != 0 then s.launchFail tag 0xFFFF 3
      else match s.vWords (w + 8) n with
        | none => s.launchFail 0 0xFFFF 3
        | some addrs =>
          match s.firstBad 0 addrs with
          | some i => s.launchFail tag i 3
          | none =>
            let recs := addrs.filterMap s.readRec
            match s.firstBusy 0 [] recs with
            | some i => s.launchFail tag i 0xFF
            | none =>
              let s := (addrs.zip recs).foldl (fun s e => s.arm tag e.1 e.2) s
              (addrs.zip recs).foldl (fun s e =>
                if e.2.initPred == 0 then s.later 1 (.nodeReadiness e.1.toNat) else s) s

/-- The next launch word, at its physical address (R45). -/
def State.launchNext (s : State) : State :=
  let m := s.mdl
  if m.lqHead = m.lqTail then s
  else
    let p := slice m.lqBase 47 11 * 2048 + m.lqHead.toNat % 256 * 8
    let s := s.launch (BitVec.ofNat 64 (memReadLE s.mem p 8))
    let s := s.modMdl fun m => { m with lqHead := m.lqHead + 1 }
    if s.mdl.lqHead = s.mdl.lqTail then s else s.later 1 .launchWord

def execLaunchWord (s : State) : Step := .next s.launchNext

/-! ## Counters -/

/-- A decrement at a counter's die (R48); `cid` is laid out as record bytes 76 to 79. -/
def State.decrement (s : State) (cid sender : BitVec 32) : State :=
  let d := slice cid 21 16
  let i := slice cid 15 0
  match assocGet (s.die d).counters i with
  | none => s.event 3 d cid (sender.setWidth 64)
  | some k =>
    if k.count = 0 then s.event 3 d cid (sender.setWidth 64)
    else
      let s := s.modDie d fun q => { q with counters := assocPut q.counters i { k with count := k.count - 1 } }
      if k.count = 1 then s.later 1 (.nodeReadiness k.addr.toNat) else s

def execPredecessorDecrement (cid sender : BitVec 32) (src : Nat) (s : State) : Step :=
  onDie src (s.decrement cid sender)

/-! ## Readiness -/

/-- The gangs of instances i, i + 1, … queued: ascending instance, then stage; a twin follows its
primary (R50, R52, R53). -/
def State.queueStages (s : State) (addr : Word) (inst : Nat) : Nat → State
  | 0 => s
  | k + 1 =>
    let s := s.queueStages addr inst k
    match s.mdl.node? addr with
    | none => s
    | some n =>
      let f := s.fresh
      let g : Gang := ⟨f.1, addr, BitVec.ofNat 32 inst, BitVec.ofNat 4 k, [], [], false⟩
      let s := f.2.modMdl fun m => { m with gangs := m.gangs ++ [g] }
      let s := s.queueGang n g false [] 1 n.r.cdie.toNat
      if n.r.cls == 2 then
        match s.mdl.node? addr with
        | none => s
        | some n => s.queueGang n g true (s.triedDies g) 2 n.r.cdie.toNat
      else s

def State.queueInstances (s : State) (addr : Word) (stages first : Nat) : Nat → State
  | 0 => s
  | k + 1 =>
    let s := s.queueInstances addr stages first k
    s.queueStages addr (first + k) stages

/-- Copy node instances issued one after another (R43). -/
def State.queueCopies (s : State) (addr : Word) : Nat → State
  | 0 => s
  | k + 1 => (s.queueCopies addr k).later 1 (.copyNodeInstance addr.toNat k)

/-- The instance count, by one read where IND is 1 (R50); none on a fault. -/
def State.instCount (s : State) (r : NodeRec) : Option Nat :=
  if !r.ind then some (slice r.icnt 31 0)
  else match s.vNum (r.icnt.setWidth 64) 4 with
    | .ok n => some n
    | .error _ => none

/-- Readiness from step 2 of R50 on. -/
def State.readyCount (s : State) (n : Node) : State :=
  match s.instCount n.r with
  | none => s.failNode n.addr 0 3 n.r.cdie.toNat
  | some c =>
    let extra := c - n.r.imax.toNat
    let n := { n with n := c, done := extra, st := 3 }
    if c = extra then
      (s.setNode n).later 1 (.nodeCompletion n.addr.toNat)
    else
      let s := s.updateNode n
      if n.r.copy then s.queueCopies n.addr (c - extra)
      else s.queueInstances n.addr (n.r.stg.toNat + 1) 0 (c - extra)

/-- The nodes that a recompute lists, made ready afresh; one that is live waits for its current run to
end (R51). The spec names no end for a listed record that cannot be read: the held node fails with BAD_RECORD
(DESIGN CHOICE, log 74). -/
def State.recompute (s : State) (parent : Node) (l : List Word) : State :=
  l.foldl (fun s a =>
    match s.readRec a with
    | none => s.failNode parent.addr 0 3 parent.r.cdie.toNat
    | some r =>
      let live := (s.mdl.node? a).isSome
      let n : Node := { addr := a, tag := parent.tag, r := r, st := 1, n := 0, done := 0, unyield := 0,
                        fail := 0, parent := some parent.addr, held := 0,
                        die := r.cdie.toNat, gangsDone := [] }
      let s := s.modMdl fun m => { m with nodes := m.nodes ++ [n] }
      if live then s else s.later 1 (.nodeReadiness a.toNat)) s

/-- The counter of a node, 0 where it is not armed. -/
def State.counterOf (s : State) (r : NodeRec) : BitVec 16 :=
  match assocGet (s.die r.cdie.toNat).counters r.cidx.toNat with
  | some k => k.count
  | none => 0

/-- Runs that a HELD node waits for: on its counter, or, for a run that a recompute makes, whose counter stays
untouched, on a count of its own (R51; DESIGN CHOICE, log 73). -/
def State.heldFor (s : State) (n : Node) : Nat :=
  if n.parent.isSome then n.held else (s.counterOf n.r).toNat

/-- A node HELD by its watermark recomputes (R51). Its list cannot be read: it fails with BAD_RECORD (DESIGN
CHOICE, log 74). Its list is empty: the recompute is over at once (DESIGN CHOICE, log 73). -/
def State.holdNode (s : State) (n : Node) : State :=
  let r := n.r
  match s.vWords r.recomp r.nrecomp.toNat with
  | none => s.failNode n.addr 0 3 r.cdie.toNat
  | some l =>
    let n := { n with st := 2, held := l.length }
    let s := s.updateNode n
    let s := if n.parent.isSome then s else s.modDie r.cdie.toNat fun k =>
      { k with counters := assocPut k.counters r.cidx.toNat ⟨s.counterOf r + r.nrecomp, n.addr⟩ }
    if l.isEmpty then s.later 1 (.nodeReadiness n.addr.toNat) else s.recompute n l

/-- R50. A HELD node resumes at step 2, with its record as it was read (R51, R40). -/
def State.ready (s : State) (addr : Word) : State :=
  match s.mdl.node? addr with
  | none => s
  | some n =>
    if 3 ≤ n.st.toNat then s
    else if n.st = 2 then (if s.heldFor n = 0 then s.readyCount n else s)
    else match s.readRec addr with
      | none => s.failNode addr 0 3 n.r.cdie.toNat
      | some r =>
        let r := { r with cdie := n.r.cdie, cidx := n.r.cidx, initPred := n.r.initPred }
        let n := { n with r := r }
        let s := s.setNode n
        if s.recordBad addr r then s.failNode addr 0 3 r.cdie.toNat
        else if r.wmark != 0 && s.mdl.memFree.toNat < r.wmark.toNat then s.holdNode n
        else s.readyCount n

def execNodeReadiness (rec : Nat) (s : State) : Step := .next (s.ready (BitVec.ofNat 64 rec))

/-! ## Completion -/

/-- One of the runs that a HELD node waits for has completed (R51). -/
def State.heldDown (s : State) (q : Node) (sender : BitVec 32) (d : Nat) : State :=
  if q.parent.isSome then
    let s := s.setNode { q with held := q.held - 1 }
    if q.held = 1 then s.later 1 (.nodeReadiness q.addr.toNat) else s
  else
    s.later 1 (.predecessorDecrement (BitVec.ofNat 32 (q.r.cdie.toNat * 65536 + q.r.cidx.toNat)) sender d)

/-- R48 and R67: the successor list, STATE, NODE_DONE and the decrements; a run that a recompute made
decrements the held node only (R51). -/
def State.completeNode (s : State) (addr : Word) : State :=
  match s.mdl.node? addr with
  | none => s
  | some n =>
    let d := n.die
    let words := (List.range n.r.nsucc.toNat).map fun i => s.vNum (n.r.succ + BitVec.ofNat 64 (4 * i)) 4
    let bad := words.any fun w => match w with | .error _ => true | .ok _ => false
    if bad && n.parent.isNone then s.failNode addr 0 3 d
    else
      let n := { n with st := 5, done := n.n }
      let s := s.updateNode n
      let s := if n.r.notify then s.event 5 d n.r.nodeId (n.tag.setWidth 64) else s
      let s := if n.parent.isNone then s.freeCounter n.r else s
      let s := s.modMdl fun m => { m with nodes := dropNode addr m.nodes,
                                          gangs := m.gangs.filter fun g => g.node != addr }
      let s := if (s.mdl.node? addr).isSome then s.later 1 (.nodeReadiness addr.toNat) else s
      match n.parent with
      | some p =>
        match s.mdl.node? p with
        | none => s
        | some q => s.heldDown q n.r.nodeId d
      | none =>
        words.foldl (fun s w =>
          match w with
          | .ok v => s.laterPick 1 (.predecessorDecrement (BitVec.ofNat 32 v) n.r.nodeId d)
          | .error _ => s) s

def execNodeCompletion (rec : Nat) (s : State) : Step := .next (s.completeNode (BitVec.ofNat 64 rec))

/-- One more stage gang of an instance has completed (R27, R67). -/
def State.gangDone (s : State) (addr : Word) (inst : Nat) (d : Nat) : State :=
  match s.mdl.node? addr with
  | none => s
  | some n =>
    let k := (assocGet n.gangsDone inst).getD 0 + 1
    if k ≤ n.r.stg.toNat then s.setNode { n with gangsDone := assocPut n.gangsDone inst k }
    else
      let n := { n with gangsDone := assocDel n.gangsDone inst, done := n.done + 1, die := d }
      let s := s.updateNode n
      if n.done = n.n then s.later 1 (.nodeCompletion addr.toNat) else s

/-! ## The copy engines of a die (R256) -/

/-- A command of the copy engines. -/
def Cmd.isCopy (q : Cmd) : Bool :=
  match q.op with
  | .copy _ _ _ _ _ _ _ _ _ _ | .copym _ _ _ _ _ _ _ _ _ | .rcopy _ _ _ _ _ _ _ _ _ => true
  | _ => false

/-- Requests that a copy command makes, at most: each row's blocks, read once and written to each of its
destinations, and the markers. -/
def Cmd.requests (q : Cmd) : Nat :=
  let dests := match q.op with
    | .copym _ _ _ _ _ _ _ _ _ => 12
    | _ => 1
  (1 + dests) * (slice q.g2 63 32 * (slice q.g2 31 0 / 128 + 3) + 1)

/-- Least time of a number of requests: 4 master clocks each under throttle stage 2 (R377). -/
def State.engineLeast (s : State) (n : Nat) : Nat := if 2 ≤ s.mdl.pStage.toNat then 4 * n else 0

/-- Throttle stage 2 has not left a command's requests their room yet (R377). -/
def State.pacing (s : State) (q : Cmd) : Bool := 2 ≤ s.mdl.pStage.toNat && s.now < q.paced

/-- A copy engine of the die that is free takes the first command that waits. -/
def State.engineTake (s : State) (d : Nat) : State :=
  let l := (s.die d).cmds.filter Cmd.isCopy
  if 4 ≤ (l.filter Cmd.running).length then s
  else match l.find? fun q => !q.running with
    | none => s
    | some q =>
      (s.modDie d fun k => { k with cmds := k.cmds.map fun p =>
        if p.id == q.id then { p with running := true } else p }).laterLeast
        (s.engineLeast q.requests) Config.engine (.engineCompletion d q.id)

/-- The four copy engines of a die take commands in arrival order (R256). -/
def State.enginesTake (s : State) (d : Nat) : State :=
  (((s.engineTake d).engineTake d).engineTake d).engineTake d

/-- R43: the transfer of an instance handed to a copy engine: of the dies that DIEMASK allows, the lowest that
survives; where none does any more, the node fails with BAD_RECORD (DESIGN CHOICE, log 72). -/
def State.copyInstance (s : State) (addr : Word) (i : Nat) : State :=
  match s.mdl.node? addr with
  | none => s
  | some n =>
    match s.vWords (n.r.args + BitVec.ofNat 64 (32 * i)) 4, (s.maskDies n.r.dieMask).head? with
    | some [a, b, e, t], some d =>
      let f := s.fresh
      let q : Cmd := { id := f.1, core := 12 * d, x := false, run := 0, rank := 0,
                       op := .copy ⟨0, false⟩ true true 4 1 1 false false 0 0, g0 := a, g1 := b, g2 := e,
                       g3 := t, copyNode := some (addr, BitVec.ofNat 32 i), mark := (s.die d).nextPath,
                       running := false, coll := none, prot := false, waits := false, result := none,
                       writes := [], late := none, xl := [], need := none, paced := 0 }
      let s := f.2.modDie d fun k => { k with cmds := k.cmds ++ [q] }
      (s.updateNode { n with st := 4 }).enginesTake d
    | _, _ => s.failNode addr (BitVec.ofNat 32 i) 3 n.r.cdie.toNat

def execCopyNodeInstance (rec i : Nat) (s : State) : Step :=
  .next (s.copyInstance (BitVec.ofNat 64 rec) i)

/-! ## Pre-emption requests -/

/-- PREQ set on a running context, with its node's deadline (R61). The event comes after the issue of the
deadline's clock, so that an instruction of that clock wins (R64). -/
def State.setPreq (s : State) (c : Nat) (x : Bool) : State :=
  let t := s.ctx c x
  if getBit t.evt 2 then s
  else
    let y := match t.strand with
      | some n => n.ydl
      | none => 48000
    (s.modCtx c x fun t => { t with evt := t.evt ||| 4, wait := { t.wait with
      deadline := some (s.now + y), preqAt := s.now } }).later (y + 1) (.yieldDeadlineExpiry c x)

/-- The entry that holds a core reserved (R59). -/
def State.resvOf (s : State) (c : Nat) : Option QEntry :=
  match (s.die (dieOf c)).resv with
  | none => none
  | some r => if (r.cores (dieOf c)).any fun e => e == c then
      (s.die (dieOf c)).queue.find? fun e => e.id == r.entry
    else none

/-- UNYIELD counts an expired deadline, saturating (R63). A run that a recompute makes counts it in the record
alone. -/
def State.countUnyield (s : State) (n : Node) : State :=
  let up (v : Nat) : Nat := min 255 (v + 1)
  if n.parent.isNone then s.updateNode { n with unyield := BitVec.ofNat 8 (up n.unyield.toNat) }
  else match s.vNum (n.addr + 121) 1 with
    | .error _ => s
    | .ok v => match s.vWrite (n.addr + 121) (bytesLE 1 (up v)) with
      | .ok s => s
      | .error _ => s

/-- R63, R64, and R343's end of a strand that does not leave a retiring core in time. -/
def State.deadlineExpired (s : State) (c : Nat) (x : Bool) : State :=
  let t := s.ctx c x
  match t.wait.deadline, t.strand with
  | some w, some n =>
    if s.now ≤ w || t.status != .running then s
    else if (s.die (dieOf c)).retiring.any fun g => g == clusterOf c then s.strandFault c x 0
    else
      let s := s.clearPreq c x
      let s := match s.mdl.node? n.record with
        | some k => s.countUnyield k
        | none => s
      let s := s.event 4 (dieOf c) n.nodeId (BitVec.ofNat 64 (n.inst.toNat + c * 2 ^ 32))
      (s.modDie (dieOf c) fun k => { k with resv := k.resv.map fun r =>
        { r with bans := (c, s.now + s.agePeriod) :: r.bans } }).later s.agePeriod (.gangDispatch (dieOf c))
  | _, _ => s

def execYieldDeadlineExpiry (c : Nat) (x : Bool) (s : State) : Step := onCore c (s.deadlineExpired c x)

/-! ## Parking and sharing (R32) -/

/-- Banks of a plan's scratchpad buffers. -/
def planBanks (l : List PlanRec) : List Nat :=
  l.flatMap fun p => if p.kind == 0 then
    (List.range ((p.off + p.size + 16383) / 16384 - p.off / 16384)).map (p.off / 16384 + ·) else []

/-- Two plans place their parts apart (R32). -/
def plansApart (a b : List PlanRec) : Bool :=
  (planBanks a).all (fun i => (planBanks b).all fun j => i != j) &&
  a.all fun p => b.all fun q => p.kind != q.kind || p.kind == 0 || !(rangesMeet p.off p.size q.off q.size)

/-- The plan of a queue entry's node as memory holds it now; one that cannot be read counts as empty (DESIGN
CHOICE, log 71). -/
def State.entryPlan (s : State) (e : QEntry) : List PlanRec :=
  match s.mdl.node? e.node with
  | none => []
  | some n => match s.readPlan n.r.plan n.r.nplan.toNat with
    | .ok l => l
    | .error _ => []

/-! ## Dispatch -/

/-- A context's strand was parked with no reserving entry (R32). -/
def Ctx.alone (t : Ctx) : Bool :=
  match t.strand with
  | some n => n.alone
  | none => false

/-- How an entry may take a core (R57): the context it takes, and whether the parked strand in the other
context is spilled first. -/
inductive Seat where
  | free (x : Bool)
  | spill (x : Bool)
  | none
deriving DecidableEq, Repr

/-- The pinned entry of a parked context. -/
def State.pinnedAt (s : State) (c : Nat) (x : Bool) : Option QEntry :=
  (s.die (dieOf c)).queue.find? fun e =>
    match e.kind with
    | .pinned _ _ c' x' => c' == c && x' == x
    | .fresh | .spilled _ _ => false

/-- How an entry may take a core (R57). A strand that was parked for one head, on a core that a later head with a
conflicting plan needs, is neither spilled nor, while that head holds the core reserved, resumed: R60 names no
action for it, and both wait (DESIGN CHOICE, log 86). -/
def State.seat (s : State) (e : QEntry) (c : Nat) : Seat :=
  let k := s.core c
  let reserved := match s.resvOf c with
    | some f => f.id != e.id
    | none => false
  if !(s.coreUsable c) || k.cur.isSome || reserved then .none
  else
    match k.c0.status, k.c1.status with
    | .free, .free => .free false
    | .free, .parked =>
      if plansApart k.c1.plan (s.entryPlan e) then .free false
      else match s.pinnedAt c true with
        | some p => if k.c1.alone && s.entryBefore e p then .spill false else .none
        | none => .none
    | .parked, .free =>
      if plansApart k.c0.plan (s.entryPlan e) then .free true
      else match s.pinnedAt c false with
        | some p => if k.c0.alone && s.entryBefore e p then .spill true else .none
        | none => .none
    | _, _ => .none

/-- The cores of an entry's run. -/
def QEntry.cores (e : QEntry) (d c0 : Nat) : List Nat :=
  (List.range e.width.toNat).map fun k => 12 * d + c0 + k

/-- The lowest run of idle cores that an entry can take (R57); `kept` are the cores of entries that have found
their runs and wait for a spill. -/
def State.idleRun (s : State) (d : Nat) (e : QEntry) (kept : List Nat) : Option Nat :=
  (s.runsOf d e.width.toNat).find? fun c0 =>
    (e.cores d c0).all fun c => s.seat e c != .none && !(kept.any fun k => k == c)

/-- The highest effective priority that runs in a run of cores, plus 1; 0 where all are idle (R59). -/
def State.runPrio (s : State) (d c0 w : Nat) : Nat :=
  (List.range w).foldl (fun m k =>
    let q := s.core (12 * d + c0 + k)
    match q.cur with
    | none => m
    | some x => match (q.ctx x).strand with
      | some n => max m (n.prio.toNat + 1)
      | none => m) 0

/-- Every core of the run that runs something has a lower effective priority (R61). -/
def State.requestRun (s : State) (d : Nat) (e : QEntry) (r : Resv) : State :=
  if s.effPrio e + 1 ≤ s.runPrio d r.c0 r.width then s
  else (r.cores d).foldl (fun s c =>
    match (s.core c).cur with
    | some x => if (s.ctx c x).status == .running then s.setPreq c x else s
    | none => s) s

/-- The head reserves a run, or keeps the one it has, whose expired bans end (R59, R63). -/
def State.reserve (s : State) (d : Nat) (e : QEntry) : State :=
  match (s.die d).resv with
  | some r =>
    let r := { r with bans := r.bans.filter fun b => s.now < b.2 }
    (s.modDie d fun k => { k with resv := some r }).requestRun d e r
  | none =>
    let w := e.width.toNat
    let runs := match e.kind with
      | .pinned _ _ c _ => [localOf c]
      | .fresh | .spilled _ _ => s.runsOf d w
    match runs with
    | [] => s
    | c :: cs =>
      let best := cs.foldl (fun b c0 => if s.runPrio d c0 w < s.runPrio d b w then c0 else b) c
      let r : Resv := ⟨e.id, best, w, []⟩
      (s.modDie d fun k => { k with resv := some r }).requestRun d e r

/-- The strand of rank k of a node's instance and stage (R28, R41). -/
def strandOf (n : Node) (inst : BitVec 32) (stage : BitVec 4) (k run : Nat) (gen : BitVec 32)
    (age : BitVec 8) : Strand :=
  let r := n.r
  let j := (inst.toNat * (r.stg.toNat + 1) + stage.toNat) * r.width.toNat + k
  { record := n.addr, slot := r.save + BitVec.ofNat 64 (j * r.sstride.toNat), nodeId := r.nodeId,
    inst := inst, stage := stage, rank := BitVec.ofNat 4 k, width := r.width, cls := r.cls, run := run,
    nbundle := r.nbundle.toNat, image := r.image, sptab := r.sptab,
    spdlim := if r.spdlim = 0 then 65536 else r.spdlim.toNat,
    ydl := if r.ydl = 0 then 48000 else r.ydl.toNat, prio := r.prio, gen := gen,
    spidx := 0xFFFF, age := age, alone := false }

/-- The half of the instruction store that a context runs from (R58): the other context's where that
holds the same image, else the other half; with both contexts free it is half 0 (DESIGN CHOICE, log 75). -/
def Core.halfFor (k : Core) (x : Bool) (n : Strand) : Bool :=
  let o := k.ctx !x
  match o.strand with
  | some m => if m.image == n.image && m.nbundle == n.nbundle then o.half else !o.half
  | none => false

/-- A strand put into a free context, which runs next on its core (R57). -/
def State.place (s : State) (c : Nat) (x : Bool) (n : Strand) : State :=
  s.modCore c fun k =>
    let k' := k.setCtx x { Ctx.reset with strand := some n, status := .placed, half := k.halfFor x n }
    { k' with cur := some x }

/-- A seat's context. -/
def Seat.ctx : Seat → Bool
  | .free x | .spill x => x
  | .none => false

/-- An entry taken off its die's queue; its own reservation is fulfilled. -/
def State.unqueue (s : State) (d : Nat) (e : QEntry) : State :=
  let s := match (s.die d).resv with
    | some r => if r.entry = e.id then s.dropResv d else s
    | none => s
  s.modDie d fun k => { k with queue := k.queue.filter fun f => f.id != e.id }

/-- A fresh gang placed on cores c0, …: its run begins, and its images load (R57, R58). -/
def State.placeGang (s : State) (d c0 : Nat) (e : QEntry) (n : Node) : State :=
  let w := e.width.toNat
  let seats := (List.range w).map fun k => (12 * d + c0 + k, (s.seat e (12 * d + c0 + k)).ctx)
  let f := s.fresh
  let run : Run := { id := f.1, gang := e.gang, node := e.node, inst := e.inst, stage := e.stage, die := d,
                     c0 := c0, twin := e.twin, started := false, barriers := 0,
                     ranks := seats.map fun p => ⟨0, false, 0, [], some p, [], s.mdl.gen, 0, false, []⟩ }
  let s := (f.2.unqueue d e).modMdl fun m =>
    { (m.modGang e.gang fun g => { g with dies := d :: g.dies, votes := g.votes ++ [f.1] }) with
      runs := m.runs ++ [run] }
  let s := seats.zipIdx.foldl (fun s p =>
    s.place p.1.1 p.1.2 (strandOf n e.inst e.stage p.2 f.1 s.mdl.gen (s.ageOf e))) s
  let s := if n.st = 3 then s.updateNode { n with st := 4 } else s
  s.laterPick Config.imageLoad (.gangStart d c0)

/-- A spilled strand placed on a core; it resumes once its image is there (R58, R329). -/
def State.placeSpilled (s : State) (d c : Nat) (e : QEntry) (n : Node) (run : Nat) (rank : BitVec 4) :
    State :=
  let x := (s.seat e c).ctx
  let s := (s.unqueue d e).place c x (strandOf n e.inst e.stage rank.toNat run s.mdl.gen (s.ageOf e))
  (s.modRank run rank.toNat fun k => { k with place := some (c, x) }).laterPick Config.imageLoad
    (.strandResume c x)

end Sys2Proof.Machine
end

