-- ==== Sys2Proof/Machine/Suspend.lean ====
section
/-!
DEFINITION. How strands start, stop and go on: image loads and the start state (R28, R58), the drain
(R327), the save area (R328), parking and spilling (R327), resumption (R329, R330), DONE's end (R151),
barriers (R152, R153), and the dispatch that uses them (R57).
-/
namespace Sys2Proof.Machine

/-! ## Safe-point entries (R127) -/

/-- Entry of a safe-point id among n 128-byte entries, as a number. -/
def State.findSpt (s : State) (va : Word) (id : Nat) : Nat → Option Nat
  | 0 => none
  | n + 1 =>
    match s.vNum va 128 with
    | .error _ => none
    | .ok w => if recField w 0 0 16 = id then some w else s.findSpt (va + 128) id n

def State.sptEntry (s : State) (sptab : Word) (id : Nat) : Option Nat :=
  match s.vNum sptab 16 with
  | .error _ => none
  | .ok h => s.findSpt (sptab + 16) id (h % 2 ^ 32)

/-- Numbers of the set bits of a bitmap, ascending. -/
def setBits (m n : Nat) : List Nat := (List.range n).filter fun i => natBit m i

/-- A safe-point entry's fields. -/
def sptS (w : Nat) : List Nat := setBits (recField w 8 0 32) 32
def sptA (w : Nat) : List Nat := setBits (recField w 12 0 32) 32
def sptV (w : Nat) : List Nat := setBits (recField w 16 0 64) 64
def sptM (w : Nat) : List Nat := setBits (recField w 24 0 8) 8
def sptP (w : Nat) : List Nat := setBits (recField w 25 0 8) 8
def sptT (w : Nat) : List Nat := setBits (recField w 26 0 16) 16
def sptK (w : Nat) : List Nat := setBits (recField w 28 0 8) 8
def sptL (w : Nat) : List Nat := setBits (recField w 29 0 2) 2
def sptQ (w : Nat) : List Nat := setBits (recField w 30 0 16) 16
def sptAcc (w : Nat) : List Nat := (List.range (recField w 36 0 8)).map fun i => recField w (40 + i) 0 8
def sptSpr (w : Nat) : List (Nat × Nat) :=
  (List.range (recField w 37 0 8)).map fun i => (recField w (56 + 8 * i) 0 19, recField w (60 + 8 * i) 0 32)
def sptStub (w : Nat) : Nat := recField w 88 0 32

/-! ## The save area (R328) -/

/-- A tile's 16,904 bytes: its rows, its row and column sums, and V. -/
def Core.tileBytes (k : Core) (t : Nat) : List Byte :=
  let p := k.strip t
  ((List.range 64).flatMap fun r => bytesLE 256 (accRow k.acc (64 * t + r)).toNat) ++
    ((List.range 64).flatMap fun i => bytesLE 4 (vget p.rows i 0).toNat) ++
    ((List.range 64).flatMap fun i => bytesLE 4 (vget p.cols i 0).toNat) ++ bytesLE 8 (bit p.valid)

/-- The save area of a context for a safe-point entry. A register that awaits RPORT keeps its place,
written with zero. -/
def saveBytes (k : Core) (x : Bool) (w : Nat) : List Byte :=
  let t := k.ctx x
  let r := t.regs
  let av (i : Nat) : Word := if getBit r.aFull i then r.aVal (BitVec.ofNat 5 i) else 0
  bytesLE 8 t.srkey.toNat ++ bytesLE 8 t.srctr.toNat ++ bytesLE 8 t.nfstat.toNat ++
    ((sptS w).flatMap fun i => bytesLE 8 (r.sVal (BitVec.ofNat 5 i)).toNat) ++
    ((sptA w).flatMap fun i => bytesLE 8 (av i).toNat) ++
    ((sptM w).flatMap fun i => bytesLE 8 (r.mVal (BitVec.ofNat 3 i)).toNat) ++
    (if (sptP w).isEmpty then [] else
      bytesLE 8 (packNat 1 ((List.range 8).map fun i => bit (r.pVal (BitVec.ofNat 3 i))))) ++
    (if (sptQ w).isEmpty then [] else bytesLE 8 (t.lc0.word r.q 3).toNat) ++
    ((sptL w).flatMap fun i => (List.range 3).flatMap fun j =>
      bytesLE 8 ((t.lc (i == 1)).word r.q (BitVec.ofNat 2 j)).toNat) ++
    ((sptT w).flatMap fun i => bytesLE 16 (r.tVal (BitVec.ofNat 4 i)).toNat) ++
    ((sptK w).flatMap fun i => bytesLE 16 (r.kVal (BitVec.ofNat 3 i)).toNat) ++
    ((sptV w).flatMap fun i => bytesLE 256 (r.vVal (BitVec.ofNat 6 i)).toNat) ++
    ((sptAcc w).flatMap fun a => k.tileBytes a) ++
    ((sptSpr w).flatMap fun e => memReadList k.spad e.1 e.2)

/-- The save area of context x as the strand's slot takes it (R42, R328). -/
def State.saveData (s : State) (n : Strand) (c : Nat) (x : Bool) (w : Nat) : List Byte :=
  s.slotBytes n.record (n.slot + 64) (saveBytes (s.core c) x w)

/-- The number that the next n bytes hold, and what follows them. -/
def takeNum (l : List Byte) (n : Nat) : Nat × List Byte := (numLE (l.take n), l.drop n)

/-- A core and the bytes of a save area still to be placed. -/
structure Restore where
  core : Core
  rest : List Byte
deriving DecidableEq, Repr

/-- Each item of n bytes placed by f. -/
def Restore.items (z : Restore) (l : List Nat) (n : Nat) (f : Core → Nat → Nat → Core) : Restore :=
  l.foldl (fun z i =>
    let p := takeNum z.rest n
    ⟨f z.core i p.1, p.2⟩) z

/-- A value put into a context's register file. -/
def Core.putReg (k : Core) (x : Bool) (l : Landing) : Core :=
  let t := k.ctx x
  k.setCtx x { t with regs := t.regs.put l }

/-- A tile placed from its save bytes. -/
def Core.putTile (k : Core) (t v : Nat) : Core :=
  let row (i : Nat) : VReg := BitVec.ofNat 2048 (v / 2 ^ (2048 * i))
  let sum (i : Nat) : Lane := BitVec.ofNat 32 (v / 2 ^ (131072 + 32 * i))
  let k := ({ k with acc := (List.range 64).foldl (fun a i => accPut a (64 * t + i) (row i)) k.acc } :
    Core).healAcc fun u => u / 512 == t
  k.setStrip t ⟨Vector.ofFn fun (i : Fin 64) => sum i.val, Vector.ofFn fun (i : Fin 64) => sum (64 + i.val),
    natBit v (131072 + 4096)⟩

/-- The live state placed from a save area (R329). -/
def restore (k : Core) (x : Bool) (w : Nat) (l : List Byte) : Core :=
  let reg (f : Nat → Nat → Landing) : Core → Nat → Nat → Core := fun k i v => k.putReg x (f i v)
  let z : Restore := ⟨k, l⟩
  let z := z.items [0] 8 fun k _ v => k.setCtx x { k.ctx x with srkey := BitVec.ofNat 64 v }
  let z := z.items [0] 8 fun k _ v => k.setCtx x { k.ctx x with srctr := BitVec.ofNat 64 v }
  let z := z.items [0] 8 fun k _ v => k.setCtx x { k.ctx x with nfstat := BitVec.ofNat 3 v }
  let z := z.items (sptS w) 8 (reg fun i v => .s (BitVec.ofNat 5 i) (BitVec.ofNat 64 v))
  let z := z.items (sptA w) 8 (reg fun i v => .a (BitVec.ofNat 5 i) (BitVec.ofNat 64 v))
  let z := z.items (sptM w) 8 (reg fun i v => .m (BitVec.ofNat 3 i) (BitVec.ofNat 64 v))
  let z := z.items (if (sptP w).isEmpty then [] else [0]) 8 fun k _ v =>
    (sptP w).foldl (fun k i => k.putReg x (.p (BitVec.ofNat 3 i) (natBit v i))) k
  let z := z.items (if (sptQ w).isEmpty then [] else [0]) 8 fun k _ v =>
    let t := k.ctx x
    k.setCtx x { t with regs := { t.regs with q := BitVec.ofNat 16 (v &&& recField w 30 0 16) } }
  let z := (sptL w).foldl (fun z i => (List.range 3).foldl (fun (z : Restore) j =>
    let p := takeNum z.rest 8
    let t := z.core.ctx x
    ⟨z.core.setCtx x (t.setLc (i == 1) ((t.lc (i == 1)).setWord (BitVec.ofNat 2 j)
      (BitVec.ofNat 64 p.1))), p.2⟩) z) z
  let z := z.items (sptT w) 16 (reg fun i v => .t (BitVec.ofNat 4 i) (BitVec.ofNat 128 v))
  let z := z.items (sptK w) 16 (reg fun i v => .k (BitVec.ofNat 3 i) (BitVec.ofNat 128 v))
  let z := z.items (sptV w) 256 (reg fun i v => .v (BitVec.ofNat 6 i) (BitVec.ofNat 2048 v))
  let z := z.items (sptAcc w) 16904 fun k t v => k.putTile t v
  ((sptSpr w).foldl (fun (z : Restore) e =>
    ⟨({ z.core with spad := memWriteList z.core.spad e.1 (z.rest.take e.2) } : Core).healSpad
      fun p => e.1 ≤ p && p < e.1 + e.2, z.rest.drop e.2⟩) z).core

/-! ## The drain (R327, R151) -/

/-- Every result of the context's operations has landed, the barrier and event waits included. -/
def State.landedAll (s : State) (c : Nat) (x : Bool) : Bool :=
  let k := s.core c
  let t := k.ctx x
  let lands (i : Instr) : Bool :=
    match i with
    | .resultLand c' x' _ => c' == c && x' == x
    | _ => false
  t.wait.barg.isNone && t.wait.waitev.isEmpty && (k.timers.all fun e => !(lands e.2)) &&
    (s.agenda.all fun e => !(lands e.2)) &&
    (List.range 64).all fun d => (s.die d).racks.all fun q => !(q.core == c && q.x == x)

/-- Accesses, engine commands, array steps, tile operations and transposes of the context are over. -/
def State.workDone (s : State) (c : Nat) (x : Bool) : Bool :=
  let k := s.core c
  let t := k.ctx x
  (k.accs.all fun a => a.x != x) && (k.array ++ k.tile).all (fun j => j.x != x) &&
    (k.xq.all fun j => j.x != x) &&
    ((s.die (dieOf c)).cmds.all fun q => !(q.core == c && q.x == x && q.run == t.runOf) ||
      q.copyNode.isSome)

/-- The drain of a suspension. -/
def State.drained (s : State) (c : Nat) (x : Bool) : Bool := s.workDone c x && s.landedAll c x

/-- The drain of DONE (R151): the strand's accesses, commands, steps, gradient updates and ring entries are over,
a RACK's replay and answer among them, and s1 to s4 are full. A barrier or an event that another register awaits
holds nothing. -/
def State.doneDrained (s : State) (c : Nat) (x : Bool) : Bool :=
  s.workDone c x && (s.myEntries c x).isEmpty &&
    ([1, 2, 3, 4].all fun i => (s.ctx c x).regs.isFull (.s i)) &&
    (List.range 64).all fun d => (s.die d).racks.all fun q => !(q.core == c && q.x == x)

/-! ## Parking and spilling (R327, R328) -/

/-- The queue entry of a strand that stops at a safe point (R54, R62, R65), with the next number. -/
def State.stopEntry (s : State) (n : Strand) (kind : EntryKind) : Option QEntry :=
  match s.mdl.node? n.record, s.mdl.run? n.run with
  | some k, some r =>
    some { id := s.mdl.nextId, node := n.record, gang := r.gang, nodeId := n.nodeId, inst := n.inst,
           stage := n.stage, prio := n.prio,
           width := match kind with | .pinned _ _ _ _ | .spilled _ _ => 1 | .fresh => n.width,
           mask := k.r.dieMask, since := s.now, twin := false, kind := kind }
  | _, _ => none

def State.requeue (s : State) (c : Nat) (n : Strand) (kind : EntryKind) (d : Nat) : State :=
  match s.stopEntry n kind with
  | some e => s.fresh.2.enqueue d e
  | none => s.later 1 (.gangDispatch (dieOf c))

/-- The queue link of a strand that is about to enter die d's queue (R44, log 70). -/
def State.stopLink (s : State) (n : Strand) (kind : EntryKind) (d : Nat) : BitVec 16 :=
  match s.stopEntry n kind with
  | some e => s.linkOf d e
  | none => 0xFFFF

/-- The store path's number is noted when a drain is over. -/
def State.markDrain (s : State) (c : Nat) (x : Bool) : State :=
  s.modWait c x fun w => { w with drainMark := some (w.drainMark.getD (s.die (dieOf c)).nextPath) }

/-- The stores of the die's path that the strand may have read when its drain was over are at their homes, so
that its continuation can be released at PACKAGE scope, or its node at SYSTEM scope (R211, R327, R48). -/
def State.pathFlushed (s : State) (c : Nat) (x : Bool) : Bool :=
  match (s.ctx c x).wait.drainMark with
  | some m => s.pathDone (dieOf c) m
  | none => true

/-- The die whose queue a spilled strand enters: its own, unless that can hold it no more and the node is NONE
(R52, R327). -/
def State.spillDie (s : State) (d : Nat) (n : Strand) : Option Nat :=
  if n.cls != 0 || !(s.runsOf d 1).isEmpty then some d
  else match s.mdl.node? n.record with
    | some q => s.chooseDie q.r.dieMask 1 []
    | none => some d

/-- R327 steps 2 and 3 for a spill at the safe point that the strand names: the save area, the
continuation, the free context, the queue entry: a parked strand's own entry, unpinned (R60) and as old as it
is (R44), or a new one (R62). It waits while a store that the strand may have read is on the path (R211), and while a protected
strand's writes wait for a line (R337). -/
def State.spillStrand (s : State) (c : Nat) (x : Bool) : State :=
  let k := s.core c
  let t := k.ctx x
  match t.strand with
  | none => s.freeCtx c x
  | some n =>
    if !(s.pathFlushed c x) then s
    else
      let d := dieOf c
      let prot := n.cls != 0
      let kind := EntryKind.spilled n.run n.rank
      let e := s.pinnedAt c x
      let n := match e with
        | some e => { n with age := s.ageOf e }
        | none => n
      let h := s.spillDie d n
      match s.sptEntry n.sptab n.spidx.toNat with
      | none => s.strandFault c x 0
      | some w =>
        let link := match e with
          | some e => s.linkOf d e
          | none => s.stopLink n kind (h.getD d)
        s.afterSlot c x (s.slotWrite d n.run n.rank prot (n.slot + 64) (s.saveData n c x w)) fun s' =>
          s.afterSlot c x (s'.slotWrite d n.run n.rank prot n.slot (s'.contData n c 2 link t.regs.s1to4))
            fun s =>
              let s := s.modRank n.run n.rank.toNat fun r => { r with place := none, seq := t.ringSeq }
              let s := s.freeCtx c x
              match e, h with
              | some e, _ => s.modDie d fun k => { k with queue := k.queue.map fun q =>
                  if q.id = e.id then { q with kind := kind } else q }
              | none, some h => s.requeue c n kind h
              | none, none => s.failNode n.record n.inst 1 d

/-- The context stops and stays in place (R327, R60); its request is met (R62). -/
def State.parkStrand (s : State) (c : Nat) (x : Bool) (resume : Nat) : State :=
  let t := s.ctx c x
  match t.strand with
  | none => s.freeCtx c x
  | some n =>
    let kind := EntryKind.pinned n.run n.rank c x
    s.afterSlot c x (s.slotWrite (dieOf c) n.run n.rank (n.cls != 0) n.slot
        (s.contData n c 1 (s.stopLink n kind (dieOf c)) t.regs.s1to4)) fun s =>
      let s := s.modCore c fun k => { k with cur := if k.cur == some x then none else k.cur }
      let s := (s.clearPreq c x).modCtx c x fun t =>
        { t.endShadows with status := .parked, pc := BitVec.ofNat 14 resume }
      s.requeue c n kind (dieOf c)

/-- A parked strand goes on at its safe point on its own core (R60, R330); its continuation says that it
runs (R44). -/
def State.resumeParked (s : State) (c : Nat) (x : Bool) : State :=
  let e := s.pinnedAt c x
  let age := match e with
    | some e => s.ageOf e
    | none => 0
  let s := match e with
    | some e => s.unqueue (dieOf c) e
    | none => s
  let s := (s.modCore c fun k => { k with cur := some x }).modCtx c x fun t =>
    ({ t with status := .running, spcount := 0, wait := { t.wait with drainMark := none },
              strand := t.strand.map fun n => { n with age := age } } : Ctx).redirected (s.clk c)
  match (s.ctx c x).strand with
  | none => s
  | some n => match s.vWrite n.slot (s.contData n c 0 0xFFFF (s.ctx c x).regs.s1to4) with
    | .ok s => s
    | .error _ => s.failNode n.record n.inst 3 (dieOf c)

/-- The context whose strand is parked on a core where nothing runs. -/
def Core.lonelyParked (k : Core) : Option Bool :=
  if k.cur.isSome then none
  else match k.c0.status, k.c1.status with
    | .parked, .free => some false
    | .free, .parked => some true
    | _, _ => none

/-- The core of a context that has stopped or ended: its parked strand goes on, unless an entry of
strictly higher effective priority has reserved the core; then it is spilled (R60), now or, where the spill
has to wait, later. -/
def State.contextEnded (s : State) (c : Nat) : State :=
  let s := s.modCore c fun k => { k with ended := false }
  match (s.core c).lonelyParked with
  | none => s
  | some y =>
    match s.resvOf c, s.pinnedAt c y with
    | some e, some p =>
      if s.effPrio p < s.effPrio e then
        let z := s.spillStrand c y
        if (z.ctx c y).status == .parked then
          (z.modCore c fun k => { k with ended := true }).later 1 (.gangDispatch (dieOf c))
        else z.modCore c fun k => { k with ended := false }
      else s.resumeParked c y
    | _, _ => s.resumeParked c y

/-- R32: a strand may be parked. -/
def State.mayPark (s : State) (c : Nat) (x : Bool) (resv : Option QEntry) : Bool :=
  (s.ctx c !x).status == .free && s.coreUsable c &&
    match resv with
    | some e => plansApart (s.ctx c x).plan (s.entryPlan e)
    | none => true

/-- A suspension once its drain is over (R327); the topology's generation is the one that the strand noted when
its SAFEPT or YIELD retired (R39). -/
def State.suspend (s : State) (c : Nat) (x : Bool) : State :=
  let t := s.ctx c x
  match t.status with
  | .suspending id resume =>
    if !(s.drained c x) then s
    else
      let resv := if getBit t.evt 2 then s.resvOf c else none
      let s := (s.markDrain c x).modCtx c x fun t =>
        { t with strand := t.strand.map fun n =>
            { n with spidx := id.setWidth 16, age := 0, alone := resv.isNone } }
      let s := match t.strand with
        | some n => s.modRank n.run n.rank.toNat fun r => { r with gen := n.gen }
        | none => s
      if s.mayPark c x resv then
        (s.parkStrand c x resume).later 1 (.gangDispatch (dieOf c))
      else (s.spillStrand c x).contextEnded c
  | _ => s

def execStrandSuspension (c : Nat) (x : Bool) (s : State) : Step := onCore c (s.suspend c x)

/-! ## Starting and resuming -/

/-- The image copied into the half that a context runs from (R58): an error code where it cannot be
read. -/
def State.loadImage (s : State) (c : Nat) (x : Bool) (n : Strand) : Except (BitVec 8) State :=
  match (s.ctx c !x).strand with
  | some m =>
    if m.image == n.image && m.nbundle == n.nbundle then .ok s
    else match s.vRead n.image (16 * n.nbundle) with
      | .error f => .error f
      | .ok l => .ok (s.modCore c fun k =>
        { k with istore := memWriteList k.istore (131072 * bit (k.ctx x).half) l })
  | none => match s.vRead n.image (16 * n.nbundle) with
      | .error f => .error f
      | .ok l => .ok (s.modCore c fun k =>
        { k with istore := memWriteList k.istore (131072 * bit (k.ctx x).half) l })

/-- A node's plan noted on its context, with the core's guard map (R126, R227). -/
def Core.setPlan (k : Core) (x : Bool) (l : List PlanRec) : Core :=
  let k := k.setCtx x { k.ctx x with plan := l }
  { k with guardMap := guardMapOf (k.c0.plan ++ k.c1.plan) }

/-- A scratchpad byte of a plan's entry. -/
def PlanRec.covers (p : PlanRec) (a : Nat) : Bool := p.off ≤ a && a < p.off + p.size

/-- The initial state of a plan: zeroed tiles with their strips, filled buffers (R58, R299). -/
def State.fillPlan (s : State) (c : Nat) : List PlanRec → Except (BitVec 8) State
  | [] => .ok s
  | p :: r =>
    if p.kind == 1 then
      (s.modCore c fun k => (List.range p.size).foldl (fun k i =>
        (({ k with acc := (List.range 64).foldl (fun a j => accPut a (64 * (p.off + i) + j) 0) k.acc } :
          Core).healAcc fun u => u / 512 == p.off + i).setStrip (p.off + i) (Strip.zero true)) k).fillPlan c r
    else if p.kind == 0 then
      if p.src = 0 then
        (s.modCore c fun k => ({ k with spad := memZero k.spad p.off p.size } : Core).healSpad p.covers).fillPlan
          c r
      else match s.vRead p.src p.size with
        | .error f => .error f
        | .ok l => (s.modCore c fun k => ({ k with spad := memWriteList k.spad p.off l } : Core).healSpad
            p.covers).fillPlan c r
    else s.fillPlan c r

/-- R28's registers. -/
def startRegs (args : Word) (n : Strand) : Regs :=
  let r := Regs.reset
  (((r.put (.s 1 args)).put (.s 2 (n.inst.setWidth 64))).put (.s 3 (n.rank.setWidth 64))).put
    (.s 4 (n.width.setWidth 64))

/-- A context that begins to run at bundle pc (R28, R85, R104). -/
def Ctx.begin (t : Ctx) (n : Strand) (clk : Nat) (regs : Regs) (pc : BitVec 14) (key ctr : Word) : Ctx :=
  (({ Ctx.reset with
      regs := regs, pc := pc, srkey := key, srctr := ctr, strand := some n, plan := t.plan,
      status := .running, half := t.half } : Ctx).redirected clk)

/-- One strand of a gang that starts: its image, its plan, its slot and its context (R28, R58). -/
def State.startOne (s : State) (node : Node) (c : Nat) (x : Bool) : Except (BitVec 8) State :=
  match (s.ctx c x).strand with
  | none => .ok s
  | some n =>
    match s.loadImage c x n with
    | .error f => .error f
    | .ok s =>
      match s.readPlan node.r.plan node.r.nplan.toNat with
      | .error f => .error f
      | .ok plan =>
        match (s.modCore c fun k => k.setPlan x plan).fillPlan c plan with
        | .error f => .error f
        | .ok s =>
          let regs := startRegs node.r.args n
          match s.vWrite n.slot (s.contData n c 0 0xFFFF regs.s1to4) with
          | .error _ => .error 3
          | .ok s => .ok (s.modCtx c x fun t =>
            t.begin n (s.clk c) regs (BitVec.ofNat 14 node.r.entry.toNat)
              (BitVec.ofNat 64 (node.r.seed.toNat * 2 ^ 32 + n.inst.toNat))
              (BitVec.ofNat 64 (n.stage.toNat * 2 ^ 60 + n.rank.toNat * 2 ^ 56)))

def State.startAll (s : State) (node : Node) : List (Nat × Bool) → Except (BitVec 8) State
  | [] => .ok s
  | p :: r =>
    match s.startOne node p.1 p.2 with
    | .error f => .error f
    | .ok s => s.startAll node r

/-- R58, R24: all strands of the gang at cores c0, … start in one clock; an uncorrectable error ends them
with STRAND_FAULT, each with its Yew entry (R384), another fault fails the node with BAD_RECORD. The head of the
queue may now ask the strands to leave (R61). Where the gang's clusters have unlike clock patterns, a strand issues
its first bundle in its own cluster's next core clock (DESIGN CHOICE, log 76). -/
def State.startGang (s : State) (d c0 : Nat) : State :=
  match s.mdl.runs.find? fun r => r.die == d && r.c0 == c0 && !r.started with
  | none => s
  | some r =>
    match s.mdl.node? r.node with
    | none => s
    | some n =>
      match s.startAll n r.places with
      | .ok s => (s.modMdl fun m => m.modRun r.id fun r => { r with started := true }).later 1
          (.gangDispatch d)
      | .error f =>
        let s := if f = 20 then
            r.places.foldl (fun s p =>
              s.yewStrand d (BitVec.ofNat 8 (localOf p.1)) 0 n.r.nodeId r.inst) s
          else s
        s.failNode r.node r.inst (if f = 20 then 6 else 3) d

def execGangStart (d c0 : Nat) (s : State) : Step := onDie d (s.startGang d c0)

/-- The registers of a resumed strand that its ring entries name (R329). -/
def resumeRegs (r : Regs) (l : List RingEntry) (vals : List (BitVec 5 × Word)) : Regs :=
  let r := l.foldl (fun r e =>
    if !e.acc.awaitsValue then r
    else if e.ported && !e.prot then r.landed (.a e.acc.reg e.val)
    else if e.acc.reg == 0 then r else r.setFull false (.a e.acc.reg)) r
  vals.foldl (fun r v => r.landed (.a v.1 v.2)) r

/-- R326: the bundle at which a resumed strand goes on. -/
def Ctx.resumePoint (t : Ctx) (bundle : Nat) : Nat :=
  let at_ (l : LoopCtx) : Bool := l.active && l.last.toNat == bundle
  if at_ t.lc0 && at_ t.lc1 then (if t.lc1.later then t.lc1.first.toNat else t.lc0.first.toNat)
  else if at_ t.lc0 then t.lc0.first.toNat
  else if at_ t.lc1 then t.lc1.first.toNat
  else bundle + 1

/-- Stores of the run still wait on the path of another die where a gang-mate is (R211). -/
def State.flushing (s : State) (c : Nat) (r : Run) : Bool :=
  1 < r.ranks.length && r.places.any fun p => dieOf p.1 != dieOf c &&
    (s.die (dieOf p.1)).path.any fun q => q.run == r.id

/-- The stub of a resumed strand entered in handler mode (R329), or the resume point where it has
none. -/
def Ctx.enterStub (t : Ctx) (clk id bundle stub : Nat) : Ctx :=
  let p := t.resumePoint bundle
  if stub = 0xFFFFFFFF then { t with pc := BitVec.ofNat 14 p }
  else (({ t with
      tinfo := { info := BitVec.ofNat 32 id, code := 0, slots := 0, imp := false, hm := true,
                 cause := 0x20 },
      epc := BitVec.ofNat 14 p, pc := BitVec.ofNat 14 stub }.freeze true).redirected clk)

/-- R329. The head of the queue may ask the strand to leave again (R61). A fault on the plan, the continuation, the
safe-point entry or the save area ends the strand with STRAND_FAULT, a translation fault on the image or the plan
fails the node with BAD_RECORD: R58 names the outcomes for the image alone (DESIGN CHOICE, log 85). -/
def State.resume (s : State) (c : Nat) (x : Bool) : State :=
  let t := s.ctx c x
  match t.strand with
  | none => s
  | some n =>
    if t.status != .placed then s
    else match s.mdl.node? n.record, s.mdl.run? n.run with
      | some node, some run =>
        if s.flushing c run then s.later 16 (.strandResume c x)
        else
          let d := dieOf c
          let rd (va : Word) (k : Nat) := s.slotRead d n.run n.rank va k
          match s.loadImage c x n, s.readPlan node.r.plan node.r.nplan.toNat, rd n.slot 64,
              run.ranks[n.rank.toNat]? with
          | .ok s, .ok plan, .ok cont, some rank =>
            let id := recField (numLE cont) 12 0 16
            match s.sptEntry n.sptab id with
            | none => s.strandFault c x 0
            | some w =>
              match s.slotRead d n.run n.rank (n.slot + 64) (recField w 32 0 32) with
              | .error _ => s.strandFault c x 0
              | .ok save =>
                let word (i : Nat) : Word := BitVec.ofNat 64 (recField (numLE cont) (24 + 8 * i) 0 64)
                let regs := (List.range 4).foldl (fun r i =>
                  r.put (.s (BitVec.ofNat 5 (i + 1)) (word i))) Regs.reset
                let n := { n with spidx := BitVec.ofNat 16 id }
                let s := (s.modCore c fun k => k.setPlan x plan).modCtx c x fun t =>
                  t.begin n (s.clk c) regs 0 0 0
                let s := s.modCore c fun k => restore k x w save
                let ds := (List.range 64).filter fun e => (s.die e).ring.any fun q =>
                  q.run == n.run && q.rank == n.rank
                let es := ds.flatMap fun e => (s.die e).ring.filter fun q =>
                  q.run == n.run && q.rank == n.rank
                let s := s.modCtx c x fun t => { t with
                  regs := resumeRegs t.regs es rank.vals,
                  diverted := es.foldl (fun m e => m ||| e.acc.diverts) 0, ringDie := ds.head?,
                  ringSeq := rank.seq, evt := if rank.gen = s.mdl.gen then 0 else 1,
                  wait := { t.wait with bargCount := rank.arrived } }
                let s := s.modCtx c x fun t => t.enterStub (s.clk c) id (recField w 4 0 32) (sptStub w)
                match s.vWrite n.slot (s.contData n c 0 0xFFFF (List.range 4 |>.map word)) with
                | .error _ => s.failNode n.record n.inst 3 d
                | .ok s => (s.modRank n.run n.rank.toNat fun k => { k with vals := [] }).later 1
                    (.gangDispatch d)
          | .error f, _, _, _ =>
            if f = 20 then s.strandFault c x 0 else s.failNode n.record n.inst 3 d
          | _, _, _, _ => s.strandFault c x 0
      | _, _ => s

def execStrandResume (c : Nat) (x : Bool) (s : State) : Step := onCore c (s.resume c x)

/-! ## Barriers (R152, R153) -/

/-- The last arrival of a barrier fills every strand's destination, 6 core clocks later on the die that placed
the gang and after the mesh on others. -/
def State.barrierCheck (s : State) (run : Nat) : State :=
  match s.mdl.run? run with
  | none => s
  | some r =>
    let k := r.barriers + 1
    if !(r.ranks.all fun q => q.retired || k ≤ q.arrived) || r.ranks.all (fun q => q.retired) then s
    else
      let s := s.modMdl fun m => m.modRun run fun r => { r with barriers := k }
      r.places.foldl (fun s p =>
        let t := s.ctx p.1 p.2
        match t.wait.barg with
        | some b =>
          if b.k ≠ k then s
          else
            let s := s.modWait p.1 p.2 fun w => { w with barg := some { b with complete := true } }
            let l : Landing := .s b.reg (BitVec.ofNat 64 k)
            if dieOf p.1 = r.die then s.timer p.1 (s.clk p.1 + 6) (.resultLand p.1 p.2 l)
            else s.laterPick Config.mesh (.resultLand p.1 p.2 l)
        | none => s) s

/-- An arrival whose release has been made counts (R153). -/
def State.arrive (s : State) (c : Nat) (x : Bool) : State :=
  let t := s.ctx c x
  match t.wait.barg, t.strand with
  | some b, some n =>
    if b.arrived then s
    else
      let s := s.modWait c x fun w => { w with barg := some { b with arrived := true } }
      (s.modRank n.run n.rank.toNat fun k => { k with arrived := b.k }).barrierCheck n.run
  | some b, none =>
    (s.modWait c x fun w => { w with barg := some { b with arrived := true, complete := true } }).timer c
      (s.clk c + 6)
      (.resultLand c x (.s b.reg (BitVec.ofNat 64 b.k)))
  | none, _ => s

/-! ## The end of a strand (R151) -/

/-- A run whose strands have all retired (R67, R338, R340). -/
def State.runEnded (s : State) (r : Run) (cls : BitVec 2) (d : Nat) : State :=
  if cls == 0 then
    (s.modMdl fun m => { m with runs := m.runs.filter fun q => q.id != r.id }).gangDone r.node
      r.inst.toNat d
  else if cls == 1 then s.later 1 (.containmentRelease r.id)
  else s.later 1 (.dupVote r.gang)

/-- R151, R30: the continuation, the signature's last record, the free context. -/
def State.retire (s : State) (c : Nat) (x : Bool) : State :=
  let t := s.ctx c x
  match t.status, t.strand with
  | .ending, some n =>
    if !(s.doneDrained c x) then s
    else if t.regs.aFault != 0 then s.strandFault c x 0
    else if !((s.markDrain c x).pathFlushed c x) then s.markDrain c x
    else s.afterSlot c x (s.slotWrite (dieOf c) n.run n.rank (n.cls != 0) n.slot
        (s.contData n c 4 0xFFFF t.regs.s1to4)) fun s =>
        let s := s.sign n 0 (t.regs.s1to4.flatMap fun v => bytesLE 8 v.toNat)
        let s := s.modRank n.run n.rank.toNat fun k => { k with retired := true, place := none }
        let s := (s.freeCtx c x).barrierCheck n.run
        let s := match s.mdl.run? n.run with
          | some r => if r.ranks.all fun k => k.retired then s.runEnded r n.cls (dieOf c) else s
          | none => s
        s.contextEnded c
  | .ending, none => if s.doneDrained c x then (s.freeCtx c x).contextEnded c else s
  | _, _ => s

def execDoneRetire (c : Nat) (x : Bool) (s : State) : Step := onCore c (s.retire c x)

/-! ## Dispatch (R57, R59) -/

/-- Parked strands that an entry's seats ask to be spilled, spilled (R32, R57). -/
def State.clearSeats (s : State) (e : QEntry) (cores : List Nat) : State :=
  cores.foldl (fun s c =>
    match s.seat e c with
    | .spill x => s.spillStrand c !x
    | .free _ | .none => s) s

/-- Every seat is free, so that the entry can take its cores: no spill before it waits (R57, R32). -/
def State.seatsFree (s : State) (e : QEntry) (cores : List Nat) : Bool :=
  cores.all fun c => match s.seat e c with
    | .free _ => true
    | .spill _ | .none => false

/-- What a try at an entry comes to: it has been placed, its run waits for a spill at some core, or no run is idle
for it. -/
inductive Try where
  | placed (s : State)
  | waits (s : State) (cores : List Nat)
  | noRun

/-- An entry that has found a run: parked strands are spilled first; while a spill waits, or where it has ended
the entry's node, nothing is placed. -/
def State.takeRun (s : State) (d c0 : Nat) (e : QEntry) (f : State → Node → State) : Try :=
  let cores := e.cores d c0
  let s := s.clearSeats e cores
  match s.mdl.node? e.node with
  | some n =>
    if s.seatsFree e cores then .placed (f s n) else .waits (s.later 1 (.gangDispatch d)) cores
  | none => .waits s []

/-- An entry placed, if its cores are idle and none of them is kept for an entry before it. -/
def State.tryEntry (s : State) (d : Nat) (e : QEntry) (kept : List Nat) : Try :=
  match s.mdl.node? e.node with
  | none => .placed (s.unqueue d e)
  | some _ =>
    match e.kind with
    | .pinned _ _ c x =>
      if (s.core c).cur.isNone && (s.ctx c x).status == .parked && !(kept.any fun k => k == c) &&
          (match s.resvOf c with | some f => f.id == e.id | none => true) then
        .placed (s.resumeParked c x)
      else .noRun
    | .fresh =>
      match s.idleRun d e kept with
      | none => .noRun
      | some c0 => s.takeRun d c0 e fun s n => s.placeGang d c0 e n
    | .spilled run rank =>
      match s.idleRun d e kept with
      | none => .noRun
      | some c0 => s.takeRun d c0 e fun s n => s.placeSpilled d (12 * d + c0) e n run rank

/-- The entries tried in order; the head reserves where it finds no run. An entry that has found a run and waits
for a spill keeps its cores: no entry behind it takes them or goes on there (R57, R65). -/
def State.dispatchList (s : State) (d : Nat) (head : Bool) (kept : List Nat) : List QEntry → State
  | [] => s
  | e :: r =>
    match s.tryEntry d e kept with
    | .placed s => s.later 1 (.gangDispatch d)
    | .waits s cores => s.dispatchList d false (kept ++ cores) r
    | .noRun => (if head then s.reserve d e else s).dispatchList d false kept r

/-- A reservation of an entry that is not the head any more is given up (R59). -/
def State.keepResv (s : State) (d : Nat) (head : Option QEntry) : State :=
  match (s.die d).resv, head with
  | some r, some e => if r.entry = e.id then s else s.dropResv d
  | some _, none => s.dropResv d
  | none, _ => s

/-- Parked strands of the die's cores whose running context has ended go on, or are spilled (R60). -/
def State.endedCores (s : State) (d : Nat) : State :=
  (List.range 12).foldl (fun s l =>
    if (s.core (12 * d + l)).ended then s.contextEnded (12 * d + l) else s) s

/-- R57: the head, and those behind it on unreserved runs. -/
def State.dispatch (s : State) (d : Nat) : State :=
  let s := s.endedCores d
  let l := s.sorted d
  (s.keepResv d l.head?).dispatchList d true [] l

def execGangDispatch (d : Nat) (s : State) : Step := onDie d (s.dispatch d)

/-- The next tick of a die's queue: the earliest at which an entry is one AGE_PERIOD older (R54, R56). -/
def State.nextTick (s : State) (d : Nat) : Option Nat := ((s.die d).queue.map s.nextAge).min?

/-- R54: entries have aged; the queue is looked at again, and again when the next entry ages. -/
def execAgePeriodTick (d : Nat) (s : State) : Step :=
  onDie d (let s := s.dispatch d
    match s.nextTick d with
    | none => s
    | some n =>
      if s.agenda.any fun e => e == (s.now + n, .agePeriodTick d) then s
      else s.later n (.agePeriodTick d))

end Sys2Proof.Machine
end

