-- ==== Sys2Proof/Machine/Retry.lean ====
section
/-!
DEFINITION. The retry ring's service: RPORT and RACK by a strand and by the host (R277, R278, R363),
replay for protected strands (R324), admission (R254), and the retry mirror (R322, R362).
-/
namespace Sys2Proof.Machine

/-! ## Naming entries -/

/-- The entry that an entry word names (R276). -/
def State.entryOf (s : State) (w : Word) : Option RingEntry :=
  (s.die (slice w 21 16)).ring.find? fun e =>
    e.idx % 1024 == slice w 9 0 && e.idx / 1024 % 2 == slice w 10 10

/-- Where an entry's strand is: in a context, suspended, or ended. -/
inductive Whereabouts where
  | resident (c : Nat) (x : Bool)
  | suspended (die : Nat)
  | ended
deriving DecidableEq, Repr

/-- A context holds the strand of a run and rank. -/
def State.holds (s : State) (c : Nat) (x : Bool) (run : Nat) (rank : BitVec 4) : Bool :=
  match (s.ctx c x).strand with
  | some n => n.run == run && n.rank == rank
  | none => false

/-- A strand that has a context but has not yet been restored into it is still suspended (R325). -/
def State.whereIs (s : State) (e : RingEntry) : Whereabouts :=
  let at_ (c : Nat) (x : Bool) : Whereabouts :=
    if (s.ctx c x).status == .placed then .suspended (dieOf c) else .resident c x
  if s.holds e.core e.x e.run e.rank then at_ e.core e.x
  else match s.mdl.run? e.run with
    | none => .ended
    | some r =>
      match r.ranks[e.rank.toNat]? with
      | none => .ended
      | some k =>
        if k.retired then .ended
        else match k.place with
          | some p => at_ p.1 p.2
          | none => .suspended r.die

/-- An entry replaced on its ring. -/
def State.putEntry (s : State) (d : Nat) (e : RingEntry) : State :=
  s.modDie d fun k => { k with ring := k.ring.map fun f => if f.idx == e.idx then e else f }

/-- The die of the ring that an entry stands on: its own, by its index (R321). -/
def State.ringHome (s : State) (e : RingEntry) : Nat :=
  ((List.range 64).find? fun d => (s.die d).ring.any fun f =>
    f.idx == e.idx && f.run == e.run && f.rank == e.rank).getD (dieOf e.core)

/-! ## RPORT -/

/-- R277 and R325: the status and the state after it. The value stands in a resident strand's register from the
next clock on (R100). -/
def State.rportAct (s : State) (w v : Word) : Nat × State :=
  match s.entryOf w with
  | none => (3, s)
  | some e =>
    let d := slice w 21 16
    match s.whereIs e with
    | .ended => (3, s)
    | .resident c x =>
      if !e.acc.awaitsValue || e.ported then (2, s)
      else if (s.ctx c x).regs.isFull (.a e.acc.reg) then (1, s)
      else (0, (s.putEntry d { e with ported := true, val := v }).later 1
        (.resultLand c x (.a e.acc.reg v)))
    | .suspended _ =>
      if !e.acc.awaitsValue || e.ported then (2, s)
      else (0, s.putEntry d { e with ported := true, val := v })

/-! ## RACK -/

/-- The set S of R278. -/
def State.rackSet (s : State) (d : Nat) (e : RingEntry) : List RingEntry :=
  (s.die d).ring.filter fun f => f.run == e.run && f.rank == e.rank && f.idx ≤ e.idx &&
    (f.idx == e.idx || e.acc.kind == .ldacq || f.acc.kind == .ldacq || f.acc.cls == e.acc.cls)

/-- The strand of an entry ends with STRAND_FAULT at its core's next turn. -/
def State.endResident (s : State) (c : Nat) (x : Bool) : State :=
  s.modCtx c x fun t => { t with status := .faulted 0 }

/-- A value for the register of an entry: into the register, or kept for the strand's resumption. -/
def State.entryValue (s : State) (e : RingEntry) (v : Word) : State :=
  match s.whereIs e with
  | .resident c x => s.modRegs c x fun r => r.landed (.a e.acc.reg v)
  | .suspended _ => s.modRank e.run e.rank.toNat fun k => { k with vals := k.vals ++ [(e.acc.reg, v)] }
  | .ended => s

/-- A strand that is not in a context ends (R68): with STRAND_FAULT it leaves a Yew entry. -/
def State.endSuspended (s : State) (e : RingEntry) (d code : Nat) : State :=
  match s.mdl.run? e.run with
  | none => s
  | some r =>
    let s := if code = 6 then s.yewStrand d 0xFF 0 e.nodeId e.inst else s
    s.failNode r.node r.inst code d

/-- The strand of an entry ends: with a code of R68, in its context at its core's next turn. -/
def State.endStrand (s : State) (e : RingEntry) (code : BitVec 8) : State :=
  match s.whereIs e with
  | .resident c x =>
    if code = 6 then s.endResident c x else s.modCtx c x fun t => { t with status := .failing code }
  | .suspended d => s.endSuspended e d code.toNat
  | .ended => s

/-- How a replay ends: performed, faulted, waiting for n clocks, for a line of the buffer or for the host, or over
the buffer's limit (R324, R337, R359). -/
inductive ReplayOut where
  | done (s : State)
  | faults (s : State)
  | waits (s : State) (n : Nat)
  | overflow (s : State)

/-- The die at which an entry's strand is, or was. -/
def State.entryDie (s : State) (e : RingEntry) : Nat :=
  match s.whereIs e with
  | .resident c _ => dieOf c
  | .suspended d => d
  | .ended => dieOf e.core

/-- A byte of a load that would come from a poisoned unit at home (R348). -/
def State.runPoison (s : State) (run : Nat) (rank : BitVec 4) (d a : Nat) : Bool :=
  s.poisonedAt a && (heldByte run rank a (s.die d).contain).isNone && (pathByte a (s.die d).path).isNone

/-- An entry's replay has been made (R324). -/
def State.replayed (s : State) (e : RingEntry) : ReplayOut :=
  .done (s.putEntry (s.ringHome e) { e with done := true })

/-- The core at which a replay is made, and reported: the strand's, or while it is suspended its last one's place
on the strand's die. -/
def State.entryCore (s : State) (e : RingEntry) : Nat :=
  match s.whereIs e with
  | .resident c _ => c
  | .suspended d => 12 * d + localOf e.core
  | .ended => e.core

/-- A replayed read of the host aperture that the host answers with an error k of R346, or does not answer (3). -/
def State.replayBad (s : State) (e : RingEntry) (off : Nat) (k : BitVec 2) : ReplayOut :=
  ((s.apertureBad (s.entryCore e) off k).entryValue e (BitVec.ofNat 64 (2 ^ 64 - 1))).replayed e

/-- A replayed LD.d of the host aperture (R324, R359): the host answers with the value v (choice 0), with an error
(1, 2), or not at all, so that the read times out (log 7). -/
def State.replayHost (s : State) (e : RingEntry) (off : Nat) (v : Word) : ReplayOut :=
  match e.due with
  | some t => if s.now < t then .waits s (t - s.now) else s.replayBad e off 3
  | none =>
    let p := s.pick 0
    match p.1 with
    | 0 => (p.2.entryValue e v).replayed e
    | 1 => p.2.replayBad e off 1
    | 2 => p.2.replayBad e off 2
    | _ => .waits (p.2.putEntry (s.ringHome e) { e with due := some (s.now + Config.aperTimeout) })
        Config.aperTimeout

/-- What a replayed load does with the value v that it reads. -/
def State.replayLoad (s : State) (e : RingEntry) (v : Word) : Site → ReplayOut
  | .aperture off => s.replayHost e off v
  | .hbm _ | .vault _ _ | .register _ _ | .nowhere => (s.entryValue e v).replayed e

/-- A replayed store takes its place in the strand's store stream (R324, R339). -/
def State.replaySign (s : State) (e : RingEntry) (p : Nat) : State :=
  s.modRank e.run e.rank.toNat fun k => k.fill .store (storeKey e.core e.acc.id)
    (s.storeRecord p e.acc.va (bytesLE e.acc.size e.acc.d0.toNat))

/-- One entry of a protected strand performed at the strand's die, exactly as the strand would have performed
it (R324, R239). -/
def State.replayOne (s : State) (e : RingEntry) : ReplayOut :=
  let d := s.entryDie e
  let a := e.acc
  if e.done then .done s
  else if a.va.toNat % a.size != 0 then .faults s
  else match s.xlate a.va a.need with
    | .error _ => .faults s
    | .ok (p, _) =>
      if a.isStore then
        let l := bytesLE a.size a.d0.toNat
        if (s.site p).inWindow then (((s.countReq d p).physWrite p l).replaySign e p).replayed e
        else match holdWrite (s.die d).contain ⟨e.run, e.rank, p, l, s.pageAt a.va, false⟩ with
          | .held l =>
            (((s.countReq d p).modDie d fun k => { k with contain := l }).replaySign e p).replayed e
          | .waits => .waits s 1
          | .overflow => .overflow s
      else if (List.range a.size).any fun i => s.runPoison e.run e.rank d (p + i) then .faults s
      else
        let v := extendLoad a.size a.sx
          (numLE ((List.range a.size).map fun i => s.runByte e.run e.rank d (p + i)))
        (s.countReq d p).replayLoad e v (s.site p)

def State.replay (s : State) : List RingEntry → ReplayOut
  | [] => .done s
  | e :: r =>
    match s.replayOne e with
    | .done s => s.replay r
    | .faults s => .faults s
    | .waits s n => .waits s n
    | .overflow s => .overflow s

/-- The classes that entries of a strand, and accesses that wait to enter the ring, still divert. -/
def State.stillDiverted (s : State) (d : Nat) (run : Nat) (rank : BitVec 4) : BitVec 16 :=
  (s.die d).ring.foldl (fun m e =>
    if e.run == run && e.rank == rank then m ||| e.acc.diverts else m) 0

def Core.waitingDiverted (k : Core) (x : Bool) : BitVec 16 :=
  k.accs.foldl (fun m a =>
    match a.st with
    | .faulted _ => if a.x == x then m ||| a.diverts else m
    | .walking | .found _ | .failed _ | .ready | .onPath => m) 0

/-- The entries of S freed; the value of a ported entry of a suspended strand is kept (R325). -/
def State.freeSet (s : State) (d : Nat) (l : List RingEntry) : State :=
  let s := l.foldl (fun s e =>
    match s.whereIs e with
    | .suspended _ => if e.acc.awaitsValue && !e.prot then s.entryValue e e.val else s
    | .resident _ _ | .ended => s) s
  s.modDie d fun k => { k with ring := k.ring.filter fun f => !(l.any fun e => e.idx == f.idx) }

/-- A strand's diverted set after entries were freed (R278, R321). -/
def State.refreshDiverted (s : State) (c : Nat) (x : Bool) (d : Nat) : State :=
  let t := s.ctx c x
  let m := s.stillDiverted d t.runOf t.rankOf ||| (s.core c).waitingDiverted x
  s.modCtx c x fun t => { t with diverted := m, ringDie := if m = 0 then none else t.ringDie }

/-- The entries of S freed, and the status of R278: whether the named entry's class has left the set. -/
def State.rackFree (s : State) (d : Nat) (e : RingEntry) (l : List RingEntry) : Nat × State :=
  let s := (s.freeSet d l).later 1 (.retryRingAdmit d)
  let left (m : BitVec 16) : Bool := if e.acc.kind == .ldacq then m == 0 else !(getBit m e.acc.cls.toNat)
  match s.whereIs e with
  | .resident c x =>
    let s := s.refreshDiverted c x d
    (bit (!(left (s.ctx c x).diverted)), s.settle c)
  | .suspended _ | .ended => (bit (!(left (s.stillDiverted d e.run e.rank))), s)

/-- R278 and R324: the status and the state after it; no status while a replayed store waits for a line of the
containment buffer. -/
def State.rackAct (s : State) (w : Word) : Option Nat × State :=
  match s.entryOf w with
  | none => (some 3, s)
  | some e =>
    let d := slice w 21 16
    let l := s.rackSet d e
    if l.any fun f => f.acc.awaitsValue && !f.ported then (some 2, s)
    else match s.replay (l.filter fun f => f.prot) with
      | .done s =>
        let z := s.rackFree d e l
        (some z.1, z.2)
      | .faults s =>
        let z := s.rackFree d e l
        (some z.1, z.2.endStrand e 6)
      | .overflow s =>
        let z := s.rackFree d e l
        (some z.1, z.2.endStrand e 4)
      | .waits s n => (none, s.later n (.containmentLineFreed (s.entryDie e)))

/-- A RACK waits for the host, not for a line of the buffer: a replayed read of the host aperture has not been
answered (R359). -/
def State.rackTimed (s : State) (d : Nat) (w : Word) : Bool :=
  match s.entryOf w with
  | some e => (s.rackSet d e).any fun f => f.due.isSome && !f.done
  | none => false

/-! ## The operations -/

/-- A status that becomes full when the ring's die has answered (R277). -/
def State.answer (s : State) (d : BitVec 5) (w : Word) (v : Nat) : State :=
  let home := if slice w 21 16 = dieOf s.issue.c then Config.sameDie else Config.otherDie
  (s.awaitMe (.a d)).laterPick home (.resultLand s.issue.c s.issue.x (.a d (BitVec.ofNat 64 v)))

/-- R277; its release holds the bundle (see `slot1Ready`). -/
def execRport (g : Guard) (d a b : BitVec 5) (s : State) : Step :=
  perform (.rport g d a b)
    (fun s => let r := s.me.regs
      if guardHolds g r then
        let z := s.rportAct (r.aVal a) (r.aVal b)
        z.2.answer d (r.aVal a) z.1
      else s) s

/-- A RACK that waits: its status register stays empty until it has been answered. -/
def State.rackWait (s : State) (d : BitVec 5) (w : Word) : State :=
  let q : RackWait := ⟨w, s.issue.c, s.issue.x, s.me.runOf, s.me.rankOf, d⟩
  (s.awaitMe (.a d)).modDie (slice w 21 16) fun k => { k with racks := k.racks ++ [q] }

/-- R278. -/
def execRack (g : Guard) (d a : BitVec 5) (s : State) : Step :=
  perform (.rack g d a)
    (fun s => let r := s.me.regs
      if guardHolds g r then
        let w := r.aVal a
        match s.rackAct w with
        | (some v, z) => z.answer d w v
        | (none, z) => z.rackWait d w
      else s) s

/-- A waiting RACK tried again. -/
def State.rackAgain (s : State) (d : Nat) (q : RackWait) : State :=
  match s.rackAct q.w with
  | (none, z) => z
  | (some v, z) =>
    let z := z.modDie d fun k => { k with racks := k.racks.filter fun p => p != q }
    if z.holds q.core q.x q.run q.rank then
      z.later 1 (.resultLand q.core q.x (.a q.reg (BitVec.ofNat 64 v)))
    else z

def State.racksAgain (s : State) : State :=
  (List.range 64).foldl (fun s d => (s.die d).racks.foldl (fun s q => s.rackAgain d q) s) s

/-- R363: HRCMD 1 and 2, on HRWORD and HRVAL. -/
def execHostRport (d : Nat) (s : State) : Step :=
  onDie d (let k := s.die d
    let z := s.rportAct k.hrWord k.hrVal
    z.2.modDie d fun k => { k with hrBusy := false, hrStatus := BitVec.ofNat 2 z.1 })

def execHostRack (d : Nat) (s : State) : Step :=
  onDie d (match s.rackAct (s.die d).hrWord with
    | (some v, z) => z.modDie d fun k => { k with hrBusy := false, hrStatus := BitVec.ofNat 2 v }
    | (none, z) => z.later 1 (.hostRack d))

/-! ## Admission and the mirror -/

/-- R254: waiting accesses enter their rings. -/
def execRetryRingAdmit (d : Nat) (s : State) : Step :=
  onDie d ((List.range 768).foldl (fun s c =>
    if (s.core c).accs.isEmpty then s else s.enterRing c) s)

def accKindCode : AccKind → Nat
  | .load | .count => 0
  | .store => 1
  | .ldacq => 2
  | .strel => 3
  | .amo => 4
  | .cas => 5
  | .afadd => 6

/-- An entry's 64 bytes (R320). -/
def RingEntry.bytes (e : RingEntry) : List Byte :=
  let a := e.acc
  let w0 := (1 - e.idx / 1024 % 2) + e.code.toNat * 2 ^ 8 + a.cls.toNat * 2 ^ 16 +
    bit (a.kind == .ldacq) * 2 ^ 20 + bit e.ported * 2 ^ 21 + bit e.prot * 2 ^ 22 +
    accKindCode a.kind * 2 ^ 24 + Nat.log2 a.size * 2 ^ 27 + bit a.sx * 2 ^ 29 +
    a.scope.toNat * 2 ^ 30 + a.func.toNat * 2 ^ 33 + a.reg.toNat * 2 ^ 37
  let d1 := if a.kind == .cas then a.d1 else if a.awaitsValue then e.val else 0
  bytesLE 8 w0 ++ bytesLE 8 a.va.toNat ++ bytesLE 8 a.d0.toNat ++ bytesLE 8 d1.toNat ++
    bytesLE 8 e.cont.toNat ++ bytesLE 4 e.nodeId.toNat ++ bytesLE 4 e.inst.toNat ++
    bytesLE 4 e.seq.toNat ++ [BitVec.ofNat 8 (e.rank.toNat * 16 + e.stage.toNat),
      BitVec.ofNat 8 (dieOf e.core), BitVec.ofNat 8 (localOf e.core)] ++ List.replicate 9 0

/-- Every earlier store of an entry's strand has reached its home or is held (R322). -/
def State.entrySettled (s : State) (e : RingEntry) : Bool :=
  !(s.holds e.core e.x e.run e.rank) ||
    (s.core e.core).accs.all fun a => a.x != e.x || !a.isStore || e.acc.id ≤ a.id

/-- A mirror write meets an uncorrectable error: it does not cover the first unit of its slot whole, and that unit
is poisoned (R322, R348). -/
def State.mirrorUe (s : State) (at_ : Word) : Bool :=
  match s.xlate at_ needWrite with
  | .ok (p, _) => s.poisonedAt p
  | .error _ => false

/-- The mirror can take no more: EN falls and RR_MIRROR is raised (R322). -/
def State.mirrorFault (s : State) (d idx : Nat) (code : BitVec 8) : State :=
  (s.modDie d fun k => { k with mirrorEn := false }).event 15 d (BitVec.ofNat 32 idx)
    (code.setWidth 64)

/-- The oldest unpublished entry is written to its mirror slot, bytes 8 to 63 first (R322). -/
def State.publish (s : State) (d : Nat) : State :=
  let k := s.die d
  if !k.mirrorEn then s
  else match k.ring.find? fun e => !e.published with
    | none => s
    | some e =>
      if !(s.entrySettled e) then s.later 1 (.retryMirrorPublish d)
      else
        let at_ := k.mirrorBase.setWidth 64 <<< 16 ||| BitVec.ofNat 64 (64 * (e.idx % 1024))
        if s.mirrorUe at_ then s.mirrorFault d e.idx 20
        else match s.vWrite (at_ + 8) (e.bytes.drop 8) with
        | .error f => s.mirrorFault d e.idx f
        | .ok s =>
          match s.vWrite at_ (e.bytes.take 8) with
          | .error f => s.mirrorFault d e.idx f
          | .ok s =>
            let s := s.putEntry d { e with published := true }
            if (s.die d).ring.any fun f => !f.published then s.later 1 (.retryMirrorPublish d) else s

def execRetryMirrorPublish (d : Nat) (s : State) : Step := onDie d (s.publish d)

/-- R362: setting EN publishes every occupied entry and raises RR_ENTRY once. -/
def State.setMirror (s : State) (d : Nat) (v : Word) : State :=
  let en := getBit v 0
  let k := s.die d
  let on := en && !k.mirrorEn
  let s := s.modDie d fun k => { k with
    mirrorBase := BitVec.ofNat 32 (slice v 47 16), mirrorEn := en,
    ring := if on then k.ring.map fun e => { e with published := false } else k.ring }
  match k.ring with
  | [] => s
  | e :: _ => if on then (s.event 7 d (BitVec.ofNat 32 e.idx) 0).later 1 (.retryMirrorPublish d) else s

def execRrmirrorWrite (d : Nat) (v : Word) (s : State) : Step := onDie d (s.setMirror d v)

end Sys2Proof.Machine
end

