-- ==== Sys2Proof/Machine/Flits.lean ====
section
/-!
DEFINITION. What the engines need of the Bramble links: windows and links (R370, R371), the flit with its
CRC-32C (R367), and the transmitter with its replay buffer (R368).
-/
namespace Sys2Proof.Machine

/-! ## Windows and links -/

/-- The link of a window that is bound (R371). -/
def Module.window (m : Module) (w : Nat) : Option Nat :=
  let p := vget m.pwin w 0
  if getBit p 63 then some (slice p 23 20) else none

def Module.link (m : Module) (l : Nat) : Link := vget m.links l Link.reset

def Module.modLink (m : Module) (l : Nat) (f : Link → Link) : Module :=
  { m with links := vset m.links l (f (m.link l)) }

def State.modLink (s : State) (l : Nat) (f : Link → Link) : State := s.modMdl fun m => m.modLink l f

/-- EN as it acts: 0 on every link while the feature is not accepted (R383). -/
def Module.linkEn (m : Module) (l : Nat) : Bool := (m.link l).en && getBit m.featAccept0 0

/-- The link carries flits: it is enabled, and trained on all lanes or on a half. -/
def Module.linkUp (m : Module) (l : Nat) : Bool := m.linkEn l && 2 ≤ (m.link l).state.toNat

/-! ## The flit (R367) -/

/-- One bit, and one byte, of CRC-32C in its usual reflected form: 0x82F63B78 is 0x1EDC6F41 with its bits in
reverse order (log 78). -/
def crc32Bit (c : BitVec 32) : BitVec 32 := if getBit c 0 then (c >>> 1) ^^^ 0x82F63B78 else c >>> 1

def crc32Byte (c : BitVec 32) (b : Byte) : BitVec 32 :=
  crc32Bit (crc32Bit (crc32Bit (crc32Bit (crc32Bit (crc32Bit (crc32Bit (crc32Bit (c ^^^ b.setWidth 32))))))))

/-- The CRC-32C of bytes: all ones before the first, inverted after the last. -/
def crc32c (l : List Byte) : BitVec 32 := ~~~(l.foldl crc32Byte (BitVec.allOnes 32))

/-- Bytes 0 to 251 of a flit; the payload is padded with zeros. -/
def flitBody (f : Flit) : List Byte :=
  bytesLE 8 (f.seq.toNat + f.ack.toNat * 2 ^ 16 + f.ty.toNat * 2 ^ 32 + f.len.toNat * 2 ^ 36 +
    f.stream.toNat * 2 ^ 44) ++
    (f.payload ++ List.replicate (244 - f.payload.length) 0)

/-- The 256 bytes of a flit, little-endian, with its CRC. -/
def flitBytes (f : Flit) : List Byte := flitBody f ++ bytesLE 4 (crc32c (flitBody f)).toNat

/-- The flit that 256 bytes hold; none where the CRC does not fit them. -/
def flitOf (raw : List Byte) : Option Flit :=
  let h := numLE (raw.take 8)
  if numLE (raw.drop 252) == (crc32c (raw.take 252)).toNat then
    some { seq := BitVec.ofNat 16 h, ack := BitVec.ofNat 16 (h / 2 ^ 16), ty := BitVec.ofNat 4 (h / 2 ^ 32),
           len := BitVec.ofNat 8 (h / 2 ^ 36), stream := BitVec.ofNat 20 (h / 2 ^ 44),
           payload := (raw.drop 8).take 244 }
  else none

/-- SEQ as 256 bytes state it. -/
def flitSeq (raw : List Byte) : BitVec 16 := BitVec.ofNat 16 (numLE (raw.take 2))

/-! ## The transmitter (R368) -/

/-- Idle and acknowledgement-only flits carry no sequence number. -/
def sequenced (ty : BitVec 4) : Bool := ty != 0 && ty != 3

/-- A flit sent: a sequenced one takes the next number and is held until it is acknowledged. -/
def Link.send (k : Link) (ty : BitVec 4) (stream : BitVec 20) (payload : List Byte) : Link :=
  let f : Flit := ⟨if sequenced ty then k.txSeq else 0, k.rxSeq, ty, BitVec.ofNat 8 payload.length, stream,
    payload⟩
  if sequenced ty then
    { k with txSeq := k.txSeq + 1, replay := k.replay ++ [f], wire := k.wire ++ [flitBytes f] }
  else { k with wire := k.wire ++ [flitBytes f] }

/-- Whether a flit may be sent: a sequenced one needs room among the 1,024 held. -/
def Link.room (k : Link) (ty : BitVec 4) : Bool := !(sequenced ty) || k.replay.length < 1024

/-- Waiting payloads sent in their order while there is room. -/
def Link.pump (k : Link) : Nat → Link
  | 0 => k
  | n + 1 =>
    match k.outq with
    | [] => k
    | (ty, stream, payload) :: r =>
      if k.room ty then (({ k with outq := r } : Link).send ty stream payload).pump n else k

/-- A change of a link that may send flits; the first held flit starts the time-out of 2 µs. -/
def State.sends (s : State) (l : Nat) (f : Link → Link) : State :=
  let first := (s.mdl.link l).replay.isEmpty
  let s := s.modLink l f
  if first && !(s.mdl.link l).replay.isEmpty then
    (s.modLink l fun k => { k with ackAt := s.now }).later Config.replay (.replayTimeout l)
  else s

/-- The waiting payloads of a link that is up go out. -/
def State.linkPump (s : State) (l : Nat) : State :=
  if s.mdl.linkUp l then s.sends l fun k => k.pump k.outq.length else s

/-- A transmission. The types 5 to 15, which every receiver discards, are not sent. -/
def State.transmit (s : State) (l : Nat) (ty : BitVec 4) (stream : BitVec 20) (payload : List Byte) :
    State :=
  if !(s.mdl.linkUp l) || 244 < payload.length || 4 < ty.toNat then s
  else if ty == 4 then (if (s.mdl.link l).room ty then s.sends l fun k => k.send ty stream payload else s)
  else if sequenced ty then
    (s.modLink l fun k => { k with outq := k.outq ++ [(ty, stream, payload)] }).linkPump l
  else s.sends l fun k => k.send ty stream payload

/-! ## The writes of an RCOPY on their link (R264) -/

/-- A byte string cut into payloads of 244 bytes; the last ends the command. -/
def payloads (stream : BitVec 20) : Nat → List Byte → List (BitVec 4 × BitVec 20 × List Byte)
  | 0, _ => []
  | n + 1, l =>
    if l.length ≤ 244 then [(2, stream, l)] else (1, stream, l.take 244) :: payloads stream n (l.drop 244)

/-- A write as the link carries it: a header of 8 bytes, whose layout the spec leaves open, and the data. -/
def writeBytes (w : Nat × List Byte) : List Byte :=
  (List.range 8).map (Config.writeHeader w.1 w.2.length) ++ w.2

/-- Writes of a command put on a link. -/
def State.linkWrites (s : State) (l : Nat) (stream : BitVec 20) (ws : List (Nat × List Byte)) : State :=
  let b := ws.flatMap writeBytes
  (s.modLink l fun k => { k with outq := k.outq ++ payloads stream (b.length + 1) b }).linkPump l

/-- Payload bytes of a stream that the far side has not acknowledged. -/
def Link.unacked (k : Link) (stream : BitVec 20) : Nat :=
  ((k.replay.filter fun f => f.stream == stream).map fun f => f.len.toNat).sum +
    ((k.outq.filter fun e => e.2.1 == stream).map fun e => e.2.2.length).sum

/-- The window offset of the first write of which a byte is among the last n of a command's stream. -/
def firstUnacked : List (Nat × Nat) → Nat → Option Nat
  | [], _ => none
  | w :: r, n => if ((w :: r).map fun e => e.2 + 8).sum - n < w.2 + 8 then some w.1 else firstUnacked r n

end Sys2Proof.Machine
end

