-- ==== Sys2Proof/Machine/Engines.lean ====
section
/-!
DEFINITION. Engines: commands and tokens (R255 to R258), COPY, COPYM and RCOPY (R261 to R264),
collectives (R265 to R270), engine faults (R271, R272), the transpose engine (R273, R274) and TOKST
(R275).
-/
namespace Sys2Proof.Machine

/-! ## Address words (R261) -/

/-- One side of a transfer: global memory, or an offset in a core's scratchpad. -/
inductive Side where
  | glob (va : Word)
  | spad (c off : Nat)
deriving DecidableEq, Repr

/-- The side that an address word names; `own` is the issuing core. -/
def sideOf (own : Nat) (space : BitVec 2) (w : Word) : Side :=
  match space.toNat with
  | 0 => .glob w
  | 1 => .spad (12 * slice w 28 23 + slice w 22 19) (slice w 18 0)
  | _ => .spad own (slice w 18 0)

/-- Reserved bits set in an address word. -/
def sideReserved (space : BitVec 2) (w : Word) : Bool :=
  match space.toNat with
  | 0 => false
  | 1 => slice w 63 29 != 0
  | _ => slice w 63 19 != 0

/-- The number of the core that an address word names, in the order of dies and local cores. -/
def wordCore (w : Word) : Nat := 16 * slice w 28 23 + slice w 22 19

/-- A missing or retired core (R262). -/
def State.sideNoCore (s : State) (space : BitVec 2) (w : Word) : Bool :=
  space == 1 && (12 ≤ slice w 22 19 ||
    !(s.clusterAlive (clusterOf (12 * slice w 28 23 + slice w 22 19))))

def Side.plus (n : Nat) : Side → Side
  | .glob va => .glob (va + BitVec.ofNat 64 n)
  | .spad c off => .spad c (off + n)

/-- The side 8 bytes below: the marker's place. -/
def Side.minus8 : Side → Side
  | .glob va => .glob (va - 8)
  | .spad c off => .spad c (off - 8)

/-- Bytes up to the next 256-byte boundary. -/
def Side.toBoundary : Side → Nat
  | .glob va => 256 - va.toNat % 256
  | .spad _ off => 256 - off % 256

/-- n rows of len bytes at a stride stay inside the scratchpad, with the marker where `mark` (R261). -/
def Side.fits (rows len stride : Nat) (mark : Bool) : Side → Bool
  | .glob _ => true
  | .spad _ off =>
    (rows = 0 || len = 0 || off + (rows - 1) * stride + len ≤ 393216) &&
      (!mark || (8 ≤ off && off ≤ 393216))

/-! ## Fault words (R271) -/

def faultWord (code : Nat) (addr : Word) : Word :=
  BitVec.ofNat 64 (slice addr 47 0 * 2 ^ 16 + code * 256 + 2)

/-- The first check that fails, as a fault word. -/
def firstFault : List (Bool × Nat × Word) → Option Word
  | [] => none
  | (b, code, addr) :: r => if b then some (faultWord code addr) else firstFault r

/-- NOCORE for the lower-numbered of the two cores that a COPY names (R271). -/
def State.noCore (s : State) (ds ss : BitVec 2) (g0 g1 : Word) : List (Bool × Nat × Word) :=
  let sn := s.sideNoCore ss g0
  let dn := s.sideNoCore ds g1
  [(sn && !(dn && wordCore g1 < wordCore g0), 18, g0), (dn, 18, g1)]

/-! ## Requests -/

/-- The strand that issued a command still holds its context. -/
def State.cmdHeld (s : State) (q : Cmd) : Bool :=
  let t := s.ctx q.core q.x
  q.copyNode.isNone && t.runOf == q.run && t.rankOf == q.rank

/-- Why a request is not made: it faults, or it misses a page for which the command has no walk's outcome (R204). -/
inductive EngErr where
  | fault (code : BitVec 8)
  | misses (page : Nat)
deriving DecidableEq, Repr

/-- A leaf used by an engine of die d: PERM, or its address; it stands in the engines' cache from then on. -/
def State.engLeaf (s : State) (d : Nat) (va : Word) (n : Need) (t : Transl) : Except EngErr (Nat × State) :=
  if s.permBad t n then .error (.fault 2)
  else .ok (t.pa va, s.modDie d fun k =>
    { k with ecache := if k.ecache.contains t then k.ecache else cacheAdd k.ecache t })

/-- A translation for a command's request: by the cache of its die's engines, or by what a walk has told the
command (R204). -/
def State.engXlate (s : State) (q : Cmd) (va : Word) (n : Need) : Except EngErr (Nat × State) :=
  let d := dieOf q.core
  let page := va.toNat / 65536
  if 2 ^ 48 ≤ va.toNat then .error (.fault 1)
  else match cached (s.die d).ecache va with
    | some t => s.engLeaf d va n t
    | none =>
      match q.xl.find? fun e => e.page == page with
      | none => .error (.misses page)
      | some e => match e.leaf with
        | some t => s.engLeaf d va n t
        | none => .error (.fault e.code)

/-- A command's transfer begins anew once the walker has told it of a page (R204). -/
def State.engMiss (s : State) (d id page : Nat) : State :=
  let s := s.modDie d fun k => { k with cmds := k.cmds.map fun q =>
    if q.id == id then { q with need := some page } else q }
  match (s.die d).cmds.find? fun q => q.id == id with
  | some q => s.engWalk q.core page
  | none => s

/-- The acquire of a command: the flag ACQ (R255). -/
def Cmd.acq (q : Cmd) : Bool :=
  match q.op with
  | .copy _ acq _ _ _ _ _ _ _ _ | .copym _ acq _ _ _ _ _ _ _ | .rcopy _ acq _ _ _ _ _ _ _
  | .coll _ acq _ _ _ _ _ _ _ _ => acq
  | _ => false

/-- The command's acquire is made: the stores of other strands that the die's path had accepted before the
command's issue, which may happen before it, are at their homes (R221, R259). -/
def State.acquired (s : State) (d : Nat) (q : Cmd) : Bool :=
  !q.acq || (s.die d).path.all fun p =>
    q.mark ≤ p.id || (p.core == q.core && p.x == q.x && p.run == q.run)

/-- One read request of n bytes (R221, R228, R272, R348). -/
def State.engRead (s : State) (q : Cmd) (n : Nat) : Side → Except EngErr (List Byte × State)
  | .spad c off =>
    let k := s.core c
    if (k.firstBarred off n).isSome then .error (.fault 16)
    else if k.spadBad off n then .error (.fault 20)
    else .ok (memReadList k.spad off n, s)
  | .glob va =>
    let d := dieOf q.core
    match s.engXlate q va needRead with
    | .error f => .error f
    | .ok (p, s) =>
      let buf := (s.die d).contain
      let held (a : Nat) : Option Byte := if q.prot then heldByte q.run q.rank a buf else none
      if (List.range n).any fun i => (held (p + i)).isNone && s.poisonedAt (p + i) then .error (.fault 20)
      else .ok ((List.range n).map fun i => (held (p + i)).getD (memRead s.mem (p + i)), s.countReq d p)

/-- How a write request ends: made, with its record in the store stream (R339), or not. -/
inductive WriteOut where
  | done (s : State) (rec : List Byte)
  | err (e : EngErr)
  | waits
  | overflow

/-- A COPYM counts each of its write requests once per selected core (R263, log 68). -/
def State.countSpad (s : State) (q : Cmd) (c : Nat) : State :=
  match q.op with
  | .copym _ _ _ _ _ _ _ _ _ => s.modDie (dieOf q.core) fun k =>
      if dieOf c = dieOf q.core then { k with lreq := k.lreq + 1 } else { k with rreq := k.rreq + 1 }
  | _ => s

/-- The virtual page by which the engines of die d translate an address. -/
def State.pageOf (s : State) (d : Nat) (va : Word) : Option (Nat × Nat) :=
  (cached (s.die d).ecache va).map fun t => (t.base, t.size)

/-- One write request (R228, R272, R336): a protected command's global bytes are held, and discarded once
its run has ended (R335). -/
def State.engWrite (s : State) (q : Cmd) (l : List Byte) : Side → WriteOut
  | .spad c off =>
    if ((s.core c).firstBarred off l.length).isSome then .err (.fault 16)
    else .done ((s.countSpad q c).modCore c fun k =>
      ({ k with spad := memWriteList k.spad off l } : Core).healSpad fun a => off ≤ a && a < off + l.length) []
  | .glob va =>
    let d := dieOf q.core
    match s.engXlate q va needWrite with
    | .error f => .err f
    | .ok (p, s) =>
      let s := s.countReq d p
      let rec_ := s.storeRecord p va l
      if !q.prot then .done (s.physWrite p l) rec_
      else if !(s.cmdHeld q) then .done s rec_
      else if (s.site p).inWindow then .done (s.physWrite p l) rec_
      else match holdWrite (s.die d).contain ⟨q.run, q.rank, p, l, s.pageOf d va, false⟩ with
        | .held h => .done (s.modDie d fun k => { k with contain := h }) rec_
        | .waits => .waits
        | .overflow => .overflow

/-! ## Transfers (R261) -/

/-- How a transfer stands. -/
inductive XferEnd where
  | going
  | fault (w : Word)
  | misses (page : Nat)
  | waits
  | overflow
deriving DecidableEq, Repr

/-- How a transfer stands after a request, at address word w, that is not made. -/
def EngErr.stop (w : Word) : EngErr → XferEnd
  | .fault f => .fault (faultWord f.toNat w)
  | .misses p => .misses p

/-- A transfer under way: the state, the records of the store stream (R339), the writes that an RCOPY has made
(R264), and how it stands. -/
structure Xfer where
  s : State
  recs : List Byte
  wr : List (Nat × List Byte)
  fin : XferEnd

/-- The same bytes written into each destination; `w` is the destination word, `n` the offset from it. -/
def Xfer.writeAll (z : Xfer) (q : Cmd) (w : Word) (n : Nat) (l : List Byte) (dsts : List Side) : Xfer :=
  let barred := dsts.any fun e => match e with
    | .spad c off => ((z.s.core c).firstBarred off l.length).isSome
    | .glob _ => false
  if barred then { z with fin := .fault (faultWord 16 (w + BitVec.ofNat 64 n)) }
  else dsts.foldl (fun z e =>
    match z.fin with
    | .fault _ | .misses _ | .waits | .overflow => z
    | .going =>
      match z.s.engWrite q l e with
      | .done s r => { z with s := s, recs := z.recs ++ r }
      | .err f => { z with fin := f.stop (w + BitVec.ofNat 64 n) }
      | .waits => { z with fin := .waits }
      | .overflow => { z with fin := .overflow }) z

/-- A piece of a transfer, at offset n of its source and m of its destination, len bytes. -/
abbrev Piece := Nat → Nat → Nat → Xfer → Xfer

/-- A row cut into requests that cross no 256-byte boundary of a side: `left` bytes remain. -/
def cutRow (f : Piece) (src dst : Option Side) : Nat → Nat → Nat → Nat → Xfer → Xfer
  | 0, _, _, _, z => z
  | fuel + 1, left, n, m, z =>
    if left = 0 || z.fin != .going then z
    else
      let edge (o : Option Side) (k : Nat) : Nat := match o with
        | some e => (e.plus k).toBoundary
        | none => 256
      let len := min left (min (edge src n) (edge dst m))
      cutRow f src dst fuel (left - len) (n + len) (m + len) (f n m len z)

/-- The operands of a transfer. -/
structure XferOps where
  src : Side
  dsts : List Side
  sw : Word
  dw : Word
  rows : Nat
  len : Nat
  sstr : Nat
  dstr : Nat

/-- One request pair of a copy: the source read once, each destination written. -/
def copyPiece (q : Cmd) (o : XferOps) : Piece := fun n m len z =>
  match z.s.engRead q len (o.src.plus n) with
  | .error f => { z with fin := f.stop (o.sw + BitVec.ofNat 64 n) }
  | .ok (l, s) => ({ z with s := s } : Xfer).writeAll q o.dw m l (o.dsts.map (Side.plus m))

/-- The first k rows. -/
def copyRows (f : Piece) (o : XferOps) : Nat → Xfer → Xfer
  | 0, z => z
  | k + 1, z =>
    cutRow f (some o.src) o.dsts.head? o.len o.len (k * o.sstr) (k * o.dstr) (copyRows f o k z)

/-- The marker at DST - 8. -/
def markPiece (q : Cmd) (o : XferOps) (bytes : List Byte) : Piece := fun _ m len z =>
  z.writeAll q (o.dw - 8) m ((bytes.drop m).take len) (o.dsts.map fun e => e.minus8.plus m)

def Xfer.marker (z : Xfer) (q : Cmd) (o : XferOps) (mark mval : Bool) : Xfer :=
  if !mark then z
  else cutRow (markPiece q o (bytesLE 8 (bit mval))) none (o.dsts.head?.map Side.minus8) 8 8 0 0 z

/-- R261's operands from the group. -/
def xferOps (q : Cmd) (src : Side) (dsts : List Side) : XferOps :=
  { src := src, dsts := dsts, sw := q.g0, dw := q.g1, rows := slice q.g2 63 32, len := slice q.g2 31 0,
    sstr := slice q.g3 31 0, dstr := slice q.g3 63 32 }

/-- The completion value of R257. -/
def XferOps.value (o : XferOps) : Word := BitVec.ofNat 64 (o.rows * o.len)

def State.xfer (s : State) (q : Cmd) (o : XferOps) (mark mval : Bool) : Xfer :=
  (copyRows (copyPiece q o) o o.rows ⟨s, [], [], .going⟩).marker q o mark mval

/-! ## The ends of a command -/

def State.cmd? (s : State) (d id : Nat) : Option Cmd := (s.die d).cmds.find? fun q => q.id == id

/-- A command leaves its queue, and the engine that it held takes the next one (R256). -/
def State.dropCmd (s : State) (d id : Nat) : State :=
  (s.modDie d fun k => { k with cmds := k.cmds.filter fun q => q.id != id }).enginesTake d

def State.modCmd (s : State) (d id : Nat) (f : Cmd → Cmd) : State :=
  s.modDie d fun k => { k with cmds := k.cmds.map fun q => if q.id == id then f q else q }

/-- The token register of a command. -/
def Cmd.token (q : Cmd) : BitVec 5 :=
  match q.op with
  | .copy _ _ _ _ t _ _ _ _ _ | .copym _ _ _ _ t _ _ _ _ | .coll _ _ _ _ t _ _ _ _ _
  | .rcopy _ _ _ _ t _ _ _ _ => t
  | _ => 0

/-- The records of a DUP strand's command take their place in its stream (R339). -/
def State.cmdRecords (s : State) (q : Cmd) (recs : List Byte) : State :=
  if !(s.cmdHeld q) then s
  else match (s.ctx q.core q.x).strand with
    | some n => s.signFill n .cmd q.id recs
    | none => s

/-- A command complete with value v (R257); a copy node's instance completes (R43). -/
def State.cmdDone (s : State) (d : Nat) (q : Cmd) (v : Word) : State :=
  let held := s.cmdHeld q
  let s := s.dropCmd d q.id
  match q.copyNode with
  | some (a, i) => s.gangDone a i.toNat d
  | none => if held then s.modRegs q.core q.x fun r => r.landed (.a q.token v) else s

/-- The instance of a collective that a command has joined. -/
def Module.coll? (m : Module) (e : BitVec 32 × Nat) : Option CollInst :=
  m.colls.find? fun i => i.tag == e.1 && i.k == e.2

def Module.modColl (m : Module) (e : BitVec 32 × Nat) (f : CollInst → CollInst) : Module :=
  { m with colls := m.colls.map fun i => if i.tag == e.1 && i.k == e.2 then f i else i }

/-- An instance fails: the members' commands, but for one, fault with a code, and so do those that join it
later: with GROUP after a disagreement, else with MEMBER (R267). -/
def State.failInst (s : State) (i : CollInst) (but code : Nat) : State :=
  if i.fail != 0 then s
  else
    let s := s.modMdl fun m => m.modColl (i.tag, i.k) fun i => { i with fail := if code = 23 then 23 else 24 }
    i.members.foldl (fun s m =>
      if m.cmd == but then s
      else match s.cmd? m.die m.cmd with
        | some p => s.later 1 (.engineFault m.die m.cmd (faultWord code p.g3))
        | none => s) s

/-- The other members of a command's instance fault with MEMBER (R267). -/
def State.failColl (s : State) (q : Cmd) : State :=
  match q.coll.bind s.mdl.coll? with
  | none => s
  | some i => s.failInst i q.id 24

/-- A command faulted (R257, R271); a copy node fails (R43). -/
def State.cmdFault (s : State) (d : Nat) (q : Cmd) (fw : Word) : State :=
  let held := s.cmdHeld q
  let s := (s.dropCmd d q.id).failColl q
  match q.copyNode with
  | some (a, i) => s.failNode a i 5 d
  | none =>
    if held then
      s.modRegs q.core q.x fun r =>
        let r := r.landed (.a q.token fw)
        { r with aFault := putBit r.aFault q.token.toNat true }
    else s

/-- What the end of a transfer makes of its command. -/
def State.cmdEnd (s : State) (d : Nat) (q : Cmd) (v : Word) (z : Xfer) : State :=
  match z.fin with
  | .going => (z.s.cmdRecords q z.recs).cmdDone d q v
  | .fault w => (z.s.cmdRecords q z.recs).cmdFault d q w
  | .misses p => s.engMiss d q.id p
  | .waits =>
    ((s.modCmd d q.id fun q => { q with
      waits := true, xl := q.xl.filter fun e => e.leaf.isSome }).later 1 (.engineCompletion d q.id)).later 1
      (.containmentLineFreed d)
  | .overflow =>
    let held := s.cmdHeld q
    let s := s.dropCmd d q.id
    if held then s.modCtx q.core q.x fun t => { t with status := .failing 4 } else s

/-! ## The copy engines -/

/-- COPY (R262). -/
def State.runCopy (s : State) (d : Nat) (q : Cmd) (mval mark : Bool) (ds ss : BitVec 2) : State :=
  let src := sideOf q.core ss q.g0
  let dst := sideOf q.core ds q.g1
  let o := xferOps q src [dst]
  match firstFault ([(sideReserved ss q.g0, 19, q.g0), (sideReserved ds q.g1, 19, q.g1)] ++
      s.noCore ds ss q.g0 q.g1 ++ [(!(src.fits o.rows o.len o.sstr false), 17, q.g0),
      (!(dst.fits o.rows o.len o.dstr mark), 17, q.g1)]) with
  | some w => (s.cmdRecords q []).cmdFault d q w
  | none => s.cmdEnd d q o.value (s.xfer q o mark mval)

/-- The cores that a COPYM destination word selects (R263). -/
def copymCores (w : Word) : List Nat :=
  ((List.range 12).filter fun c => getBit w (32 + c)).map (12 * slice w 28 23 + ·)

/-- COPYM (R263). -/
def State.runCopym (s : State) (d : Nat) (q : Cmd) (mval mark : Bool) (ss : BitVec 2) : State :=
  let src := sideOf q.core ss q.g0
  let cores := copymCores q.g1
  let off := slice q.g1 18 0
  let o := xferOps q src (cores.map fun c => .spad c off)
  let res := slice q.g1 63 44 != 0 || slice q.g1 31 29 != 0 || slice q.g1 22 19 != 0
  match firstFault [(sideReserved ss q.g0, 19, q.g0), (res, 19, q.g1)] with
  | some w => s.cmdFault d q w
  | none =>
    if cores.isEmpty then s.cmdDone d q 0
    else match firstFault [(cores.any fun c => !(s.clusterAlive (clusterOf c)), 18, q.g1),
        (!(src.fits o.rows o.len o.sstr false), 17, q.g0),
        (!((Side.spad 0 off).fits o.rows o.len o.dstr mark), 17, q.g1)] with
      | some w => s.cmdFault d q w
      | none => s.cmdEnd d q o.value (s.xfer q o mark mval)

/-! ## Peer windows (R264) -/

/-- One request of an RCOPY: the source read, its bytes to be written at `base` of the window. -/
def rcopyPiece (q : Cmd) (o : XferOps) (base : Nat) : Piece := fun n m len z =>
  match z.s.engRead q len (o.src.plus n) with
  | .error f => { z with fin := f.stop (o.sw + BitVec.ofNat 64 n) }
  | .ok (bytes, s) => { z with s := s, wr := z.wr ++ [(base + m, bytes)] }

/-- A destination address word of a command, with the window offset of a block (R271). -/
def blockWord (q : Cmd) (off : Nat) : Word := BitVec.ofNat 64 (slice q.g1 45 42 * 2 ^ 42 + off % 2 ^ 42)

/-- The identifier under which a command's flits travel (R367). -/
def Cmd.stream (q : Cmd) : BitVec 20 := BitVec.ofNat 20 q.id

/-- An RCOPY's writes handed to its link; the command ends once the remote module has acknowledged them all, with
the value v, or with the fault of its source that `late` holds. -/
def State.rcopySend (s : State) (d l : Nat) (q : Cmd) (v : Word) (late : Option Word)
    (ws : List (Nat × List Byte)) : State :=
  let s := s.linkWrites l q.stream ws
  (s.modCmd d q.id fun q => { q with
    result := some v, late := late, writes := ws.map fun w => (w.1, w.2.length) }).laterPick Config.engine
    (.engineCompletion d q.id)

/-- The transfer of an RCOPY: every block before one whose source faults is written in full, and a fault of one of
those comes first (R271). -/
def State.rcopyMove (s : State) (d l : Nat) (q : Cmd) (o : XferOps) (mark mval : Bool) : State :=
  let off := slice q.g1 41 0
  let z := copyRows (rcopyPiece q o off) o o.rows ⟨s, [], [], .going⟩
  match z.fin with
  | .fault w => if z.wr.isEmpty then z.s.cmdFault d q w else z.s.rcopySend d l q 0 (some w) z.wr
  | .misses p => s.engMiss d q.id p
  | .going | .waits | .overflow =>
    let ws := z.wr ++ if mark then [(off - 8, bytesLE 8 (bit mval))] else []
    if ws.isEmpty then z.s.cmdDone d q o.value else z.s.rcopySend d l q o.value none ws

/-- RCOPY as it reaches its engine (R264): the checks before any request; a link in training holds it. -/
def State.runRcopy (s : State) (d : Nat) (q : Cmd) (mval mark : Bool) (ss : BitVec 2) : State :=
  let src := sideOf q.core ss q.g0
  let o := xferOps q src [.glob (BitVec.ofNat 64 (slice q.g1 41 0))]
  let off := slice q.g1 41 0
  let l := (s.mdl.window (slice q.g1 45 42)).getD 0
  let k := s.mdl.link l
  let beyond := o.rows != 0 && o.len != 0 && 2 ^ 42 < off + (o.rows - 1) * o.dstr + o.len
  match firstFault [(q.prot, 25, 0), (sideReserved ss q.g0, 19, q.g0), (slice q.g1 63 46 != 0, 19, q.g1),
      (!(getBit s.mdl.featAccept0 0) || (s.mdl.window (slice q.g1 45 42)).isNone || beyond ||
        (mark && off < 8), 22, q.g1),
      (!(s.mdl.linkEn l) || k.state == 0, 21, q.g1),
      (!(src.fits o.rows o.len o.sstr false), 17, q.g0)] with
  | some w => s.cmdFault d q w
  | none =>
    if k.state == 1 then s.later 1 (.engineCompletion d q.id) else s.rcopyMove d l q o mark mval

/-- An RCOPY all of whose writes have been made: it completes, or its source has faulted behind them (R271). -/
def State.rcopyEnd (s : State) (d : Nat) (q : Cmd) (v : Word) : State :=
  match q.late with
  | some w => s.cmdFault d q w
  | none => s.cmdDone d q v

/-- The remote module's answer to an RCOPY whose writes are on the link. Once the far side has acknowledged
every flit, it has made each write (choice 0), or it has refused write n - 1 (choice n), which faults the
command with REMOTE (R264, R271, R372; log 7). -/
def State.rcopyAnswer (s : State) (d : Nat) (q : Cmd) (v : Word) : State :=
  let l := (s.mdl.window (slice q.g1 45 42)).getD 0
  if (s.mdl.link l).unacked q.stream != 0 then s.later 1 (.engineCompletion d q.id)
  else
    let p := s.pick 0
    match p.1 with
    | 0 => p.2.rcopyEnd d q v
    | n + 1 => match q.writes[n]? with
      | some w => p.2.cmdFault d q (faultWord 22 (blockWord q w.1))
      | none => p.2.rcopyEnd d q v

/-! ## Issue of a command (R256) -/

/-- A command of the open bundle: its group is read and its token empties. -/
def State.command (s : State) (t : BitVec 5) (x : BitVec 3) (op : Instr) : Cmd × State :=
  let r := s.me.regs
  let g (i : Nat) : Word := r.aVal (BitVec.ofNat 5 (4 * x.toNat + i))
  let f := s.fresh
  let q : Cmd := { id := f.1, core := s.issue.c, x := s.issue.x, run := s.me.runOf, rank := s.me.rankOf,
                   op := op, g0 := g 0, g1 := g 1, g2 := g 2, g3 := g 3, copyNode := none,
                   mark := (s.die (dieOf s.issue.c)).nextPath, running := false, coll := none,
                   prot := s.me.protected_, waits := false, result := none, writes := [], late := none, xl := [],
                   need := none, paced := 0 }
  (q, (f.2.awaitMe (.a t)).modDie (dieOf s.issue.c) fun k => { k with cmds := k.cmds ++ [q] })

/-- A copy command of the open bundle; with a global destination it takes its place in a DUP strand's
store stream (R339). -/
def copyCmd (g : Guard) (t : BitVec 5) (x : BitVec 3) (glob : Bool) (op : Instr) (s : State) : State :=
  if guardHolds g s.me.regs then
    let z := s.command t x op
    let s := match s.me.strand with
      | some n => if glob then z.2.signSlot n ⟨.cmd, z.1.id, none⟩ else z.2
      | none => z.2
    s.enginesTake (dieOf s.issue.c)
  else s

/-- R262. -/
def execCopy (g : Guard) (acq rel : Bool) (sc : BitVec 3) (t : BitVec 5) (x : BitVec 3)
    (mval mark : Bool) (ds ss : BitVec 2) (s : State) : Step :=
  perform (.copy g acq rel sc t x mval mark ds ss)
    (copyCmd g t x (ds == 0) (.copy g acq rel sc t x mval mark ds ss)) s

/-- R263. -/
def execCopym (g : Guard) (acq rel : Bool) (sc : BitVec 3) (t : BitVec 5) (x : BitVec 3)
    (mval mark : Bool) (ss : BitVec 2) (s : State) : Step :=
  perform (.copym g acq rel sc t x mval mark ss)
    (copyCmd g t x false (.copym g acq rel sc t x mval mark ss)) s

/-- R264. -/
def execRcopy (g : Guard) (acq rel : Bool) (sc : BitVec 3) (t : BitVec 5) (x : BitVec 3)
    (mval mark : Bool) (ss : BitVec 2) (s : State) : Step :=
  perform (.rcopy g acq rel sc t x mval mark ss)
    (copyCmd g t x false (.rcopy g acq rel sc t x mval mark ss)) s

/-! ## Group tables (R266) -/

/-- A read of a transfer's source into a list: the bytes, as far as they could be read, and how it stands. -/
structure Gather where
  s : State
  bytes : List Byte
  fin : XferEnd

/-- n bytes of a side read by requests; `w` is its address word. -/
def gatherFrom (q : Cmd) (e : Side) (w : Word) : Nat → Nat → Nat → Gather → Gather
  | 0, _, _, z => z
  | fuel + 1, left, n, z =>
    if left = 0 || z.fin != .going then z
    else
      let len := min left (e.plus n).toBoundary
      match z.s.engRead q len (e.plus n) with
      | .error f => { z with fin := f.stop (w + BitVec.ofNat 64 n) }
      | .ok (l, s) => gatherFrom q e w fuel (left - len) (n + len) ⟨s, z.bytes ++ l, .going⟩

def State.gather (s : State) (q : Cmd) (e : Side) (w : Word) (n : Nat) : Gather :=
  gatherFrom q e w n n 0 ⟨s, [], .going⟩

/-- An entry of a group table. -/
structure GroupEntry where
  res : Bool
  rank : Nat
  die : Nat
  mod : Nat
deriving DecidableEq, Repr

def groupEntry (w : Nat) : GroupEntry :=
  ⟨w / 2 ^ 48 != 0 || w / 2 ^ 22 % 2 ^ 10 != 0, w / 2 ^ 32 % 65536, w / 65536 % 64, w % 65536⟩

/-- The entries of a table's bytes. -/
def groupEntries (l : List Byte) (n : Nat) : List GroupEntry :=
  (List.range n).map fun j => groupEntry (numLE ((l.drop (16 + 8 * j)).take 8))

/-- The three conditions of R266, and reserved fields that are zero. -/
def groupValid (l : List Byte) (n modid d : Nat) : Bool :=
  let es := groupEntries l n
  1 ≤ n && n ≤ 4096 && numLE ((l.drop 8).take 8) == 0 && es.all (fun e => !e.res) &&
    es.all (fun e => e.rank < n) && (es.map GroupEntry.rank).eraseDups.length == n &&
    (es.map fun e => (e.mod, e.die)).eraseDups.length == n && es.any fun e => e.mod == modid && e.die == d

/-! ## Collectives (R265 to R270) -/

/-- Element size by TYPE. -/
def collSize (ty : BitVec 2) : Nat :=
  match ty.toNat with
  | 1 => 2
  | 3 => 8
  | _ => 4

/-- Bytes of a member's source, and of its destination, for n members of E elements (R268). -/
def collSrcBytes (ty op : BitVec 2) (n e : Nat) : Nat := (if op == 1 then n * e else e) * collSize ty
def collDstBytes (ty op : BitVec 2) (n e : Nat) : Nat := (if op == 2 then n * e else e) * collSize ty

def Side.aligned (n : Nat) : Side → Bool
  | .glob va => va.toNat % n == 0
  | .spad _ off => off % n == 0

/-- The window that reaches a member on another module (R371). -/
def Module.windowTo (m : Module) (mod : Nat) : Option Nat :=
  ((List.range 16).find? fun w => (m.window w).isSome && slice (vget m.pwin w 0) 15 0 == mod).bind m.window

/-- The faults that a COLL meets before its first request (R271): es are its table's entries, n their number
where the table could be read, and `ok` its validity. -/
def State.collFaults (s : State) (q : Cmd) (ty op ds ss : BitVec 2) (n : Option Nat) (es : List GroupEntry)
    (ok : Bool) : Option Word :=
  let e := slice q.g2 31 0
  let src := sideOf q.core ss q.g0
  let dst := sideOf q.core ds q.g1
  let far := es.filter fun e => e.mod != s.mdl.modid.toNat
  let down := far.any fun e => match s.mdl.windowTo e.mod with
    | some l => !(s.mdl.linkEn l) || (s.mdl.link l).state == 0
    | none => false
  let root := slice q.g2 47 32
  let rootBad := if op == 3 then (match n with | some n => n ≤ root | none => false) else root != 0
  firstFault [(q.prot, 25, 0), (sideReserved ss q.g0, 19, q.g0), (sideReserved ds q.g1, 19, q.g1),
    (down, 21, q.g1),
    (!(src.fits 1 (collSrcBytes ty op (n.getD 1) e) 0 false), 17, q.g0),
    (!(dst.fits 1 (collDstBytes ty op (n.getD 1) e) 0 false), 17, q.g1),
    (!(src.aligned (collSize ty)), 5, q.g0), (!(dst.aligned (collSize ty)), 5, q.g1),
    (e == 0 || slice q.g2 63 48 != 0 || rootBad || !ok ||
      far.any (fun e => (s.mdl.windowTo e.mod).isNone), 23, q.g3)]

/-- The group table that a COLL names, read by requests: its head, then the entries that the head counts. -/
def State.collTable (s : State) (q : Cmd) : Gather :=
  let h := s.gather q (.glob q.g3) q.g3 16
  let n := numLE (h.bytes.take 4)
  if h.fin != .going || n = 0 || 4096 < n then h
  else
    let b := h.s.gather q (.glob (q.g3 + 16)) (q.g3 + 16) (8 * n)
    ⟨b.s, h.bytes ++ b.bytes, b.fin⟩

/-- A member joins instance k of a tag: the die's count, the instance, the command. -/
def State.collAdd (s : State) (d id : Nat) (tag : BitVec 32) (k : Nat) (me : CollMember) (dies links : List Nat) :
    State :=
  let s := s.modDie d fun z => { z with collCount := assocPut z.collCount tag.toNat k }
  let s := s.modMdl fun m => match m.coll? (tag, k) with
    | some _ => m.modColl (tag, k) fun i => { i with
        members := i.members ++ [me], dies := i.dies ++ dies, links := i.links ++ links }
    | none => { m with colls := ⟨tag, k, [me], dies, links, 0⟩ :: m.colls }
  s.modCmd d id fun q => { q with coll := some (tag, k) }

/-- A command's fault, an engine's time after it begins. -/
def State.engFail (s : State) (d id : Nat) (w : Word) : State := s.laterPick Config.engine (.engineFault d id w)

/-- The parameters that members must agree on (R267). -/
def Cmd.collKey (q : Cmd) (m : CollMember) : Nat × Word × Word × Nat × Nat :=
  match q.op with
  | .coll _ _ _ _ _ _ ty op _ _ => (m.n, m.crc, q.g2, ty.toNat, op.toNat)
  | _ => (m.n, m.crc, q.g2, 0, 0)

/-- A command's parameters agree with those of the members that have joined before it (R267). -/
def State.collAgrees (s : State) (i : CollInst) (me : CollMember) (q : Cmd) : Bool :=
  i.members.all fun m => match s.cmd? m.die m.cmd with
    | some p => p.collKey m == q.collKey me
    | none => true

/-- A member on another module may have faulted: an open choice, 0 where none has (R267; log 7). -/
def State.peerFault (s : State) (i : CollInst) : Bool × State :=
  if i.links.isEmpty then (false, s) else ((s.pick 0).1 != 0, (s.pick 0).2)

/-- Requests by which a member reads the sources of n members of E elements, at most. -/
def collReads (ty op : BitVec 2) (n e : Nat) : Nat := n * (collSrcBytes ty op n e / 128 + 3)

/-- A member has joined instance i: a fault of its own, of the instance or of a member's die ends it, and with
it every member; a disagreement ends them all, and so may a fault on another module; the last member makes the
instance meet, `reads` requests being made for it under throttle stage 2 (R266, R267, R377). -/
def State.collJoined (s : State) (d : Nat) (q : Cmd) (i : CollInst) (me : CollMember) (dies : List Nat)
    (reads : Nat) (own : Option Word) : State :=
  let group := faultWord 23 q.g3
  let member := faultWord 24 q.g3
  match own with
  | some w => (s.failInst i q.id 24).engFail d q.id w
  | none =>
    if i.fail != 0 then s.engFail d q.id (if i.fail = 23 then group else member)
    else if !(s.collAgrees i me q) then s.failInst i 0 23
    else if dies.any fun e => !(s.dieAlive e) then (s.failInst i q.id 24).engFail d q.id member
    else
      let p := s.peerFault i
      if p.1 then p.2.failInst i 0 24
      else if i.members.length == dies.length then
        p.2.laterLeast (s.engineLeast reads) Config.engine (.collInstanceMeet i.tag i.k)
      else p.2

/-- A command whose table has been read joins instance k of its tag (R266, R267). -/
def State.collEnter (s : State) (d : Nat) (q : Cmd) (ty op ds ss : BitVec 2) (table : List Byte) : State :=
  let n := numLE (table.take 4)
  let tag := BitVec.ofNat 32 (numLE ((table.drop 4).take 4))
  let ok := groupValid table n s.mdl.modid.toNat d
  let es := if ok then groupEntries table n else []
  let k := (assocGet (s.die d).collCount tag.toNat).getD 0 + 1
  let rank := ((es.find? fun e => e.mod == s.mdl.modid.toNat && e.die == d).map GroupEntry.rank).getD 0
  let dies := (es.filter fun e => e.mod == s.mdl.modid.toNat).map GroupEntry.die
  let links := es.filterMap fun e => if e.mod == s.mdl.modid.toNat then none else s.mdl.windowTo e.mod
  let me : CollMember := ⟨rank, d, q.id, n, crc64 0 table⟩
  let z := s.collAdd d q.id tag k me dies links
  match z.mdl.coll? (tag, k) with
  | some i => z.collJoined d q i me dies (collReads ty op n (slice q.g2 31 0)) (z.collFaults q ty op ds ss (if ok then some n else none) es ok)
  | none => z

/-- A COLL whose table the collective engine has read, as far as it could be: it joins its instance. A table that
cannot be read names no instance. -/
def State.collRead (s : State) (d : Nat) (q : Cmd) (ty op ds ss : BitVec 2) : State :=
  let h := (s.modCmd d q.id fun q => { q with running := true }).collTable q
  match h.fin with
  | .fault w => h.s.engFail d q.id ((h.s.collFaults q ty op ds ss none [] true).getD w)
  | .misses p => s.engMiss d q.id p
  | .going | .waits | .overflow => h.s.collEnter d q ty op ds ss h.bytes

/-- A COLL that the collective engine takes: its table is read, and it joins its instance (R266, R267); throttle
stage 2 leaves the table's requests room first (R377). -/
def State.collJoin (s : State) (d : Nat) (q : Cmd) (ty op ds ss : BitVec 2) : State :=
  let least := s.engineLeast ((s.collTable q).bytes.length / 128 + 3)
  if q.g3.toNat % 8 != 0 then
    (s.modCmd d q.id fun q => { q with running := true }).engFail d q.id
      ((s.collFaults q ty op ds ss none [] false).getD 0)
  else if least != 0 && (q.paced = 0 || s.now < q.paced) then
    let till := if q.paced = 0 then s.now + least else q.paced
    (s.modCmd d q.id fun q => { q with paced := till }).later (till - s.now) (.engineCompletion d q.id)
  else s.collRead d q ty op ds ss

/-- A COLL of a die. -/
def Cmd.isColl (q : Cmd) : Bool :=
  match q.op with
  | .coll _ _ _ _ _ _ _ _ _ _ => true
  | _ => false

/-- The collective engine of a die takes its commands in arrival order, each once its acquire is made; a
command that has joined its instance does not keep the next one waiting (R256, R266, log 77). -/
def State.collTurn (s : State) (d : Nat) (q : Cmd) : Bool :=
  s.acquired d q && (((s.die d).cmds.filter Cmd.isColl).find? fun p => !p.running).map Cmd.id == some q.id

/-- A COLL goes on: it is taken by the engine, or it completes once its instance has met and no member has
faulted. -/
def State.runColl (s : State) (d : Nat) (q : Cmd) (ty op ds ss : BitVec 2) : State :=
  match q.result, q.coll.bind s.mdl.coll? with
  | some v, some i =>
    if i.fail = 0 then
      let p := s.peerFault i
      if p.1 then p.2.failInst i 0 24 else p.2.cmdDone d q v
    else s
  | some v, none => s.cmdDone d q v
  | none, _ =>
    if q.running then s
    else if s.collTurn d q then s.collJoin d q ty op ds ss
    else s.later 1 (.engineCompletion d q.id)

/-! ## The end of a command -/

/-- A copy command goes on: its acquire is made, and its transfer follows; an RCOPY then awaits its answer. -/
def State.runCopies (s : State) (d : Nat) (q : Cmd) : State :=
  match q.result with
  | some v => s.rcopyAnswer d q v
  | none =>
    if !(s.acquired d q) then s.later 1 (.engineCompletion d q.id)
    else if s.pacing q then s.later (q.paced - s.now) (.engineCompletion d q.id)
    else
      let q := { q with waits := false }
      match q.op with
      | .copy _ _ _ _ _ _ mval mark ds ss => s.runCopy d q mval mark ds ss
      | .copym _ _ _ _ _ _ mval mark ss => s.runCopym d q mval mark ss
      | .rcopy _ _ _ _ _ _ mval mark ss => s.runRcopy d q mval mark ss
      | _ => s

/-- An engine's command goes on to its end, and its token becomes full (R257). -/
def State.engineDone (s : State) (d id : Nat) : State :=
  match s.cmd? d id with
  | none => s
  | some q =>
    match q.op with
    | .coll _ _ _ _ _ _ ty op ds ss => s.runColl d q ty op ds ss
    | _ => s.runCopies d q

def execEngineCompletion (d id : Nat) (s : State) : Step := onDie d (s.engineDone d id)

/-- An engine's command faults with a fault word (R271). -/
def execEngineFault (d id : Nat) (fw : Word) (s : State) : Step :=
  onDie d (match s.cmd? d id with
    | none => s
    | some q => (s.cmdRecords q []).cmdFault d q fw)

/-- R265. -/
def execColl (g : Guard) (acq rel : Bool) (sc : BitVec 3) (t : BitVec 5) (x : BitVec 3)
    (ty op ds ss : BitVec 2) (s : State) : Step :=
  perform (.coll g acq rel sc t x ty op ds ss)
    (fun s => if guardHolds g s.me.regs then
        let z := s.command t x (.coll g acq rel sc t x ty op ds ss)
        z.2.later 1 (.engineCompletion (dieOf s.issue.c) z.1.id)
      else s) s

/-! ## Results (R268, R269) -/

/-- An element of the tree with its overflow (R269). -/
structure Leaf where
  v : Nat
  ovf : Bool
deriving DecidableEq, Repr

/-- ADD of R91: FP32 by RNE, or an integer sum that wraps. -/
def leafAdd (ty : BitVec 2) (a b : Leaf) : Leaf :=
  if ty == 2 then ⟨(a.v + b.v) % 2 ^ 32, false⟩
  else if ty == 3 then ⟨(a.v + b.v) % 2 ^ 64, false⟩
  else
    let r := (toF32 ((f32 (BitVec.ofNat 32 a.v)).add (f32 (BitVec.ofNat 32 b.v)))).1.toNat
    let inf (x : Nat) : Bool := x % 2 ^ 31 == fp32.infCode
    ⟨r, a.ovf || b.ovf || (!(fp32.nonFinite a.v) && !(fp32.nonFinite b.v) && inf r)⟩

/-- The tree of R91: n levels. -/
def treeSum (ty : BitVec 2) : Nat → List Leaf → Leaf
  | 0, l => l.head?.getD ⟨0, false⟩
  | n + 1, l => match l with
    | _ :: _ :: _ => treeSum ty n (treeLevel (leafAdd ty) l)
    | _ => l.head?.getD ⟨0, false⟩

/-- Element i of a member's bytes, widened to FP32 if BF16. -/
def collElem (ty : BitVec 2) (l : List Byte) (i : Nat) : Nat :=
  let v := numLE ((l.drop (collSize ty * i)).take (collSize ty))
  if ty == 1 then v * 65536 else v

/-- Element i of the reduced vector, rounded to its type. With one member no sum is made, and an FP32 NaN keeps its
bits (R73, R91; DESIGN CHOICE, log 69). -/
def collReduce (ty : BitVec 2) (srcs : List (List Byte)) (i : Nat) : Leaf :=
  let z := treeSum ty 16 (srcs.map fun l => ⟨collElem ty l i, false⟩)
  if ty == 1 then ⟨(bf16.round 0 0 (f32 (BitVec.ofNat 32 z.v))).1, z.ovf⟩ else z

/-- A code of the element type is a NaN or an infinity. -/
def collNonFinite (ty : BitVec 2) (v : Nat) : Bool :=
  match ty.toNat with
  | 0 => fp32.nonFinite v
  | 1 => bf16.nonFinite v
  | _ => false

/-- The member's source holds a non-finite element. -/
def sourceBad (ty : BitVec 2) (l : List Byte) : Bool :=
  (List.range (l.length / collSize ty)).any fun i =>
    collNonFinite ty (numLE ((l.drop (collSize ty * i)).take (collSize ty)))

/-- The non-finite flag word (R269). -/
def collFlags (ty op : BitVec 2) (srcs : List (List Byte)) (red : List Leaf) : Word :=
  if 2 ≤ ty.toNat then 0xFFFFFFFF00000000
  else
    let bad := srcs.map (sourceBad ty)
    let first := (bad.zipIdx.find? fun e => e.1).map Prod.snd
    let inn := first.isSome
    let res := if 2 ≤ op.toNat then inn else red.any fun z => collNonFinite ty z.v
    let ovf := op.toNat < 2 && red.any Leaf.ovf
    BitVec.ofNat 64 (first.getD 0xFFFFFFFF * 2 ^ 32 + bit ovf * 4 + bit inn * 2 + bit res)

/-- The bytes that a member receives (R268). -/
def collResult (ty op : BitVec 2) (srcs : List (List Byte)) (red : List Leaf) (e rank root : Nat) :
    List Byte :=
  let bytes (l : List Leaf) : List Byte := l.flatMap fun z => bytesLE (collSize ty) z.v
  match op.toNat with
  | 0 => bytes red
  | 1 => bytes ((red.drop (rank * e)).take e)
  | 2 => srcs.flatten
  | _ => (srcs[root]?).getD []

/-- The write of a member's result. -/
def resultPiece (q : Cmd) (o : XferOps) (l : List Byte) : Piece := fun _ m len z =>
  z.writeAll q o.dw m ((l.drop m).take len) (o.dsts.map (Side.plus m))

/-- What a member contributes: its bytes, as far as they could be read, and what ended the read: a fault, or a
page that its command's engine has to wait for. -/
structure Contribution where
  bytes : List Byte
  bad : Option (CollMember × Word)
  miss : Option (CollMember × Nat)

/-- The contributions of ranks 0 to k - 1 (R270). -/
def State.collSources (s : State) (i : CollInst) (ss : BitVec 2) (bytes : Nat) :
    Nat → State × List Contribution
  | 0 => (s, [])
  | r + 1 =>
    let z := s.collSources i ss bytes r
    match i.members.find? fun m => m.rank == r with
    | none => (z.1, z.2 ++ [⟨(List.range bytes).map (Config.peerByte i.tag.toNat i.k r), none, none⟩])
    | some m =>
      match z.1.cmd? m.die m.cmd with
      | none => (z.1, z.2 ++ [⟨[], some (m, faultWord 24 0), none⟩])
      | some q =>
        let sp : BitVec 2 := match q.op with
          | .coll _ _ _ _ _ _ _ _ _ sp => sp
          | _ => ss
        let h := z.1.gather q (sideOf q.core sp q.g0) q.g0 bytes
        (h.s, z.2 ++ [⟨h.bytes, match h.fin with | .fault w => some (m, w) | _ => none,
          match h.fin with | .misses p => some (m, p) | _ => none⟩])

/-- The first faulting block of a collective (R271): in the order of the result for an all-gather, that of the
lowest rank; else the lowest offset, and of equal ones the lowest rank. -/
def firstBadSource (op : BitVec 2) (l : List Contribution) : Option Contribution :=
  l.foldl (fun o c =>
    match c.bad, o with
    | none, _ => o
    | some _, none => some c
    | some _, some b => if op != 2 && c.bytes.length < b.bytes.length then some c else o) none

/-- An instance's members disagree: each faults with GROUP (R267). -/
def State.collDisagree (s : State) (i : CollInst) : State := s.failInst i 0 23

/-- The write of a result, or of its first bytes. -/
def State.collWrite (s : State) (q : Cmd) (l : List Byte) : Xfer :=
  let ds : BitVec 2 := match q.op with
    | .coll _ _ _ _ _ _ _ _ ds _ => ds
    | _ => 0
  let o := xferOps q (.glob 0) [sideOf q.core ds q.g1]
  cutRow (resultPiece q o l) none o.dsts.head? l.length l.length 0 0 ⟨s, [], [], .going⟩

/-- How the last part of a collective ends: with a state, or with a page that a command's engine has to wait for,
so that it begins anew (R204). -/
inductive CollOut where
  | ends (s : State)
  | misses (d id page : Nat)

/-- The result l of a member is written, and its command ends later with the flag word (R268, R269). -/
def State.collDeliver (s : State) (d : Nat) (q : Cmd) (flags : Word) (l : List Byte) : CollOut :=
  let z := s.collWrite q l
  match z.fin with
  | .fault w => .ends (z.s.cmdFault d q w)
  | .misses p => .misses d q.id p
  | .going | .waits | .overflow =>
    .ends ((z.s.modCmd d q.id fun q => { q with result := some flags }).laterLeast
      (s.engineLeast (2 * (l.length / 128 + 3))) Config.engine (.engineCompletion d q.id))

/-- The reduced vector of elements 0 to n - 1. -/
def collReduced (ty op : BitVec 2) (srcs : List (List Byte)) (n : Nat) : List Leaf :=
  if op.toNat < 2 then (List.range n).map (collReduce ty srcs) else []

/-- The results of a collective from its members' sources, delivered to the members here (R268 to R270). -/
def State.collFinish (s : State) (qs : List (CollMember × Cmd)) (ty op : BitVec 2) (n : Nat) (g2 : Word)
    (srcs : List (List Byte)) : CollOut :=
  let e := slice g2 31 0
  let red := collReduced ty op srcs (if op == 1 then n * e else e)
  qs.foldl (fun o p => match o with
    | .ends s => s.collDeliver p.1.die p.2 (collFlags ty op srcs red)
        (collResult ty op srcs red e p.1.rank (slice p.2.g2 47 32))
    | .misses d id page => .misses d id page) (.ends s)

/-- A member's source faults: of its result, every block before the faulting one is written in full, and the
other members fault with MEMBER (R267, R271). -/
def State.collBreak (s : State) (q : Cmd) (m : CollMember) (w : Word) (ty op : BitVec 2)
    (srcs : List (List Byte)) (p : Nat) : CollOut :=
  let srcs := if op == 2 then srcs.take (m.rank + 1) else srcs.map fun l => l.take p
  let l := collResult ty op srcs (collReduced ty op srcs (p / collSize ty)) (slice q.g2 31 0) m.rank
    (slice q.g2 47 32)
  let z := s.collWrite q l
  match z.fin with
  | .fault w => .ends (z.s.cmdFault m.die q w)
  | .misses p => .misses m.die q.id p
  | .going | .waits | .overflow => .ends (z.s.cmdFault m.die q w)

/-- The members' sources read, and the results written: a page that some engine lacks makes it all begin anew
(R204, R268 to R271). -/
def State.collMove (s : State) (i : CollInst) (qs : List (CollMember × Cmd)) (ty op ss : BitVec 2) (n : Nat)
    (g2 : Word) : CollOut :=
  let z := s.collSources i ss (collSrcBytes ty op n (slice g2 31 0)) n
  let srcs := z.2.map Contribution.bytes
  match z.2.findSome? Contribution.miss with
  | some (m, p) => .misses m.die m.cmd p
  | none =>
    match (firstBadSource op z.2).map fun c => (c.bytes.length, c.bad) with
    | some (p, some (m, w)) =>
      match z.1.cmd? m.die m.cmd with
      | some q => z.1.collBreak q m w ty op srcs p
      | none => .ends z.1
    | _ => z.1.collFinish qs ty op n g2 srcs

/-- What is left of the time that throttle stage 2 asks of the members' requests (R377). -/
def State.collPacing (s : State) (qs : List (CollMember × Cmd)) : Nat :=
  qs.foldl (fun n p => if s.pacing p.2 then max n (p.2.paced - s.now) else n) 0

/-- An instance whose members have all issued: agreement, the results, and every member's completion
(R267 to R270). -/
def State.collMeet (s : State) (i : CollInst) : State :=
  let qs := i.members.filterMap fun m => (s.cmd? m.die m.cmd).map fun q => (m, q)
  match qs with
  | [] => s
  | (m0, q0) :: _ =>
    let agree := qs.length == i.members.length && (qs.all fun e => e.2.collKey e.1 == q0.collKey m0) &&
      (i.members.length == m0.n || Config.peerAgrees i.tag.toNat i.k)
    if !agree then s.collDisagree i
    else if s.collPacing qs != 0 then s.later (s.collPacing qs) (.collInstanceMeet i.tag i.k)
    else
      let f := s.peerFault i
      if f.1 then f.2.failInst i 0 24
      else match q0.op with
        | .coll _ _ _ _ _ _ ty op _ ss =>
          match f.2.collMove i qs ty op ss m0.n q0.g2 with
          | .ends s => s
          | .misses d id page => f.2.engMiss d id page
        | _ => f.2

def execCollInstanceMeet (tag : BitVec 32) (k : Nat) (s : State) : Step :=
  .next (match s.mdl.coll? (tag, k) with
    | none => s
    | some i => if i.fail != 0 then s else s.collMeet i)

/-! ## The transpose engine (R273, R274) -/

/-- The cells that an XPOSE writes back, from the scratchpad image m. -/
def xposeCells (k : Core) (m : Mem) (z dst src ds ss : Nat) : List Host.Cell :=
  (List.range 32).flatMap fun r => (List.range 32).flatMap fun c =>
    (List.range z).map fun i => (dst + c * ds + r * z + i, k.spadByte m (src + r * ss + c * z + i))

/-- The first barred byte of an XPOSE's source. -/
def xposeSrcBar (k : Core) (z src ss : Nat) : Option Nat :=
  (List.range 32).findSome? fun r => k.firstBarred (src + r * ss) (32 * z)

/-- R273: the source is read now, and the write-back follows 40 clocks later. -/
def xposeOp (g : Guard) (d a b : BitVec 5) (z : BitVec 3) (s : State) : State :=
  let r := s.me.regs
  if guardHolds g r then
    let n := 2 ^ z.toNat
    let cut (v : Nat) : Nat := v / n * n
    let dst := cut (slice (r.aVal d) 18 0)
    let src := cut (slice (r.aVal a) 18 0)
    let ss := cut (slice (r.aVal b) 15 0)
    let ds := cut (slice (r.aVal b) 31 16)
    let k := s.myCore
    let cells := xposeCells k s.issue.spad0 n dst src ds ss
    let bar := xposeSrcBar k n src ss
    let at_ := s.clk s.issue.c + 40
    let touches := if bar.isSome then [] else
      (((cells.map Prod.fst).find? fun e => k.barred e).map fun e => [e]).getD []
    let s := s.modCore s.issue.c fun k => { k with xq := k.xq ++ [⟨s.issue.x, at_, cells, touches⟩] }
    (s.touch s.issue.c s.issue.x (bar.map fun e => spadTouch e 3)).timer s.issue.c at_
      (.xposeWriteback s.issue.c)
  else s

/-- R273, R274; a full queue traps (see `trapsOf`). -/
def execXpose (g : Guard) (d a b : BitVec 5) (z : BitVec 3) (s : State) : Step :=
  perform (.xpose g d a b z) (xposeOp g d a b z) s

/-! ## TOKST (R275) -/

/-- What TOKST reads of a token. -/
def tokenState (r : Regs) (a : BitVec 5) : Word :=
  if !(r.isFull (.a a)) then 0 else if a != 0 && getBit r.aFault a.toNat then r.aVal a else 1

/-- R275; sub 1 acknowledges a fault. -/
def execTokst (g : Guard) (d a : BitVec 5) (z : BitVec 3) (s : State) : Step :=
  perform (.tokst g d a z)
    (fun s => let r := s.me.regs
      if guardHolds g r then
        let s := if z == 1 && r.isFull (.a a) then
            s.modMe fun t => { t with regs := { t.regs with aFault := putBit t.regs.aFault a.toNat false } }
          else s
        s.res 1 (.a d (tokenState r a))
      else s) s

end Sys2Proof.Machine
end

