-- ==== Sys2Proof/Machine/Protect.lean ====
section
/-!
DEFINITION. Protection and reliability: clean runs, suspicion and retirement (R341 to R343), pipeline
errors (R319, R335), release and voting (R338 to R340), a full containment buffer (R337), errors and
poison (R345 to R348), scrubbing (R349, R350), and fault injection (R351).
-/
namespace Sys2Proof.Machine

/-! ## Scores (R341, R342) -/

/-- The score of global cluster g, and that of a die. -/
def State.clusterScore (s : State) (g : Nat) : BitVec 8 := vget (s.die (g / 3)).cs (g % 3) 0

/-- Saturating sums and differences of a score. -/
def scoreAdd (v : BitVec 8) (n : Nat) : BitVec 8 := BitVec.ofNat 8 (min 255 (v.toNat + n))
def scoreDec (v : BitVec 8) : BitVec 8 := BitVec.ofNat 8 (v.toNat - 1)

/-- A clean run on die d (R341). -/
def State.cleanRun (s : State) (d : Nat) : State :=
  let ret := (s.die d).ret
  s.modDie d fun k =>
    if k.clean.toNat + 1 = 1024 then
      { k with
        clean := 0, ds := scoreDec k.ds,
        cs := Vector.ofFn fun (i : Fin 3) =>
          if getBit ret i.val then vget k.cs i.val 0 else scoreDec (vget k.cs i.val 0) }
    else { k with clean := k.clean + 1 }

/-! ## Retirement (R343) -/

/-- A cluster that is being retired. -/
def State.retiring (s : State) (g : Nat) : Bool := (s.die (g / 3)).retiring.any fun e => e == g

/-- The cores of a list of clusters. -/
def coresOf (cl : List Nat) : List Nat := cl.flatMap fun g => [4 * g, 4 * g + 1, 4 * g + 2, 4 * g + 3]

/-- Steps 1 and 2: no dispatch to the clusters' cores, and their protected runs abandoned. -/
def State.beginRetire (s : State) (cl : List Nat) : State :=
  let s := cl.foldl (fun s g => s.modDie (g / 3) fun k =>
    { k with retiring := g :: k.retiring.filter fun e => e != g }) s
  let s := (cl.map (· / 3)).eraseDups.foldl State.dropResv s
  let cores := coresOf cl
  let hit := s.mdl.runs.filter fun r => (r.places.any fun p => (cores.any fun c => c == p.1) &&
    (s.ctx p.1 p.2).protected_)
  hit.foldl (fun s r => s.abandonRun r.id false) s

/-- Clusters retired, their score passed on to step 6. -/
def State.retireClusters (s : State) (cl : List Nat) (score : Nat) : State :=
  (s.beginRetire cl).later 1 (.topologyChange cl score)

/-- R341's evaluation after a charge: `hit` is the charged cluster, none for a die's score; `score` the
charged score. -/
def State.evaluate (s : State) (hit : Option Nat) (score : Nat) : State :=
  let left := (List.range 192).filter fun g => s.clusterAlive g && !(s.retiring g)
  let doomed := left.filter fun g => 64 ≤ (s.clusterScore g).toNat || 64 ≤ (s.die (g / 3)).ds.toNat
  let suspect (s : State) (g : Nat) : State :=
    s.event 9 (g / 3) (BitVec.ofNat 32 score) (BitVec.ofNat 64 g)
  if !doomed.isEmpty && doomed.length == left.length then
    match doomed with
    | [] => s
    | g :: r => if r.isEmpty then suspect s g else (suspect s g).retireClusters r score
  else if !doomed.isEmpty then s.retireClusters doomed score
  else match left, hit with
    | [g], some h => if g == h then suspect s g else s
    | _, _ => s

/-- A charge to cluster g; a retired cluster takes none. -/
def State.chargeCluster (s : State) (g n : Nat) : State :=
  if !(s.clusterAlive g) then s
  else
    let v := scoreAdd (s.clusterScore g) n
    (s.modDie (g / 3) fun k => { k with cs := vset k.cs (g % 3) v }).evaluate (some g) v.toNat

/-- A charge to a die. -/
def State.chargeDie (s : State) (d n : Nat) : State :=
  let v := scoreAdd (s.die d).ds n
  (s.modDie d fun k => { k with ds := v }).evaluate none v.toNat

/-- Steps 3 and 4 at one core: a parked strand is spilled, a running one asked to leave. -/
def State.leaveCore (s : State) (c : Nat) : State :=
  let one (s : State) (x : Bool) : State :=
    match (s.ctx c x).status with
    | .parked => s.spillStrand c x
    | .running => s.setPreq c x
    | .free | .suspending _ _ | .ending | .faulted _ | .failing _ | .placed => s
  one (one s false) true

/-- An entry whose die can no longer hold it is placed anew (R52, R53). -/
def State.replace (s : State) (d : Nat) (e : QEntry) : State :=
  if !(s.runsOf d e.width.toNat).isEmpty then s
  else match e.kind, s.mdl.node? e.node with
    | _, none => s.unqueue d e
    | .pinned _ _ _ _, some _ => s
    | .spilled run _, some n =>
      if n.r.cls != 0 then (s.unqueue d e).abandonRun run false
      else match s.chooseDie e.mask 1 [] with
        | none => s.failNode e.node e.inst 1 d
        | some h => (s.unqueue d e).enqueue h { e with since := s.now }
    | .fresh, some n =>
      let excl := if n.r.cls == 0 then [] else match s.mdl.gang? e.gang with
        | some g => (s.triedDies g).filter fun h => h != d || g.dies.any fun k => k == d
        | none => []
      match s.chooseDie e.mask e.width.toNat excl with
      | none => s.failNode e.node e.inst (if excl.isEmpty then 1 else 2) d
      | some h => (s.unqueue d e).enqueue h { e with since := s.now }

/-- Bits of the local clusters of die d among cl. -/
def clusterBits (cl : List Nat) (d : Nat) : Nat :=
  packNat 1 ((List.range 3).map fun i => bit (cl.any fun g => g == 3 * d + i))

/-- Steps 5 and 6 (R37, R39, R52, R267). -/
def State.finishRetire (s : State) (cl : List Nat) (score : Nat) : State :=
  let dies := (List.range 64).filter fun d => clusterBits cl d != 0
  let s := dies.foldl (fun s d => s.modDie d fun k => { k with
    ret := k.ret ||| BitVec.ofNat 3 (clusterBits cl d),
    retiring := k.retiring.filter fun g => !(cl.any fun h => h == g) }) s
  let s := s.modMdl fun m => { m with gen := m.gen + 1 }
  let s := s.raiseAll 1
  let s := dies.foldl (fun s d => (s.sorted d).foldl (fun s e => s.replace d e) s) s
  let s := s.mdl.colls.foldl (fun s i =>
    if i.dies.any fun d => !(s.dieAlive d) then s.failInst i 0 24 else s) s
  dies.foldl (fun s d =>
    ((s.event 8 d (BitVec.ofNat 32 score) (BitVec.ofNat 64 (clusterBits cl d))).yewAdd d 2 0xFF
      (BitVec.ofNat 32 score) 0 (BitVec.ofNat 64 (clusterBits cl d))).later 1 (.gangDispatch d)) s

/-- R343: the clusters' cores empty, then the topology changes in one step. -/
def State.topology (s : State) (cl : List Nat) (score : Nat) : State :=
  let cl := cl.filter fun g => s.clusterAlive g
  if cl.isEmpty then s
  else
    let fresh := cl.filter fun g => !(s.retiring g)
    let s := if fresh.isEmpty then s else s.beginRetire fresh
    let s := (coresOf cl).foldl State.leaveCore s
    if (coresOf cl).all fun c => (s.core c).c0.status == .free && (s.core c).c1.status == .free then
      s.finishRetire cl score
    else s.later 1 (.topologyChange cl score)

def execTopologyChange (cl : List Nat) (score : Nat) (s : State) : Step :=
  if cl.all fun g => g < 192 then .next (s.topology cl score) else .fault .badEvent

/-! ## Pipeline errors (R319, R335) -/

/-- A pipeline error that unit `unit` of a context detects. A re-run answers it where the abandoned run's gang is
queued again: where R53 finds no die, the node has failed and takes its gangs with it. -/
def State.pipelineErr (s : State) (c : Nat) (x : Bool) (unit : BitVec 3) : State :=
  let t := s.ctx c x
  let quiet := (s.core c).nochg
  let s := s.modCore c fun k => { k with nochg := false }
  if !t.protected_ then
    let s := s.modCtx c x fun t => { t with pipeErr := some (t.pipeErr.getD unit) }
    if quiet then s else s.chargeCluster (clusterOf c) 16
  else
    let gang := (s.mdl.run? t.runOf).map Run.gang
    let s := s.abandonRun t.runOf false
    let answered := gang.any fun g => (s.mdl.gang? g).isSome
    let s := s.contextEnded c
    if quiet then s
    else
      let s := s.chargeCluster (clusterOf c) 16
      if answered then s.chargeDie (dieOf c) 8 else s

def execPipelineError (c : Nat) (x : Bool) (unit : BitVec 3) (s : State) : Step :=
  onCore c (s.pipelineErr c x unit)

/-! ## Release (R338) -/

/-- The held writes of a run, in the order in which they were made, written to their homes. -/
def State.writeHeld (s : State) (d run : Nat) : State :=
  ((s.die d).contain.filter fun h => h.run == run).foldl (fun s h => s.homeWrite h.pa h.data) s

/-- A run that passes: its bytes reach their homes, and then its gang is complete (R338, R67). -/
def State.release (s : State) (run : Nat) : State :=
  match s.mdl.run? run with
  | none => s
  | some r =>
    if !(r.ranks.all RankRec.retired) then s
    else
      let s := s.writeHeld r.die run
      let s := (s.endRun r).modMdl fun m => m.modGang r.gang fun g => { g with complete := true }
      let cls : BitVec 2 := match s.mdl.node? r.node with
        | some n => n.r.cls
        | none => 0
      let s := if cls == 1 then s.cleanRun r.die else s
      (s.gangDone r.node r.inst.toNat r.die).later 1 (.containmentLineFreed r.die)

def execContainmentRelease (run : Nat) (s : State) : Step := .next (s.release run)

/-! ## Voting (R340) -/

/-- The XOR of a run's signatures in rank order (R339). -/
def Run.signature (r : Run) : Word := r.ranks.foldl (fun z k => z ^^^ k.sig) 0

/-- The runs of a vote discarded but for one, which is released. -/
def State.elect (s : State) (r : Run) (others : List Run) : State :=
  others.foldl (fun s q => (s.endRun q).later 1 (.containmentLineFreed q.die))
    (s.later 1 (.containmentRelease r.id))

/-- Of three runs, p and q agree: p's is released, and the die of the third gains 8 (R340, R341), but for a run that
an injection with NOCHG has struck (R351). -/
def State.outvote (s : State) (p q out : Run) : State :=
  let s := ((s.elect p [q, out]).cleanRun p.die).cleanRun q.die
  if out.ranks.any RankRec.struck then s else s.chargeDie out.die 8

/-- The vote of a gang, once the runs that take part have completed. Three runs may all agree where one of them
replaces a run that was abandoned in the vote: none of them is outvoted. -/
def State.vote (s : State) (gang : Nat) : State :=
  match s.mdl.gang? gang with
  | none => s
  | some g =>
    let rs := g.votes.filterMap s.mdl.run?
    if rs.length != g.votes.length || !(rs.all fun r => r.ranks.all RankRec.retired) ||
        (List.range 64).any (fun d => (s.die d).queue.any fun e => e.gang == gang) then s
    else match rs with
      | [a, b] =>
        let p := if a.twin then b else a
        let q := if a.twin then a else b
        if p.signature == q.signature then ((s.elect p [q]).cleanRun p.die).cleanRun q.die
        else match s.mdl.node? g.node with
          | some n => s.queueGang n g false (s.triedDies g) 2 p.die
          | none => s
      | [a, b, t] =>
        let p := if a.twin then b else a
        let q := if a.twin then a else b
        if t.signature == p.signature && t.signature == q.signature then
          (((s.elect p [q, t]).cleanRun p.die).cleanRun q.die).cleanRun t.die
        else if t.signature == p.signature then s.outvote p t q
        else if t.signature == q.signature then s.outvote q t p
        else if p.signature == q.signature then s.outvote p q t
        else (((s.cleanRun p.die).cleanRun q.die).cleanRun t.die).failNode g.node g.inst 7 t.die
      | _ => s

def execDupVote (gang : Nat) (s : State) : Step := .next (s.vote gang)

/-! ## A full buffer (R337) -/

def SlotOut.isWaits : SlotOut → Bool
  | .waits => true
  | .done _ | .fault | .overflow => false

/-- The strand of a context waits for a line of its die's buffer. -/
def State.ctxWaits (s : State) (c : Nat) (x : Bool) : Bool :=
  let k := s.core c
  let t := k.ctx x
  let d := dieOf c
  let stores := k.accs.any fun y => y.x == x && y.isStore && s.mayPerform c y && s.contained t y.pa &&
    (match holdWrite (s.die d).contain
        ⟨t.runOf, t.rankOf, y.pa, bytesLE y.size y.d0.toNat, some (y.lo, y.len), false⟩ with
     | .waits => true
     | .held _ | .overflow => false)
  let jobs := (k.array ++ k.tile).any fun j => j.x == x && (match j.due with
    | some n => n ≤ s.clk c && (s.applyJob c j).isNone
    | none => false)
  let slot := match t.strand with
    | some n => (t.status == .ending && s.doneDrained c x || (match t.status with
        | .suspending _ _ => s.drained c x
        | _ => false)) &&
      (s.slotWrite d n.run n.rank (n.cls != 0) n.slot (List.replicate 64 0)).isWaits
    | none => false
  stores || jobs || slot || ((s.die d).cmds.any fun q => q.core == c && q.x == x && q.waits) ||
    (List.range 64).any fun e => (s.die e).racks.any fun q => q.core == c && q.x == x && !(s.rackTimed e q.w)

/-- Waiting writes go on where a line is free; where every run that holds lines waits, the run dispatched
last is abandoned for the same die. -/
def State.lineFreed (s : State) (d : Nat) : State :=
  let s := ((s.settleDie d).racksAgain).endedCores d
  let holders := (holdersOf (s.die d).contain).filterMap s.mdl.run?
  let waiting (r : Run) : Bool := r.places.any fun p => s.ctxWaits p.1 p.2
  if 524288 ≤ totalLines (s.die d).contain && !holders.isEmpty && holders.all waiting then
    match (holders.map Run.id).max? with
    | some id => (s.abandonRun id true).later 1 (.containmentLineFreed d)
    | none => s
  else s

def execContainmentLineFreed (d : Nat) (s : State) : Step := onDie d (s.lineFreed d)

/-! ## Errors (R345 to R348) -/

/-- An entry's strand ends with STRAND_FAULT and its entries are freed (R323, R348, R363). -/
def State.killEntry (s : State) (e : RingEntry) : State :=
  let s := { s with dies := s.dies.map fun (k : Die) => { k with
    ring := k.ring.filter fun f => !(f.run == e.run && f.rank == e.rank) } }
  ((List.range 64).foldl (fun s d => s.later 1 (.retryRingAdmit d)) s).endStrand e 6

/-- R363: RRKILL. -/
def State.rrkill (s : State) (w : Word) : State :=
  match s.entryOf w with
  | none => s
  | some e => s.killEntry e

def execRrkillWrite (d : Nat) (w : Word) (s : State) : Step := onDie d (s.rrkill w)

/-- 32-byte units from p on, poisoned (R348). -/
def State.poisonUnits (s : State) (p n : Nat) : State :=
  s.modMdl fun m => { m with poison := (m.poison ++ (List.range n).map (p / 32 + ·)).eraseDups }

/-- Whether line n of 256 bytes of a store holds a byte of a plan entry. -/
def PlanRec.onLine (p : PlanRec) (n : Nat) : Bool := p.off < 256 * n + 256 && 256 * n < p.off + p.size

/-- The strand of a context of the core, one that f holds of, context 0 first. -/
def Core.ownerBy (k : Core) (f : Ctx → Bool) : Option Bool :=
  if k.c0.strand.isSome && f k.c0 then some false
  else if k.c1.strand.isSome && f k.c1 then some true
  else none

/-- The context whose tag a scratchpad line, a row of the accumulator store (a line of 256 bytes), and a byte of
the instruction store carry: the one whose plan they belong to, and the one whose image the half holds (R348,
log 79). -/
def Core.spadOwner (k : Core) (off : Nat) : Option Bool :=
  k.ownerBy fun t => t.plan.any fun p => p.kind == 0 && p.onLine (off / 256)

def Core.accOwner (k : Core) (off : Nat) : Option Bool :=
  k.ownerBy fun t => t.plan.any fun p => p.kind == 1 && p.off ≤ off / 16384 && off / 16384 < p.off + p.size

def Core.istoreOwner (k : Core) (off : Nat) : Option Bool := k.ownerBy fun t => t.half == (131072 ≤ off)

/-- A context's strand ends with STRAND_FAULT. -/
def State.ueStrand (s : State) (c : Nat) (x : Bool) : State := (s.strandFault c x 0).contextEnded c

/-- The answer to an uncorrectable error by the owner tag of its line (R348); of a Yew record, entry i before
the error's own entry. -/
def State.answerUe (s : State) : ErrPlace → State
  | .register c x _ => s.ueStrand c x
  | .spad c off =>
    match (s.core c).spadOwner off with
    | some x => s.ueStrand c x
    | none => s.modCore c fun k => { k with spadPoison := (off / 32 :: k.spadPoison).eraseDups }
  | .accum c off =>
    match (s.core c).accOwner off with
    | some x => s.ueStrand c x
    | none => s.modCore c fun k => { k with accPoison := (off / 32 :: k.accPoison).eraseDups }
  | .istore c off =>
    match (s.core c).istoreOwner off with
    | some x => s.ueStrand c x
    | none => s
  | .containment d line _ =>
    let runs := (holdersOf (s.die d).contain).filter fun r =>
      (linesOf (s.die d).contain r).any fun l => l == line
    (runs.foldl (fun s r => s.abandonRun r false) s).chargeDie d 8
  | .ring d slot _ =>
    match (s.die d).ring.find? fun q => q.idx % 1024 == slot with
    | some q => s.killEntry q
    | none => s
  | .yew d i _ => s.modDie d fun k => { k with yew := k.yew.eraseIdx (i + 1) }
  | .memory pa => if (s.site pa).open_ then s.poisonUnits pa 1 else s
  | .unit _ _ _ _ | .hostPort _ => s

/-- The place of an error: what it strikes at die d, at an offset, a register number or an address (for the host
port, with the status word of Advanced Error Reporting); `u` is the UNITID of a unit that is no memory of R348.
A local core that does not exist gives a core that does not. -/
def placeOf (d : Nat) (u : BitVec 8) (p : ErrKind) (addr : Word) : ErrPlace :=
  let core (c : Nat) : Nat := if c < 12 then 12 * d + c else 768
  match p with
  | .register c x => .register (core c) x addr.toNat
  | .spad c => .spad (core c) addr.toNat
  | .accum c => .accum (core c) addr.toNat
  | .istore c => .istore (core c) addr.toNat
  | .containment line => .containment d line addr.toNat
  | .ring slot => .ring d slot addr.toNat
  | .yew idx => .yew d idx addr.toNat
  | .memory => .memory addr.toNat
  | .unit c => .unit d c u addr.toNat
  | .hostPort => .hostPort addr

/-- The place names a core or die of the module. -/
def placeOkay : ErrPlace → Bool
  | .register c _ _ | .spad c _ | .accum c _ | .istore c _ => c < 768
  | .containment d _ _ | .ring d _ _ | .yew d _ _ => d < 64
  | .unit d c _ _ => d < 64 && c < 12
  | .memory _ | .hostPort _ => true

/-- The byte of its stack that a physical address of HBM names (R198, R199). -/
def stackOffset (ilv : BitVec 7) (p : Nat) : Nat :=
  if p < 32 * (ilv.toNat * 2 ^ 30) then stackByte p else p % 2 ^ 41 + ilv.toNat * 2 ^ 30

/-- The bank that records an error of a place: its die, local core and unit (R345, R346, log 47). -/
def State.placeBank (s : State) : ErrPlace → Nat × Nat × BitVec 8
  | .register c _ _ => (dieOf c, localOf c, 0x07)
  | .spad c _ => (dieOf c, localOf c, 0x06)
  | .accum c _ => (dieOf c, localOf c, 0x05)
  | .istore c _ => (dieOf c, localOf c, 0x08)
  | .containment d _ _ => (d, 0, 0x11)
  | .ring d _ _ | .yew d _ _ => (d, 0, 0x12)
  | .memory pa =>
    match s.site pa with
    | .hbm k => (stackDie k, 0, BitVec.ofNat 8 (0x80 + stackOffset s.mdl.ilv pa / 256 % 80))
    | .vault c _ => (dieOf c, 0, 0x10)
    | .aperture _ | .register _ _ | .nowhere => (0, 0, 0x10)
  | .unit d c u _ => (d, c, u)
  | .hostPort _ => (0, 0, 0x18)

/-- EBADDR of an error of a place (R345, R346). -/
def placeLoc : ErrPlace → Word
  | .register _ _ n => BitVec.ofNat 64 n
  | .spad _ o | .accum _ o | .istore _ o => BitVec.ofNat 64 o
  | .containment _ _ pa | .ring _ _ pa | .yew _ _ pa | .memory pa => BitVec.ofNat 64 pa
  | .unit _ _ _ loc => BitVec.ofNat 64 loc
  | .hostPort status => status

/-- SYND of an error of a place: of the host port it says which of Advanced Error Reporting's status words the
bank holds (R346). -/
def placeSynd (ue : Bool) (synd : BitVec 16) : ErrPlace → BitVec 16
  | .hostPort _ => if ue then 0x0011 else 0x0010
  | .register _ _ _ | .spad _ _ | .accum _ _ | .istore _ _ | .containment _ _ _ | .ring _ _ _ | .yew _ _ _
  | .memory _ | .unit _ _ _ _ => synd

/-- An uncorrectable error recorded, and answered (R347, R348). -/
def State.ueAt (s : State) (p : ErrPlace) (synd : BitVec 16) : State :=
  let b := s.placeBank p
  (s.recordUe b.1 b.2.1 b.2.2 (placeSynd true synd p) (placeLoc p)).answerUe p

def execUncorrectableError (d : Nat) (u : BitVec 8) (p : ErrKind) (synd : BitVec 16) (addr : Word) (s : State) :
    Step :=
  let q := placeOf d u p addr
  if placeOkay q then .next (s.ueAt q synd) else .fault .badEvent

/-- A corrected error recorded (R347). -/
def State.ceAt (s : State) (p : ErrPlace) (synd : BitVec 16) : State :=
  let b := s.placeBank p
  s.bankAdd b.1 b.2.1 b.2.2 false (placeSynd false synd p) (placeLoc p)

def execCorrectableError (d : Nat) (u : BitVec 8) (p : ErrKind) (synd : BitVec 16) (addr : Word) (s : State) :
    Step :=
  let q := placeOf d u p addr
  if placeOkay q then .next (s.ceAt q synd) else .fault .badEvent

/-- R345: VALID written with 1 clears the bank. -/
def State.bankClear (s : State) (d c : Nat) (u : BitVec 8) : State :=
  if u.toNat < 0x10 then
    s.modCore (12 * d + c) fun k => { k with banks := k.banks.filter fun b => b.unit != u }
  else s.modDie d fun k => { k with banks := k.banks.filter fun b => b.unit != u }

def execEbstatClear (d c : Nat) (u : BitVec 8) (s : State) : Step :=
  if d < 64 && c < 12 then .next (s.bankClear d c u) else .fault .badEvent

/-! ## Scrubbing (R349, R350) -/

/-- The physical address of byte b of a stack (R198 to R200). -/
def stackAddr (ilv : BitVec 7) (stack b : Nat) : Nat :=
  if b < ilv.toNat * 2 ^ 30 then
    let hi := b / 4096 * 2 ^ 17
    hi + (stack ^^^ stackOf hi) * 4096 + b % 4096
  else 0x400000000000 + stack * 2 ^ 41 + (b - ilv.toNat * 2 ^ 30)

/-- A patrol engine's read of a 256-byte line: an uncorrectable one, `bad` being its syndrome, is poisoned and
recorded (R345, R349). The write-back of a corrected line changes no byte. -/
def State.patrolLine (s : State) (stack line : Nat) (bad : Option (BitVec 16)) : State :=
  let d := stackDie stack
  match bad with
  | none => s
  | some synd =>
    if (s.die d).patrol = 0 || 1 ≤ s.mdl.pStage.toNat then s
    else
      let p := stackAddr s.mdl.ilv stack (256 * line)
      (s.recordUe d 0 (BitVec.ofNat 8 (0x80 + line % 80)) synd (BitVec.ofNat 64 p)).poisonUnits p 8

def execPatrolScrub (stack line : Nat) (bad : Option (BitVec 16)) (s : State) : Step :=
  if stack < 32 && line < 2 ^ 28 then .next (s.patrolLine stack line bad) else .fault .badEvent

/-- The background scrubber meets a word: an uncorrectable one is answered by R348. The write-back of a
corrected word changes no byte. Under throttle stage 1 the scrubber stands still (R377). -/
def execSramScrub (d : Nat) (u : BitVec 8) (p : ErrKind) (e : ScrubRead) (s : State) : Step :=
  let q := placeOf d u p e.addr
  if placeOkay q then
    .next (if 1 ≤ s.mdl.pStage.toNat then s else if e.bad then s.ueAt q e.synd else s)
  else .fault .badEvent

/-! ## Fault injection (R351) -/

/-- ERRINJ as a write leaves it. -/
def errinjVal (v : Word) : Word :=
  let v := v &&& 0x0000FFFF000000FF
  let tgt := slice v 45 44
  if 2 ≤ tgt || (if tgt = 1 then 18 else 32) ≤ slice v 7 0 then putBit v 47 false else v

def State.setErrinj (s : State) (c : Nat) (v : Word) : State :=
  if getBit s.mdl.featAccept0 4 then s.modCore c fun k => { k with errinj := errinjVal v } else s

def execErrinjWrite (c : Nat) (v : Word) (s : State) : Step := onCore c (s.setErrinj c v)

end Sys2Proof.Machine
end

