-- ==== Sys2Proof/Machine/Links.lean ====
section
/-!
DEFINITION. Bramble links: flits (R367), exactly-once delivery and replay (R368), lane failures and training
(R369), the link's counters (R370), and writes that arrive through a peer window (R372).
-/
namespace Sys2Proof.Machine

/-- The die of a link (R367). -/
def linkDie (l : Nat) : Nat := if l < 8 then 2 * l else 48 + 2 * (l - 8)

/-- An event of link l. -/
def onLink (l : Nat) (s' : State) : Step := if l < 16 then .next s' else .fault .badEvent

/-! ## The receiver (R367, R368) -/

def execFlitTransmit (l : Nat) (ty : BitVec 4) (stream : BitVec 20) (payload : List Byte) (s : State) :
    Step :=
  onLink l (s.transmit l ty stream payload)

/-- a is at or before b, modulo 2^16. -/
def seqLe (a b : BitVec 16) : Bool := (b - a).toNat < 2 ^ 15

/-- An acknowledgement: the flits that it covers are held no more. -/
def Link.ackBy (k : Link) (a : BitVec 16) (now : Nat) : Link :=
  if a == k.acked || !(seqLe k.acked a) then k
  else { k with acked := a, ackAt := now, replay := k.replay.filter fun f => !(seqLe f.seq a) }

/-- Every held flit sent again in master clock t, with the acknowledgement of now (R368). -/
def Link.startReplay (k : Link) (t : Nat) : Link :=
  { k with wire := k.wire ++ k.replay.map fun f => flitBytes { f with ack := k.rxSeq },
           replays := k.replays.add t }

/-- A replay, with the time-out of 2 µs afresh. -/
def State.replayNow (s : State) (l : Nat) : State :=
  (s.modLink l fun k => { k.startReplay s.now with ackAt := s.now }).later Config.replay (.replayTimeout l)

/-- A flit that is sequenced and intact. -/
def State.sequencedIn (s : State) (l : Nat) (f : Flit) : State :=
  let k := s.mdl.link l
  if f.seq == k.rxSeq + 1 then
    let s := s.modLink l fun k => { k with rxSeq := f.seq }
    if f.ty == 4 then s.modLink l fun k => k.startReplay s.now
    else s.modLink l fun k => { k with delivered := k.delivered ++ [(f.stream, f.payload.take f.len.toNat)] }
  else if seqLe f.seq k.rxSeq then s
  else s.transmit l 4 0 []

/-- An arriving flit (R368): one with a CRC error is counted, recorded (R370, R346) and answered by a replay
request; one of a TYPE from 5 on is discarded; what an acknowledgement makes room for goes out. -/
def State.flitIn (s : State) (l : Nat) (raw : List Byte) : State :=
  if !(s.mdl.linkUp l) then s
  else match flitOf raw with
    | none =>
      ((s.modLink l fun k => { k with crcErr := k.crcErr.add s.now }).bankAdd (linkDie l) 0 0x18 false
        (BitVec.ofNat 16 (0x100 + l)) ((flitSeq raw).setWidth 64)).transmit l 4 0 []
    | some f =>
      if 4 < f.ty.toNat then s
      else
        let s := (s.modLink l fun k => k.ackBy f.ack s.now).linkPump l
        if sequenced f.ty then s.sequencedIn l f else s

/-- The flit arrives as its bytes 0 to 251 and its CRC. -/
def execFlitReceive (l : Nat) (body : List Byte) (crc : BitVec 32) (s : State) : Step :=
  onLink l (s.flitIn l (body ++ bytesLE 4 crc.toNat))

/-- R368: 2 µs without an advance of ACK. -/
def State.replayDue (s : State) (l : Nat) : State :=
  let k := s.mdl.link l
  if k.replay.isEmpty || !(s.mdl.linkUp l) then s
  else if k.ackAt + Config.replay ≤ s.now then
    s.replayNow l
  else s.later (k.ackAt + Config.replay - s.now) (.replayTimeout l)

def execReplayTimeout (l : Nat) (s : State) : Step := onLink l (s.replayDue l)

/-! ## Lanes (R369) -/

/-- What a lost RCOPY reports: LINK, with the destination word of its first block that the far side has not
acknowledged, once requests have begun; the fault of its source where all those before it are acknowledged (R271). -/
def State.lostFault (s : State) (l : Nat) (q : Cmd) : Word :=
  match q.result.bind fun _ => firstUnacked q.writes ((s.mdl.link l).unacked q.stream) with
  | some off => faultWord 21 (blockWord q off)
  | none => q.late.getD (faultWord 21 q.g1)

/-- The commands in flight over a link that is down fault with LINK. -/
def State.linkLost (s : State) (l : Nat) : State :=
  let s := (List.range 64).foldl (fun s d => (s.die d).cmds.foldl (fun s q =>
    match q.op with
    | .rcopy _ _ _ _ _ _ _ _ _ =>
      if q.running && s.mdl.window (slice q.g1 45 42) == some l then
        s.later 1 (.engineFault d q.id (s.lostFault l q))
      else s
    | _ => s) s) s
  s.mdl.colls.foldl (fun s i => if i.links.any fun k => k == l then s.failInst i 0 21 else s) s

/-- The training of a link, within the 100 µs of R369. -/
def State.train (s : State) (l : Nat) : State :=
  let r := s.pick Config.training
  r.2.later (min 240000 (max 1 r.1)) (.linkTrainingComplete l)

/-- A link whose halves both hold a failed lane is down: it is recorded, LINK_DOWN is raised, and what is in flight
over it faults (R369, R346). -/
def State.linkDown (s : State) (l : Nat) : State :=
  let d := linkDie l
  let mask : Word := (s.mdl.link l).failed.setWidth 64
  let s := (s.modLink l fun k => { k with state := 0 }).yewAdd d 6 0xFF (BitVec.ofNat 32 l) mask 0
  ((s.recordUe d 0 0x18 (BitVec.ofNat 16 (0x300 + l)) mask).event 14 d (BitVec.ofNat 32 l) mask).linkLost l

/-- A lane fails: the link retrains on a half without failed lanes, or is down. -/
def State.laneFails (s : State) (l lane : Nat) : State :=
  let k := s.mdl.link l
  if getBit k.failed lane || !(s.mdl.linkEn l) then
    s.modLink l fun k => { k with failed := putBit k.failed lane true }
  else
    let failed := putBit k.failed lane true
    let down := slice failed 7 0 != 0 && slice failed 15 8 != 0
    let d := linkDie l
    let mask : Word := failed.setWidth 64
    let s := s.modLink l fun k => { k with failed := failed }
    if down then s.linkDown l
    else
      let s := (s.modLink l fun k => { k with state := 1 }).yewAdd d 6 0xFF (BitVec.ofNat 32 l) mask 0
      ((s.bankAdd d 0 0x18 false (BitVec.ofNat 16 (0x200 + l)) mask).event 13 d (BitVec.ofNat 32 l)
        mask).train l

/-- The blocks of the last millisecond, with those that arrive now. -/
def fecNow (log : List (Nat × Nat × Nat)) (lane t uncorr : Nat) : List (Nat × Nat × Nat) :=
  (lane, t, uncorr) :: log.filter fun e => t < e.2.1 + 2400000

/-- Uncorrectable blocks of a lane. -/
def fecOf (log : List (Nat × Nat × Nat)) (lane : Nat) : Nat :=
  ((log.filter fun e => e.1 == lane).map fun e => e.2.2).sum

/-- What the receiver sees of a lane: FEC blocks are counted (R370); more than 16 uncorrectable ones within 1 ms,
or a lost lock, are a failure of the lane (R369). -/
def State.laneSign (s : State) (l : Nat) : LaneSign → State
  | .lockLost lane => s.laneFails l lane
  | .fec lane corr uncorr =>
    let s := s.modLink l fun k => { k with
      corr := k.corr.addN s.now corr, uncorr := k.uncorr.addN s.now uncorr,
      fecLog := if uncorr = 0 then k.fecLog else fecNow k.fecLog lane s.now uncorr }
    if uncorr != 0 && 16 < fecOf (s.mdl.link l).fecLog lane then s.laneFails l lane else s

def execLaneFailure (l : Nat) (e : LaneSign) (s : State) : Step :=
  if e.lane < 16 then onLink l (s.laneSign l e) else .fault .badEvent

/-- Training ends on all lanes, or on the half that holds no failed lane, and transmission resumes with a
replay from ACK + 1; where both halves hold a failed lane, the link is down. -/
def State.trained (s : State) (l : Nat) : State :=
  let k := s.mdl.link l
  if !(s.mdl.linkEn l) || 2 ≤ k.state.toNat then s
  else
    let lo := slice k.failed 7 0 == 0
    let hi := slice k.failed 15 8 == 0
    let st : BitVec 3 := if lo && hi then 2 else if lo then 3 else 4
    if !lo && !hi then s.linkDown l
    else
      let s := s.modLink l fun k => { k with state := st }
      (if k.replay.isEmpty then s else s.replayNow l).linkPump l

def execLinkTrainingComplete (l : Nat) (s : State) : Step := onLink l (s.trained l)

/-- RETRAIN (R369, R370): `locked` are the lanes that hold lock; the sequence state is kept. -/
def State.retrain (s : State) (l : Nat) (locked : BitVec 16) : State :=
  if !(s.mdl.linkEn l) then s
  else (s.modLink l fun k => { k with failed := ~~~locked, state := 1 }).train l

def execLctlRetrain (l : Nat) (locked : BitVec 16) (s : State) : Step := onLink l (s.retrain l locked)

/-! ## Counters that a read clears (R370) -/

/-- What a host read returns. -/
def State.respond (s : State) (l : List Byte) : State :=
  s.modMdl fun m => { m with resp := ⟨l, false⟩ }

/-- The part of a register that a host read takes (R360). -/
def takesLow (p : Part) : Bool := p != .high
def takesHigh (p : Part) : Bool := p != .low

/-- The part that a host read takes of a register that the read clears or latches: an open choice, all of it
(choice 0), the low half (1), or the high half (R6, R360; log 7). -/
def State.readPart (s : State) : Part × State :=
  let p := s.pick 0
  (match p.1 with
   | 0 => .both
   | 1 => .low
   | _ => .high, p.2)

/-- Its bytes, from the register's two halves. -/
def partBytes (p : Part) (lo hi : Nat) : List Byte :=
  (if takesLow p then bytesLE 4 lo else []) ++ (if takesHigh p then bytesLE 4 hi else [])

/-- A read of LCNT: the fields read are cleared (R6, R370). -/
def State.readLcnt (s : State) (l : Nat) (p : Part) : State :=
  let k := s.mdl.link l
  (s.respond (partBytes p (k.replays.value s.now).toNat (k.crcErr.value s.now).toNat)).modLink l fun k =>
    { k with replays := if takesLow p then k.replays.cleared s.now else k.replays,
             crcErr := if takesHigh p then k.crcErr.cleared s.now else k.crcErr }

def execLcntRead (l : Nat) (s : State) : Step := onLink l (s.readPart.2.readLcnt l s.readPart.1)

/-- A read of FECCNT: the fields read are cleared (R6, R370). -/
def State.readFeccnt (s : State) (l : Nat) (p : Part) : State :=
  let k := s.mdl.link l
  (s.respond (partBytes p (k.corr.value s.now).toNat (k.uncorr.value s.now).toNat)).modLink l fun k =>
    { k with corr := if takesLow p then k.corr.cleared s.now else k.corr,
             uncorr := if takesHigh p then k.uncorr.cleared s.now else k.uncorr }

def execFeccntRead (l : Nat) (s : State) : Step := onLink l (s.readPart.2.readFeccnt l s.readPart.1)

/-! ## Writes from a peer module (R372) -/

/-- Bytes of an inbound write from window offset off on: each is translated with W required, and the first
that is beyond INLIM or faults ends the write. The flag says whether all were made. -/
def State.inboundBytes (s : State) (k : Link) (off : Nat) : List Byte → Bool × State
  | [] => (true, s)
  | b :: r =>
    if k.inLim.toNat ≤ off then (false, s)
    else match s.xlate (k.inBase.setWidth 64 <<< 16 + BitVec.ofNat 64 off) needWrite with
      | .error _ => (false, s)
      | .ok (p, _) => (s.physWrite p [b]).inboundBytes k (off + 1) r

/-- The answer that a link returns for a command: whether all its writes were made. -/
def State.answerPeer (s : State) (l : Nat) (cmd : BitVec 20) (ok : Bool) : State :=
  s.modLink l fun k => { k with answers := k.answers ++ [(cmd, ok)] }

/-- A write of a peer's command: the first that is refused answers the command with REMOTE, and what follows of
it is not made; `last` ends the command. -/
def State.inbound (s : State) (l : Nat) (cmd : BitVec 20) (off : Nat) (data : List Byte) (last : Bool) : State :=
  let k := s.mdl.link l
  let forget (s : State) : State :=
    s.modLink l fun k => { k with refused := k.refused.filter fun c => c != cmd }
  if k.refused.any fun c => c == cmd then (if last then forget s else s)
  else
    let z := if k.inEn then s.inboundBytes k off data else (false, s)
    if !z.1 then
      let s := z.2.answerPeer l cmd false
      if last then s else s.modLink l fun k => { k with refused := cmd :: k.refused }
    else if last then z.2.answerPeer l cmd true
    else z.2

def execInboundWrite (l : Nat) (w : InWrite) (data : List Byte) (s : State) : Step :=
  onLink l (s.inbound l w.cmd w.off data w.last)

end Sys2Proof.Machine
end

