-- ==== Sys2Proof/Machine/Power.lean ====
section
/-!
DEFINITION. Power, start-up and housekeeping: clock patterns (R373), energy balances and grants (R374),
power steps and throttling (R375 to R377), derating (R378), the energy counter (R379), power failure
(R380), and start-up (R381 to R383).
-/
namespace Sys2Proof.Machine

/-! ## Clock patterns (R373, R377) -/

/-- A cluster's effective pattern: 0 acts as 1. -/
def effectivePattern (p m5 m6 : Nat) : Nat :=
  let e := p &&& m5 &&& m6
  if e = 0 then 1 else e

/-- The stage-5 mask of the level in force, and whether stages 5 and 6 hold on a die. -/
def State.stageMask (s : State) : Nat := slice (vget s.mdl.plim s.mdl.pLvl.toNat 0) 31 16

def State.effPattern (s : State) (d : Nat) : BitVec 48 :=
  let k := s.die d
  let low := k.derated && k.overLim
  let m5 := if 5 ≤ s.mdl.pStage.toNat || low then s.stageMask else 0xFFFF
  let m6 := if 6 ≤ s.mdl.pStage.toNat || low then 0x5555 else 0xFFFF
  let e (i : Nat) : Nat := effectivePattern (slice k.pat (16 * i + 15) (16 * i)) m5 m6
  BitVec.ofNat 48 (e 0 + e 1 * 2 ^ 16 + e 2 * 2 ^ 32)

/-- Whether master clock t is a core clock of local cluster i under a pattern. -/
def patBit (p : BitVec 48) (i t : Nat) : Bool := getBit p (16 * i + t % 16)

/-- A new pattern takes effect at a master clock that is a multiple of 16. -/
def State.clkpat (s : State) (d : Nat) : State :=
  if s.now % 16 = 0 then s.modDie d fun k => { k with effPat := s.effPattern d }
  else s.later (16 - s.now % 16) (.clkpatUpdate d)

def execClkpatUpdate (d : Nat) (s : State) : Step := onDie d (s.clkpat d)

/-- The next boundary at which a change takes effect: strictly later than the change's own clock. -/
def State.repattern (s : State) (d : Nat) : State := s.later (16 - s.now % 16) (.clkpatUpdate d)

def State.repatternAll (s : State) : State := (List.range 64).foldl State.repattern s

/-! ## Balances (R374) -/

/-- A GRANT of 0 acts as 1. -/
def Core.grantOf (k : Core) : Nat := max 1 k.grant.toNat

/-- A refill: the balance gains GRANT, up to 4 × GRANT; a balance above that stands. -/
def Core.refill (k : Core) : Core :=
  { k with balance := max k.balance (min (k.balance + (k.grantOf : Int)) (4 * (k.grantOf : Int))) }

def execEnergyRefill (s : State) : Step := .next { s with cores := s.cores.map Core.refill }

/-- The power controller's new GRANT; 0xFFFF_FFFF while stage 3 is not in force. 600,000 master clocks after the
last command or change of stage every GRANT holds the value that the level requires, and changes no more
(R376, log 80). -/
def State.setGrant (s : State) (c : Nat) (v : BitVec 32) : State :=
  if s.mdl.pStage.toNat < 3 then s.modCore c fun k => { k with grant := BitVec.allOnes 32 }
  else if s.now ≤ max s.mdl.pAt s.mdl.pStageAt + 600000 then s.modCore c fun k => { k with grant := v }
  else s

def execGrantUpdate (c : Nat) (v : BitVec 32) (s : State) : Step := onCore c (s.setGrant c v)

/-! ## Power steps (R375 to R377) -/

/-- The target of a level in W: a limit below 1,400 acts as 1,400 (R375). -/
def Module.target (m : Module) (lvl : BitVec 4) : Nat := max 1400 (slice (vget m.plim lvl.toNat 0) 15 0)

/-- PSTEP written: of two commands in one master clock the higher level wins. The level is in force at once, and
module power is not known to be at or below a lower target before the controller has measured it. -/
def State.pstepSet (s : State) (lvl : BitVec 4) : State :=
  let old := s.mdl.pLvl
  let new := if s.mdl.pAt = s.now && lvl.toNat < s.mdl.pstep.toNat then s.mdl.pstep else lvl
  let s := s.modMdl fun m => { m with
    pstep := new, pAt := s.now, pLvl := new, pSettled := m.pSettled && m.target old ≤ m.target new }
  if new == old then s
  else ((List.range 64).foldl (fun s d => s.yewAdd d 7 0xFF (new.setWidth 32) 0 0) s).repatternAll

def execPstepWrite (lvl : BitVec 4) (s : State) : Step := .next (s.pstepSet lvl)

/-- The stage after an estimate of module power in W: one stage more while it exceeds the target, one less while
there is headroom of 5 % at least. -/
def nextStage (stage : BitVec 3) (watts target : Nat) : BitVec 3 :=
  if target < watts then (if stage.toNat < 6 then stage + 1 else 6)
  else if 100 * watts ≤ 95 * target && stage != 0 then stage - 1
  else stage

/-- EVT.THROTTLE set in every context. -/
def State.throttle (s : State) : State := s.raiseAll 2

/-- Requests that a command which an engine has taken may still have to make, at most. -/
def State.requestsLeft (s : State) (q : Cmd) : Nat :=
  match q.op, q.coll.bind s.mdl.coll? with
  | .coll _ _ _ _ _ _ ty op _ _, some i =>
    collReads ty op (((i.members.find? fun m => m.cmd == q.id).map CollMember.n).getD 0) (slice q.g2 31 0)
  | _, _ => q.requests

/-- Stage 2 comes into force: the commands that run are given room for all their requests (R377). -/
def State.paceRunning (s : State) : State :=
  { s with dies := s.dies.map fun (k : Die) => { k with cmds := k.cmds.map fun q =>
      if q.running && q.result.isNone then { q with paced := s.now + 4 * s.requestsLeft q } else q } }

/-- A stage taken into force or released: EVT.THROTTLE, the pace of the engines, the grants where stage 3 is not in
force any more, and the patterns (R377). -/
def State.setStage (s : State) (stage : BitVec 3) : State :=
  let s := if s.mdl.pStage.toNat < 2 && 2 ≤ stage.toNat then s.paceRunning else s
  let s := (s.modMdl fun m => { m with pStage := stage, pStageAt := s.now }).throttle
  let s := if stage.toNat < 3 then
      { s with cores := s.cores.map fun (k : Core) => { k with grant := BitVec.allOnes 32 } } else s
  s.repatternAll

/-- The current of a derated die against its limit (R378). -/
def State.draw (s : State) (d a : Nat) : State :=
  let o := (s.die d).railLim.toNat < a
  if !(s.die d).derated || (s.die d).overLim == o then s
  else (s.modDie d fun k => { k with overLim := o }).repattern d

/-- The power controller's estimate of module power, its average over 100 µs, and the currents of dies (R375 to
R378). -/
def State.estimate (s : State) (watts avg : Nat) (draws : List (Nat × Nat)) : State :=
  let m := s.mdl
  let stage := nextStage m.pStage watts (m.target m.pLvl)
  let s := s.modMdl fun m => { m with pSettled := avg ≤ m.target m.pLvl, pEstAt := s.now }
  let s := if stage == m.pStage then s else s.setStage stage
  draws.foldl (fun s p => s.draw p.1 p.2) s

/-- The controller makes an estimate every 10 µs, and does not look at figures that come sooner (R377, log 51). -/
def State.estimateDue (s : State) (w : Watts) (draws : List (Nat × Nat)) : State :=
  if s.now < s.mdl.pEstAt + Config.estimate then s else s.estimate w.now w.avg draws

def execPowerEstimate (w : Watts) (draws : List (Nat × Nat)) (s : State) : Step :=
  .next (s.estimateDue w draws)

/-! ## Derating (R378) -/

/-- A regulator phase is lost: RAILLIM falls, and stages 5 and 6 hold on the die while its draw would exceed
the limit. -/
def State.phaseLoss (s : State) (d : Nat) (phases : BitVec 8) (limit : BitVec 16) (draw : Nat) : State :=
  let s := s.modDie d fun k => { k with
    phases := phases, railLim := limit, derated := true, overLim := limit.toNat < draw }
  ((s.event 12 d (limit.setWidth 32) 0).yewAdd d 5 0xFF (limit.setWidth 32) 0 0).repattern d

def execRegulatorPhaseLoss (d : Nat) (phases : BitVec 8) (limit : BitVec 16) (draw : Nat) (s : State) :
    Step :=
  onDie d (s.phaseLoss d phases limit draw)

/-! ## The energy counter (R379) -/

/-- The count after uj more in master clock t; at 2^64 - 1 it stops and SAT is set. What stood before the clock
is kept for its reads. -/
def Die.count (k : Die) (t uj : Nat) : Die :=
  let k := { k with energyWas := (t, k.energyAt t, k.satAt t) }
  if 2 ^ 64 - 1 ≤ k.energy.toNat + uj then { k with energy := BitVec.allOnes 64, energySat := true }
  else { k with energy := k.energy + BitVec.ofNat 64 uj }

def execEnergyCount (d uj : Nat) (s : State) : Step := onDie d (s.modDie d fun k => k.count s.now uj)

/-- A 4-byte read of the low half latches the high half, which the next 4-byte read of the high half returns. -/
def State.energyRead (s : State) (d : Nat) (p : Part) : State :=
  let k := s.die d
  let e := k.energyAt s.now
  match p with
  | .low => (s.respond (bytesLE 4 (slice e 31 0))).modDie d fun k =>
      { k with energyLatch := some (e.extractLsb' 32 32) }
  | .high => (s.respond (bytesLE 4 (k.energyLatch.getD (e.extractLsb' 32 32)).toNat)).modDie d fun k =>
      { k with energyLatch := none }
  | .both => s.respond (bytesLE 8 e.toNat)

def execEnergyReadLow (d : Nat) (s : State) : Step := onDie d (s.readPart.2.energyRead d s.readPart.1)

/-! ## Power failure (R380) -/

/-- A section's header: its kind and record count. -/
def flashHeader (kind count : Nat) : List Byte := bytesLE 4 kind ++ bytesLE 4 count ++ List.replicate 8 0

/-- Bytes read for the flash; zeros where they cannot be read. -/
def orZeros (n : Nat) : Except (BitVec 8) (List Byte) → List Byte
  | .ok l => l
  | .error _ => List.replicate n 0

/-- A status of a strand that holds its core's running context: it runs, or leaves it (R31, R151, R327, R380). -/
def CtxStatus.runs : CtxStatus → Bool
  | .running | .suspending _ _ | .ending | .faulted _ | .failing _ => true
  | .free | .parked | .placed => false

/-- The running strands: core and context. -/
def State.runningCtxs (s : State) : List (Nat × Bool) :=
  (List.range 768).flatMap fun c => [false, true].filterMap fun x =>
    let t := s.ctx c x
    if t.strand.isSome && t.status.runs then some (c, x) else none

/-- The bundle at which a strand goes on: of one that suspends, its resume point. -/
def Ctx.nextBundle (t : Ctx) : Nat :=
  match t.status with
  | .suspending _ resume => resume
  | .free | .running | .parked | .ending | .faulted _ | .failing _ | .placed => t.pc.toNat

/-- A strand's continuation record with the code offset of its next bundle in bytes 56 to 63. -/
def State.flashCont (s : State) (p : Nat × Bool) : List Byte :=
  let t := s.ctx p.1 p.2
  match t.strand with
  | none => List.replicate 64 0
  | some n => (orZeros 64 (s.slotRead (dieOf p.1) n.run n.rank n.slot 64)).take 56 ++
      bytesLE 8 (16 * t.nextBundle)

/-- What the device writes to the board flash. -/
def State.flashImage (s : State) : List Byte :=
  let yews := (List.range 64).flatMap fun d => (s.die d).yew.reverse
  let roots := (List.range 16).filter fun i => getBit (vget s.mdl.pfroot i 0) 63
  let root (i : Nat) : List Byte := orZeros 8 (s.vRead (BitVec.ofNat 64 (slice (vget s.mdl.pfroot i 0) 47 0)) 8)
  let runs := s.runningCtxs
  flashHeader 1 yews.length ++ yews.flatMap (fun e => bytesLE 32 e.word) ++
    flashHeader 2 roots.length ++ roots.flatMap root ++
    flashHeader 3 runs.length ++ runs.flatMap s.flashCont

/-- The power-fail signal: issue stops for good, and the records go to flash. -/
def State.powerDown (s : State) : State :=
  let s := (List.range 64).foldl (fun s d => s.yewAdd d 8 0xFF 0 0 0) s
  let s := s.modMdl fun m => { m with halted := true }
  let f := s.flashImage
  s.modMdl fun m => { m with flash := f }

def execPowerFail (s : State) : Step :=
  .next (if s.mdl.halted then s else s.powerDown)

/-! ## Start-up (R381, R382) -/

/-- Events that come from outside the module: a reset leaves them to come. -/
def isInput : Instr → Bool
  | .rrmirrorWrite _ _ | .rrkillWrite _ _ | .uncorrectableError _ _ _ _ _ | .correctableError _ _ _ _ _
  | .ebstatClear _ _ _ | .patrolScrub _ _ _ | .sramScrub _ _ _ _ | .errinjWrite _ _ | .lqdoorWrite _
  | .hostBar2Read _ _ | .hostBar2Write _ _ | .evlostRead | .yewidxWrite _ _ | .flitTransmit _ _ _ _
  | .flitReceive _ _ _ | .laneFailure _ _ | .lctlRetrain _ _ | .lcntRead _ | .feccntRead _
  | .inboundWrite _ _ _ | .pstepWrite _ | .powerEstimate _ _ | .regulatorPhaseLoss _ _ _ _
  | .energyReadLow _ | .powerFail | .moduleReset | .imageCheck _ _ | .hbmTraining _ _ | .selfTest _
  | .featAccept1Write _ | .dbgctlHalt _ _ | .dbgctlStep _ | .registerWrite _ _ | .energyCount _ _
  | .grantUpdate _ _ => true
  | _ => false

/-- Module reset: the reset state, with what lies outside the module kept: host memory, the board flash and
its count of failed starts, and the inputs and open choices still to come. -/
def State.moduleReset (s : State) : State :=
  { State.reset with
    agenda := (s.agenda.filter fun e => isInput e.2).map fun e => (e.1 - s.now, e.2),
    picks := s.picks,
    mdl := { Module.reset with
      flash := s.mdl.flash, flashFails := s.mdl.flashFails, fails := s.mdl.flashFails,
      hostMem := s.mdl.hostMem } }

def execModuleReset (s : State) : Step := .next s.moduleReset

/-- A count of failed starts plus 1, saturating at 3. -/
def failCount (n : BitVec 2) : BitVec 2 := if n = 3 then 3 else n + 1

/-- A failed start with a failure code of BOOTREASON: the third in a row, or a later one, goes on towards
minimal mode (marked by CODE 5 while start-up runs); an earlier one ends in phase 7. -/
def Module.bootFail (m : Module) (code : BitVec 8) (next : BitVec 3) : Module :=
  if m.bootCode = 5 then { m with phase := next }
  else if 2 ≤ m.fails.toNat then
    { m with flashFails := failCount m.flashFails, lastFail := code, bootCode := 5, phase := next }
  else { m with flashFails := failCount m.flashFails, bootCode := code, phase := 7 }

/-- Bits set in a clock-pattern mask. -/
def maskBits (v : BitVec 16) : Nat := oneBits v.toNat 16

/-- The masks of an image are well formed (R381). -/
def imageOk (i : ConfigImage) : Bool :=
  i.plim.length == 16 && i.plim.all fun e => 4 ≤ maskBits e.1 && maskBits e.1 ≤ 15

/-- PLIM's words from an image's pairs of mask and target. -/
def plimWord (e : BitVec 16 × BitVec 16) : BitVec 32 := BitVec.ofNat 32 (e.1.toNat * 2 ^ 16 + e.2.toNat)

/-- The configuration image taken into use (R381). -/
def State.configure (s : State) (i : ConfigImage) : State :=
  let s := { s with dies := Vector.ofFn fun (d : Fin 64) =>
    let k := s.die d.val
    { k with
      ret := if i.retired.any fun e => e == d.val then 7 else 0,
      patrol := if d.val < 16 || 48 ≤ d.val then i.patrol else 0 } }
  s.modMdl fun m => { m with
    ilv := i.ilv, modid := i.modid, phase := 2, repairs := i.repairs,
    plim := Vector.ofFn fun (n : Fin 16) => plimWord ((i.plim[n.val]?).getD (0x7FFF, 1400)),
    links := Vector.ofFn fun (l : Fin 16) => { m.link l.val with en := getBit i.linkEn l.val } }

/-- BOOTSTAT.PHASE in master clock t: the image check begins with the first clock after the release of reset. -/
def Module.phaseAt (m : Module) (t : Nat) : BitVec 3 := if m.phase = 0 && t != 0 then 1 else m.phase

/-- Phase 1: code 0 is a well-signed image, 1 a bad signature, 2 a malformed image. -/
def State.checkImage (s : State) (code : BitVec 8) (i : ConfigImage) : State :=
  if s.mdl.phase.toNat != 1 && s.mdl.phase.toNat != 0 then s
  else if code = 0 && imageOk i then s.configure i
  else s.modMdl fun m => m.bootFail (if code = 1 then 1 else 2) 2

def execImageCheck (code : BitVec 8) (img : ConfigImage) (s : State) : Step := .next (s.checkImage code img)

/-- Phase 2: the stacks that are trained, and whether training and repair succeeded. -/
def State.trainHbm (s : State) (trained : BitVec 32) (repaired : Bool) : State :=
  if s.mdl.phase != 2 then s
  else s.modMdl fun m =>
    let m := { m with trained := trained }
    if repaired then { m with phase := 3 } else m.bootFail 3 3

def execHbmTraining (trained : BitVec 32) (repaired : Bool) (s : State) : Step :=
  .next (s.trainHbm trained repaired)

/-- The die that minimal mode keeps (R382): in row 0 or 3, its self-test passed and its stack trained. -/
def minimalDie (passed : BitVec 64) (trained : BitVec 32) : Option Nat :=
  (List.range 64).find? fun d =>
    (d < 16 && getBit trained d || 48 ≤ d && getBit trained (d - 32)) && getBit passed d

/-- Minimal mode, or phase 7 where no die qualifies: one die is kept, with all its clusters, and the module awaits
the acceptance of features. -/
def State.minimal (s : State) (passed : BitVec 64) : State :=
  match minimalDie passed s.mdl.trained with
  | none => s.modMdl fun m => { m with phase := 7 }
  | some d =>
    let s := { s with dies := Vector.ofFn fun (e : Fin 64) =>
      { s.die e.val with ret := if e.val = d then 0 else 7 } }
    (s.modMdl fun m => { m with
      phase := 4, links := m.links.map fun (k : Link) => { k with en := false } }).yewAdd d 9 0xFF 5
        (s.mdl.lastFail.setWidth 64) 0

/-- Phase 3: the dies that passed self-test. -/
def State.tested (s : State) (passed : BitVec 64) : State :=
  if s.mdl.phase != 3 then s
  else
    let ok := (List.range 64).all fun d => getBit passed d || !(s.dieAlive d)
    let s := if ok && s.mdl.bootCode != 5 then s.modMdl fun m => { m with phase := 4 }
      else s.modMdl fun m => m.bootFail 4 3
    if s.mdl.bootCode = 5 then s.minimal passed else s

def execSelfTest (passed : BitVec 64) (s : State) : Step := .next (s.tested passed)

/-! ## Features (R383) -/

/-- FEAT_ACCEPT1 written in phase 4: acceptance ends, and the module runs, minimal after a start that fell back,
which leaves the count of failed starts; a bit that was not offered is ignored. -/
def State.accept1 (s : State) (v : Word) : State :=
  if s.mdl.phase != 4 then s
  else s.modMdl fun m =>
    let m := { m with featAccept1 := v &&& m.featOffer1 }
    if m.bootCode = 5 then { m with phase := 6 } else { m with phase := 5, flashFails := 0 }

def execFeatAccept1Write (v : Word) (s : State) : Step := .next (s.accept1 v)

def State.accept0 (s : State) (v : Word) : State :=
  if s.mdl.phase != 4 then s else s.modMdl fun m => { m with featAccept0 := v &&& m.featOffer0 }

end Sys2Proof.Machine
end

