-- ==== Sys2Proof/Machine/HostIf.lean ====
section
/-!
DEFINITION. The host's side: BAR2 (R358), BAR0's registers as the host writes and reads them (R360 to R364,
R370, R371, R373 to R375, R378 to R383), the debug registers (R331, R332), and reads with an effect (R365,
R379).
-/
namespace Sys2Proof.Machine

/-! ## BAR2 (R358) -/

/-- HOST_ERR of a host access: the offset, and whether it read or wrote. -/
def State.hostErr (s : State) (off b : Nat) : State := s.event 11 0xFF (BitVec.ofNat 32 off) (BitVec.ofNat 64 b)

/-- The physical address of a BAR2 offset. -/
def State.bar2Addr (s : State) (off : Nat) : Nat := s.mdl.w2Base.toNat + off

/-- The access lies in the window of BAR2, which the function's configuration space sizes (R357, log 81). -/
def State.bar2Has (s : State) (off n : Nat) : Bool := off + n ≤ 2 ^ s.mdl.bar2.toNat

/-- Every byte of an access lies in HBM or vault memory that is not die-reserved. -/
def State.bar2Open (s : State) (off n : Nat) : Bool :=
  (List.range n).all fun i => (s.site (s.bar2Addr off + i)).open_

def State.bar2Read (s : State) (off n : Nat) : State :=
  if s.bar2Open off n then
    let p := s.bar2Addr off
    s.modMdl fun m => { m with resp := ⟨memReadList s.mem p n, s.poisonedIn p n⟩ }
  else (s.respond (List.replicate n 0xFF)).hostErr off 1

/-- An access outside the window is none of the device's. -/
def execHostBar2Read (off n : Nat) (s : State) : Step :=
  .next (if s.bar2Has off n then s.bar2Read off n else s)

def State.bar2Write (s : State) (off : Nat) (data : List Byte) : State :=
  if s.bar2Open off data.length then s.physWrite (s.bar2Addr off) data else s.hostErr off 2

def execHostBar2Write (off : Nat) (data : List Byte) (s : State) : Step :=
  .next (if s.bar2Has off data.length then s.bar2Write off data else s)

/-! ## Events lost, the Yew record (R364, R365) -/

/-- A read of EVLOST; one that takes LOST clears it (R6, R360). -/
def State.readEvlost (s : State) (p : Part) : State :=
  (s.respond (partBytes p (s.mdl.evLost.value s.now).toNat 0)).modMdl fun m =>
    { m with evLost := if takesLow p then m.evLost.cleared s.now else m.evLost }

def execEvlostRead (s : State) : Step := .next (s.readPart.2.readEvlost s.readPart.1)

def State.setYewIdx (s : State) (d : Nat) (v : Word) : State :=
  s.modDie d fun k => { k with yewIdx := v.setWidth 12 }

def execYewidxWrite (d : Nat) (v : Word) (s : State) : Step := onDie d (s.setYewIdx d v)

/-- The 32 bytes that YEWDATA0 to 3 show, as a number. -/
def Die.yewData (k : Die) : Nat :=
  match k.yew[k.yewIdx.toNat]? with
  | some e => e.word
  | none => 0

/-! ## Debug (R331, R332) -/

/-- DBGCTL's HALT and DRAIN written: the running context halts at the bundle boundary that this is, or goes
on. -/
def State.dbgHalt (s : State) (c : Nat) (v : Word) : State :=
  if !(getBit s.mdl.featAccept0 3) then s
  else s.modCore c fun k =>
    let h := getBit v 0
    { k with dbg := { k.dbg with
      halt := h, drain := getBit v 3, halted := h && !k.dbg.stepping, stepping := h && k.dbg.stepping } }

def execDbgctlHalt (c : Nat) (v : Word) (s : State) : Step := onCore c (s.dbgHalt c v)

/-- STEP written with 1 while HALTED: one bundle may reach commit or trap entry. -/
def State.dbgStep (s : State) (c : Nat) : State :=
  if !(getBit s.mdl.featAccept0 3) || !(s.core c).dbg.halted then s
  else s.modCore c fun k => { k with dbg := { k.dbg with
    halted := false, stepping := true, issued := false, accMark := k.nextAcc,
    jobMark := k.nextJob, cmdMark := s.mdl.nextId } }

def execDbgctlStep (c : Nat) (s : State) : Step := onCore c (s.dbgStep c)

/-- What the stepped bundle launched is over: its accesses have performed or entered the ring, its array
steps, tile operations and commands have ended. -/
def State.stepDrained (s : State) (c : Nat) : Bool :=
  let k := s.core c
  let g := k.dbg
  (k.accs.all fun a => a.id < g.accMark) && (k.array ++ k.tile).all (fun j => j.seq < g.jobMark) &&
    ((s.die (dieOf c)).cmds.all fun q => q.core != c || q.id < g.cmdMark)

/-- A stepped bundle has committed or trapped, and, under DRAIN, its work is over: HALTED returns. -/
def State.stepDone (s : State) (c : Nat) : State :=
  let g := (s.core c).dbg
  if !g.stepping || !g.issued then s
  else if g.drain && !(s.stepDrained c) then s.later 1 (.stepDrainDone c)
  else s.modCore c fun k => { k with dbg := { k.dbg with stepping := false, issued := false, halted := k.dbg.halt } }

def execStepDrainDone (c : Nat) (s : State) : Step := onCore c (s.stepDone c)

/-- DBGCTL as a whole. -/
def State.setDbg (s : State) (c : Nat) (v : Word) : State :=
  let s := s.dbgHalt c v
  if getBit v 2 then s.dbgStep c else s

/-! ## Register writes by access code (R360) -/

/-- A value with only the bits hi to lo kept. -/
def keep (v : Word) (hi lo : Nat) : Word := BitVec.ofNat 64 (slice v hi lo * 2 ^ lo)

/-- A new AGEPER: every die looks at its queue again when an entry of it next ages (R54, R56). -/
def State.setAgePer (s : State) (v : BitVec 32) : State :=
  let s := s.modMdl fun m => { m with agePer := v }
  (List.range 64).foldl (fun s d =>
    match s.nextTick d with
    | some n => s.later n (.agePeriodTick d)
    | none => s) s

/-- The module block (R360, R375, R380 to R383). -/
def State.writeModule (s : State) (off : Nat) (v : Word) : State :=
  if 0x140 ≤ off && off < 0x1C0 then
    s.modMdl fun m => { m with pfroot := vset m.pfroot ((off - 0x140) / 8) (v &&& 0x8000FFFFFFFFFFFF) }
  else if 0x1000 ≤ off && off < 0x1400 then
    s.modMdl fun m => { m with msixTable := assocPut m.msixTable (off - 0x1000) v }
  else match off with
    | 0x0000 => s.modMdl fun m => { m with lqBase := keep v 47 11 }
    | 0x0010 => s.lqdoor v
    | 0x0018 => s.modMdl fun m => { m with memFree := v.setWidth 32 }
    | 0x0020 => s.setAgePer (v.setWidth 32)
    | 0x0028 => s.modMdl fun m => { m with ptroot := keep v 47 13 }
    | 0x0030 => s.tlbinv v
    | 0x0038 => s.setDieReg 0 0x018 v
    | 0x0050 => s.modMdl fun m => { m with hapBase := keep v 63 12 }
    | 0x0058 => s.modMdl fun m => { m with w2Base := keep v 47 30 }
    | 0x0060 => s.modMdl fun m => { m with evBase := v &&& 0xFFFFFFFFFFFFF00F }
    | 0x0068 => s.modMdl fun m => { m with evHead := v.setWidth 32 }
    | 0x0080 => s.pstepSet (v.setWidth 4)
    | 0x0120 => s.accept0 v
    | 0x0128 => s.accept1 v
    | _ => s

/-- HRCMD (R363): 1 performs RPORT and 2 RACK; a write to one of its registers while a command is in
progress is ignored. -/
def State.hostRetry (s : State) (d rel off : Nat) (v : Word) : State :=
  if (s.die d).hrBusy then s.hostErr off 2
  else match rel with
    | 0x0118 => s.modDie d fun k => { k with hrWord := v }
    | 0x0120 => s.modDie d fun k => { k with hrVal := v }
    | _ =>
      if v = 1 then (s.modDie d fun k => { k with hrBusy := true }).later 1 (.hostRport d)
      else if v = 2 then (s.modDie d fun k => { k with hrBusy := true }).later 1 (.hostRack d)
      else s

/-- SUSP's scores (R342). -/
def State.writeSusp (s : State) (d : Nat) (v : Word) : State :=
  s.modDie d fun k => { k with
    ds := BitVec.ofNat 8 (slice v 7 0),
    cs := Vector.ofFn fun (i : Fin 3) => BitVec.ofNat 8 (slice v (8 * i.val + 15) (8 * i.val + 8)) }

/-- A core's sub-block (R361, R374). -/
def State.writeCoreReg (s : State) (c rel : Nat) (v : Word) : State :=
  if 0x100 ≤ rel && rel < 0x190 then
    if rel % 16 = 0 && getBit v 0 then s.bankClear (dieOf c) (localOf c) (BitVec.ofNat 8 ((rel - 0x100) / 16))
    else s
  else if 0x040 ≤ rel && rel < 0x060 then
    s.modCore c fun k => { k with ewt := vset k.ewt ((rel - 0x040) / 8) v }
  else match rel with
    | 0x000 => s.setDbg c v
    | 0x008 => s.setErrinj c v
    | _ => s

/-- A unit whose bank stands at a die's block (R345). -/
def dieUnit (d u : Nat) : Bool :=
  (0x10 ≤ u && u ≤ 0x18) || (0x80 ≤ u && u ≤ 0xCF && (d < 16 || 48 ≤ d))

/-- A die's block (R361, R342, R362 to R364, R373, R379). -/
def State.writeDieReg (s : State) (d rel off : Nat) (v : Word) : State :=
  if 0x8000 ≤ rel then
    if (rel - 0x8000) / 0x400 < 12 then
      s.writeCoreReg (12 * d + (rel - 0x8000) / 0x400) ((rel - 0x8000) % 0x400) v
    else s
  else if 0x1000 ≤ rel && rel < 0x2000 then
    let u := (rel - 0x1000) / 16
    if rel % 16 = 0 && dieUnit d u && getBit v 0 then s.bankClear d 0 (BitVec.ofNat 8 u) else s
  else match rel with
    | 0x0000 | 0x0008 | 0x0010 | 0x0018 => s.setDieReg d rel v
    | 0x0100 => s.writeSusp d v
    | 0x0108 => s.setMirror d v
    | 0x0110 => s.rrkill v
    | 0x0118 | 0x0120 | 0x0128 => s.hostRetry d rel off v
    | 0x0138 => if d < 16 || 48 ≤ d then s.modDie d fun k => { k with patrol := v.setWidth 16 } else s
    | 0x0140 => s.setYewIdx d v
    | 0x0200 => (s.modDie d fun k => { k with pat := v.setWidth 48 }).repattern d
    | 0x0218 => if getBit v 0 then s.modDie d fun k => { k with energySat := false } else s
    | _ => s

/-- LCTL (R370): EN, whose fall ends what is in flight over the link (R264, R267), and RETRAIN on the lanes that
hold lock, which an open choice gives (log 7). -/
def State.writeLctl (s : State) (l : Nat) (v : Word) : State :=
  let en := getBit v 0
  let was := (s.mdl.link l).en
  let s := s.modLink l fun k => { k with en := en, state := if en then k.state else 0 }
  let s := if was && !en then s.linkLost l else s
  if getBit v 1 then
    let p := s.pick 0xFFFF
    p.2.retrain l (BitVec.ofNat 16 p.1)
  else s

/-- A link's block (R370, R372). -/
def State.writeLinkReg (s : State) (l rel : Nat) (v : Word) : State :=
  match rel with
  | 0x00 => s.writeLctl l v
  | 0x20 => s.modLink l fun k => { k with inBase := BitVec.ofNat 32 (slice v 47 16), inEn := getBit v 0 }
  | 0x28 => s.modLink l fun k => { k with inLim := v.setWidth 42 }
  | _ => s

/-- An offset that a table of R360, R361, R370, R371, R373 to R375 or R378 to R383 lists. -/
def listed (off : Nat) : Bool :=
  if off < 0x2000 then
    off < 0x1C0 || (0x1000 ≤ off && off < 0x1400) || off / 8 == 0x1800 / 8
  else if 0x100000 ≤ off && off < 0x500000 then
    let d := (off - 0x100000) / 0x10000
    let r := (off - 0x100000) % 0x10000
    if 0x8000 ≤ r then
      let q := (r - 0x8000) % 0x400
      (r - 0x8000) / 0x400 < 12 && (q < 0x10 || (0x40 ≤ q && q < 0x70) || (0x100 ≤ q && q < 0x190))
    else if 0x1000 ≤ r then r < 0x2000 && dieUnit d ((r - 0x1000) / 16)
    else r < 0x30 || (0x100 ≤ r && r < 0x138) || (0x138 ≤ r && r < 0x140 && (d < 16 || 48 ≤ d)) ||
      (0x140 ≤ r && r < 0x168) || (0x200 ≤ r && r < 0x220)
  else if 0x600000 ≤ off && off < 0x601000 then off % 0x100 < 0x30
  else 0x610000 ≤ off && off < 0x610080

/-- A host write of 8 bytes to BAR0, at an aligned offset. -/
def State.writeBar0 (s : State) (off : Nat) (v : Word) : State :=
  if off % 8 ≠ 0 then (if listed off then s.hostErr off 2 else s)
  else if off < 0x2000 then s.writeModule off v
  else if 0x100000 ≤ off && off < 0x500000 then
    s.writeDieReg ((off - 0x100000) / 0x10000) ((off - 0x100000) % 0x10000) off v
  else if 0x600000 ≤ off && off < 0x601000 then
    s.writeLinkReg ((off - 0x600000) / 0x100) ((off - 0x600000) % 0x100) v
  else if 0x610000 ≤ off && off < 0x610080 then
    s.modMdl fun m => { m with pwin := vset m.pwin ((off - 0x610000) / 8) (v &&& 0x8000000000F0FFFF) }
  else s

/-- A host write to BAR0 at an offset; one of less than 8 bytes is dropped, with HOST_ERR where the register is
listed. Or BAR2 resized, to 1 GiB up to 2 TiB (R357, log 81). -/
def State.hostWrite (s : State) (off : Nat) : RegWrite → State
  | .bar0 n v => if n = 8 then s.writeBar0 off v else if listed off then s.hostErr off 2 else s
  | .bar2 n => if 30 ≤ n.toNat && n.toNat ≤ 41 then s.modMdl fun m => { m with bar2 := n } else s

def execRegisterWrite (off : Nat) (w : RegWrite) (s : State) : Step := .next (s.hostWrite off w)

/-! ## Registers as the host reads them

Reads without an effect are no steps; these functions say what they return. -/

/-- EBSTAT and EBADDR of a unit (R345). -/
def bankStat (l : List ErrBank) (u : Nat) : Word :=
  match bankFind l (BitVec.ofNat 8 u) with
  | some b => b.stat
  | none => BitVec.ofNat 64 (u * 256)

def bankAddr (l : List ErrBank) (u : Nat) : Word :=
  match bankFind l (BitVec.ofNat 8 u) with
  | some b => b.addr
  | none => 0

/-- SETTLED in master clock t: 1 ms after a command it is 1 (R376, log 80). -/
def Module.settledAt (m : Module) (t : Nat) : Bool := m.pSettled || m.pAt + 2400000 ≤ t

/-- PSTAT and BOOTREASON (R375, R382). -/
def Module.pstat (m : Module) (t : Nat) : Word :=
  BitVec.ofNat 64 (bit (m.settledAt t) * 2 ^ 7 + m.pStage.toNat * 2 ^ 4 + m.pLvl.toNat)

def Module.bootReason (m : Module) : Word :=
  BitVec.ofNat 64 (m.fails.toNat * 2 ^ 16 + m.lastFail.toNat * 2 ^ 8 + m.bootCode.toNat)

/-- A register of the module block in master clock t. -/
def Module.readReg (m : Module) (t off : Nat) : Word :=
  if 0x090 ≤ off && off < 0x110 then (vget m.plim ((off - 0x90) / 8) 0).setWidth 64
  else if 0x140 ≤ off && off < 0x1C0 then vget m.pfroot ((off - 0x140) / 8) 0
  else if 0x1000 ≤ off && off < 0x1400 then (assocGet m.msixTable (off - 0x1000)).getD 0
  else match off with
    | 0x0000 => m.lqBase
    | 0x0008 => m.lqHead.setWidth 64
    | 0x0018 => m.memFree.setWidth 64
    | 0x0020 => m.agePer.setWidth 64
    | 0x0028 => m.ptroot
    | 0x0038 => BitVec.ofNat 64 (bit m.inval.isSome + 2 * bit m.tlbDrop)
    | 0x0040 => m.ilv.setWidth 64
    | 0x0048 => m.modid.setWidth 64
    | 0x0050 => m.hapBase
    | 0x0058 => m.w2Base
    | 0x0060 => m.evBase
    | 0x0068 => m.evHead.setWidth 64
    | 0x0070 => m.evTail.setWidth 64
    | 0x0078 => (m.evLost.value t).setWidth 64
    | 0x0080 => m.pstep.setWidth 64
    | 0x0088 => m.pstat t
    | 0x0110 => m.featOffer0
    | 0x0118 => m.featOffer1
    | 0x0120 => m.featAccept0
    | 0x0128 => m.featAccept1
    | 0x0130 => (m.phaseAt t).setWidth 64
    | 0x0138 => m.bootReason
    | _ => 0

/-- SUSP (R342). -/
def Die.susp (k : Die) : Word :=
  BitVec.ofNat 64 (k.clean.toNat * 2 ^ 40 + k.ret.toNat * 2 ^ 32 + (vget k.cs 2 0).toNat * 2 ^ 24 +
    (vget k.cs 1 0).toNat * 2 ^ 16 + (vget k.cs 0 0).toNat * 2 ^ 8 + k.ds.toNat)

/-- DBGCTL (R331) and the core's other registers. -/
def Core.readReg (k : Core) (rel : Nat) : Word :=
  if 0x100 ≤ rel && rel < 0x190 then
    (if rel % 16 = 0 then bankStat k.banks else bankAddr k.banks) ((rel - 0x100) / 16)
  else if 0x040 ≤ rel && rel < 0x060 then vget k.ewt ((rel - 0x040) / 8) 0
  else match rel with
    | 0x000 => BitVec.ofNat 64 (bit k.dbg.halted * 2 ^ 7 + bit k.dbg.drain * 2 ^ 3 + bit k.dbg.halt)
    | 0x008 => k.errinj
    | 0x060 => k.grant.setWidth 64
    | 0x068 => BitVec.ofInt 64 k.balance
    | _ => 0

def State.readDieReg (s : State) (d rel : Nat) : Word :=
  let k := s.die d
  if 0x8000 ≤ rel then
    if (rel - 0x8000) / 0x400 < 12 then
      (s.core (12 * d + (rel - 0x8000) / 0x400)).readReg ((rel - 0x8000) % 0x400)
    else 0
  else if 0x1000 ≤ rel && rel < 0x2000 then
    let u := (rel - 0x1000) / 16
    if !(dieUnit d u) then 0 else (if rel % 16 = 0 then bankStat k.banks else bankAddr k.banks) u
  else if 0x0148 ≤ rel && rel < 0x0168 then BitVec.ofNat 64 (k.yewData / 2 ^ (8 * (rel - 0x148)))
  else if rel < 0x0030 then s.dieReg d rel
  else match rel with
    | 0x0100 => k.susp
    | 0x0108 => BitVec.ofNat 64 (k.mirrorBase.toNat * 2 ^ 16 + bit k.mirrorEn)
    | 0x0118 => k.hrWord
    | 0x0120 => k.hrVal
    | 0x0130 => BitVec.ofNat 64 (bit k.hrBusy * 4 + k.hrStatus.toNat)
    | 0x0138 => if d < 16 || 48 ≤ d then k.patrol.setWidth 64 else 0
    | 0x0140 => k.yewIdx.setWidth 64
    | 0x0200 => k.pat.setWidth 64
    | 0x0208 => BitVec.ofNat 64 (k.phases.toNat * 2 ^ 16 + k.railLim.toNat)
    | 0x0210 => k.energyAt s.now
    | 0x0218 => BitVec.ofNat 64 (bit (k.satAt s.now))
    | _ => 0

/-- LCTL's EN, LSTAT, LCNT, FECCNT, INWIN and INLIM in master clock t (R370, R372). -/
def Link.readReg (k : Link) (t rel : Nat) : Word :=
  match rel with
  | 0x00 => BitVec.ofNat 64 (bit k.en)
  | 0x08 => BitVec.ofNat 64 (k.failed.toNat * 2 ^ 16 + k.state.toNat)
  | 0x10 => BitVec.ofNat 64 ((k.crcErr.value t).toNat * 2 ^ 32 + (k.replays.value t).toNat)
  | 0x18 => BitVec.ofNat 64 ((k.uncorr.value t).toNat * 2 ^ 32 + (k.corr.value t).toNat)
  | 0x20 => BitVec.ofNat 64 (k.inBase.toNat * 2 ^ 16 + bit k.inEn)
  | 0x28 => k.inLim.setWidth 64
  | _ => 0

/-- What an 8-byte host read at a BAR0 offset returns; an offset that no table lists reads 0. -/
def State.readBar0 (s : State) (off : Nat) : Word :=
  if off < 0x2000 then s.mdl.readReg s.now off
  else if 0x100000 ≤ off && off < 0x500000 then
    s.readDieReg ((off - 0x100000) / 0x10000) ((off - 0x100000) % 0x10000)
  else if 0x600000 ≤ off && off < 0x601000 then
    let l := (off - 0x600000) / 0x100
    ({ s.mdl.link l with en := s.mdl.linkEn l }).readReg s.now ((off - 0x600000) % 0x100)
  else if 0x610000 ≤ off && off < 0x610080 then vget s.mdl.pwin ((off - 0x610000) / 8) 0
  else 0

/-- A 4-byte read: the addressed half (R360); ENERGY's high half is its latch's, where one waits (R379). -/
def State.readBar0Half (s : State) (off : Nat) : BitVec 32 :=
  if 0x100000 ≤ off && off < 0x500000 && off % 0x10000 = 0x0214 then
    let k := s.die ((off - 0x100000) / 0x10000)
    k.energyLatch.getD ((k.energyAt s.now).extractLsb' 32 32)
  else if off % 8 = 4 then (s.readBar0 (off - 4)).extractLsb' 32 32
  else (s.readBar0 off).setWidth 32

end Sys2Proof.Machine
end

