-- ==== Sys2Proof/Machine/Sources.lean ====
section
/-!
DEFINITION. What an operation names besides its destinations: its guard (R102), its sources and how an
empty one holds or traps its bundle (R94, R99, R131, R169, R229), the near latch's hint (R105), and the
memory access or command that it makes.
-/
namespace Sys2Proof.Machine

/-- How a source is read: as source A or B of its slot, which the header can make trap, or blocking
always (R94). -/
inductive SrcKind where
  | a
  | b
  | blocks
deriving DecidableEq, Repr

/-- The predicate guard of an operation (R102); SEL uses the fields as its selector. -/
def guardOf : Instr → Option Guard
  | .br g _ | .bri g _ | .call g _ | .ret g _ | .lexit g _ | .lstat g _ _ _ | .lset g _ _ _ | .done g
  | .barg g _ | .waitev g _ _ | .rft g | .add g _ _ _ _ | .sub g _ _ _ _ | .mul g _ _ _ _
  | .mulhi g _ _ _ | .mulhn g _ _ _ | .and g _ _ _ | .or g _ _ _ | .xor g _ _ _ | .shl g _ _ _ _
  | .shr g _ _ _ _ | .sar g _ _ _ _ | .min g _ _ _ | .max g _ _ _ | .minn g _ _ _ | .maxn g _ _ _
  | .clz g _ _ _ | .popc g _ _ _ | .bfx g _ _ _ _ | .bfi g _ _ _ | .cmp g _ _ _ _ _ | .s2a g _ _
  | .s2v g _ _ | .s2t g _ _ _ | .s2k g _ _ _ => some g
  | .aadd g _ _ _ | .aaddi g _ _ _ | .asub g _ _ _ | .ashli g _ _ _ | .alea g _ _ _ _ | .aand g _ _ _
  | .acmp g _ _ _ _ _ | .a2s g _ _ | .ldBI g _ _ _ _ | .ldBN g _ _ _ _ | .ldHI g _ _ _ _
  | .ldHN g _ _ _ _ | .ldWI g _ _ _ _ | .ldWN g _ _ _ _ | .ldD g _ _ _ _ | .ldxBI g _ _ _ _
  | .ldxBN g _ _ _ _ | .ldxHI g _ _ _ _ | .ldxHN g _ _ _ _ | .ldxWI g _ _ _ _ | .ldxWN g _ _ _ _
  | .ldxD g _ _ _ _ | .stB g _ _ _ _ | .stH g _ _ _ _ | .stW g _ _ _ _ | .stD g _ _ _ _
  | .stxB g _ _ _ _ | .stxH g _ _ _ _ | .stxW g _ _ _ _ | .stxD g _ _ _ _ | .ldacqW g _ _ _ _ _
  | .ldacqD g _ _ _ _ _ | .strelW g _ _ _ _ _ | .strelD g _ _ _ _ _ | .sldW g _ _ _ _
  | .sldD g _ _ _ _ | .sstW g _ _ _ _ | .sstD g _ _ _ _ | .amo g _ _ _ _ _ _ | .cas g _ _ _ _ _
  | .afadd g _ _ _ _ | .rslot g _ _ _ | .copy g _ _ _ _ _ _ _ _ _ | .copym g _ _ _ _ _ _ _ _
  | .coll g _ _ _ _ _ _ _ _ _ | .rcopy g _ _ _ _ _ _ _ _ | .xpose g _ _ _ _ | .tokst g _ _ _
  | .rport g _ _ _ | .rack g _ _ => some g
  | _ => none

/-- The stage guard of a slot-3 operation, 0 where it has none (R102). -/
def stageOf : Instr → BitVec 4
  | .tset g _ _ _ _ | .t2s g _ _ _ | .k2s g _ _ _ | .tzero g _ | .tcvt g _ _ _ | .tcheck g _
  | .tadd g _ _ | .mstep g _ _ _ _ | .mstepRev g _ _ _ _ | .bseal g _ _ | .sstep g _ _ _ _
  | .sdstep g _ _ _ _ | .sgrad g _ _ _ | .sgzero g _ | .srefine g _ _ | .sflags g _ _ _ => g
  | _ => 0

/-- The operation performs: its guard holds (R102). -/
def performs (i : Instr) (r : Regs) : Bool :=
  match guardOf i with
  | some g => guardHolds g r
  | none => stageHolds (stageOf i) r

/-- Register i of an engine command's group (R255). -/
def groupReg (x : BitVec 3) (i : Nat) : BitVec 5 := BitVec.ofNat 5 (4 * x.toNat + i)

/-- The four registers of an engine command's group (R255). -/
def groupRegs (x : BitVec 3) : List (SrcKind × Reg) :=
  [(.a, .a (groupReg x 0)), (.a, .a (groupReg x 1)), (.a, .a (groupReg x 2)), (.a, .a (groupReg x 3))]

/-- The sources of a slot-0 operation; each blocks (R131). -/
def reads0 : Instr → List (SrcKind × Reg)
  | .bri _ a | .ret _ a | .lset _ a _ _ | .pause a _ | .waitev _ _ a | .mtsr a _ | .clz _ _ a _
  | .popc _ _ a _ | .addi _ a _ | .andi _ a _ | .ori _ a _ | .xori _ a _ | .shli _ a _ | .shri _ a _
  | .sari _ a _ | .cmpi _ _ a _ | .s2a _ _ a | .s2v _ _ a | .loopR _ _ a | .loopSr _ _ a
  | .loopRot _ _ a _ | .lih a _ => [(.blocks, .s a)]
  | .add _ _ a b _ | .sub _ _ a b _ | .mul _ _ a b _ | .mulhi _ _ a b | .mulhn _ _ a b | .and _ _ a b
  | .or _ _ a b | .xor _ _ a b | .shl _ _ a b _ | .shr _ _ a b _ | .sar _ _ a b _ | .min _ _ a b
  | .max _ _ a b | .minn _ _ a b | .maxn _ _ a b | .bfx _ _ a b _ | .cmp _ _ _ a b _ | .s2t _ _ a b
  | .s2k _ _ a b => [(.blocks, .s a), (.blocks, .s b)]
  | .sel g _ a b => [(.blocks, .s a), (.blocks, .s b), (.blocks, .p g.p)]
  | .bfi _ d a b => [(.blocks, .s a), (.blocks, .s b), (.blocks, .s d)]
  | .plog _ a b _ => [(.blocks, .p a), (.blocks, .p b)]
  | _ => []

/-- The sources of a slot-1 operation (R94, R229). TOKST's token is none (R275). -/
def reads1 : Instr → List (SrcKind × Reg)
  | .aadd _ _ a b | .asub _ _ a b | .alea _ _ a b _ | .aand _ _ a b | .acmp _ _ _ a b _
  | .rport _ _ a b => [(.a, .a a), (.b, .a b)]
  | .aaddi _ _ a _ | .ashli _ _ a _ | .a2s _ _ a | .rack _ _ a => [(.a, .a a)]
  | .ldBI _ _ _ b _ | .ldBN _ _ _ b _ | .ldHI _ _ _ b _ | .ldHN _ _ _ b _ | .ldWI _ _ _ b _
  | .ldWN _ _ _ b _ | .ldD _ _ _ b _ | .sldW _ _ _ b _ | .sldD _ _ _ b _ | .ldacqW _ _ _ b _ _
  | .ldacqD _ _ _ b _ _ => [(.a, .a b)]
  | .ldxBI _ _ _ b x | .ldxBN _ _ _ b x | .ldxHI _ _ _ b x | .ldxHN _ _ _ b x | .ldxWI _ _ _ b x
  | .ldxWN _ _ _ b x | .ldxD _ _ _ b x => [(.a, .a b), (.blocks, .a x)]
  | .stB _ _ d b _ | .stH _ _ d b _ | .stW _ _ d b _ | .stD _ _ d b _ | .sstW _ _ d b _
  | .sstD _ _ d b _ | .strelW _ _ d b _ _ | .strelD _ _ d b _ _ | .amo _ _ d b _ _ _
  | .afadd _ _ d b _ => [(.a, .a b), (.b, .a d)]
  | .stxB _ _ d b x | .stxH _ _ d b x | .stxW _ _ d b x | .stxD _ _ d b x =>
    [(.a, .a b), (.b, .a d), (.blocks, .a x)]
  | .cas _ _ d b _ _ => [(.a, .a b), (.b, .a d), (.b, .a (d + 1))]
  | .rslot _ _ a _ => [(.a, .a a), (.blocks, .a (a + 1))]
  | .copy _ _ _ _ _ x _ _ _ _ | .copym _ _ _ _ _ x _ _ _ | .coll _ _ _ _ _ x _ _ _ _
  | .rcopy _ _ _ _ _ x _ _ _ => groupRegs x
  | .xpose _ d a b _ => [(.a, .a a), (.b, .a b), (.blocks, .a d)]
  | _ => []

/-- The sources of a slot-2 operation: va, vb, vd where it is read, and the lane mask (R168, R169). -/
def reads2 : Instr → List (SrcKind × Reg)
  | .vld _ a _ m _ | .vldacc _ a _ m _ | .vabs _ a m _ _ | .vfsqrt _ a m _ | .vfrsqrt _ a m _
  | .vfexp2 _ a m _ | .vflog2 _ a m _ | .vcvt _ a _ _ m _ _ | .vmxd _ a m _ _ | .vunpack _ a _ _ m _ _
  | .vred _ a m _ _ | .vfred _ a m _ _ | .vsigr _ a m _ | .vnfs a m _ _ | .vuni _ a m _ =>
    [(.a, .v a), (.blocks, .m m)]
  | .vmxq _ a _ _ _ _ | .vseed a _ _ | .v2s _ a _ _ _ => [(.a, .v a)]
  | .vlds _ a b m _ | .vgath _ a b m _ | .vadd _ a b m _ _ | .vsub _ a b m _ _ | .vmul _ a b m _ _
  | .vmulhi _ a b m _ _ | .vmin _ a b m _ _ | .vmax _ a b m _ _ | .vminn _ a b m _ _
  | .vmaxn _ a b m _ _ | .vand _ a b m _ _ | .vor _ a b m _ _ | .vxor _ a b m _ _ | .vshl _ a b m _ _
  | .vshr _ a b m _ _ | .vsar _ a b m _ _ | .vfadd _ a b m _ | .vfsub _ a b m _ | .vfmul _ a b m _
  | .vfmin _ a b m _ | .vfmax _ a b m _ | .vfdiv _ a b m _ | .vcmp _ a b m _ _ | .vfcmp _ a b m _ _
  | .vsel _ a b m _ | .vperm _ a b m _ => [(.a, .v a), (.b, .v b), (.blocks, .m m)]
  | .vst d a _ m _ | .vstacc d a _ m _ | .vpack d a _ m _ _ | .vsigf d a m _ =>
    [(.a, .v a), (.blocks, .v d), (.blocks, .m m)]
  | .vsts d a b m _ | .vscat d a b m _ | .vfma d a b m _ _ =>
    [(.a, .v a), (.b, .v b), (.blocks, .v d), (.blocks, .m m)]
  | .vrot _ a b m _ s | .vbcast _ a b m _ s =>
    if s == 1 then [(.a, .v a), (.b, .v b), (.blocks, .m m)] else [(.a, .v a), (.blocks, .m m)]
  | .mlog _ a b _ => [(.blocks, .m a), (.blocks, .m b)]
  | .mpopc _ a m | .vuniM _ a m => [(.blocks, .m a), (.blocks, .m m)]
  | .vli d _ m s => if s == 1 then [(.blocks, .v d), (.blocks, .m m)] else [(.blocks, .m m)]
  | _ => []

/-- The sources of a slot-3 operation: t-A, t-B or the knot register, and those that always block, the
t-dest descriptor and t(A + 1) among them (R289). -/
def reads3 : Instr → List (SrcKind × Reg)
  | .tset _ _ a _ _ | .t2s _ a _ _ => [(.a, .t a)]
  | .k2s _ k _ _ | .srefine _ k _ => [(.b, .k k)]
  | .tzero _ d | .tcheck _ d => [(.blocks, .t d)]
  | .tcvt _ d a _ | .tadd _ d a => [(.blocks, .t d), (.a, .t a)]
  | .mstep _ d a b _ | .mstepRev _ d a b _ => [(.blocks, .t d), (.a, .t a), (.b, .t b)]
  | .sstep _ d a k _ => [(.blocks, .t d), (.a, .t a), (.b, .k k)]
  | .sdstep _ d a k _ => [(.blocks, .t d), (.a, .t a), (.blocks, .t (a + 1)), (.b, .k k)]
  | .sgrad _ a k _ => [(.a, .t a), (.blocks, .t (a + 1)), (.b, .k k)]
  | .sflags _ d k f =>
    (if getBit f 0 then [(.blocks, .k k)] else []) ++ (if getBit f 1 then [(.blocks, .t d)] else [])
  | _ => []

/-- Every source of an operation, its guard predicate included. -/
def readsOf (i : Instr) : List (SrcKind × Reg) :=
  (match guardOf i with
   | some g => [(.blocks, .p g.p)]
   | none => []) ++ reads0 i ++ reads1 i ++ reads2 i ++ reads3 i

/-- The register that a set reuse hint takes from the near latch (R105). -/
def hintOf : Instr → Option (BitVec 6)
  | .vld _ a _ _ u | .vlds _ a _ _ u | .vgath _ a _ _ u | .vst _ a _ _ u | .vsts _ a _ _ u
  | .vscat _ a _ _ u | .vldacc _ a _ _ u | .vstacc _ a _ _ u | .vadd _ a _ _ u _ | .vsub _ a _ _ u _
  | .vmul _ a _ _ u _ | .vmulhi _ a _ _ u _ | .vmin _ a _ _ u _ | .vmax _ a _ _ u _ | .vminn _ a _ _ u _
  | .vmaxn _ a _ _ u _ | .vand _ a _ _ u _ | .vor _ a _ _ u _ | .vxor _ a _ _ u _ | .vshl _ a _ _ u _
  | .vshr _ a _ _ u _ | .vsar _ a _ _ u _ | .vabs _ a _ u _ | .vfadd _ a _ _ u | .vfsub _ a _ _ u
  | .vfmul _ a _ _ u | .vfma _ a _ _ u _ | .vfmin _ a _ _ u | .vfmax _ a _ _ u | .vfdiv _ a _ _ u
  | .vfsqrt _ a _ u | .vfrsqrt _ a _ u | .vfexp2 _ a _ u | .vflog2 _ a _ u | .vcmp _ a _ _ u _
  | .vfcmp _ a _ _ u _ | .vsel _ a _ _ u | .vuni _ a _ u | .vcvt _ a _ _ _ u _ | .vmxq _ a _ _ u _
  | .vmxd _ a _ u _ | .vpack _ a _ _ u _ | .vunpack _ a _ _ _ u _ | .vred _ a _ u _ | .vfred _ a _ u _
  | .vperm _ a _ _ u | .vrot _ a _ _ u _ | .vbcast _ a _ _ u _ | .vsigf _ a _ u | .vsigr _ a _ u
  | .vnfs a _ u _ | .vseed a u _ | .v2s _ a _ u _ => if u then some a else none
  | _ => none

/-- Slot-2 arithmetic: every slot-2 operation but those of R377's list. -/
def isVectorArith (i : Instr) : Bool :=
  i.slotNo == 2 && match i with
    | .nopS2 | .vld _ _ _ _ _ | .vlds _ _ _ _ _ | .vgath _ _ _ _ _ | .vst _ _ _ _ _ | .vsts _ _ _ _ _
    | .vscat _ _ _ _ _ | .vldacc _ _ _ _ _ | .vstacc _ _ _ _ _ | .vnfs _ _ _ _ | .vnfsClr
    | .vseed _ _ _ | .v2s _ _ _ _ _ | .vli _ _ _ _ => false
    | _ => true

/-- A slot-1 global access: its class and scope, and whether it is a STREL or an atomic (R238, R242,
R245). -/
structure GlobalUse where
  cls : BitVec 4
  scope : BitVec 3
  strel : Bool
  atomic : Bool
deriving DecidableEq, Repr

def globalUse : Instr → Option GlobalUse
  | .ldBI _ k _ _ _ | .ldBN _ k _ _ _ | .ldHI _ k _ _ _ | .ldHN _ k _ _ _ | .ldWI _ k _ _ _
  | .ldWN _ k _ _ _ | .ldD _ k _ _ _ | .ldxBI _ k _ _ _ | .ldxBN _ k _ _ _ | .ldxHI _ k _ _ _
  | .ldxHN _ k _ _ _ | .ldxWI _ k _ _ _ | .ldxWN _ k _ _ _ | .ldxD _ k _ _ _ | .stB _ k _ _ _
  | .stH _ k _ _ _ | .stW _ k _ _ _ | .stD _ k _ _ _ | .stxB _ k _ _ _ | .stxH _ k _ _ _
  | .stxW _ k _ _ _ | .stxD _ k _ _ _ => some ⟨k, 0, false, false⟩
  | .ldacqW _ k _ _ sc _ | .ldacqD _ k _ _ sc _ => some ⟨k, sc, false, false⟩
  | .strelW _ k _ _ sc _ | .strelD _ k _ _ sc _ => some ⟨k, sc, true, false⟩
  | .amo _ k _ _ _ _ sc | .cas _ k _ _ _ sc | .afadd _ k _ _ sc => some ⟨k, sc, false, true⟩
  | _ => none

/-- COPY, COPYM, COLL and RCOPY (R255). -/
def isCommand : Instr → Bool
  | .copy _ _ _ _ _ _ _ _ _ _ | .copym _ _ _ _ _ _ _ _ _ | .coll _ _ _ _ _ _ _ _ _ _
  | .rcopy _ _ _ _ _ _ _ _ _ => true
  | _ => false

/-- The a registers that an operation names (R257). TOKST's token is excepted, as its destination too
where that is the same register. -/
def namedA (i : Instr) : List (BitVec 5) :=
  let regs := (readsOf i).map Prod.snd ++ (match i with
    | .tokst _ d a _ => if d == a then [] else [Reg.a d]
    | _ => i.dests)
  regs.filterMap fun g => match g with
    | .a r => if r == 0 then none else some r
    | .s _ | .v _ | .m _ | .p _ | .t _ | .k _ => none

/-- Array steps (R289). -/
def isArrayStep : Instr → Bool
  | .mstep _ _ _ _ _ | .mstepRev _ _ _ _ _ | .sstep _ _ _ _ _ | .sdstep _ _ _ _ _ | .sgrad _ _ _ _
  | .sgzero _ _ | .srefine _ _ _ | .bseal _ _ _ => true
  | _ => false

/-- Operations of the tile unit (R289). -/
def isTileOp : Instr → Bool
  | .tzero _ _ | .tadd _ _ _ | .tcvt _ _ _ _ | .tcheck _ _ => true
  | _ => false

/-- The tile register whose tile an operation writes, and those whose tiles it reads (R289). -/
def tileWrite : Instr → Option (BitVec 4)
  | .tzero _ d | .tcvt _ d _ _ | .tadd _ d _ | .mstep _ d _ _ _ | .mstepRev _ d _ _ _ | .sstep _ d _ _ _
  | .sdstep _ d _ _ _ => some d
  | _ => none

def tileReads : Instr → List (BitVec 4)
  | .tcheck _ d => [d]
  | .tcvt _ _ a _ | .mstep _ _ a _ _ | .mstepRev _ _ a _ _ | .sstep _ _ a _ _ => [a]
  | .tadd _ d a => [d, a]
  | .sdstep _ _ a _ _ | .sgrad _ a _ _ => [a, a + 1]
  | _ => []

end Sys2Proof.Machine
end

