-- ==== Sys2Proof/Machine/Issue.lean ====
section
/-!
DEFINITION. How a core issues: the fetch of a bundle (R92, R133), what holds it, the traps of R313 in
their order, the delivery of GUARD and PIPEERR (R318, R319), the energy balance (R374), and the bundle's
issue and commit.
-/
namespace Sys2Proof.Machine

/-! ## Fetch -/

/-- The 16 bytes of bundle i of the image that a context runs (R58, R92). -/
def Core.fetch (k : Core) (x : Bool) (i : Nat) : BitVec 128 :=
  BitVec.ofNat 128 (memReadLE k.istore (131072 * bit (k.ctx x).half + 16 * i) 16)

/-- The operations of a bundle, in the order of their slots from slot 1 on. -/
def opsOf (b : Bundle) : List Instr := [b.s1, b.s2, b.s3, b.s0]

/-! ## Empty registers (R98, R99) -/

/-- A register whose value is still to come: an empty one, or an m or p register with a write in
flight. -/
def Core.pending (k : Core) (x : Bool) (g : Reg) : Bool :=
  if g.fixed then false
  else match g with
    | .m _ | .p _ => k.timers.any fun e =>
        match e.2 with
        | .resultLand _ y l => y == x && landReg l == g
        | _ => false
    | .s _ | .a _ | .v _ | .t _ | .k _ => !((k.ctx x).regs.isFull g)

/-- The position in the header of the bit that makes a source trap (R94). -/
def tePos (i : Instr) : SrcKind → Option Nat
  | .a => some (28 - 2 * i.slotNo)
  | .b => some (27 - 2 * i.slotNo)
  | .blocks => none

/-- The header makes an empty source trap: its bit is set and the operation performs (R94, R102); an
operation whose predicate is in flight is not known to perform yet. -/
def Core.teTraps (k : Core) (x : Bool) (te : Option (BitVec 6)) (i : Instr) (q : SrcKind) : Option Nat :=
  match te, tePos i q with
  | some m, some p =>
    let ready := match guardOf i with
      | some g => !(k.pending x (.p g.p))
      | none => true
    if getBit m (p - 21) && ready && performs i (k.ctx x).regs then some p else none
  | _, _ => none

/-- The header positions of the empty sources that trap, and whether a source blocks the bundle. -/
structure SourceState where
  traps : List Nat
  blocked : Bool
deriving DecidableEq, Repr

def Core.sources (k : Core) (x : Bool) (b : Bundle) : SourceState :=
  (opsOf b).foldl (fun z i => (readsOf i).foldl (fun z e =>
    if !(k.pending x e.2) then z
    else match k.teTraps x b.te i e.1 with
      | some p => { z with traps := p :: z.traps }
      | none => { z with blocked := true }) z) ⟨[], false⟩

/-- EMPTY at the highest header position (R313). -/
def emptyTrap (l : List Nat) : List Trap :=
  match l with
  | [] => []
  | p :: r =>
    let h := r.foldl max p
    [⟨4, 0x02, BitVec.ofNat 4 (2 ^ (1 + (26 - h) / 2)), BitVec.ofNat 32 h⟩]

/-! ## The causes of a bundle (R313) -/

/-- A bundle that holds SAFEPT or YIELD. -/
def hasSafePoint (b : Bundle) : Bool :=
  match b.s0 with
  | .safept _ | .yield _ => true
  | _ => false

/-- The distance limit in force (R314). -/
def Ctx.limit (t : Ctx) : Nat :=
  match t.strand with
  | some n => n.spdlim
  | none => 65536

/-- R317. -/
def spdistTrap (t : Ctx) (b : Bundle) : List Trap :=
  if !t.tinfo.hm && t.spcount.toNat == t.limit && !(hasSafePoint b) then
    [⟨2, 0x05, 0, BitVec.ofNat 32 t.limit⟩]
  else []

/-- The faulted registers that an operation names and performs on (R257). -/
def faultedNames (r : Regs) (i : Instr) : List (BitVec 5) :=
  if performs i r then (namedA i).filter fun a => getBit r.aFault a.toNat else []

/-- R257: an operation names a faulted register, or a safe point finds one. -/
def engfaultTrap (t : Ctx) (b : Bundle) : List Trap :=
  let r := t.regs
  let named := (opsOf b).flatMap (faultedNames r)
  let all := if hasSafePoint b && !t.tinfo.hm then
      (List.range 32).filter fun i => getBit r.aFault i
    else []
  match named.map BitVec.toNat ++ all with
  | [] => []
  | p :: q =>
    let mask := (opsOf b).foldl (fun (m : BitVec 4) i =>
      if (faultedNames r i).isEmpty then m else putBit m i.slotNo true) 0
    [⟨3, 0x09, mask, BitVec.ofNat 32 (q.foldl min p)⟩]

/-- The causes of the operations of a bundle whose sources are full; one with an empty source is judged by EMPTY
alone. -/
def State.opTraps (s : State) (c : Nat) (x : Bool) (b : Bundle) : List Trap :=
  (opsOf b).flatMap fun i =>
    if (readsOf i).any fun e => (s.core c).pending x e.2 then [] else trapsOf i s c x

/-- The causes of a bundle whose blocking sources are full. -/
def State.causes (s : State) (c : Nat) (x : Bool) (b : Bundle) : List Trap :=
  let k := s.core c
  let t := k.ctx x
  spdistTrap t b ++ engfaultTrap t b ++ emptyTrap (k.sources x b).traps ++ s.opTraps c x b

/-- The causes that a bundle does not wait for (R313): ILLEGAL, of an operation whose own sources are full, and
EMPTY. -/
def State.earlyCauses (s : State) (c : Nat) (x : Bool) (b : Bundle) : List Trap :=
  (s.opTraps c x b).filter (fun t => t.cause == 0x01) ++ emptyTrap ((s.core c).sources x b).traps

/-! ## What holds a bundle -/

/-- A destination whose earlier write has not landed (R99). -/
def Core.destPending (k : Core) (x : Bool) (b : Bundle) : Bool :=
  (opsOf b).any fun i => i.dests.any fun g => k.pending x g

/-- The v registers are not read before the prefetch after a redirect is complete (R104). -/
def Ctx.prefetchHolds (t : Ctx) (n : Nat) (b : Bundle) : Bool :=
  match t.wait.redirect with
  | none => false
  | some (m, k) => k < 2 && n < m + 3 && (opsOf b).any fun i => (readsOf i).any fun e =>
      match e.2 with
      | .v _ => true
      | .s _ | .a _ | .m _ | .p _ | .t _ | .k _ => false

/-- An acquire of the context has not returned its value (R243, R248). An LDACQ that has faulted holds no
issue: every access after it is diverted (R252). An atomic that acquires holds issue on the ring too, until
it has returned (log 65). -/
def State.acquiring (s : State) (c : Nat) (x : Bool) : Bool :=
  ((s.core c).accs.any fun a => a.x == x && ((a.isAtomic && a.scope != 0) || (a.kind == .ldacq &&
    (match a.st with
     | .faulted _ => false
     | .walking | .found _ | .failed _ | .ready | .onPath => true)))) ||
  (s.myEntries c x).any fun e => e.acc.isAtomic && e.acc.scope != 0 && !e.returned

/-- Requests that may be outstanding (R231, R377). -/
def State.requestLimit (s : State) : Nat := if s.mdl.pStage = 0 then 1536 else 512

/-- A hold of FENCE or FENCESC in force that holds a class (R250). -/
def State.fenced (s : State) (c : Nat) (x : Bool) (cls : Nat) : Bool :=
  (s.ctx c x).wait.holds.any fun h => !h.xf && (h.sc || getBit h.mask cls) && !(s.holdDone c x h)

def State.xfenced (s : State) (c : Nat) (x : Bool) : Bool :=
  (s.ctx c x).wait.holds.any fun h => h.xf && !(s.holdDone c x h)

/-- A slot-1 global access, or a count read of class 0, may not issue (R231, R243, R250). -/
def State.accessHeld (s : State) (c : Nat) (x : Bool) (cls : Nat) : Bool :=
  s.requestLimit ≤ (s.core c).accs.length || s.acquiring c x || s.fenced c x cls

/-- The release at PACKAGE scope that RPORT and RACK make (R277, R278). -/
def State.packageReleased (s : State) (c : Nat) (x : Bool) : Bool :=
  s.accsDone c x (s.core c).nextAcc (BitVec.allOnes 16) true &&
    s.pathDone (dieOf c) (s.die (dieOf c)).nextPath

/-- Commands of a core that have issued and not ended (R256). -/
def State.queuedCommands (s : State) (c : Nat) : Nat :=
  ((s.die (dieOf c)).cmds.filter fun q => q.core == c && q.copyNode.isNone).length

/-- What holds a slot-1 operation that performs. -/
def State.slot1Held (s : State) (c : Nat) (x : Bool) (i : Instr) : Bool :=
  let div := (s.ctx c x).diverted
  match globalUse i with
  | some u => s.accessHeld c x u.cls.toNat ||
      (div != 0 && (u.strel || (u.atomic && u.scope != 0)))
  | none =>
    match i with
    | .fence m _ | .xfence m => m &&& div != 0
    | .fencesc _ => div != 0
    | .rport _ _ _ _ | .rack _ _ _ => !(s.packageReleased c x)
    | _ => isCommand i && (16 ≤ s.queuedCommands c || s.xfenced c x)

/-- A job that still holds a tile register: its destination and its fields to the end, its sources until
its last read (R289). -/
def Job.holds (j : Job) (n : Nat) (d : BitVec 4) : Bool :=
  (j.dest == some d) ||
    ((jobRegs j.op).1.contains d && (j.waiting || j.occupied n))

/-- The busy bit of a descriptor, and of a knot register (R289). -/
def Core.tBusy (k : Core) (x : Bool) (n : Nat) (d : BitVec 4) : Bool :=
  (k.array ++ k.tile).any fun j => j.x == x && j.holds n d

def Core.kBusy (k : Core) (x : Bool) (d : BitVec 3) : Bool :=
  k.array.any fun j => j.x == x && (jobRegs j.op).2 == some d

/-- A write of a tile through descriptor d is in flight. -/
def Core.tWriting (k : Core) (x : Bool) (d : BitVec 4) : Bool :=
  (k.array ++ k.tile).any fun j => j.x == x && tileWrite j.op == some d

/-- The destination of an operation is held: an array step passes earlier array steps that accumulate
into it. -/
def Core.destHeld (k : Core) (x : Bool) (n : Nat) (i : Instr) (d : BitVec 4) : Bool :=
  (k.array ++ k.tile).any fun j => j.x == x && j.holds n d &&
    !(isArrayStep i && isArrayStep j.op && j.dest == some d && !((tileReads j.op).contains d))

/-- What holds a slot-3 operation, or an S2T or S2K, that performs (R289). -/
def Core.slot3Held (k : Core) (x : Bool) (n : Nat) (i : Instr) : Bool :=
  (match tileWrite i with
   | some d => k.destHeld x n i d
   | none => false) ||
  ((tileReads i).any fun d => k.tWriting x d && tileWrite i != some d) ||
  (match i with
   | .tset _ d a _ _ => k.tBusy x n d || k.tBusy x n a
   | .t2s _ a _ _ => k.tBusy x n a
   | .k2s _ q _ _ => k.kBusy x q
   | .sflags _ d q f => (getBit f 0 && k.kBusy x q) || (getBit f 1 && k.tBusy x n d)
   | .s2t _ d _ _ => k.tBusy x n d
   | .s2k _ d _ _ => k.kBusy x d
   | _ => false)

/-- The array queue and the tile unit (R289), whatever the stage guard. -/
def Core.unitHeld (k : Core) (n : Nat) (i : Instr) : Bool :=
  (isArrayStep i && 2 ≤ k.waitingSteps) || (isTileOp i && !(k.tileFree n))

/-- A tile that VLDACC or VSTACC reaches is still used by an earlier slot-3 operation (R176). -/
def Core.accHeld (k : Core) (ar : Nat) : Bool :=
  ar < 12288 && (k.array ++ k.tile).any fun j => j.tiles.contains (ar / 64)

/-- What holds a slot-2 operation (R173, R176, R377). -/
def State.slot2Held (s : State) (c : Nat) (x : Bool) (i : Instr) : Bool :=
  let k := s.core c
  let n := s.clk c
  let r := (k.ctx x).regs
  (match i with
   | .vld _ _ _ _ _ | .vlds _ _ _ _ _ | .vgath _ _ _ _ _ | .vst _ _ _ _ _ | .vsts _ _ _ _ _
   | .vscat _ _ _ _ _ => n < k.portFree
   | .vldacc _ a o _ _ | .vstacc _ a o _ _ => k.accHeld (accRowOf r a o)
   | _ => false) ||
  (isVectorArith i && 4 ≤ s.mdl.pStage.toNat && k.vlast.any fun m => n < m + 2)

/-- Slot-2 and slot-3 results of the context that NFSTAT waits for (R88); the model waits for every result
that is in flight (log 26). -/
def Core.resultsLanded (k : Core) (x : Bool) : Bool :=
  ((k.array ++ k.tile).all fun j => j.x != x) && k.timers.all fun e =>
    match e.2 with
    | .resultLand _ y _ => y != x
    | _ => true

/-- The count word of a LOOP.SR is asked for neither while an access of class 0 at its address would follow
an earlier one onto the ring, nor while an acquire on the ring has not returned (R139, R243, R252): no entry
is made for it (log 63). -/
def State.countHeld (s : State) (c : Nat) (x : Bool) (a : BitVec 5) : Bool :=
  let v := (s.ctx c x).regs.sVal a
  s.accessHeld c x 0 || s.mustDivert c { newAccess x .count 4 false 0 v 0 with id := (s.core c).nextAcc } ||
    (s.myEntries c x).any fun e => e.acc.kind == .ldacq && !e.returned

/-- What holds a slot-0 operation that performs (R152, R88, R139). -/
def State.slot0Held (s : State) (c : Nat) (x : Bool) (i : Instr) : Bool :=
  let k := s.core c
  match i with
  | .barg _ _ => (k.ctx x).wait.barg.isSome
  | .mfsr _ n => n == 1 && !(k.resultsLanded x)
  | .loopSr _ _ a => (k.ctx x).wait.countWord.isNone && s.countHeld c x a
  | _ => false

/-- A bundle is held by something other than its sources. -/
def State.held (s : State) (c : Nat) (x : Bool) (b : Bundle) : Bool :=
  let k := s.core c
  let t := k.ctx x
  let n := s.clk c
  k.destPending x b || t.prefetchHolds n b || s.slot2Held c x b.s2 ||
    (opsOf b).any fun i =>
      k.unitHeld n i || (performs i t.regs && (s.slot1Held c x i || k.slot3Held x n i || s.slot0Held c x i))

/-! ## GUARD and PIPEERR (R318, R319) -/

/-- A bundle at which a guard record is reported. -/
def reports (b : Bundle) (r : Regs) : Bool :=
  match b.s0 with
  | .barg g _ | .done g => guardHolds g r
  | .safept _ => true
  | _ => false

/-- The context's scratchpad work of earlier bundles is over (R318). -/
def Core.scratchDone (k : Core) (x : Bool) : Bool :=
  ((k.array ++ k.tile).all fun j => j.x != x) && k.xq.all fun j => j.x != x

/-- GUARD's INFO (R318). -/
def GuardRec.info (g : GuardRec) : BitVec 32 :=
  let place := if g.space == 2 then g.granule.toNat else g.bank.toNat + g.offset.toNat * 2 ^ 5
  BitVec.ofNat 32 (place + g.path.toNat * 2 ^ 19 + g.count.toNat * 2 ^ 21 + g.space.toNat * 2 ^ 29)

/-- GUARD taken at the reporting bundle, its record cleared. -/
def Ctx.takeGuard (t : Ctx) (n : Nat) (g : GuardRec) : Ctx :=
  { t with guardRec := none }.trapEntry n 0x10 0 g.info 0 true t.pc.toNat

/-- PIPEERR taken at a bundle boundary; a count word that the next bundle awaits is asked for again. -/
def Ctx.takePipeErr (t : Ctx) (n : Nat) (unit : BitVec 3) : Ctx :=
  { t with pipeErr := none, wait := { t.wait with countWord := none } }.trapEntry n 0x11 0
    (unit.setWidth 32) 0 true t.pc.toNat

def State.deliverPipeErr (s : State) (c : Nat) (x : Bool) (unit : BitVec 3) : State :=
  (s.modCore c fun k => { k with accs := k.accs.filter fun a => a.x != x || a.kind != .count }).modCtx c x
    fun t => t.takePipeErr (s.clk c) unit

/-! ## The attempt -/

/-- What a core does in its turn: nothing yet, with what it noted; a trap is taken; a bundle issues. -/
inductive Attempt where
  | waits (s : State)
  | trapped (s : State)
  | issues (b : Bundle) (s : State)
deriving DecidableEq, Repr

/-- JUMPOUT past the end of the image (R133): EPC lies one bundle past it. -/
def State.fellOut (s : State) (c : Nat) (x : Bool) : State :=
  s.modCtx c x fun t =>
    t.trapEntry (s.clk c) 0x06 0 (BitVec.ofNat 32 (16 * t.pc.toNat)) 0 false t.nbundle

/-- The hinted read of a bundle that the near latch does not serve (R105). -/
def Ctx.latchMiss (t : Ctx) (b : Bundle) : Bool :=
  match hintOf b.s2 with
  | some a => t.wait.latch != some a
  | none => false

/-- The weight of an energy code (R374). -/
def Core.weight (k : Core) (e : BitVec 4) : Nat :=
  let q := e.toNat % 4
  slice (vget k.ewt (e.toNat / 4) 0) (16 * q + 15) (16 * q)

/-- The core may issue, and the bundle's weight is taken from its balance (R374); slot-2 arithmetic is
noted (R377). -/
def Core.spend (k : Core) (n : Nat) (b : Bundle) : Core :=
  { k with balance := k.balance - k.weight b.e,
           vlast := if isVectorArith b.s2 then some n else k.vlast }

/-- The count word of LOOP.SR is asked for (R139). -/
def State.askCount (s : State) (c : Nat) (x : Bool) (a : BitVec 5) : State :=
  let v := (s.ctx c x).regs.sVal a
  (s.modWait c x fun w => { w with countWord := some none }).access c (newAccess x .count 4 false 0 v 0)

/-- A bundle that nothing holds but LOOP.SR's count, the near latch and the energy balance. A hinted read that
misses the latch in the first bundles after a redirect waits for the prefetch of R104, and then stalls its 2 clocks:
R105 does not say that the two overlap (DESIGN CHOICE, log 88). -/
def State.tryIssue (s : State) (c : Nat) (x : Bool) (b : Bundle) : Attempt :=
  let k := s.core c
  let t := k.ctx x
  let n := s.clk c
  let stall := t.latchMiss b && match t.wait.latchTill with
    | none => true
    | some m => n < m
  if stall then
    .waits (if t.wait.latchTill.isNone then
      s.modWait c x fun w => { w with latchTill := some (n + 2) } else s)
  else match b.s0, t.wait.countWord with
    | .loopSr _ _ a, none => .waits (s.askCount c x a)
    | .loopSr _ _ _, some none => .waits s
    | _, _ => if k.balance ≤ 0 then .waits s else .issues b (s.modCore c fun k => k.spend n b)

/-- A legal bundle (R313, R318). -/
def State.tryBundle (s : State) (c : Nat) (x : Bool) (b : Bundle) : Attempt :=
  let k := s.core c
  let t := k.ctx x
  let src := k.sources x b
  if src.blocked then
    match worstTrap (s.earlyCauses c x b) with
    | some u => .trapped (s.takeTrap c x u)
    | none => .waits s
  else match worstTrap (s.causes c x b) with
    | some u => .trapped (s.takeTrap c x u)
    | none =>
      let report := reports b t.regs && !t.tinfo.hm
      if report && !(k.scratchDone x) then .waits s
      else match t.guardRec with
        | some g =>
          if report then .trapped (s.modCtx c x fun t => t.takeGuard (s.clk c) g)
          else if s.held c x b then .waits s else s.tryIssue c x b
        | none => if s.held c x b then .waits s else s.tryIssue c x b

/-- The bundle at the program counter: fetched, decoded, and tried (R92, R117, R133). -/
def State.tryFetch (s : State) (c : Nat) (x : Bool) : Attempt :=
  let k := s.core c
  let t := k.ctx x
  if t.nbundle ≤ t.pc.toNat then .trapped (s.fellOut c x)
  else match decodeBundle (bundleWords (k.fetch x t.pc.toNat)) with
    | .error m => .trapped (s.takeTrap c x ⟨1, 0x01, m, 0⟩)
    | .ok b => s.tryBundle c x b

/-- A context does not issue in this clock: it is not running, the module or the context is halted, a step
has had its bundle, a redirect was made in this clock, or it pauses (R31, R104, R154, R332, R380). -/
def State.idle (s : State) (c : Nat) (x : Bool) : Bool :=
  let k := s.core c
  let t := k.ctx x
  let n := s.clk c
  t.status != .running || s.mdl.halted || k.dbg.halted || (k.dbg.stepping && k.dbg.issued) ||
    t.wait.redirect.any (fun e => e.2 == 0 && n ≤ e.1) || n < t.wait.pauseTill

/-- The turn of the context that issues. -/
def State.attempt (s : State) (c : Nat) (x : Bool) : Attempt :=
  if s.idle c x then .waits s
  else
    let t := s.ctx c x
    match t.pipeErr with
    | some u => if t.tinfo.hm then s.tryFetch c x else .trapped (s.deliverPipeErr c x u)
    | none => s.tryFetch c x

/-! ## The bundle's issue -/

/-- One outcome after another. -/
def andThen (r : Step) (f : State → Step) : Step :=
  match r with
  | .next s => f s
  | .fault e => .fault e
  | .refused e => .refused e

/-- A BR or CALL beside a lend word: its continuation is a redirect (R104). -/
def lendBranch (b : Bundle) : Bool :=
  b.lendWord && match b.s0 with
    | .br _ _ | .call _ _ => true
    | _ => false

/-- The four operations performed, slot 1 to slot 3 and then slot 0 (R86, R224), and the commit. `ex` is the
meaning of an operation. -/
def runBundle (ex : Instr → State → Step) (c : Nat) (x : Bool) (b : Bundle) (s : State) : Step :=
  andThen (ex b.s1 { s with focusC := c, focusX := x }.openIssue) fun s =>
  andThen (ex b.s2 s) fun s =>
  andThen (ex b.s3 s) fun s =>
  andThen (ex b.s0 s) fun s =>
    .next (if lendBranch b then s.modIssue fun u => { u with redirect := true } else s).closeIssue

/-- A stepped bundle has committed or trapped (R332). -/
def State.stepMade (s : State) (c : Nat) : State :=
  if (s.core c).dbg.stepping then
    (s.modCore c fun k => { k with dbg := { k.dbg with issued := true } }).stepDone c
  else s

end Sys2Proof.Machine
end

