-- ==== Sys2Proof/Machine/Clock.lean ====
section
/-!
DEFINITION. What a step of the module does, in this order (log 1): an event of the agenda that is due; else
the turn of the next core that has something to do in this master clock, its due results first; else the
next master clock (R5). And the state in which the next step runs a given slot word.
-/
namespace Sys2Proof.Machine

/-! ## Conditions that a context polls (R153, R155, R215) -/

/-- WAITEV's destination becomes full two clocks after an event of its mask is seen (R155). -/
def State.pollEvents (s : State) (c : Nat) (x : Bool) : State :=
  let t := s.ctx c x
  let seen := t.wait.waitev.filter fun w => t.evt &&& w.2 != 0
  if seen.isEmpty then s
  else
    let s := s.modWait c x fun w => { w with waitev := w.waitev.filter fun e => t.evt &&& e.2 == 0 }
    seen.foldl (fun s w =>
      s.timer c (s.clk c + 2) (.resultLand c x (.s w.1 (t.evt.setWidth 64)))) s

/-- BARG's arrival counts once its release at GANG scope has been made (R153); while the gang is spread it
waits as a release at PACKAGE scope (R211). -/
def State.pollBarrier (s : State) (c : Nat) (x : Bool) : State :=
  let t := s.ctx c x
  match t.wait.barg with
  | none => s
  | some b =>
    let home := s.scopeHome t.runOf 1
    let ready := s.accsDone c x b.upTo (BitVec.allOnes 16) home
    let m := s.markNow c b.mark ready
    let s := s.modWait c x fun w => { w with barg := w.barg.map fun b => { b with mark := m } }
    if !b.arrived && ready && s.markDone c home m then s.arrive c x else s

/-- Fences whose conditions hold are over (R250). -/
def State.pollFences (s : State) (c : Nat) (x : Bool) : State :=
  s.modWait c x fun w => { w with
    holds := (w.holds.map (s.holdMark c x)).filter fun h => !(s.holdDone c x h) }

def State.poll (s : State) (c : Nat) (x : Bool) : State :=
  ((s.pollEvents c x).pollBarrier c x).pollFences c x

/-! ## The turn of a core -/

/-- The master clock is a core clock of core c's cluster (R5, R373). -/
def State.clocked (s : State) (c : Nat) : Bool :=
  patBit (s.die (dieOf c)).effPat (clusterOf c % 3) s.now

/-- The first result of a core that is due. -/
def State.dueTimer (s : State) (c : Nat) : Option Instr :=
  match (s.core c).timers with
  | [] => none
  | (t, i) :: _ => if t ≤ s.clk c then some i else none

/-- A context has come to an end that the core acts on. -/
def CtxStatus.ends : CtxStatus → Bool
  | .faulted _ | .failing _ | .suspending _ _ | .ending => true
  | .free | .running | .parked | .placed => false

/-- A core that has something to do in this master clock: none while the device is halted (R380). -/
def State.busy (s : State) (c : Nat) : Bool :=
  let k := s.core c
  !s.mdl.halted && ((s.dueTimer c).isSome ||
    (s.clocked c && (k.cur.isSome || k.c0.status.ends || k.c1.status.ends)))

/-- The first busy core among n cores from c. -/
def State.busyFrom (s : State) (c : Nat) : Nat → Option Nat
  | 0 => none
  | n + 1 => if s.busy c then some c else s.busyFrom (c + 1) n

/-- What becomes of a context's end: its strand faults or fails (R68, R315), it suspends once drained
(R327), it retires once its work is done (R151). None: nothing yet. -/
def turnEnd (ex : Instr → State → Step) (s : State) (c : Nat) (x : Bool) : Option Step :=
  match (s.ctx c x).status with
  | .faulted cause => some (.next ((s.strandFault c x cause).contextEnded c))
  | .failing code => some (.next ((s.strandFail c x code).contextEnded c))
  | .suspending _ _ => if s.drained c x then some (ex (.strandSuspension c x) s) else none
  | .ending => if s.doneDrained c x then some (ex (.doneRetire c x) s) else none
  | .free | .running | .parked | .placed => none

/-- The turn of the context that issues (R31). -/
def turnIssue (ex : Instr → State → Step) (s : State) (c : Nat) (x : Bool) : Step :=
  match s.attempt c x with
  | .waits s => .next s
  | .trapped s => .next (s.stepMade c)
  | .issues b s => andThen (runBundle ex c x b s) fun s => .next ((s.pollBarrier c x).stepMade c)

/-- A core's turn: a due result lands, or the core polls, ends a context, or issues. -/
def turnOf (ex : Instr → State → Step) (s : State) (c : Nat) : Step :=
  match s.dueTimer c with
  | some i => ex i (s.modCore c fun k => { k with timers := k.timers.tail })
  | none =>
    let p := (s.poll c false).poll c true
    let s : State := { p with turn := c + 1 }
    match turnEnd ex s c false with
    | some r => r
    | none =>
      match turnEnd ex s c true with
      | some r => r
      | none =>
        match (s.core c).cur with
        | some x => turnIssue ex s c x
        | none => .next s

/-! ## Time -/

/-- The clock patterns that take effect in this master clock, so that the clock itself is counted by them (R373). -/
def State.patternsDue (s : State) : State :=
  s.agenda.foldl (fun s e => match e.2 with
    | .clkpatUpdate d => if e.1 = s.now && s.now % 16 = 0 then s.modDie d fun k => { k with effPat := s.effPattern d }
        else s
    | _ => s) s

/-- The core clocks of the clusters in master clock `now` (R5, R373). -/
def State.advanceClocks (s : State) : State :=
  let clk (g : Fin 192) : Nat := vget s.coreClk g.val 0 + bit (s.clocked (4 * g.val))
  { s with coreClk := Vector.ofFn clk }

/-- The next master clock; every 64th refills the balances (R374). -/
def State.tick (s : State) : State :=
  let s := ({ s with now := s.now + 1, turn := 0 } : State).patternsDue.advanceClocks
  if s.now % 64 = 0 then { s with agenda := (s.now, .energyRefill) :: s.agenda } else s

/-- A halted device takes nothing but the reset of the module (R380). -/
def State.takes (s : State) : Instr → Bool
  | .moduleReset => true
  | _ => !s.mdl.halted

/-- One step of the module, `ex` being the meaning of operations and events. -/
def advance (ex : Instr → State → Step) (s : State) : Step :=
  match s.agenda with
  | (t, i) :: r =>
    if t ≤ s.now then
      if s.takes i then ex i { s with agenda := r } else .next { s with agenda := r }
    else match s.busyFrom s.turn (768 - s.turn) with
      | some c => turnOf ex s c
      | none => .next s.tick
  | [] =>
    match s.busyFrom s.turn (768 - s.turn) with
    | some c => turnOf ex s c
    | none => .next s.tick

/-! ## A slot word placed for the next step (log 2, log 8) -/

/-- The bundle that holds a lone slot word, its other slots NOP and E = 0. -/
def lonelyBundle (nbits w : Nat) : Nat :=
  let v := w % 2 ^ nbits
  let k := tableSlot v
  if k = 0 then v % 2 ^ 28 else v % 2 ^ 32 * 2 ^ (32 * k)

/-- A strand that occupies a context which has none. -/
def Strand.blank : Strand :=
  { record := 0, slot := 0, nodeId := 0, inst := 0, stage := 0, rank := 0, width := 1, cls := 0, run := 0,
    nbundle := 8192, image := 0, sptab := 0, spdlim := 65536, ydl := 48000, prio := 0, gen := 0,
    spidx := 0xFFFF, age := 0, alone := false }

/-- A context about to issue: it runs, nothing is in flight or pending, and its counts and waits hold up
nothing. -/
def Ctx.ready (t : Ctx) : Ctx :=
  let n := t.strand.getD Strand.blank
  { t with
    strand := some { n with nbundle := max n.nbundle (t.pc.toNat + 1), spdlim := max n.spdlim (t.spcount.toNat + 1) },
    status := .running, pipeErr := none, guardRec := none, diverted := 0,
    wait := { CtxWait.reset with bargCount := t.wait.bargCount },
    regs := { t.regs with sFull := BitVec.allOnes 32, aFull := BitVec.allOnes 32, aFault := 0,
                          vFull := BitVec.allOnes 64, tFull := BitVec.allOnes 16,
                          kFull := BitVec.allOnes 8 } }

/-- Core 0 about to issue from context 0 the bundle whose 128 bits are given. -/
def Core.readyWith (k : Core) (bits : Nat) : Core :=
  let t := k.c0.ready
  { k with
    c0 := t, cur := some false, array := [], tile := [], xq := [], accs := [], timers := [], portFree := 0,
    vlast := none, balance := max k.balance 1,
    dbg := { k.dbg with halted := false, stepping := false },
    istore := memWriteList k.istore (131072 * bit t.half + 16 * t.pc.toNat) (bytesLE 16 bits) }

/-- The state whose next step issues, on core 0, the bundle that holds the slot word. -/
def State.placeWord (s : State) (nbits w : Nat) : State :=
  { (({ s with agenda := [], turn := 0 } : State).modCore 0 fun k =>
      k.readyWith (lonelyBundle nbits w)) with
    mdl := { s.mdl with halted := false },
    dies := vset s.dies 0 { s.die 0 with effPat := BitVec.allOnes 48, walks := [] } }

end Sys2Proof.Machine
end

