-- ==== Sys2Proof/Machine/Control.lean ====
section
/-!
DEFINITION. Slot 0: control transfer (R134, R135), hardware loops (R138 to R147), the format register
(R148), safe points, DONE, barriers, pauses and waits (R149 to R155), traps and their return (R156,
R157), system registers (R158) and the energy counter (R159).
-/
namespace Sys2Proof.Machine

/-- A taken transfer to bundle n, a redirect (R136, R144). -/
def State.transfer (s : State) (n : Nat) : State :=
  s.modIssue fun u => { u with next := some n, redirect := true, taken := true }

/-- R134; the target lies inside the image where the bundle commits. -/
def execBr (g : Guard) (o : Imm 16) (s : State) : Step :=
  perform (.br g o)
    (fun s => if guardHolds g s.me.regs then s.transfer (branchTo s.me o).toNat else s) s

/-- R134: s31 receives the code offset of the next bundle. -/
def execCall (g : Guard) (o : Imm 16) (s : State) : Step :=
  perform (.call g o)
    (fun s => if guardHolds g s.me.regs then
        (s.res 1 (.s 31 (BitVec.ofNat 64 (16 * (s.me.pc.toNat + 1))))).transfer
          (branchTo s.me o).toNat
      else s) s

/-- A jump to the code offset in s[a] (R135). -/
def jumpReg (g : Guard) (a : BitVec 5) (s : State) : State :=
  let r := s.me.regs
  if guardHolds g r then s.transfer ((r.sVal a).toNat / 16) else s

def execBri (g : Guard) (a : BitVec 5) (s : State) : Step := perform (.bri g a) (jumpReg g a) s
def execRet (g : Guard) (a : BitVec 5) (s : State) : Step := perform (.ret g a) (jumpReg g a) s

/-- LOOP of R140: l names the context, e is the end offset, c the count, and n the stage count of a
rotating loop (0 otherwise). Its two traps are in `trapsOf`. -/
def loopEnter (l : Bool) (e c n : Nat) (s : State) : State :=
  let t := s.me
  let i := t.pc.toNat
  let ct := t.lc l
  let o := t.lc (!l)
  let oa := o.active && !o.frozen
  if c = 0 then
    let t := t.setLc l { ct with active := false }
    if oa && o.last.toNat == i + e then
      let r := endStep o t.regs.q
      ((s.modMe fun _ => { (t.setLc (!l) r.1) with regs := { t.regs with q := r.2.1 } }).modIssue
        fun u => { u with next := some r.2.2, redirect := true })
    else
      (s.modMe fun _ => t).modIssue fun u => { u with next := some (i + e + 1), redirect := true }
  else
    let rot := n != 0
    let ct' : LoopCtx :=
      { first := BitVec.ofNat 13 (i + 1), last := BitVec.ofNat 13 (i + e),
        remain := BitVec.ofNat 36 (if rot then c + n - 1 else c), later := oa,
        n := BitVec.ofNat 4 n, rot := rot, active := true, frozen := false }
    let t := t.setLc l ct'
    let t := if oa then t.setLc (!l) { o with later := false } else t
    let t := if rot then { t with regs := { t.regs with q := 2 } } else t
    (s.modMe fun _ => t).modIssue fun u => { u with next := some (i + 1) }

def execLoopI (l : Bool) (o : BitVec 7) (c : BitVec 10) (s : State) : Step :=
  perform (.loopI l o c) (loopEnter l o.toNat c.toNat 0) s

def execLoopR (l : Bool) (o : BitVec 7) (r : BitVec 5) (s : State) : Step :=
  perform (.loopR l o r)
    (fun s => loopEnter l o.toNat (low32 (s.me.regs.sVal r)).toNat 0 s) s

/-- The count word arrives before the bundle issues (R139). -/
def execLoopSr (l : Bool) (o : BitVec 7) (r : BitVec 5) (s : State) : Step :=
  perform (.loopSr l o r)
    (fun s => (loopEnter l o.toNat s.me.countValue 0 s).modMe fun t =>
      { t with wait := { t.wait with countWord := none } }) s

def execLoopRot (l : Bool) (o : BitVec 7) (r : BitVec 5) (n : BitVec 4) (s : State) : Step :=
  perform (.loopRot l o r n)
    (fun s => loopEnter l o.toNat (low32 (s.me.regs.sVal r)).toNat n.toNat s) s

/-- R145. -/
def execLexit (g : Guard) (l : Bool) (s : State) : Step :=
  perform (.lexit g l)
    (fun s => if guardHolds g s.me.regs then
        s.modMe fun t =>
          let r := exitLoop (t.lc l) t.regs.q
          { (t.setLc l r.1) with regs := { t.regs with q := r.2 } }
      else s) s

/-- R147. -/
def execLstat (g : Guard) (d : BitVec 5) (w : BitVec 2) (l : Bool) (s : State) : Step :=
  perform (.lstat g d w l)
    (fun s => let t := s.me
      if guardHolds g t.regs then s.res 1 (.s d ((t.lc l).word t.regs.q w)) else s) s

/-- The context after an LSET of word w (R146, R147): in handler mode the loop context is left frozen. Word 3, the
stage bits, belongs to neither context and freezes none (DESIGN CHOICE, log 91). -/
def Ctx.lsetWord (t : Ctx) (l : Bool) (w : BitVec 2) (v : Word) : Ctx :=
  if w = 3 then { t with regs := { t.regs with q := v.setWidth 16 } }
  else
    let z := (t.lc l).setWord w v
    t.setLc l { z with frozen := z.frozen || t.tinfo.hm }

/-- R147; a refused value traps (see `trapsOf`). Stage bits written in the END bundle of a rotating loop are in
place before its end step shifts them (DESIGN CHOICE, log 90). -/
def execLset (g : Guard) (a : BitVec 5) (w : BitVec 2) (l : Bool) (s : State) : Step :=
  perform (.lset g a w l)
    (fun s => if guardHolds g s.me.regs then
        (s.modMe fun t => t.lsetWord l w (t.regs.sVal a)).modIssue fun u =>
          { u with lset := if w = 3 then u.lset else some l }
      else s) s

/-- A write of FMT: it governs bundles from the fifth after this one on (R108). -/
def Ctx.writeFmt (t : Ctx) (v : BitVec 15) : Ctx := { t with fmtNext := (5, v) :: t.fmtNext }

/-- R148. -/
def execSetfmt (i : BitVec 15) (s : State) : Step :=
  perform (.setfmt i) (fun s => s.modMe fun t => t.writeFmt i) s

/-- PREQ is set, and was set in an earlier clock (R327). -/
def State.seesPreq (s : State) (t : Ctx) : Bool := getBit t.evt 2 && t.wait.preqAt < s.now

/-- R149: no effect in handler mode; otherwise SPCOUNT := 0, and a suspension if PREQ is set. -/
def execSafept (i : BitVec 15) (s : State) : Step :=
  perform (.safept i)
    (fun s => let t := s.me
      if t.tinfo.hm then s else s.modIssue fun u => { u with after := .safept i (s.seesPreq t) }) s

/-- R149. -/
def execYield (i : BitVec 15) (s : State) : Step :=
  perform (.yield i)
    (fun s => if s.me.tinfo.hm then s else s.modIssue fun u => { u with after := .safept i true }) s

/-- R151: the strand ends once its work is done (`doneRetire`). -/
def execDone (g : Guard) (s : State) : Step :=
  perform (.done g)
    (fun s => if guardHolds g s.me.regs then s.modIssue fun u => { u with after := .done } else s) s

/-- R152: the strand's next arrival; it counts once R153's release has been made. -/
def execBarg (g : Guard) (d : BitVec 5) (s : State) : Step :=
  perform (.barg g d)
    (fun s => if guardHolds g s.me.regs then
        let n := s.myCore.nextAcc
        (s.awaitMe (.s d)).modMe fun t =>
          let k := t.wait.bargCount + 1
          { t with wait := { t.wait with bargCount := k, barg := some ⟨d, k, false, n, none, false⟩ } }
      else s) s

/-- R154: n = zext(imm10) + s[a][15:0] core clocks. -/
def execPause (a : BitVec 5) (i : BitVec 10) (s : State) : Step :=
  perform (.pause a i)
    (fun s => s.modIssue fun u =>
      { u with after := .pause (i.toNat + slice (s.me.regs.sVal a) 15 0) }) s

/-- R155: the wait ends two core clocks after an event of the mask is seen, or two clocks after issue
where the mask is 0. -/
def execWaitev (g : Guard) (d a : BitVec 5) (s : State) : Step :=
  perform (.waitev g d a)
    (fun s => let t := s.me
      if guardHolds g t.regs then
        let mask : BitVec 3 := (t.regs.sVal a).setWidth 3
        if mask = 0 || t.evt &&& mask != 0 then s.res 2 (.s d (t.evt.setWidth 64))
        else (s.awaitMe (.s d)).modMe fun t =>
          { t with wait := { t.wait with waitev := t.wait.waitev ++ [(d, mask)] } }
      else s) s

/-- R156: the bundle commits, and then traps. -/
def execTrap (i : BitVec 10) (s : State) : Step :=
  perform (.trap i) (fun s => s.modIssue fun u => { u with after := .trap i }) s

/-- R157; outside handler mode it traps (see `trapsOf`). -/
def execRft (g : Guard) (s : State) : Step :=
  perform (.rft g)
    (fun s => if guardHolds g s.me.regs then
        (s.modMe Ctx.returnFromTrap).modIssue fun u =>
          { u with next := some s.me.epc.toNat, redirect := true }
      else s) s

/-- What MFSR returns: the register before the bundle; SRCTR before the draws of the bundle (R10, R158). -/
def State.mfsrVal (s : State) (i : BitVec 10) : Word :=
  if i = 0x003 then s.issue.ctr0 else s.sysReg s.issue.c s.issue.x i

/-- R158. -/
def execMfsr (d : BitVec 5) (i : BitVec 10) (s : State) : Step :=
  perform (.mfsr d i) (fun s => s.res 2 (.s d (s.mfsrVal i))) s

/-- The writable fields of a system register written (R158, R314): FMT with its shadow, NFSTAT and
EVT by write-one-to-clear, SRKEY and SRCTR after the bundle's draws; the others ignore writes. -/
def writeSysReg (i : BitVec 10) (v : Word) (s : State) : State :=
  match i.toNat with
  | 0x000 => s.modMe fun t => t.writeFmt (v.setWidth 15)
  | 0x001 => s.modIssue fun u => { u with nfClr := u.nfClr ||| v.setWidth 3 }
  | 0x002 => s.modIssue fun u => { u with key := some v }
  | 0x003 => s.modIssue fun u => { u with ctr := some v }
  | 0x005 => s.modMe fun t =>
      { t with evt := nfstatAfter t.evt (t.evt &&& setIn t.evtNow s.now) (v.setWidth 3 &&& 3) }
  | 0x009 => s.modMe fun t => { t with epc := BitVec.ofNat 14 (v.toNat / 16) }
  | 0x00A => s.modMe fun t =>
      { t with tvecUnset := getBit v 63, tvec := BitVec.ofNat 14 (v.toNat / 16) }
  | _ => s

def execMtsr (a : BitVec 5) (i : BitVec 10) (s : State) : Step :=
  perform (.mtsr a i) (fun s => writeSysReg i (s.me.regs.sVal a) s) s

/-- R159: the die's count and its SAT, in one instant. -/
def execEcap (d : BitVec 5) (s : State) : Step :=
  perform (.ecap d)
    (fun s => let e := s.die (dieOf s.issue.c)
      (s.res 24 (.s d (e.energyAt s.now))).res 24 (.s (d + 1) (BitVec.ofNat 64 (bit (e.satAt s.now))))) s

end Sys2Proof.Machine
end

