-- ==== Sys2Proof/Machine/Scalar.lean ====
section
/-!
DEFINITION. Slot 0: scalar arithmetic (R160 to R163), compares and predicates (R164, R165), and the
copies to a and v registers (R166); S2T and S2K
stand in Array.lean.
-/
namespace Sys2Proof.Machine

/-- An operation of latency n that writes s[d] when its guard holds (R131). -/
def scalarOp (g : Guard) (d : BitVec 5) (n : Nat) (f : Regs → Word) (s : State) : State :=
  let r := s.me.regs
  if guardHolds g r then s.res n (.s d (f r)) else s

/-- An unguarded operation of latency 1 that writes s[d] (R162). -/
def scalarImm (d : BitVec 5) (f : Regs → Word) (s : State) : State :=
  s.res 1 (.s d (f s.me.regs))

/-- A predicate written with latency 1 when the guard holds (R131). -/
def predOp (g : Guard) (p : BitVec 3) (f : Regs → Bool) (s : State) : State :=
  let r := s.me.regs
  if guardHolds g r then s.res 1 (.p p (f r)) else s

/-- R97. -/
def execNopS0 (s : State) : Step := perform .nopS0 id s

def execAdd (g : Guard) (d a b : BitVec 5) (w : Bool) (s : State) : Step :=
  perform (.add g d a b w) (scalarOp g d 1 fun r => addVal w (r.sVal a) (r.sVal b)) s

def execSub (g : Guard) (d a b : BitVec 5) (w : Bool) (s : State) : Step :=
  perform (.sub g d a b w) (scalarOp g d 1 fun r => subVal w (r.sVal a) (r.sVal b)) s

def execMul (g : Guard) (d a b : BitVec 5) (w : Bool) (s : State) : Step :=
  perform (.mul g d a b w) (scalarOp g d 3 fun r => mulVal w (r.sVal a) (r.sVal b)) s

def execMulhi (g : Guard) (d a b : BitVec 5) (s : State) : Step :=
  perform (.mulhi g d a b) (scalarOp g d 3 fun r => mulhiVal (r.sVal a) (r.sVal b)) s

def execMulhn (g : Guard) (d a b : BitVec 5) (s : State) : Step :=
  perform (.mulhn g d a b) (scalarOp g d 3 fun r => mulhnVal (r.sVal a) (r.sVal b)) s

def execAnd (g : Guard) (d a b : BitVec 5) (s : State) : Step :=
  perform (.and g d a b) (scalarOp g d 1 fun r => r.sVal a &&& r.sVal b) s

def execOr (g : Guard) (d a b : BitVec 5) (s : State) : Step :=
  perform (.or g d a b) (scalarOp g d 1 fun r => r.sVal a ||| r.sVal b) s

def execXor (g : Guard) (d a b : BitVec 5) (s : State) : Step :=
  perform (.xor g d a b) (scalarOp g d 1 fun r => r.sVal a ^^^ r.sVal b) s

def execShl (g : Guard) (d a b : BitVec 5) (w : Bool) (s : State) : Step :=
  perform (.shl g d a b w) (scalarOp g d 1 fun r => shlVal w (r.sVal a) (r.sVal b).toNat) s

def execShr (g : Guard) (d a b : BitVec 5) (w : Bool) (s : State) : Step :=
  perform (.shr g d a b w) (scalarOp g d 1 fun r => shrVal w (r.sVal a) (r.sVal b).toNat) s

def execSar (g : Guard) (d a b : BitVec 5) (w : Bool) (s : State) : Step :=
  perform (.sar g d a b w) (scalarOp g d 1 fun r => sarVal w (r.sVal a) (r.sVal b).toNat) s

def execMin (g : Guard) (d a b : BitVec 5) (s : State) : Step :=
  perform (.min g d a b) (scalarOp g d 1 fun r => minVal (r.sVal a) (r.sVal b)) s

def execMax (g : Guard) (d a b : BitVec 5) (s : State) : Step :=
  perform (.max g d a b) (scalarOp g d 1 fun r => maxVal (r.sVal a) (r.sVal b)) s

def execMinn (g : Guard) (d a b : BitVec 5) (s : State) : Step :=
  perform (.minn g d a b) (scalarOp g d 1 fun r => minnVal (r.sVal a) (r.sVal b)) s

def execMaxn (g : Guard) (d a b : BitVec 5) (s : State) : Step :=
  perform (.maxn g d a b) (scalarOp g d 1 fun r => maxnVal (r.sVal a) (r.sVal b)) s

/-- SEL is unguarded: the guard fields select (R160). -/
def execSel (g : Guard) (d a b : BitVec 5) (s : State) : Step :=
  perform (.sel g d a b)
    (scalarImm d fun r => if guardHolds g r then r.sVal a else r.sVal b) s

def execClz (g : Guard) (d a : BitVec 5) (w : Bool) (s : State) : Step :=
  perform (.clz g d a w) (scalarOp g d 1 fun r => clzVal w (r.sVal a)) s

def execPopc (g : Guard) (d a : BitVec 5) (w : Bool) (s : State) : Step :=
  perform (.popc g d a w) (scalarOp g d 1 fun r => popcVal w (r.sVal a)) s

def execBfx (g : Guard) (d a b : BitVec 5) (sx : Bool) (s : State) : Step :=
  perform (.bfx g d a b sx) (scalarOp g d 1 fun r => bfxVal sx (r.sVal a) (r.sVal b)) s

/-- s[d] is also a source (R161). -/
def execBfi (g : Guard) (d a b : BitVec 5) (s : State) : Step :=
  perform (.bfi g d a b) (scalarOp g d 1 fun r => bfiVal (r.sVal d) (r.sVal a) (r.sVal b)) s

/-- R164. -/
def execCmp (g : Guard) (p : BitVec 3) (c : BitVec 2) (a b : BitVec 5) (inv : Bool) (s : State) :
    Step :=
  perform (.cmp g p c a b inv) (predOp g p fun r => condHolds c (r.sVal a) (r.sVal b) != inv) s

/-- PLOG is unguarded (R165). -/
def execPlog (d a b : BitVec 3) (t : BitVec 4) (s : State) : Step :=
  perform (.plog d a b t)
    (fun s => s.res 1 (.p d (truth t (s.me.regs.pVal a) (s.me.regs.pVal b)))) s

def execAddi (d a : BitVec 5) (i : BitVec 10) (s : State) : Step :=
  perform (.addi d a i) (scalarImm d fun r => addiVal (r.sVal a) i) s

def execAndi (d a : BitVec 5) (i : BitVec 10) (s : State) : Step :=
  perform (.andi d a i) (scalarImm d fun r => andiVal (r.sVal a) i) s

def execOri (d a : BitVec 5) (i : BitVec 10) (s : State) : Step :=
  perform (.ori d a i) (scalarImm d fun r => oriVal (r.sVal a) i) s

def execXori (d a : BitVec 5) (i : BitVec 10) (s : State) : Step :=
  perform (.xori d a i) (scalarImm d fun r => xoriVal (r.sVal a) i) s

def execShli (d a : BitVec 5) (i : BitVec 6) (s : State) : Step :=
  perform (.shli d a i) (scalarImm d fun r => shlVal false (r.sVal a) i.toNat) s

def execShri (d a : BitVec 5) (i : BitVec 6) (s : State) : Step :=
  perform (.shri d a i) (scalarImm d fun r => shrVal false (r.sVal a) i.toNat) s

def execSari (d a : BitVec 5) (i : BitVec 6) (s : State) : Step :=
  perform (.sari d a i) (scalarImm d fun r => sarVal false (r.sVal a) i.toNat) s

/-- CMPI is unguarded (R164). -/
def execCmpi (p : BitVec 3) (c : BitVec 2) (a : BitVec 5) (i : BitVec 10) (s : State) : Step :=
  perform (.cmpi p c a i)
    (fun s => s.res 1 (.p p (condHolds c (s.me.regs.sVal a) (i.signExtend 64)))) s

def execLi (d : BitVec 5) (i : Imm 15) (s : State) : Step :=
  perform (.li d i) (scalarImm d fun _ => liVal i) s

/-- s[d] is also a source (R163). -/
def execLih (d : BitVec 5) (i : Imm 15) (s : State) : Step :=
  perform (.lih d i) (scalarImm d fun r => lihVal (r.sVal d) i) s

def execS2a (g : Guard) (d a : BitVec 5) (s : State) : Step :=
  perform (.s2a g d a)
    (fun s => let r := s.me.regs; if guardHolds g r then s.res 2 (.a d (r.sVal a)) else s) s

/-- All 64 lanes, with no lane mask (R166). -/
def execS2v (g : Guard) (d : BitVec 6) (a : BitVec 5) (s : State) : Step :=
  perform (.s2v g d a)
    (fun s => let r := s.me.regs
      if guardHolds g r then s.res 3 (.v d (ofLanes fun _ => low32 (r.sVal a))) else s) s

end Sys2Proof.Machine
end

