-- ==== Sys2Proof/Machine/Dispatch.lean ====
section
/-!
DEFINITION. The meaning of every operation and event: one arm for each constructor of `Instr`.
-/
namespace Sys2Proof.Machine

def exec (i : Instr) (s : State) : Host.Outcome State Fault Refusal :=
  match i with
  -- slot 0 (R113)
  | .nopS0 => Sys2Proof.Machine.execNopS0 s
  | .br g o => Sys2Proof.Machine.execBr g o s
  | .bri g a => Sys2Proof.Machine.execBri g a s
  | .call g o => Sys2Proof.Machine.execCall g o s
  | .ret g a => Sys2Proof.Machine.execRet g a s
  | .loopI l o c => Sys2Proof.Machine.execLoopI l o c s
  | .loopR l o r => Sys2Proof.Machine.execLoopR l o r s
  | .loopSr l o r => Sys2Proof.Machine.execLoopSr l o r s
  | .loopRot l o r n => Sys2Proof.Machine.execLoopRot l o r n s
  | .lexit g l => Sys2Proof.Machine.execLexit g l s
  | .lstat g d w l => Sys2Proof.Machine.execLstat g d w l s
  | .lset g a w l => Sys2Proof.Machine.execLset g a w l s
  | .setfmt f => Sys2Proof.Machine.execSetfmt f s
  | .safept im => Sys2Proof.Machine.execSafept im s
  | .yield im => Sys2Proof.Machine.execYield im s
  | .done g => Sys2Proof.Machine.execDone g s
  | .barg g d => Sys2Proof.Machine.execBarg g d s
  | .pause a im => Sys2Proof.Machine.execPause a im s
  | .waitev g d a => Sys2Proof.Machine.execWaitev g d a s
  | .trap im => Sys2Proof.Machine.execTrap im s
  | .rft g => Sys2Proof.Machine.execRft g s
  | .mfsr d im => Sys2Proof.Machine.execMfsr d im s
  | .mtsr a im => Sys2Proof.Machine.execMtsr a im s
  | .ecap d => Sys2Proof.Machine.execEcap d s
  | .add g d a b w => Sys2Proof.Machine.execAdd g d a b w s
  | .sub g d a b w => Sys2Proof.Machine.execSub g d a b w s
  | .mul g d a b w => Sys2Proof.Machine.execMul g d a b w s
  | .mulhi g d a b => Sys2Proof.Machine.execMulhi g d a b s
  | .mulhn g d a b => Sys2Proof.Machine.execMulhn g d a b s
  | .and g d a b => Sys2Proof.Machine.execAnd g d a b s
  | .or g d a b => Sys2Proof.Machine.execOr g d a b s
  | .xor g d a b => Sys2Proof.Machine.execXor g d a b s
  | .shl g d a b w => Sys2Proof.Machine.execShl g d a b w s
  | .shr g d a b w => Sys2Proof.Machine.execShr g d a b w s
  | .sar g d a b w => Sys2Proof.Machine.execSar g d a b w s
  | .min g d a b => Sys2Proof.Machine.execMin g d a b s
  | .max g d a b => Sys2Proof.Machine.execMax g d a b s
  | .minn g d a b => Sys2Proof.Machine.execMinn g d a b s
  | .maxn g d a b => Sys2Proof.Machine.execMaxn g d a b s
  | .sel g d a b => Sys2Proof.Machine.execSel g d a b s
  | .clz g d a w => Sys2Proof.Machine.execClz g d a w s
  | .popc g d a w => Sys2Proof.Machine.execPopc g d a w s
  | .bfx g d a b sx => Sys2Proof.Machine.execBfx g d a b sx s
  | .bfi g d a b => Sys2Proof.Machine.execBfi g d a b s
  | .cmp g p c a b inv => Sys2Proof.Machine.execCmp g p c a b inv s
  | .plog d a b t => Sys2Proof.Machine.execPlog d a b t s
  | .addi d a im => Sys2Proof.Machine.execAddi d a im s
  | .andi d a im => Sys2Proof.Machine.execAndi d a im s
  | .ori d a im => Sys2Proof.Machine.execOri d a im s
  | .xori d a im => Sys2Proof.Machine.execXori d a im s
  | .shli d a im => Sys2Proof.Machine.execShli d a im s
  | .shri d a im => Sys2Proof.Machine.execShri d a im s
  | .sari d a im => Sys2Proof.Machine.execSari d a im s
  | .cmpi p c a im => Sys2Proof.Machine.execCmpi p c a im s
  | .li d im => Sys2Proof.Machine.execLi d im s
  | .lih d im => Sys2Proof.Machine.execLih d im s
  | .s2a g d a => Sys2Proof.Machine.execS2a g d a s
  | .s2v g d a => Sys2Proof.Machine.execS2v g d a s
  | .s2t g d a b => Sys2Proof.Machine.execS2t g d a b s
  | .s2k g d a b => Sys2Proof.Machine.execS2k g d a b s
  -- slot 1 (R114)
  | .nopS1 => Sys2Proof.Machine.execNopS1 s
  | .aadd g d a b => Sys2Proof.Machine.execAadd g d a b s
  | .aaddi g d a im => Sys2Proof.Machine.execAaddi g d a im s
  | .asub g d a b => Sys2Proof.Machine.execAsub g d a b s
  | .ashli g d a im => Sys2Proof.Machine.execAshli g d a im s
  | .alea g d a b sub => Sys2Proof.Machine.execAlea g d a b sub s
  | .aand g d a b => Sys2Proof.Machine.execAand g d a b s
  | .ali d im => Sys2Proof.Machine.execAli d im s
  | .acmp g p c a b inv => Sys2Proof.Machine.execAcmp g p c a b inv s
  | .a2s g d a => Sys2Proof.Machine.execA2s g d a s
  | .ldBI g k d b o => Sys2Proof.Machine.execLdBI g k d b o s
  | .ldBN g k d b o => Sys2Proof.Machine.execLdBN g k d b o s
  | .ldHI g k d b o => Sys2Proof.Machine.execLdHI g k d b o s
  | .ldHN g k d b o => Sys2Proof.Machine.execLdHN g k d b o s
  | .ldWI g k d b o => Sys2Proof.Machine.execLdWI g k d b o s
  | .ldWN g k d b o => Sys2Proof.Machine.execLdWN g k d b o s
  | .ldD g k d b o => Sys2Proof.Machine.execLdD g k d b o s
  | .ldxBI g k d b x => Sys2Proof.Machine.execLdxBI g k d b x s
  | .ldxBN g k d b x => Sys2Proof.Machine.execLdxBN g k d b x s
  | .ldxHI g k d b x => Sys2Proof.Machine.execLdxHI g k d b x s
  | .ldxHN g k d b x => Sys2Proof.Machine.execLdxHN g k d b x s
  | .ldxWI g k d b x => Sys2Proof.Machine.execLdxWI g k d b x s
  | .ldxWN g k d b x => Sys2Proof.Machine.execLdxWN g k d b x s
  | .ldxD g k d b x => Sys2Proof.Machine.execLdxD g k d b x s
  | .stB g k d b o => Sys2Proof.Machine.execStB g k d b o s
  | .stH g k d b o => Sys2Proof.Machine.execStH g k d b o s
  | .stW g k d b o => Sys2Proof.Machine.execStW g k d b o s
  | .stD g k d b o => Sys2Proof.Machine.execStD g k d b o s
  | .stxB g k d b x => Sys2Proof.Machine.execStxB g k d b x s
  | .stxH g k d b x => Sys2Proof.Machine.execStxH g k d b x s
  | .stxW g k d b x => Sys2Proof.Machine.execStxW g k d b x s
  | .stxD g k d b x => Sys2Proof.Machine.execStxD g k d b x s
  | .ldacqW g k d b sc o => Sys2Proof.Machine.execLdacqW g k d b sc o s
  | .ldacqD g k d b sc o => Sys2Proof.Machine.execLdacqD g k d b sc o s
  | .strelW g k d b sc o => Sys2Proof.Machine.execStrelW g k d b sc o s
  | .strelD g k d b sc o => Sys2Proof.Machine.execStrelD g k d b sc o s
  | .sldW g k d b o => Sys2Proof.Machine.execSldW g k d b o s
  | .sldD g k d b o => Sys2Proof.Machine.execSldD g k d b o s
  | .sstW g k d b o => Sys2Proof.Machine.execSstW g k d b o s
  | .sstD g k d b o => Sys2Proof.Machine.execSstD g k d b o s
  | .amo g k d b f z sc => Sys2Proof.Machine.execAmo g k d b f z sc s
  | .cas g k d b z sc => Sys2Proof.Machine.execCas g k d b z sc s
  | .afadd g k d b sc => Sys2Proof.Machine.execAfadd g k d b sc s
  | .fence m sc => Sys2Proof.Machine.execFence m sc s
  | .fencesc sc => Sys2Proof.Machine.execFencesc sc s
  | .xfence m => Sys2Proof.Machine.execXfence m s
  | .rslot g d a im => Sys2Proof.Machine.execRslot g d a im s
  | .copy g acq rel sc t x mval mark ds ss => Sys2Proof.Machine.execCopy g acq rel sc t x mval mark ds ss s
  | .copym g acq rel sc t x mval mark ss => Sys2Proof.Machine.execCopym g acq rel sc t x mval mark ss s
  | .coll g acq rel sc t x ty op ds ss => Sys2Proof.Machine.execColl g acq rel sc t x ty op ds ss s
  | .rcopy g acq rel sc t x mval mark ss => Sys2Proof.Machine.execRcopy g acq rel sc t x mval mark ss s
  | .xpose g d a b z => Sys2Proof.Machine.execXpose g d a b z s
  | .tokst g d a sub => Sys2Proof.Machine.execTokst g d a sub s
  | .rport g d a b => Sys2Proof.Machine.execRport g d a b s
  | .rack g d a => Sys2Proof.Machine.execRack g d a s
  -- slot 2 (R115)
  | .nopS2 => Sys2Proof.Machine.execNopS2 s
  | .vld d a o m r => Sys2Proof.Machine.execVld d a o m r s
  | .vlds d a b m r => Sys2Proof.Machine.execVlds d a b m r s
  | .vgath d a b m r => Sys2Proof.Machine.execVgath d a b m r s
  | .vst d a o m r => Sys2Proof.Machine.execVst d a o m r s
  | .vsts d a b m r => Sys2Proof.Machine.execVsts d a b m r s
  | .vscat d a b m r => Sys2Proof.Machine.execVscat d a b m r s
  | .vldacc d a o m r => Sys2Proof.Machine.execVldacc d a o m r s
  | .vstacc d a o m r => Sys2Proof.Machine.execVstacc d a o m r s
  | .vadd d a b m r w => Sys2Proof.Machine.execVadd d a b m r w s
  | .vsub d a b m r w => Sys2Proof.Machine.execVsub d a b m r w s
  | .vmul d a b m r w => Sys2Proof.Machine.execVmul d a b m r w s
  | .vmulhi d a b m r w => Sys2Proof.Machine.execVmulhi d a b m r w s
  | .vmin d a b m r w => Sys2Proof.Machine.execVmin d a b m r w s
  | .vmax d a b m r w => Sys2Proof.Machine.execVmax d a b m r w s
  | .vminn d a b m r w => Sys2Proof.Machine.execVminn d a b m r w s
  | .vmaxn d a b m r w => Sys2Proof.Machine.execVmaxn d a b m r w s
  | .vand d a b m r w => Sys2Proof.Machine.execVand d a b m r w s
  | .vor d a b m r w => Sys2Proof.Machine.execVor d a b m r w s
  | .vxor d a b m r w => Sys2Proof.Machine.execVxor d a b m r w s
  | .vshl d a b m r w => Sys2Proof.Machine.execVshl d a b m r w s
  | .vshr d a b m r w => Sys2Proof.Machine.execVshr d a b m r w s
  | .vsar d a b m r w => Sys2Proof.Machine.execVsar d a b m r w s
  | .vabs d a m r w => Sys2Proof.Machine.execVabs d a m r w s
  | .vfadd d a b m r => Sys2Proof.Machine.execVfadd d a b m r s
  | .vfsub d a b m r => Sys2Proof.Machine.execVfsub d a b m r s
  | .vfmul d a b m r => Sys2Proof.Machine.execVfmul d a b m r s
  | .vfma d a b m r sub => Sys2Proof.Machine.execVfma d a b m r sub s
  | .vfmin d a b m r => Sys2Proof.Machine.execVfmin d a b m r s
  | .vfmax d a b m r => Sys2Proof.Machine.execVfmax d a b m r s
  | .vfdiv d a b m r => Sys2Proof.Machine.execVfdiv d a b m r s
  | .vfsqrt d a m r => Sys2Proof.Machine.execVfsqrt d a m r s
  | .vfrsqrt d a m r => Sys2Proof.Machine.execVfrsqrt d a m r s
  | .vfexp2 d a m r => Sys2Proof.Machine.execVfexp2 d a m r s
  | .vflog2 d a m r => Sys2Proof.Machine.execVflog2 d a m r s
  | .vcmp d a b m r c => Sys2Proof.Machine.execVcmp d a b m r c s
  | .vfcmp d a b m r c => Sys2Proof.Machine.execVfcmp d a b m r c s
  | .vsel d a b m r => Sys2Proof.Machine.execVsel d a b m r s
  | .mlog d a b t => Sys2Proof.Machine.execMlog d a b t s
  | .mpopc d a m => Sys2Proof.Machine.execMpopc d a m s
  | .vuni p a m r => Sys2Proof.Machine.execVuni p a m r s
  | .vuniM p a m => Sys2Proof.Machine.execVuniM p a m s
  | .vcvt d a src dst m r c => Sys2Proof.Machine.execVcvt d a src dst m r c s
  | .vmxq d a u o r f => Sys2Proof.Machine.execVmxq d a u o r f s
  | .vmxd d a m r f => Sys2Proof.Machine.execVmxd d a m r f s
  | .vpack d a p m r b => Sys2Proof.Machine.execVpack d a p m r b s
  | .vunpack d a sx p m r b => Sys2Proof.Machine.execVunpack d a sx p m r b s
  | .vred d a m r o => Sys2Proof.Machine.execVred d a m r o s
  | .vfred d a m r o => Sys2Proof.Machine.execVfred d a m r o s
  | .vperm d a b m r => Sys2Proof.Machine.execVperm d a b m r s
  | .vrot d a b m r sub => Sys2Proof.Machine.execVrot d a b m r sub s
  | .vbcast d a b m r sub => Sys2Proof.Machine.execVbcast d a b m r sub s
  | .vsigf d a m r => Sys2Proof.Machine.execVsigf d a m r s
  | .vsigr d a m r => Sys2Proof.Machine.execVsigr d a m r s
  | .vnfs a m r sub => Sys2Proof.Machine.execVnfs a m r sub s
  | .vnfsClr => Sys2Proof.Machine.execVnfsClr s
  | .vseed a r sub => Sys2Proof.Machine.execVseed a r sub s
  | .v2s d a l r sub => Sys2Proof.Machine.execV2s d a l r sub s
  | .vli d im m sub => Sys2Proof.Machine.execVli d im m sub s
  -- slot 3 (R116)
  | .nopS3 => Sys2Proof.Machine.execNopS3 s
  | .tset g d a im f => Sys2Proof.Machine.execTset g d a im f s
  | .t2s g a sub h => Sys2Proof.Machine.execT2s g a sub h s
  | .k2s g k sub h => Sys2Proof.Machine.execK2s g k sub h s
  | .tzero g d => Sys2Proof.Machine.execTzero g d s
  | .tcvt g d a f => Sys2Proof.Machine.execTcvt g d a f s
  | .tcheck g d => Sys2Proof.Machine.execTcheck g d s
  | .tadd g d a => Sys2Proof.Machine.execTadd g d a s
  | .mstep g d a b im => Sys2Proof.Machine.execMstep g d a b im s
  | .mstepRev g d a b im => Sys2Proof.Machine.execMstepRev g d a b im s
  | .bseal g im v => Sys2Proof.Machine.execBseal g im v s
  | .sstep g d a k im => Sys2Proof.Machine.execSstep g d a k im s
  | .sdstep g d a k im => Sys2Proof.Machine.execSdstep g d a k im s
  | .sgrad g a k im => Sys2Proof.Machine.execSgrad g a k im s
  | .sgzero g im => Sys2Proof.Machine.execSgzero g im s
  | .srefine g k im => Sys2Proof.Machine.execSrefine g k im s
  | .sflags g d k f => Sys2Proof.Machine.execSflags g d k f s
  -- events of the module
  | .pauseEnd c x => Sys2Proof.Machine.execPauseEnd c x s
  | .resultLand c x l => Sys2Proof.Machine.execResultLand c x l s
  | .doneRetire c x => Sys2Proof.Machine.execDoneRetire c x s
  | .strandSuspension c x => Sys2Proof.Machine.execStrandSuspension c x s
  | .strandResume c x => Sys2Proof.Machine.execStrandResume c x s
  | .loadValueReturn c id => Sys2Proof.Machine.execLoadValueReturn c id s
  | .storeReachHome d id => Sys2Proof.Machine.execStoreReachHome d id s
  | .atomicAtHome c id => Sys2Proof.Machine.execAtomicAtHome c id s
  | .pageWalk c id => Sys2Proof.Machine.execPageWalk c id s
  | .retryRingAdmit d => Sys2Proof.Machine.execRetryRingAdmit d s
  | .retryMirrorPublish d => Sys2Proof.Machine.execRetryMirrorPublish d s
  | .hostRport d => Sys2Proof.Machine.execHostRport d s
  | .hostRack d => Sys2Proof.Machine.execHostRack d s
  | .tlbinvAll => Sys2Proof.Machine.execTlbinvAll s
  | .tlbinvPage64k va => Sys2Proof.Machine.execTlbinvPage64k va s
  | .tlbinvPage32m va => Sys2Proof.Machine.execTlbinvPage32m va s
  | .tlbinvComplete => Sys2Proof.Machine.execTlbinvComplete s
  | .engineCompletion d id => Sys2Proof.Machine.execEngineCompletion d id s
  | .engineFault d id fw => Sys2Proof.Machine.execEngineFault d id fw s
  | .collInstanceMeet tag k => Sys2Proof.Machine.execCollInstanceMeet tag k s
  | .xposeWriteback c => Sys2Proof.Machine.execXposeWriteback c s
  | .arrayStepStart c => Sys2Proof.Machine.execArrayStepStart c s
  | .arrayResultLand c => Sys2Proof.Machine.execArrayResultLand c s
  | .tileOpComplete c => Sys2Proof.Machine.execTileOpComplete c s
  | .pipelineError c x unit => Sys2Proof.Machine.execPipelineError c x unit s
  | .dupVote inst => Sys2Proof.Machine.execDupVote inst s
  | .containmentRelease run => Sys2Proof.Machine.execContainmentRelease run s
  | .containmentLineFreed d => Sys2Proof.Machine.execContainmentLineFreed d s
  | .topologyChange cl score => Sys2Proof.Machine.execTopologyChange cl score s
  | .launchWord => Sys2Proof.Machine.execLaunchWord s
  | .predecessorDecrement cid sender src => Sys2Proof.Machine.execPredecessorDecrement cid sender src s
  | .nodeReadiness rec => Sys2Proof.Machine.execNodeReadiness rec s
  | .copyNodeInstance rec im => Sys2Proof.Machine.execCopyNodeInstance rec im s
  | .nodeCompletion rec => Sys2Proof.Machine.execNodeCompletion rec s
  | .agePeriodTick d => Sys2Proof.Machine.execAgePeriodTick d s
  | .gangDispatch d => Sys2Proof.Machine.execGangDispatch d s
  | .gangStart d c0 => Sys2Proof.Machine.execGangStart d c0 s
  | .yieldDeadlineExpiry c x => Sys2Proof.Machine.execYieldDeadlineExpiry c x s
  | .hostApertureReadTimeout c e => Sys2Proof.Machine.execHostApertureReadTimeout c e s
  | .replayTimeout l => Sys2Proof.Machine.execReplayTimeout l s
  | .linkTrainingComplete l => Sys2Proof.Machine.execLinkTrainingComplete l s
  | .clkpatUpdate d => Sys2Proof.Machine.execClkpatUpdate d s
  | .energyRefill => Sys2Proof.Machine.execEnergyRefill s
  | .stepDrainDone c => Sys2Proof.Machine.execStepDrainDone c s
  -- inputs
  | .rrmirrorWrite d v => Sys2Proof.Machine.execRrmirrorWrite d v s
  | .rrkillWrite d w => Sys2Proof.Machine.execRrkillWrite d w s
  | .uncorrectableError d u p synd addr => Sys2Proof.Machine.execUncorrectableError d u p synd addr s
  | .correctableError d u p synd addr => Sys2Proof.Machine.execCorrectableError d u p synd addr s
  | .ebstatClear d c u => Sys2Proof.Machine.execEbstatClear d c u s
  | .patrolScrub stack line bad => Sys2Proof.Machine.execPatrolScrub stack line bad s
  | .sramScrub d u p e => Sys2Proof.Machine.execSramScrub d u p e s
  | .errinjWrite c v => Sys2Proof.Machine.execErrinjWrite c v s
  | .lqdoorWrite v => Sys2Proof.Machine.execLqdoorWrite v s
  | .hostBar2Read off n => Sys2Proof.Machine.execHostBar2Read off n s
  | .hostBar2Write off data => Sys2Proof.Machine.execHostBar2Write off data s
  | .evlostRead => Sys2Proof.Machine.execEvlostRead s
  | .yewidxWrite d v => Sys2Proof.Machine.execYewidxWrite d v s
  | .flitTransmit l ty stream payload => Sys2Proof.Machine.execFlitTransmit l ty stream payload s
  | .flitReceive l body crc => Sys2Proof.Machine.execFlitReceive l body crc s
  | .laneFailure l e => Sys2Proof.Machine.execLaneFailure l e s
  | .lctlRetrain l locked => Sys2Proof.Machine.execLctlRetrain l locked s
  | .lcntRead l => Sys2Proof.Machine.execLcntRead l s
  | .feccntRead l => Sys2Proof.Machine.execFeccntRead l s
  | .inboundWrite l w data => Sys2Proof.Machine.execInboundWrite l w data s
  | .pstepWrite lvl => Sys2Proof.Machine.execPstepWrite lvl s
  | .powerEstimate w draws => Sys2Proof.Machine.execPowerEstimate w draws s
  | .regulatorPhaseLoss d phases limit draw => Sys2Proof.Machine.execRegulatorPhaseLoss d phases limit draw s
  | .energyReadLow d => Sys2Proof.Machine.execEnergyReadLow d s
  | .powerFail => Sys2Proof.Machine.execPowerFail s
  | .moduleReset => Sys2Proof.Machine.execModuleReset s
  | .imageCheck code img => Sys2Proof.Machine.execImageCheck code img s
  | .hbmTraining trained repaired => Sys2Proof.Machine.execHbmTraining trained repaired s
  | .selfTest passed => Sys2Proof.Machine.execSelfTest passed s
  | .featAccept1Write v => Sys2Proof.Machine.execFeatAccept1Write v s
  | .dbgctlHalt c v => Sys2Proof.Machine.execDbgctlHalt c v s
  | .dbgctlStep c => Sys2Proof.Machine.execDbgctlStep c s
  | .registerWrite off w => Sys2Proof.Machine.execRegisterWrite off w s
  | .energyCount d uj => Sys2Proof.Machine.execEnergyCount d uj s
  | .grantUpdate c v => Sys2Proof.Machine.execGrantUpdate c v s

end Sys2Proof.Machine
end

