-- ==== Sys2Proof/Machine/Step.lean ====
section
/-!
DEFINITION. The step of the module, and a slot word placed for the next step.
-/
namespace Sys2Proof.Machine

/-- One step: a due event, a core's turn, or the next master clock. -/
def step (s : State) : Host.Outcome State Fault Refusal := advance exec s

/-- s with the bundle that holds a slot word where core 0 issues next (log 2, log 8). -/
def State.withFetchWord (s : State) (nbits w : Nat) : State := s.placeWord nbits w

end Sys2Proof.Machine
end

