-- ==== Sys2Proof/Safety.lean ====
section
/-!
DEFINITION. The terms in which statements speak of the machine: memories in canonical form, a context
that issues, what a frame leaves alone, and the state in which a core's turn runs a bundle.
-/
namespace Sys2Proof.Machine

/-! ## Memory in canonical form (log 3) -/

/-- The memories of a core: its scratchpad and its instruction store. -/
def Core.memOk (k : Core) : Prop := Mem.wf k.spad = true ∧ Mem.wf k.istore = true

/-- Every byte memory of the module has its canonical form: device memory, host memory, and each core's
scratchpad and instruction store. -/
structure State.MemOk (s : State) : Prop where
  mem : Mem.wf s.mem = true
  host : Mem.wf s.mdl.hostMem = true
  core : ∀ c, (s.core c).memOk

/-- What stays as it is while no master clock passes: the time, the core clocks, and whether a bundle is
open; and memories in canonical form stay in it. -/
structure Keeps (s t : State) : Prop where
  now : t.now = s.now
  clk : t.coreClk = s.coreClk
  isOpen : t.issue.isOpen = s.issue.isOpen
  mem : s.MemOk → t.MemOk

/-! ## The context that issues -/

/-- A bundle is open on a core of the module. -/
def Issuing (s : State) : Prop := s.issue.isOpen = true ∧ s.issue.c < 768

/-- A register's contents as a number; fixed registers read their constants (R98). -/
def Regs.view (r : Regs) : Reg → Nat
  | .s i => (r.sVal i).toNat
  | .a i => (r.aVal i).toNat
  | .v i => (r.vVal i).toNat
  | .m i => (r.mVal i).toNat
  | .p i => bit (r.pVal i)
  | .t i => (r.tVal i).toNat
  | .k i => (r.kVal i).toNat

/-- Every register outside a list holds its value and its full/empty bit; the stage bits and the marks of
faulted tokens are as before. -/
structure RegFrame (ds : List Reg) (r r' : Regs) : Prop where
  view : ∀ g, g ∉ ds → r'.view g = r.view g
  full : ∀ g, g ∉ ds → r'.isFull g = r.isFull g
  stage : r'.q = r.q
  fault : ∀ i, .a i ∉ ds → getBit r'.aFault i.toNat = getBit r.aFault i.toNat

/-- A context in which a value has landed: a BARG whose barrier is complete is over with its register's (R152). -/
def Ctx.bargOver (t : Ctx) (l : Landing) : Ctx :=
  { t with wait := { t.wait with barg := match l, t.wait.barg with
      | .s i _, some b => if b.complete = true ∧ b.reg = i then none else some b
      | _, o => o } }

/-- A context but for its registers and the near latch. -/
def Ctx.apart (t : Ctx) : Ctx :=
  { t with regs := Regs.reset, wait := { t.wait with latch := none } }

/-- A core but for its two contexts, the results in flight and the port. -/
def Core.apart (k : Core) : Core :=
  { k with c0 := Ctx.reset, c1 := Ctx.reset, timers := [], portFree := 0 }

/-- An operation of the open bundle changed, outside the registers of a list, nothing but what is in
flight: no other context, no system register, no memory, no die and no register of the module. -/
structure SlotFrame (ds : List Reg) (s t : State) : Prop where
  regs : RegFrame ds s.me.regs t.me.regs
  me : t.me.apart = s.me.apart
  others : ∀ c x, (c, x) ≠ (s.issue.c, s.issue.x) → t.ctx c x = s.ctx c x
  core : t.myCore.apart = s.myCore.apart
  cores : ∀ c, c ≠ s.issue.c → t.core c = s.core c
  bytes : ∀ a, memRead t.mem a = memRead s.mem a
  rest : { t with cores := s.cores, issue := s.issue } = s
  bundle : { t.issue with nfSet := 0 } = { s.issue with nfSet := 0 }

/-- The operations that write nothing but the registers they name, and NFSTAT at commit. A conversion under SR
also advances SRCTR (R86), and is not one of them. -/
def registerOnly : Instr → Bool
  | .lstat _ _ _ _ | .mfsr _ _ | .ecap _ | .add _ _ _ _ _ | .sub _ _ _ _ _ | .mul _ _ _ _ _ | .mulhi _ _ _ _
  | .mulhn _ _ _ _ | .and _ _ _ _ | .or _ _ _ _ | .xor _ _ _ _ | .shl _ _ _ _ _ | .shr _ _ _ _ _
  | .sar _ _ _ _ _ | .min _ _ _ _ | .max _ _ _ _ | .minn _ _ _ _ | .maxn _ _ _ _ | .sel _ _ _ _
  | .clz _ _ _ _ | .popc _ _ _ _ | .bfx _ _ _ _ _ | .bfi _ _ _ _ | .cmp _ _ _ _ _ _ | .plog _ _ _ _
  | .addi _ _ _ | .andi _ _ _ | .ori _ _ _ | .xori _ _ _ | .shli _ _ _ | .shri _ _ _ | .sari _ _ _
  | .cmpi _ _ _ _ | .li _ _ | .lih _ _ | .s2a _ _ _ | .s2v _ _ _ => true
  | .aadd _ _ _ _ | .aaddi _ _ _ _ | .asub _ _ _ _ | .ashli _ _ _ _ | .alea _ _ _ _ _ | .aand _ _ _ _
  | .ali _ _ | .acmp _ _ _ _ _ _ | .a2s _ _ _ | .rslot _ _ _ _ => true
  | .vadd _ _ _ _ _ _ | .vsub _ _ _ _ _ _ | .vmul _ _ _ _ _ _ | .vmulhi _ _ _ _ _ _ | .vmin _ _ _ _ _ _
  | .vmax _ _ _ _ _ _ | .vminn _ _ _ _ _ _ | .vmaxn _ _ _ _ _ _ | .vand _ _ _ _ _ _ | .vor _ _ _ _ _ _
  | .vxor _ _ _ _ _ _ | .vshl _ _ _ _ _ _ | .vshr _ _ _ _ _ _ | .vsar _ _ _ _ _ _ | .vabs _ _ _ _ _
  | .vfadd _ _ _ _ _ | .vfsub _ _ _ _ _ | .vfmul _ _ _ _ _ | .vfma _ _ _ _ _ _ | .vfmin _ _ _ _ _
  | .vfmax _ _ _ _ _ | .vfdiv _ _ _ _ _ | .vfsqrt _ _ _ _ | .vfrsqrt _ _ _ _ | .vfexp2 _ _ _ _
  | .vflog2 _ _ _ _ | .vcmp _ _ _ _ _ _ | .vfcmp _ _ _ _ _ _ | .vsel _ _ _ _ _ | .mlog _ _ _ _
  | .mpopc _ _ _ | .vuni _ _ _ _ | .vuniM _ _ _ | .vmxd _ _ _ _ _ | .vpack _ _ _ _ _ _
  | .vunpack _ _ _ _ _ _ _ | .vred _ _ _ _ _ | .vfred _ _ _ _ _ | .vperm _ _ _ _ _ | .vrot _ _ _ _ _ _
  | .vbcast _ _ _ _ _ _ | .vsigf _ _ _ _ | .vsigr _ _ _ _ | .vnfs _ _ _ _ | .v2s _ _ _ _ _
  | .vli _ _ _ _ => true
  | .vcvt _ _ _ _ _ _ c => c != 4
  | .tset _ _ _ _ _ | .t2s _ _ _ _ | .k2s _ _ _ _ => true
  | _ => false

/-- The arguments of an event name units that the module has; an operation of a slot names none. -/
def unitsOk : Instr → Bool
  | .uncorrectableError d u p _ a | .correctableError d u p _ a => placeOkay (placeOf d u p a)
  | .sramScrub d u p e => placeOkay (placeOf d u p e.addr)
  | .patrolScrub k l _ => k < 32 && l < 2 ^ 28
  | i => i.slotNo < 4 || i.wf

/-- The next state of an operation or event keeps the time and the form of the memories. -/
def completes (i : Instr) (s : State) : Prop :=
  ∃ t, exec i s = .next t ∧ t.now = s.now ∧ t.coreClk = s.coreClk ∧ (s.MemOk → t.MemOk)

/-! ## The turn of a core -/

/-- The state after a core has polled in its turn (R153, R155, R215). -/
def State.polled (s : State) (c : Nat) : State := { (s.poll c false).poll c true with turn := c + 1 }

/-- No event of the agenda is due. -/
def State.quiet (s : State) : Prop :=
  match s.agenda with
  | [] => True
  | (t, _) :: _ => s.now < t

/-- The next step is the turn in which context x of core c issues: no event is due, the core is the next
busy one, none of its results is due, neither context has come to an end, and x is the context that
runs. -/
structure TurnOf (s : State) (c : Nat) (x : Bool) : Prop where
  quiet : s.quiet
  busy : s.busyFrom s.turn (768 - s.turn) = some c
  landed : s.dueTimer c = none
  end0 : turnEnd exec (s.polled c) c false = none
  end1 : turnEnd exec (s.polled c) c true = none
  cur : ((s.polled c).core c).cur = some x

/-- The bundle that stands at a context's program counter. -/
def State.bundleAt (s : State) (c : Nat) (x : Bool) : Except (BitVec 4) Bundle :=
  decodeBundle (bundleWords ((s.core c).fetch x (s.ctx c x).pc.toNat))

/-! ## Control -/

/-- FMT once every pending shadow has ended: the newest value (R108). -/
def Ctx.newestFmt (t : Ctx) : BitVec 15 := (t.fmtNext.head?.map Prod.snd).getD t.fmt

/-- TRAP_ENTRY of R315 at core clock n: the end of the strand, or TINFO, EPC, frozen loops, no pending shadow,
and issue at TVEC. -/
def Ctx.entersTrap (t : Ctx) (n : Nat) (i : TInfo) (epc : BitVec 14) : Ctx :=
  if t.tinfo.hm = true ∨ t.tvecUnset = true ∨ t.nbundle ≤ t.tvec.toNat then { t with status := .faulted i.cause }
  else { t with
    tinfo := i, epc := epc, pc := t.tvec, fmt := t.newestFmt, fmtNext := [],
    lc0 := { t.lc0 with frozen := true }, lc1 := { t.lc1 with frozen := true },
    wait := { t.wait with redirect := some (n, 0), latch := none, latchTill := none } }

/-- A lone operation refused by a precise trap of its own: its cause, slot mask and INFO (R313). -/
def State.refusedBy (s : State) (cause : BitVec 8) (slots : BitVec 4) (info : BitVec 32) : State :=
  s.modCtx s.focusC s.focusX fun t => t.entersTrap (s.clk s.focusC) ⟨info, 0, slots, false, true, cause⟩ t.pc

/-- An operation that is performed alone, as a bundle of its own, and its context. -/
def Alone (s : State) : Prop := s.issue.isOpen = false ∧ s.focusC < 768
def State.lone (s : State) : Ctx := s.ctx s.focusC s.focusX

/-- The transfer of a taken branch to bundle n, which is a redirect (R136). -/
def State.goes (s : State) (n : Nat) : State :=
  { s with issue := { s.issue with next := some n, redirect := true, taken := true } }

/-- A LOOP form: the context it names, the end offset, the count, and the stage count of the rotating form
(R138). -/
def rowR138 (t : Ctx) : Instr → Option (Bool × Nat × Nat × Option Nat)
  | .loopI l o c => some (l, o.toNat, c.toNat, none)
  | .loopR l o r => some (l, o.toNat, (t.regs.sVal r).toNat % 2 ^ 32, none)
  | .loopSr l o _ => some (l, o.toNat, t.countValue, none)
  | .loopRot l o r n => some (l, o.toNat, (t.regs.sVal r).toNat % 2 ^ 32, some n.toNat)
  | _ => none

/-- The context after a LOOP of nonzero count c at bundle t.pc (R140): oa tells whether the other context is
active and not frozen. -/
def loopOpened (l : Bool) (e c : Nat) (n : Option Nat) (t : Ctx) : Ctx :=
  let o := t.lc (!l)
  let oa := o.active && !o.frozen
  let ct : LoopCtx :=
    { first := BitVec.ofNat 13 (t.pc.toNat + 1), last := BitVec.ofNat 13 (t.pc.toNat + e),
      remain := BitVec.ofNat 36 (c + n.getD 1 - 1), later := oa, n := BitVec.ofNat 4 (n.getD 0),
      rot := n.isSome, active := true, frozen := false }
  let u := (t.setLc (!l) { o with later := o.later && !oa }).setLc l ct
  { u with regs := { t.regs with q := if n.isSome then 2 else t.regs.q } }

/-- A value that LSET of word w of a context refuses (R147, R137): a reserved bit is 1, or FLAGS would leave the
context active and unfit. -/
def lsetRefused (t : Ctx) (v : Word) (w : BitVec 2) (l : Bool) : Prop :=
  let k := t.lc l
  match w.toNat with
  | 0 => slice v 63 29 ≠ 0 ∨ slice v 15 13 ≠ 0
  | 1 => slice v 63 36 ≠ 0
  | 2 => slice v 63 7 ≠ 0 ∨ (slice v 0 0 = 1 ∧
      ¬(k.first.toNat ≤ k.last.toNat ∧ k.last.toNat < t.nbundle ∧ k.last.toNat ≤ k.first.toNat + 126 ∧
        1 ≤ k.remain.toNat ∧ (slice v 1 1 = 1 → 1 ≤ slice v 5 2) ∧ (slice v 1 1 = 0 → slice v 5 2 = 0)))
  | _ => slice v 63 16 ≠ 0 ∨ slice v 0 0 ≠ 0

/-- A context after LSET of a word (R137, R147); in handler mode the loop context is left frozen (R146). -/
def Ctx.lset (t : Ctx) (v : Word) (w : BitVec 2) (l : Bool) : Ctx :=
  let k := t.lc l
  match w.toNat with
  | 0 => t.setLc l { k with first := v.extractLsb' 0 13, last := v.extractLsb' 16 13,
                            frozen := k.frozen || t.tinfo.hm }
  | 1 => t.setLc l { k with remain := v.extractLsb' 0 36, frozen := k.frozen || t.tinfo.hm }
  | 2 => t.setLc l { k with later := v.getLsbD 6, n := v.extractLsb' 2 4, rot := v.getLsbD 1,
                            active := v.getLsbD 0, frozen := k.frozen || t.tinfo.hm }
  | _ => { t with regs := { t.regs with q := v.extractLsb' 0 16 } }

/-- Word w of a loop context, field by field (R137). -/
def loopWordIs (t : Ctx) (l : Bool) (w : BitVec 2) (v : Word) : Prop :=
  let k := t.lc l
  match w.toNat with
  | 0 => slice v 12 0 = k.first.toNat ∧ slice v 15 13 = 0 ∧ slice v 28 16 = k.last.toNat ∧ slice v 63 29 = 0
  | 1 => slice v 35 0 = k.remain.toNat ∧ slice v 63 36 = 0
  | 2 => slice v 0 0 = bit k.active ∧ slice v 1 1 = bit k.rot ∧ slice v 5 2 = k.n.toNat ∧
      slice v 6 6 = bit k.later ∧ slice v 63 7 = 0
  | _ => slice v 0 0 = 0 ∧ slice v 15 1 = slice t.regs.q 15 1 ∧ slice v 63 16 = 0

/-- The bits of a W1C register after v has been written to it in master clock t: those that are 1 in v are
cleared, but for those that hardware has set in the same clock (R7). -/
def w1c (old v : BitVec 3) (set : Nat × BitVec 3) (t : Nat) : BitVec 3 :=
  (old &&& ~~~v) ||| (if set.1 = t then old &&& set.2 else 0)

/-- What MTSR does to a register (R106, R158, R314): the context, and what waits for the bundle's commit. -/
def State.writesReg (s : State) (i : BitVec 10) (v : Word) : State :=
  match i.toNat with
  | 0x000 => s.modMe fun t => { t with fmtNext := (5, v.extractLsb' 0 15) :: t.fmtNext }
  | 0x001 => { s with issue := { s.issue with nfClr := s.issue.nfClr ||| v.extractLsb' 0 3 } }
  | 0x002 => { s with issue := { s.issue with key := some v } }
  | 0x003 => { s with issue := { s.issue with ctr := some v } }
  | 0x005 => s.modMe fun t => { t with evt := w1c t.evt (v.extractLsb' 0 3 &&& 3) t.evtNow s.now }
  | 0x009 => s.modMe fun t => { t with epc := v.extractLsb' 4 14 }
  | 0x00A => s.modMe fun t => { t with tvecUnset := v.getLsbD 63, tvec := v.extractLsb' 4 14 }
  | _ => s

/-- The loop context that END_STEP leaves (R141). -/
def loopStepped (k : LoopCtx) : LoopCtx :=
  if 1 < k.remain.toNat then { k with remain := BitVec.ofNat 36 (k.remain.toNat - 1) }
  else { k with active := false }

/-- The stage bits that END_STEP leaves, bit by bit (R141). -/
def stagesStepped (k : LoopCtx) (q q' : BitVec 16) : Prop :=
  if k.rot = false then q' = q
  else if 1 < k.remain.toNat then
    q'.getLsbD 0 = false ∧ q'.getLsbD 1 = decide (k.n.toNat < k.remain.toNat) ∧
      ∀ j, 2 ≤ j → j < 16 → q'.getLsbD j = if j ≤ k.n.toNat then q.getLsbD (j - 1) else q.getLsbD j
  else q' = 0

/-! ## What the rules say of a result

Each function below says, from the table of one rule and in numbers, what an operation writes: its guard, its
latency, the register and the value. -/

/-- A result of the open bundle. -/
structure Row where
  g : Guard
  n : Nat
  l : Landing

/-- No guard: p0, not negated (R98). -/
def unguarded : Guard := ⟨0, false⟩

/-- The state with the result of a row in flight, or as it was where the guard is false (R99, R102). -/
def Row.effect (w : Row) (s : State) : State := if guardHolds w.g s.me.regs then s.res w.n w.l else s

/-- The value that a landing carries, as a number. -/
def landVal : Landing → Nat
  | .s _ v => v.toNat
  | .a _ v => v.toNat
  | .v _ v => v.toNat
  | .m _ v => v.toNat
  | .p _ b => bit b
  | .t _ v => v.toNat
  | .k _ v => v.toNat

/-- The .w form of a number (R160): its low 32 bits as a signed number. -/
def form (w : Bool) (x : Int) : Int := if w then x.bmod (2 ^ 32) else x

/-- A result in s[d], and one in a[d]. -/
def sRow (g : Guard) (n : Nat) (d : BitVec 5) (v : Int) : Option Row := some ⟨g, n, .s d (BitVec.ofInt 64 v)⟩
def aRow (g : Guard) (n : Nat) (d : BitVec 5) (v : Int) : Option Row := some ⟨g, n, .a d (BitVec.ofInt 64 v)⟩

/-- The bits of a word in its form. -/
def wordBits (w : Bool) : Nat := if w then 32 else 64

/-- R160. -/
def rowR160 (r : Regs) : Instr → Option Row
  | .add g d a b w => sRow g 1 d (form w ((r.sVal a).toNat + (r.sVal b).toNat))
  | .sub g d a b w => sRow g 1 d (form w ((r.sVal a).toNat - (r.sVal b).toNat))
  | .mul g d a b w => sRow g 3 d (form w ((r.sVal a).toNat * (r.sVal b).toNat))
  | .mulhi g d a b => sRow g 3 d ((r.sVal a).toInt * (r.sVal b).toInt / 2 ^ 64)
  | .mulhn g d a b => sRow g 3 d ((r.sVal a).toNat * (r.sVal b).toNat / 2 ^ 64)
  | .and g d a b => some ⟨g, 1, .s d (r.sVal a &&& r.sVal b)⟩
  | .or g d a b => some ⟨g, 1, .s d (r.sVal a ||| r.sVal b)⟩
  | .xor g d a b => some ⟨g, 1, .s d (r.sVal a ^^^ r.sVal b)⟩
  | .shl g d a b w => sRow g 1 d (form w ((r.sVal a).toNat * 2 ^ ((r.sVal b).toNat % wordBits w)))
  | .shr g d a b w =>
    sRow g 1 d (form w (((r.sVal a).toNat % 2 ^ wordBits w / 2 ^ ((r.sVal b).toNat % wordBits w) : Nat) : Int))
  | .sar g d a b w => sRow g 1 d (form w (form w (r.sVal a).toInt / 2 ^ ((r.sVal b).toNat % wordBits w)))
  | .min g d a b => sRow g 1 d (min (r.sVal a).toInt (r.sVal b).toInt)
  | .max g d a b => sRow g 1 d (max (r.sVal a).toInt (r.sVal b).toInt)
  | .minn g d a b => sRow g 1 d (min (r.sVal a).toNat (r.sVal b).toNat : Nat)
  | .maxn g d a b => sRow g 1 d (max (r.sVal a).toNat (r.sVal b).toNat : Nat)
  | .sel g d a b => some ⟨unguarded, 1, .s d (if r.pVal g.p ^^ g.neg then r.sVal a else r.sVal b)⟩
  | .clz g d a w => sRow g 1 d (((List.range (wordBits w)).countP fun k =>
      (r.sVal a).toNat % 2 ^ wordBits w < 2 ^ k : Nat) : Int)
  | .popc g d a w => sRow g 1 d (((List.range (wordBits w)).countP fun k => (r.sVal a).getLsbD k : Nat) : Int)
  | _ => none

/-- The place of a bit field and its length (R161). -/
def bfPos (b : Word) : Nat := b.toNat % 64
def bfLen (b : Word) : Nat := if b.toNat / 256 % 64 = 0 then 64 else b.toNat / 256 % 64

/-- R161: the field of a, and d with its field replaced by the low bits of a. -/
def rowR161 (r : Regs) : Instr → Option Row
  | .bfx g d a b sx =>
    let f : Int := ((r.sVal a).toNat / 2 ^ bfPos (r.sVal b) % 2 ^ bfLen (r.sVal b) : Nat)
    sRow g 1 d (if sx then f.bmod (2 ^ bfLen (r.sVal b)) else f)
  | .bfi g d a b =>
    let p := bfPos (r.sVal b)
    let n := min (bfLen (r.sVal b)) (64 - p)
    let old := (r.sVal d).toNat
    sRow g 1 d ((old - old / 2 ^ p % 2 ^ n * 2 ^ p + (r.sVal a).toNat % 2 ^ n * 2 ^ p : Nat) : Int)
  | _ => none

/-- R162 and R163. -/
def rowR162 (r : Regs) : Instr → Option Row
  | .addi d a i => sRow unguarded 1 d ((r.sVal a).toNat + i.toInt)
  | .andi d a i => some ⟨unguarded, 1, .s d (r.sVal a &&& BitVec.ofInt 64 i.toInt)⟩
  | .ori d a i => some ⟨unguarded, 1, .s d (r.sVal a ||| BitVec.ofNat 64 i.toNat)⟩
  | .xori d a i => some ⟨unguarded, 1, .s d (r.sVal a ^^^ BitVec.ofNat 64 i.toNat)⟩
  | .shli d a i => sRow unguarded 1 d ((r.sVal a).toNat * 2 ^ i.toNat)
  | .shri d a i => sRow unguarded 1 d ((r.sVal a).toNat / 2 ^ i.toNat)
  | .sari d a i => sRow unguarded 1 d ((r.sVal a).toInt / 2 ^ i.toNat)
  | .li d (.short v) => sRow unguarded 1 d v.toInt
  | .li d (.long v) => sRow unguarded 1 d v.toInt
  | .lih d (.short v) => sRow unguarded 1 d ((r.sVal d).toNat * 2 ^ 15 + v.toNat)
  | .lih d (.long v) => sRow unguarded 1 d ((r.sVal d).toNat * 2 ^ 22 + v.toNat)
  | _ => none

/-- The condition codes of R109, R164 and R234. -/
def condition (c : BitVec 2) (a b : Word) : Prop :=
  match c.toNat with
  | 0 => a = b
  | 1 => a.toInt < b.toInt
  | 2 => a.toNat < b.toNat
  | _ => a &&& b ≠ 0

/-- What a compare or PLOG writes: the guard, the latency, the predicate, and when it is true (R164, R165,
R234). -/
def predRow (r : Regs) : Instr → Option (Guard × BitVec 3 × Prop)
  | .cmp g p c a b inv => some (g, p, (condition c (r.sVal a) (r.sVal b) ↔ inv = false))
  | .cmpi p c a i => some (unguarded, p, condition c (r.sVal a) (BitVec.ofInt 64 i.toInt))
  | .acmp g p c a b inv => some (g, p, (condition c (r.aVal a) (r.aVal b) ↔ inv = false))
  | .plog d a b t => some (unguarded, d, t.getLsbD (2 * bit (r.pVal a) + bit (r.pVal b)) = true)
  | _ => none

/-- R232, R233 and R236. -/
def rowR232 (r : Regs) : Instr → Option Row
  | .aadd g d a b => aRow g 1 d ((r.aVal a).toNat + (r.aVal b).toNat)
  | .aaddi g d a (.short v) => aRow g 1 d ((r.aVal a).toNat + v.toInt)
  | .aaddi g d a (.long v) => aRow g 1 d ((r.aVal a).toNat + v.toInt)
  | .asub g d a b => aRow g 1 d ((r.aVal a).toNat - (r.aVal b).toNat)
  | .ashli g d a i => aRow g 1 d ((r.aVal a).toNat * 2 ^ i.toNat)
  | .alea g d a b k => aRow g 1 d ((r.aVal a).toNat + (r.aVal b).toNat * 2 ^ k.toNat)
  | .aand g d a b => some ⟨g, 1, .a d (r.aVal a &&& r.aVal b)⟩
  | .ali d (.short v) => aRow unguarded 1 d v.toInt
  | .ali d (.long v) => aRow unguarded 1 d v.toInt
  | .rslot g d a i =>
    let k : Int := match i with
      | .short v => v.toInt
      | .long v => v.toInt
    let t := (r.aVal a).toNat
    aRow g 1 d ((t % 2 ^ 48 : Nat) + (((r.aVal (a + 1)).toNat + k) % 2 ^ 64) % 2 ^ (t / 2 ^ 53 % 32) *
      2 ^ (t / 2 ^ 48 % 32))
  | _ => none

/-- The copies between files whose source is a scalar, an address, a lane or half of a descriptor, where the
operation has a predicate guard (R103, R166, R235). -/
def rowR103 (r : Regs) : Instr → Option Row
  | .s2a g d a => some ⟨g, 2, .a d (r.sVal a)⟩
  | .a2s g d a => some ⟨g, 2, .s d (r.aVal a)⟩
  | _ => none

/-! ## Lanes (R167, R168) -/

/-- A result in lanes: the register, the lane mask, the latency, the source va that the near latch takes
(R105), and the value of an enabled lane. -/
structure LaneRow where
  d : BitVec 6
  m : BitVec 3
  n : Nat
  a : Option (BitVec 6)
  f : Nat → Lane

/-- Register v is what a row says, lane by lane: an enabled lane has its value, and a disabled lane keeps what
vd held (R168). -/
def LaneRow.fits (w : LaneRow) (r : Regs) (v : VReg) : Prop :=
  ∀ j < 64, lane v j = if (r.mVal w.m).getLsbD j then w.f j else lane (r.vVal w.d) j

/-- The state with a value for vd in flight, and va in the near latch. -/
def State.laneEffect (s : State) (n : Nat) (l : Landing) : Option (BitVec 6) → State
  | some a => (s.res n l).latch a
  | none => s.res n l

/-- What an integer operation makes of two elements of n bits (R177). -/
def rowR177 : Instr → Option (BitVec 6 × BitVec 6 × BitVec 6 × BitVec 3 × BitVec 3 × (Nat → Nat → Nat → Int))
  | .vadd d a b m _ w => some (d, a, b, m, w, fun _ x y => x + y)
  | .vsub d a b m _ w => some (d, a, b, m, w, fun _ x y => x - y)
  | .vmul d a b m _ w => some (d, a, b, m, w, fun _ x y => x * y)
  | .vmulhi d a b m _ w => some (d, a, b, m, w, fun n x y =>
      Int.bmod x (2 ^ n) * Int.bmod y (2 ^ n) / 2 ^ n)
  | .vmin d a b m _ w => some (d, a, b, m, w, fun n x y => min (Int.bmod x (2 ^ n)) (Int.bmod y (2 ^ n)))
  | .vmax d a b m _ w => some (d, a, b, m, w, fun n x y => max (Int.bmod x (2 ^ n)) (Int.bmod y (2 ^ n)))
  | .vminn d a b m _ w => some (d, a, b, m, w, fun _ x y => (min x y : Nat))
  | .vmaxn d a b m _ w => some (d, a, b, m, w, fun _ x y => (max x y : Nat))
  | .vand d a b m _ w => some (d, a, b, m, w, fun _ x y => (x &&& y : Nat))
  | .vor d a b m _ w => some (d, a, b, m, w, fun _ x y => (x ||| y : Nat))
  | .vxor d a b m _ w => some (d, a, b, m, w, fun _ x y => (x ^^^ y : Nat))
  | .vshl d a b m _ w => some (d, a, b, m, w, fun n x y => x * 2 ^ (y % n))
  | .vshr d a b m _ w => some (d, a, b, m, w, fun n x y => x / 2 ^ (y % n))
  | .vsar d a b m _ w => some (d, a, b, m, w, fun n x y => Int.bmod x (2 ^ n) / 2 ^ (y % n))
  | .vabs d a m _ w => some (d, a, a, m, w, fun n x _ => (Int.bmod x (2 ^ n)).natAbs)
  | _ => none

/-- Element k of a lane of n-bit elements (R177). -/
def elemOf (n k : Nat) (x : Lane) : Nat := x.toNat / 2 ^ (n * k) % 2 ^ n

/-- The exact value of a float operation's lane before its one rounding by RNE (R178), with the latency of
R171: d is the old lane of vd. -/
def rowR178 : Instr → Option (BitVec 6 × BitVec 6 × BitVec 6 × BitVec 3 × Nat × (FVal → FVal → FVal → FVal))
  | .vfadd d a b m _ => some (d, a, b, m, 4, fun x y _ => x.add y)
  | .vfsub d a b m _ => some (d, a, b, m, 4, fun x y _ => x.add y.neg)
  | .vfmul d a b m _ => some (d, a, b, m, 4, fun x y _ => x.mul y)
  | .vfma d a b m _ k => some (d, a, b, m, 4, fun x y z =>
      match k.toNat with
      | 0 => (x.mul y).add z
      | 1 => (x.mul y).add z.neg
      | 2 => (x.mul y).neg.add z
      | _ => (x.mul y).neg.add z.neg)
  | .vfmin d a b m _ => some (d, a, b, m, 4, fun x y _ => x.least y)
  | .vfmax d a b m _ => some (d, a, b, m, 4, fun x y _ => x.greatest y)
  | .vfdiv d a b m _ => some (d, a, b, m, 12, fun x y _ => x.div y)
  | .vfsqrt d a m _ => some (d, a, a, m, 12, fun x _ _ => x.sqrt)
  | .vfrsqrt d a m _ => some (d, a, a, m, 12, fun x _ _ => x.rsqrt)
  | .vfexp2 d a m _ => some (d, a, a, m, 12, fun x _ _ => x.exp2)
  | .vflog2 d a m _ => some (d, a, a, m, 12, fun x _ _ => x.log2)
  | _ => none

/-- The flags that lanes set: each is set by some enabled lane that sets it (R168, R170). -/
def flagsOf (mask : Word) (f : Nat → Flags) (z : Flags) : Prop :=
  (z.nf = true ↔ ∃ j < 64, mask.getLsbD j = true ∧ (f j).nf = true) ∧
  (z.ovf = true ↔ ∃ j < 64, mask.getLsbD j = true ∧ (f j).ovf = true) ∧
  (z.sat = true ↔ ∃ j < 64, mask.getLsbD j = true ∧ (f j).sat = true)

/-- Lane moves and lane values that set no flag, but for the reductions (R181, R182, R186, R188, R189,
R193). m0, whose lanes are all enabled, stands for an operation that writes every lane. -/
def rowMoves (r : Regs) : Instr → Option LaneRow
  | .vsel d a b m _ => some ⟨d, 0, 4, some a, fun j =>
      if (r.mVal m).getLsbD j then lane (r.vVal a) j else lane (r.vVal b) j⟩
  | .mpopc d a m => some ⟨d, 0, 4, none, fun _ =>
      BitVec.ofNat 32 ((List.range 64).countP fun k => (r.mVal a &&& r.mVal m).getLsbD k)⟩
  | .vunpack d a sx p m _ b => some ⟨d, m, 4, some a, fun i =>
      let n := packWidth b
      let e : Nat := (r.vVal a).toNat / 2 ^ (64 * n * p.toNat + n * i) % 2 ^ n
      BitVec.ofInt 32 (if sx then Int.bmod e (2 ^ n) else e)⟩
  | .vperm d a b m _ => some ⟨d, m, 4, some a, fun j => lane (r.vVal a) ((lane (r.vVal b) j).toNat % 64)⟩
  | .vrot d a b m _ k => some ⟨d, m, 4, some a, fun j =>
      lane (r.vVal a) ((j + if k = 0 then b.toNat else (lane (r.vVal b) 0).toNat % 64) % 64)⟩
  | .vbcast d a b m _ k => some ⟨d, m, 4, some a, fun _ =>
      lane (r.vVal a) (if k = 0 then b.toNat else (lane (r.vVal b) 0).toNat % 64)⟩
  | .vsigf d a m _ => some ⟨d, m, 4, some a, fun j =>
      BitVec.ofNat 32 (((lane (r.vVal d) j).toNat * 2 ^ 32 + (lane (r.vVal a) j).toNat) % 4294967291)⟩
  | .vli d i m k => some ⟨d, m, 4, none, fun j =>
      match k.toNat with
      | 0 => BitVec.ofInt 32 i.sval
      | 1 => BitVec.ofNat 32 (i.uval * 2 ^ 13 + (lane (r.vVal d) j).toNat % 2 ^ 13)
      | _ => BitVec.ofInt 32 (j + i.sval)⟩
  | _ => none

/-- The value of a finite float as a rational number. -/
def finRat (neg : Bool) (m : Nat) (e : Int) : Rat := (if neg then -1 else 1) * m * (2 : Rat) ^ e

/-- The magnitude of the largest finite value of a format: 448 for E4M3, else p one bits below 2^128 (R71, R72). -/
def FloatFmt.largest (f : FloatFmt) : Rat :=
  if f.width = 8 then 448 else (2 ^ f.p - 1 : Nat) * 2 ^ (128 - f.p)

/-- The code and the flags that an overflow gives (R81, by mode), and those of an infinity and of a NaN (R73,
R87). -/
def overflowsTo (f : FloatFmt) (mode : Nat) (neg : Bool) : Nat :=
  let finite := mode = 1 ∨ mode = 2 ∧ neg = false ∨ mode = 3 ∧ neg = true
  match f.width with
  | 32 => bit neg * 2 ^ 31 + if finite then 0x7F7FFFFF else 0x7F800000
  | 16 => bit neg * 2 ^ 15 + if finite then 0x7F7F else 0x7F80
  | _ => 0x7F

def infinityTo (f : FloatFmt) (neg : Bool) : Nat :=
  match f.width with
  | 32 => bit neg * 2 ^ 31 + 0x7F800000
  | 16 => bit neg * 2 ^ 15 + 0x7F80
  | _ => 0x7F

def nanTo (f : FloatFmt) : Nat :=
  match f.width with
  | 32 => 0x7FC00000
  | 16 => 0x7FC0
  | _ => 0x7F

/-- Code z with flags g is one rounding of an exact value into a format (R79 to R83, R87; b: the random value of
SR): in units of the last place 2^q, q no lower than the format's least, the magnitude rounds to y; past the
largest finite value R81's table gives the code, and otherwise the code's value is y units with the sign kept. -/
def FloatFmt.rounded (f : FloatFmt) (mode b : Nat) (v : FVal) (z : Nat) (g : Flags) : Prop :=
  match v with
  | .nan => z = nanTo f ∧ g = ⟨true, false, false⟩
  | .inf neg => z = infinityTo f neg ∧ g = ⟨true, false, false⟩
  | .fin neg m e =>
    let q : Int := max (e + Nat.log2 m) f.emin - (f.p - 1)
    let y := roundMag mode b neg m (e - q)
    if f.largest < finRat false y q then z = overflowsTo f mode neg ∧ g = ⟨true, true, false⟩
    else z < 2 ^ f.width ∧ g = Flags.none ∧ ∃ n k, f.value z = .fin neg n k ∧ finRat false n k = finRat false y q

/-- k units of 2^g stand for a positive number x of which only its place among the units and its square or
product with others is known: an even k is exact, and an odd one lies strictly between its two neighbours. -/
def brackets (k : Nat) (g : Int) (above below exact : Rat → Prop) : Prop :=
  if k % 2 = 0 then exact (k * 2 ^ g)
  else 2 ^ 64 ≤ k ∧ below ((k - 1 : Nat) * 2 ^ g) ∧ above ((k + 1) * 2 ^ g)

/-- The exact values of R178 as rational numbers: a sum and a product are exact; a quotient, a root and an inverse
root are exact or lie strictly between the neighbours of an odd number of units, at least 2^64, which settles one
rounding into 24 bits. -/
def exactAdd (a : Bool) (m : Nat) (e : Int) (b : Bool) (n : Nat) (f : Int) (v : FVal) : Prop :=
  ∃ c l g, v = .fin c l g ∧ finRat c l g = finRat a m e + finRat b n f ∧ (l = 0 → c = (a && b))

def exactMul (a : Bool) (m : Nat) (e : Int) (b : Bool) (n : Nat) (f : Int) (v : FVal) : Prop :=
  ∃ l g, v = .fin (a != b) l g ∧ finRat (a != b) l g = finRat a m e * finRat b n f

def exactDiv (a : Bool) (m : Nat) (e : Int) (b : Bool) (n : Nat) (f : Int) (v : FVal) : Prop :=
  let x := finRat false m e
  let y := finRat false n f
  ∃ k g, v = .fin (a != b) k g ∧ brackets k g (fun z => x < z * y) (fun z => z * y < x) (fun z => z * y = x)

def exactSqrt (m : Nat) (e : Int) (v : FVal) : Prop :=
  let x := finRat false m e
  ∃ k g, v = .fin false k g ∧ brackets k g (fun z => x < z * z) (fun z => z * z < x) (fun z => z * z = x)

def exactRsqrt (m : Nat) (e : Int) (v : FVal) : Prop :=
  let x := finRat false m e
  ∃ k g, v = .fin false k g ∧ brackets k g (fun z => 1 < z * z * x) (fun z => z * z * x < 1) (fun z => z * z * x = 1)

/-- The exact value of a source element of VCVT, by the type codes of R184. -/
def convertsFrom (ty : BitVec 3) (x : Lane) : FVal :=
  let n := x.toNat
  let int (i : Int) : FVal := .fin (decide (i < 0)) i.natAbs 0
  match ty.toNat with
  | 0 => f32 x
  | 1 => f32 (BitVec.ofNat 32 (n % 2 ^ 16 * 2 ^ 16))
  | 2 =>
    if n % 128 = 127 then .nan
    else if n / 8 % 16 = 0 then .fin (decide (128 ≤ n % 256)) (n % 8) (-9)
    else .fin (decide (128 ≤ n % 256)) (8 + n % 8) ((n / 8 % 16 : Nat) - 10)
  | 3 => int (Int.bmod n (2 ^ 32))
  | 4 => int n
  | 5 => int (Int.bmod n (2 ^ 16))
  | 6 => int (Int.bmod n (2 ^ 8))
  | _ => int (n % 2 ^ 8 : Nat)

/-- Lane z with flags g is an exact value converted to a destination type (R79 to R84, R184): a narrow float is
zero-extended, and an integer is its rounding clipped to the type's range and extended by its sign. -/
def convertsTo (ty : BitVec 3) (mode b : Nat) (v : FVal) (z : Lane) (g : Flags) : Prop :=
  let int (lo hi : Int) : Prop :=
    match v with
    | .nan => z = 0 ∧ g = ⟨false, false, true⟩
    | .inf neg => z = BitVec.ofInt 32 (if neg then lo else hi) ∧ g = ⟨false, false, true⟩
    | .fin neg m e =>
      let y : Int := (if neg then -1 else 1) * roundMag mode b neg m e
      z = BitVec.ofInt 32 (max lo (min hi y)) ∧ g = ⟨false, false, decide (y < lo ∨ hi < y)⟩
  match ty.toNat with
  | 0 => fp32.rounded mode b v z.toNat g
  | 1 => bf16.rounded mode b v z.toNat g
  | 2 => e4m3.rounded mode b v z.toNat g
  | 3 => int (-(2 ^ 31)) (2 ^ 31 - 1)
  | 4 => int 0 (2 ^ 32 - 1)
  | 5 => int (-(2 ^ 15)) (2 ^ 15 - 1)
  | 6 => int (-(2 ^ 7)) (2 ^ 7 - 1)
  | _ => int 0 (2 ^ 8 - 1)

/-- A value that is neither a NaN nor an infinity. -/
def FVal.Finite (v : FVal) : Prop := ∃ neg m e, v = .fin neg m e

/-- n values quantised to an MX block of fraction width F by R76: the scale byte, the codes and the flags. b j is
the random value of element j. -/
def quantised (n F mode : Nat) (b : Nat → Nat) (x : Nat → FVal) (scale : Nat) (code : Nat → Int) (g : Flags) : Prop :=
  let lost : Prop := scale = 255 ∧ ∀ j < n, code j = 0
  ((∃ j < n, ¬(x j).Finite) → lost ∧ g = ⟨true, false, false⟩) ∧
  ((∀ j < n, ∃ neg e, x j = .fin neg 0 e) → scale = 127 ∧ (∀ j < n, code j = 0) ∧ g = Flags.none) ∧
  ∀ i < n, ∀ neg m e, x i = .fin neg m e → m ≠ 0 → (∀ j < n, (x j).Finite) →
    (∀ j < n, ∀ a y f, x j = .fin a y f → finRat false y f ≤ finRat false m e) →
    let k : Int := e + Nat.log2 m
    let k := if 2 ^ (F + 1) - 1 < roundMag 0 0 false m (e + F - k) then k + 1 else k
    let s := (max (k + 127) 0).toNat
    let c (j : Nat) : Int :=
      match x j with
      | .fin a y f => (if a then -1 else 1) * roundMag mode (b j) a y (f + F - (s - 127))
      | _ => 0
    let lossy : Prop := 254 < k + 127 ∨ ∃ j < n, 2 ^ (F + 1) - 1 < (c j).natAbs
    (lossy → lost ∧ g = ⟨true, true, false⟩) ∧
      (¬lossy → scale = s ∧ (∀ j < n, code j = c j) ∧ g = Flags.none)

/-- x < y as numbers; a NaN is below nothing and above nothing (R180). -/
def FVal.Below : FVal → FVal → Prop
  | .nan, _ => False
  | _, .nan => False
  | .inf a, .inf b => a = true ∧ b = false
  | .inf a, .fin _ _ _ => a = true
  | .fin _ _ _, .inf b => b = false
  | .fin a m e, .fin b n f => finRat a m e < finRat b n f

/-- x = y as numbers; -0 equals +0 and a NaN equals nothing (R180). -/
def FVal.Same : FVal → FVal → Prop
  | .nan, _ => False
  | _, .nan => False
  | .inf a, .inf b => a = b
  | .inf _, .fin _ _ _ => False
  | .fin _ _ _, .inf _ => False
  | .fin a m e, .fin b n f => finRat a m e = finRat b n f

/-- The conditions of VCMP and of VFCMP (R180). -/
def laneCondition (c : BitVec 3) (a b : Lane) : Prop :=
  (match c.toNat % 4 with
    | 0 => a = b
    | 1 => a.toInt < b.toInt
    | 2 => a.toNat < b.toNat
    | _ => a &&& b ≠ 0) ↔ c.toNat < 4

def floatCondition (c : BitVec 3) (a b : Lane) : Prop :=
  (match c.toNat % 4 with
    | 0 => (f32 a).Same (f32 b)
    | 1 => (f32 a).Below (f32 b)
    | 2 => (f32 a).Below (f32 b) ∨ (f32 a).Same (f32 b)
    | _ => f32 a = .nan ∨ f32 b = .nan) ↔ c.toNat < 4

/-- What an operation writes into a mask register, bit by bit: the register, the source that the near latch
takes, and when bit j is 1 (R180, R182). -/
def rowMask (r : Regs) : Instr → Option (BitVec 3 × Option (BitVec 6) × (Nat → Prop))
  | .vcmp d a b m _ c => some (d, some a, fun j =>
      (r.mVal m).getLsbD j = true ∧ laneCondition c (lane (r.vVal a) j) (lane (r.vVal b) j))
  | .vfcmp d a b m _ c => some (d, some a, fun j =>
      (r.mVal m).getLsbD j = true ∧ floatCondition c (lane (r.vVal a) j) (lane (r.vVal b) j))
  | .mlog d a b t => some (d, none, fun j =>
      t.getLsbD (2 * bit ((r.mVal a).getLsbD j) + bit ((r.mVal b).getLsbD j)) = true)
  | _ => none

/-- The condition that VUNI examines: the mask and the condition of each lane, with the predicate and the
source that the near latch takes (R183). -/
def rowR183 (r : Regs) : Instr → Option (BitVec 3 × BitVec 3 × Option (BitVec 6) × (Nat → Prop))
  | .vuni p a m _ => some (p, m, some a, fun j => lane (r.vVal a) j ≠ 0)
  | .vuniM p a m => some (p, m, none, fun j => (r.mVal a).getLsbD j = true)
  | _ => none

/-! ## Reductions (R90, R187, R189) -/

/-- Node i of level n of the tree of R90. -/
def treeNode {α : Type} (op : α → α → α) (w : Nat → α) : Nat → Nat → α
  | 0, i => w i
  | n + 1, i => op (treeNode op w n (2 * i)) (treeNode op w n (2 * i + 1))

/-- VRED's operator and its identity (R187). -/
def vredOp (o : BitVec 3) (x y : Lane) : Lane :=
  match o.toNat with
  | 0 => BitVec.ofNat 32 (x.toNat + y.toNat)
  | 1 => BitVec.ofInt 32 (min x.toInt y.toInt)
  | 2 => BitVec.ofInt 32 (max x.toInt y.toInt)
  | 3 => BitVec.ofNat 32 (min x.toNat y.toNat)
  | 4 => BitVec.ofNat 32 (max x.toNat y.toNat)
  | 5 => x &&& y
  | 6 => x ||| y
  | _ => x ^^^ y

def vredIdentity (o : BitVec 3) : Lane :=
  match o.toNat with
  | 1 => 0x7FFFFFFF
  | 2 => 0x80000000
  | 3 => BitVec.allOnes 32
  | 5 => BitVec.allOnes 32
  | _ => 0

/-- VFRED's operator on FP32 lanes, exactly, and rounded once by RNE (R187). -/
def vfredExact (o : BitVec 3) (x y : Lane) : FVal :=
  match o.toNat with
  | 0 => (f32 x).add (f32 y)
  | 1 => (f32 x).least (f32 y)
  | _ => (f32 x).greatest (f32 y)

def vfredOp (o : BitVec 3) (x y : Lane) : Lane := (toF32 (vfredExact o x y)).1

def vfredIdentity (o : BitVec 3) : Lane :=
  match o.toNat with
  | 0 => 0x80000000
  | 1 => 0x7F800000
  | _ => 0xFF800000

/-- The fold of R189 modulo P. -/
def sigOp (x y : Lane) : Lane := BitVec.ofNat 32 ((x.toNat * 2 ^ 32 + y.toNat) % 4294967291)

/-- The 64 values that a reduction combines: masked lanes give the identity. -/
def redLanes (r : Regs) (a : BitVec 6) (m : BitVec 3) (z : Lane) (j : Nat) : Lane :=
  if (r.mVal m).getLsbD j then lane (r.vVal a) j else z

/-! ## Scratchpad and accumulator (R172 to R175, R227, R244) -/

/-- A vector access of the scratchpad: whether it loads, the register, the source that the near latch takes,
the mask, whether it is one of the four that R173 counts lines for, and the address of each lane (R172). -/
structure SpadRow where
  load : Bool
  d : BitVec 6
  a : BitVec 6
  m : BitVec 3
  wide : Bool
  at_ : Nat → Nat

/-- An address computed exactly, reduced modulo 2^19, bits 1:0 cleared (R172). -/
def wordAddr (x : Int) : Nat := (x % 2 ^ 19 - x % 4).toNat

def rowR172 (r : Regs) : Instr → Option SpadRow
  | .vld d a o m _ => some ⟨true, d, a, m, false, fun i =>
      wordAddr ((lane (r.vVal a) 0).toNat + 256 * o.sval + 4 * i)⟩
  | .vlds d a b m _ => some ⟨true, d, a, m, true, fun i =>
      wordAddr ((lane (r.vVal a) 0).toNat + i * (lane (r.vVal b) 0).toInt)⟩
  | .vgath d a b m _ => some ⟨true, d, a, m, true, fun i =>
      wordAddr ((lane (r.vVal a) 0).toNat + 4 * (lane (r.vVal b) i).toNat)⟩
  | .vst d a o m _ => some ⟨false, d, a, m, false, fun i =>
      wordAddr ((lane (r.vVal a) 0).toNat + 256 * o.sval + 4 * i)⟩
  | .vsts d a b m _ => some ⟨false, d, a, m, true, fun i =>
      wordAddr ((lane (r.vVal a) 0).toNat + i * (lane (r.vVal b) 0).toInt)⟩
  | .vscat d a b m _ => some ⟨false, d, a, m, true, fun i =>
      wordAddr ((lane (r.vVal a) 0).toNat + 4 * (lane (r.vVal b) i).toNat)⟩
  | _ => none

/-- A scratchpad byte that no access of the strand reaches: at 393,216 or above, or in a guard granule (R172,
R227). -/
def Core.guarded (k : Core) (a : Nat) : Bool := decide (393216 ≤ a) || k.guardMap.getLsbD (a / 64)

/-- The lines of bank b that the valid enabled lanes need, and the largest number of any bank, at least 1
(R173). -/
def bankLines (k : Core) (mask : Word) (f : Nat → Nat) (b : Nat) : Nat :=
  (List.range 1536).countP fun l => l / 64 == b &&
    (List.range 64).any fun j => mask.getLsbD j && !(k.guarded (f j)) && f j / 256 == l

def lineClocks (k : Core) (mask : Word) (f : Nat → Nat) : Nat :=
  ((List.range 24).map (bankLines k mask f)).foldl max 1

/-- The touches that an access records (R172, R227): one of each enabled lane whose address is invalid, the lowest
lane's first. -/
def touchList (k : Core) (mask : Word) (f : Nat → Nat) : List GuardRec :=
  ((List.range 64).filter fun j => mask.getLsbD j && k.guarded (f j)).map fun j =>
    ⟨0, BitVec.ofNat 5 (f j / 16384), BitVec.ofNat 14 (f j % 16384 / 64 * 64), 0, 1, 0⟩

/-- The record of a strand's touches after more of them (R227, R318): it holds the first, and counts the others
up to 255. -/
def touchesAre (old : Option GuardRec) (l : List GuardRec) (g : Option GuardRec) : Prop :=
  match old, l with
  | none, [] => g = none
  | none, u :: r => g = some { u with count := BitVec.ofNat 8 (min 255 (u.count.toNat + r.length)) }
  | some u, r => g = some { u with count := BitVec.ofNat 8 (min 255 (u.count.toNat + r.length)) }

/-- A byte among n at a scratchpad offset that the strand reaches lies in a poisoned unit (R348). -/
def Core.poisonAt (k : Core) (a n : Nat) : Prop :=
  ∃ i < n, k.guarded (a + i) = false ∧ (a + i) / 32 ∈ k.spadPoison

/-- The poisoned units of the scratchpad after a store of lanes: a unit is sound again where the words stored
cover all its bytes (R348). -/
def healedLanes (k : Core) (mask : Word) (f : Nat → Nat) (p : List Nat) : Prop :=
  ∀ u, u ∈ p ↔ u ∈ k.spadPoison ∧ ∃ i < 32, k.guarded (32 * u + i) = true ∨
    ∀ j < 64, mask.getLsbD j = true → 32 * u + i < f j ∨ f j + 4 ≤ 32 * u + i

/-- The scratchpad after a store of lanes (R172): a byte of an enabled lane's word that is not guarded is that
lane's, of the highest such lane; every other byte is as before. -/
def storedLanes (k : Core) (mask : Word) (f : Nat → Nat) (v : VReg) (m : Mem) : Prop :=
  Mem.wf m = true ∧
  (∀ a, (k.guarded a = true ∨ ∀ j < 64, mask.getLsbD j = true → a < f j ∨ f j + 4 ≤ a) →
    memRead m a = memRead k.spad a) ∧
  ∀ j < 64, mask.getLsbD j = true → (∀ i, j < i → i < 64 → mask.getLsbD i = true → f i ≠ f j) →
    ∀ b < 4, k.guarded (f j + b) = false → memRead m (f j + b) = (lane v j).extractLsb' (8 * b) 8

/-- The scratchpad port is taken for n clocks (R173). -/
def State.portFor (s : State) (n : Nat) : State :=
  s.modCore s.issue.c fun k => { k with portFree := s.clk s.issue.c + n }

/-! ## Global accesses (R238, R239, R242, R245) -/

/-- a[base] + n * o modulo 2^64. -/
def eaOf (b : Word) (n : Nat) (o : Int) : Word := BitVec.ofInt 64 (b.toNat + n * o)

/-- A global access of slot 1: its guard, the register that it empties, and the access, whose number and place in
the order of stores the issue gives it. -/
def rowAccess (x : Bool) (r : Regs) : Instr → Option (Guard × Option (BitVec 5) × Access)
  | .ldBI g k d b o => some (g, some d, newAccess x .load 1 true d (eaOf (r.aVal b) 1 o.sval) k)
  | .ldBN g k d b o => some (g, some d, newAccess x .load 1 false d (eaOf (r.aVal b) 1 o.sval) k)
  | .ldHI g k d b o => some (g, some d, newAccess x .load 2 true d (eaOf (r.aVal b) 2 o.sval) k)
  | .ldHN g k d b o => some (g, some d, newAccess x .load 2 false d (eaOf (r.aVal b) 2 o.sval) k)
  | .ldWI g k d b o => some (g, some d, newAccess x .load 4 true d (eaOf (r.aVal b) 4 o.sval) k)
  | .ldWN g k d b o => some (g, some d, newAccess x .load 4 false d (eaOf (r.aVal b) 4 o.sval) k)
  | .ldD g k d b o => some (g, some d, { newAccess x .load 8 false d (eaOf (r.aVal b) 8 o.sval) k with
      dword := true })
  | .ldxBI g k d b i => some (g, some d, newAccess x .load 1 true d (eaOf (r.aVal b) 1 (r.aVal i).toNat) k)
  | .ldxBN g k d b i => some (g, some d, newAccess x .load 1 false d (eaOf (r.aVal b) 1 (r.aVal i).toNat) k)
  | .ldxHI g k d b i => some (g, some d, newAccess x .load 2 true d (eaOf (r.aVal b) 2 (r.aVal i).toNat) k)
  | .ldxHN g k d b i => some (g, some d, newAccess x .load 2 false d (eaOf (r.aVal b) 2 (r.aVal i).toNat) k)
  | .ldxWI g k d b i => some (g, some d, newAccess x .load 4 true d (eaOf (r.aVal b) 4 (r.aVal i).toNat) k)
  | .ldxWN g k d b i => some (g, some d, newAccess x .load 4 false d (eaOf (r.aVal b) 4 (r.aVal i).toNat) k)
  | .ldxD g k d b i => some (g, some d, newAccess x .load 8 false d (eaOf (r.aVal b) 8 (r.aVal i).toNat) k)
  | .stB g k d b o => some (g, none, { newAccess x .store 1 false d (eaOf (r.aVal b) 1 o.sval) k with
      d0 := BitVec.ofNat 64 ((r.aVal d).toNat % 2 ^ 8) })
  | .stH g k d b o => some (g, none, { newAccess x .store 2 false d (eaOf (r.aVal b) 2 o.sval) k with
      d0 := BitVec.ofNat 64 ((r.aVal d).toNat % 2 ^ 16) })
  | .stW g k d b o => some (g, none, { newAccess x .store 4 false d (eaOf (r.aVal b) 4 o.sval) k with
      d0 := BitVec.ofNat 64 ((r.aVal d).toNat % 2 ^ 32) })
  | .stD g k d b o => some (g, none, { newAccess x .store 8 false d (eaOf (r.aVal b) 8 o.sval) k with
      dword := true, d0 := BitVec.ofNat 64 ((r.aVal d).toNat % 2 ^ 64) })
  | .stxB g k d b i => some (g, none, { newAccess x .store 1 false d (eaOf (r.aVal b) 1 (r.aVal i).toNat) k with
      d0 := BitVec.ofNat 64 ((r.aVal d).toNat % 2 ^ 8) })
  | .stxH g k d b i => some (g, none, { newAccess x .store 2 false d (eaOf (r.aVal b) 2 (r.aVal i).toNat) k with
      d0 := BitVec.ofNat 64 ((r.aVal d).toNat % 2 ^ 16) })
  | .stxW g k d b i => some (g, none, { newAccess x .store 4 false d (eaOf (r.aVal b) 4 (r.aVal i).toNat) k with
      d0 := BitVec.ofNat 64 ((r.aVal d).toNat % 2 ^ 32) })
  | .stxD g k d b i => some (g, none, { newAccess x .store 8 false d (eaOf (r.aVal b) 8 (r.aVal i).toNat) k with
      d0 := BitVec.ofNat 64 ((r.aVal d).toNat % 2 ^ 64) })
  | .ldacqW g k d b sc o => some (g, some d, { newAccess x .ldacq 4 false d (eaOf (r.aVal b) 4 o.sval) k with
      scope := sc })
  | .ldacqD g k d b sc o => some (g, some d, { newAccess x .ldacq 8 false d (eaOf (r.aVal b) 8 o.sval) k with
      scope := sc })
  | .strelW g k d b sc o => some (g, none, { newAccess x .strel 4 false d (eaOf (r.aVal b) 4 o.sval) k with
      scope := sc, d0 := BitVec.ofNat 64 ((r.aVal d).toNat % 2 ^ 32) })
  | .strelD g k d b sc o => some (g, none, { newAccess x .strel 8 false d (eaOf (r.aVal b) 8 o.sval) k with
      scope := sc, d0 := BitVec.ofNat 64 ((r.aVal d).toNat % 2 ^ 64) })
  | .amo g k d b f z sc => some (g, some d, { newAccess x .amo (if z then 8 else 4) false d (r.aVal b) k with
      scope := sc, func := f, d0 := BitVec.ofNat 64 ((r.aVal d).toNat % 2 ^ (if z then 64 else 32)) })
  | .cas g k d b z sc => some (g, some d, { newAccess x .cas (if z then 8 else 4) false d (r.aVal b) k with
      scope := sc, d0 := BitVec.ofNat 64 ((r.aVal d).toNat % 2 ^ (if z then 64 else 32)),
      d1 := BitVec.ofNat 64 ((r.aVal (d + 1)).toNat % 2 ^ (if z then 64 else 32)) })
  | .afadd g k d b sc => some (g, some d, { newAccess x .afadd 4 false d (r.aVal b) k with
      scope := sc, d0 := BitVec.ofNat 64 ((r.aVal d).toNat % 2 ^ 32) })
  | _ => none

/-- An access takes the next number of its core and its place in the order of its die's stores. -/
def State.accessAdded (s : State) (c : Nat) (a : Access) : State :=
  s.modCore c fun k => { k with accs := k.accs ++ [a], nextAcc := k.nextAcc + 1 }

/-- What is known of an access of core c when it issues (R203, R239, R241): it is misaligned, it lies beyond 48
bits, a translation that its core holds refuses or serves it, or it misses. -/
def State.outcomeOf (s : State) (c : Nat) (a : Access) : AccState :=
  if a.va.toNat % a.size ≠ 0 then .failed 5
  else if 2 ^ 48 ≤ a.va.toNat then .failed 1
  else match cached (s.core c).tcache a.va with
    | some t => if s.permBad t a.need then .failed 2 else .found t
    | none => .walking

/-- What an access of core c becomes at issue (R204, R239, R252): one that must follow an earlier one onto the ring
is diverted; one that misses joins the walk of its page, or begins one while fewer than 64 are in progress on its
die; any other leaves translation once the accesses before it have. -/
def State.accessGoes (s : State) (c : Nat) (a : Access) : State :=
  let a : Access := { a with id := (s.core c).nextAcc, st := s.outcomeOf c a }
  let u := s.accessAdded c a
  let ws := (s.die (c / 12)).walks
  if u.mustDivert c a then (u.divert c a 0).enterRing c
  else if a.st ≠ .walking then u.leave c a.x
  else if (∃ w ∈ ws, w.page = a.va.toNat / 65536) ∨ 64 ≤ ws.length then u
  else (u.modDie (c / 12) fun k =>
    { k with walks := k.walks ++ [⟨a.va.toNat / 65536, c, a.id⟩] }).laterPick Config.walk (.pageWalk c a.id)

/-- The bytes of a store that issues: those of its physical address, where its translation is known. -/
def storesAt (k : Core) (a : Access) (p : Nat) : Prop :=
  a.isStore = true ∧ ∃ t, cached k.tcache a.va = some t ∧ t.pa a.va ≤ p ∧ p < t.pa a.va + a.size

/-- The bytes of the stores of a die's cores that have their translation and are not made yet. -/
def State.readyStoreAt (s : State) (d p : Nat) : Prop :=
  ∃ l < 12, ∃ y ∈ (s.core (12 * d + l)).accs, y.isStore = true ∧
    ((y.st = .ready ∧ y.pa ≤ p ∧ p < y.pa + y.size) ∨
      ∃ t, y.st = .found t ∧ t.pa y.va ≤ p ∧ p < t.pa y.va + y.size)

/-- x is the newest entry of a list, oldest first, that meets a condition. -/
def newestOf {α : Type} (l : List α) (hit : α → Prop) (x : α) : Prop :=
  ∃ p r, l = p ++ x :: r ∧ hit x ∧ ∀ y ∈ r, ¬hit y

/-- The byte that a load of a strand on die d takes at physical address a (R207, R209, R240, R336, R359): of the
newest write that the containment buffer holds for the strand; else of a die register or of host memory; else of
the newest store on the die's path; else the one at home. -/
def State.loadsByte (s : State) (run : Nat) (rank : BitVec 4) (d a : Nat) (b : Byte) : Prop :=
  let mine (h : Held) : Prop := h.run = run ∧ h.rank = rank ∧ h.pa ≤ a ∧ a < h.pa + h.data.length
  let path (p : PathStore) : Prop := p.pa ≤ a ∧ a < p.pa + p.data.length
  (∀ h, newestOf (s.die d).contain mine h → b = h.data.getD (a - h.pa) 0) ∧
  ((∀ h ∈ (s.die d).contain, ¬mine h) → match s.site a with
    | .register e off => b = (s.dieReg e (off / 8 * 8)).extractLsb' (8 * (off % 8)) 8
    | .aperture off => b = memRead s.mdl.hostMem ((s.mdl.hapBase.toNat + off) % 2 ^ 64)
    | _ => (∀ p, newestOf (s.die d).path path p → b = p.data.getD (a - p.pa) 0) ∧
        ((∀ p ∈ (s.die d).path, ¬path p) → b = memRead s.mem a))

/-- The number n that an atomic stores over the old value m (R245, R246, R247). -/
def atomicResult (a : Access) (m n : Nat) : Prop :=
  let w := 2 ^ (8 * a.size)
  let v := a.d0.toNat % w
  match a.kind with
  | .cas => n = if m = v then a.d1.toNat % w else m
  | .afadd => n = (toF32 ((f32 (BitVec.ofNat 32 m)).add (f32 (BitVec.ofNat 32 v)))).1.toNat
  | _ =>
    match a.func.toNat with
    | 0 => n = (m + v) % w
    | 1 => n = m &&& v
    | 2 => n = m ||| v
    | 3 => n = m ^^^ v
    | 4 => (n : Int) = min (Int.bmod m w) (Int.bmod v w) % w
    | 5 => (n : Int) = max (Int.bmod m w) (Int.bmod v w) % w
    | 6 => n = min m v
    | 7 => n = max m v
    | _ => n = v

/-! ## Engines (R255 to R275) -/

/-- A byte that an engine reaches: in device memory, or at an offset in a core's scratchpad. -/
abbrev EngPlace := Option Nat × Nat

def State.byteOf (s : State) : EngPlace → Byte
  | (none, p) => memRead s.mem p
  | (some c, o) => memRead (s.core c).spad o

/-- Byte n of a command's side lies at place b, and an engine of die d may read it, or write it (R203, R204, R228,
R348): on the global side the die holds one translation for the 256-byte block of the byte. -/
def State.engByte (s : State) (d : Nat) (write : Bool) (e : Side) (n : Nat) (b : EngPlace) : Prop :=
  match e with
  | .spad c off => c < 768 ∧ b = (some c, off + n) ∧ (s.core c).guarded (off + n) = false ∧
      (write = false → (off + n) / 32 ∉ (s.core c).spadPoison)
  | .glob va =>
    let v := va + BitVec.ofNat 64 n
    v.toNat < 2 ^ 48 ∧ ∃ t, (∀ i < 256, cached (s.die d).ecache (BitVec.ofNat 64 (v.toNat / 256 * 256 + i)) = some t) ∧
      s.permBad t ⟨!write, write, false⟩ = false ∧ b = (none, t.pa v) ∧
      (write = false → t.pa v / 32 ∉ s.mdl.poison)

/-- The bytes of a transfer of R261 and their places: S n is byte n of the source, D e n byte n of destination e, and
M e j byte j of its marker. An engine of die d may reach each, and they do not overlap. -/
structure State.CanMove (s : State) (d : Nat) (o : XferOps) (mark : Bool) (S : Nat → EngPlace)
    (D M : Nat → Nat → EngPlace) : Prop where
  src : ∀ r < o.rows, ∀ b < o.len, s.engByte d false o.src (r * o.sstr + b) (S (r * o.sstr + b))
  dst : ∀ e < o.dsts.length, ∀ r < o.rows, ∀ b < o.len,
    s.engByte d true (o.dsts.getD e o.src) (r * o.dstr + b) (D e (r * o.dstr + b))
  markers : mark = true → ∀ e < o.dsts.length, ∀ j < 8, s.engByte d true (o.dsts.getD e o.src).minus8 j (M e j)
  apart : ∀ e < o.dsts.length, ∀ r < o.rows, ∀ b < o.len,
    (∀ e' < o.dsts.length, ∀ r' < o.rows, ∀ b' < o.len,
      D e (r * o.dstr + b) = D e' (r' * o.dstr + b') → e = e' ∧ r = r' ∧ b = b') ∧
    (∀ r' < o.rows, ∀ b' < o.len, D e (r * o.dstr + b) ≠ S (r' * o.sstr + b'))
  markApart : mark = true → ∀ e < o.dsts.length, ∀ j < 8,
    (∀ e' < o.dsts.length, ∀ j' < 8, M e j = M e' j' → e = e' ∧ j = j') ∧
    (∀ e' < o.dsts.length, ∀ r < o.rows, ∀ b < o.len, M e j ≠ D e' (r * o.dstr + b)) ∧
    (∀ r < o.rows, ∀ b < o.len, M e j ≠ S (r * o.sstr + b))

/-- A transfer is made (R261): byte DST + r * DSTR + b of each destination is byte SRC + r * SSTR + b of the source,
the 8 bytes below it are MVAL under MARK, and every other byte is as before. -/
structure Moved (s t : State) (o : XferOps) (mark mval : Bool) (S : Nat → EngPlace) (D M : Nat → Nat → EngPlace) :
    Prop where
  data : ∀ e < o.dsts.length, ∀ r < o.rows, ∀ b < o.len,
    t.byteOf (D e (r * o.dstr + b)) = s.byteOf (S (r * o.sstr + b))
  marker : mark = true → ∀ e < o.dsts.length, ∀ j < 8,
    (t.byteOf (M e j)).toNat = if j = 0 then bit mval else 0
  rest : ∀ p, (∀ e < o.dsts.length, ∀ r < o.rows, ∀ b < o.len, p ≠ D e (r * o.dstr + b)) →
    (mark = true → ∀ e < o.dsts.length, ∀ j < 8, p ≠ M e j) → t.byteOf p = s.byteOf p

/-- The command of a strand that still holds its context, on die d. -/
structure State.CmdOf (s : State) (d id : Nat) (q : Cmd) : Prop where
  die : d < 64
  found : s.cmd? d id = some q
  core : q.core < 768 ∧ q.core / 12 = d
  strand : q.copyNode = none ∧ s.cmdHeld q = true
  token : q.token ≠ 0
  mem : s.MemOk

/-- The token of a command is full with a value, with or without the mark of a faulted token, and the command has left
its die's queue (R257). -/
def tokenIs (s t : State) (d : Nat) (q : Cmd) (v : Word) (fault : Bool) : Prop :=
  (t.ctx q.core q.x).regs.view (.a q.token) = v.toNat ∧ (t.ctx q.core q.x).regs.isFull (.a q.token) = true ∧
    getBit (t.ctx q.core q.x).regs.aFault q.token.toNat = fault ∧
    (t.die d).cmds.map Cmd.id = ((s.die d).cmds.map Cmd.id).filter (fun i => i != q.id)

/-- The fault word of R271. -/
def wordFor (code : Nat) (a : Word) : Word := BitVec.ofNat 64 (a.toNat % 2 ^ 48 * 2 ^ 16 + code * 2 ^ 8 + 2)

/-- The command faults with nothing written (R271). -/
def faultsUnwritten (s : State) (d id : Nat) (q : Cmd) (code : Nat) (a : Word) : Prop :=
  ∃ t, exec (.engineCompletion d id) s = .next t ∧ tokenIs s t d q (wordFor code a) true ∧
    ∀ p, t.byteOf p = s.byteOf p

/-- The tree of R91 over n values: level after level, pairs are added and a last single value goes up. -/
def rankTree {α : Type} (add : α → α → α) (n : Nat) (w : Nat → α) : Nat → Nat → α
  | 0, i => w i
  | l + 1, i =>
    if (2 * i + 1) * 2 ^ l < n then add (rankTree add n w l (2 * i)) (rankTree add n w l (2 * i + 1))
    else rankTree add n w l (2 * i)

/-- An element of a collective is a NaN or an infinity (R269). -/
def elemNonFinite (ty : BitVec 2) (v : Nat) : Prop :=
  match ty.toNat with
  | 0 => v / 2 ^ 23 % 2 ^ 8 = 255
  | 1 => v / 2 ^ 7 % 2 ^ 8 = 255
  | _ => False

/-- A sum in FP32, rounded once by RNE. -/
def f32Add (a b : Nat) : Nat := (toF32 ((f32 (BitVec.ofNat 32 a)).add (f32 (BitVec.ofNat 32 b)))).1.toNat

/-- Element j reduced over n members whose element j is w r for rank r (R91, R268). -/
def reducedElem (ty : BitVec 2) (n : Nat) (w : Nat → Nat) : Nat :=
  match ty.toNat with
  | 0 => rankTree f32Add n w 12 0
  | 1 => (bf16.round 0 0 (f32 (BitVec.ofNat 32 (rankTree f32Add n (fun r => w r * 2 ^ 16) 12 0)))).1
  | 2 => ((List.range n).map w).sum % 2 ^ 32
  | _ => ((List.range n).map w).sum % 2 ^ 64

/-- Element j that the member of a rank receives (R268): e elements a source, but n * e under reduce-scatter; w r j is
element j of rank r. -/
def collElement (ty op : BitVec 2) (n e rank root : Nat) (w : Nat → Nat → Nat) (j : Nat) : Nat :=
  match op.toNat with
  | 0 => reducedElem ty n fun r => w r j
  | 1 => reducedElem ty n fun r => w r (rank * e + j)
  | 2 => w (j / e) (j % e)
  | _ => w root j

/-- A sum of the tree over element j of two finite operands is an infinity (R269). -/
def treeOverflows (n : Nat) (w : Nat → Nat) : Prop :=
  ∃ l i, l < 12 ∧ (2 * i + 1) * 2 ^ l < n ∧
    let x := rankTree f32Add n w l (2 * i)
    let y := rankTree f32Add n w l (2 * i + 1)
    ¬elemNonFinite 0 x ∧ ¬elemNonFinite 0 y ∧ elemNonFinite 0 (f32Add x y)

/-- The flag word of R269 over n members of k source elements each. -/
def flagWord (ty op : BitVec 2) (n k : Nat) (w : Nat → Nat → Nat) (f : Word) : Prop :=
  let bad (r : Nat) : Prop := ∃ j < k, elemNonFinite ty (w r j)
  let sum (j : Nat) (r : Nat) : Nat := if ty = 1 then w r j * 2 ^ 16 else w r j
  if 2 ≤ ty.toNat then f = 0xFFFFFFFF00000000
  else slice f 31 3 = 0 ∧
    (slice f 63 32 < n ∧ bad (slice f 63 32) ∧ (∀ r < slice f 63 32, ¬bad r) ∨
      slice f 63 32 = 0xFFFFFFFF ∧ ∀ r < n, ¬bad r) ∧
    (f.getLsbD 1 = true ↔ ∃ r < n, bad r) ∧
    (f.getLsbD 2 = true ↔ op.toNat < 2 ∧ ∃ j < k, treeOverflows n (sum j)) ∧
    (f.getLsbD 0 = true ↔ if op.toNat < 2 then ∃ j < k, elemNonFinite ty (reducedElem ty n fun r => w r j)
      else ∃ r < n, bad r)

/-! ## Slot 3 (R285 to R311) -/

/-- What an operation of the array or of the tile unit takes at issue: its stage guard, the descriptors of
t-dest, of its first and its second source, the knot register, its occupancy and the clock of its result
(R290), and the SR values that it draws (R86). -/
structure Slot3Row where
  array : Bool
  g : BitVec 4
  dd : Desc
  da : Desc
  db : Desc
  dk : Desc
  occ : Nat
  lat : Nat
  draws : Nat

/-- The rounding mode of TCVT's field (R302). -/
def tcvtMode (f : BitVec 15) (k : BitVec 3) : Nat := if k = 7 then slice f 13 11 else k.toNat

def rowR290 (r : Regs) (f : BitVec 15) : Instr → Option Slot3Row
  | .tzero g d => some ⟨false, g, r.tVal d, 0, 0, 0, 4, 4, 0⟩
  | .tadd g d a => some ⟨false, g, r.tVal d, r.tVal a, 0, 0, 64, 68, 0⟩
  | .tcheck g d => some ⟨false, g, r.tVal d, 0, 0, 0, 66, 70, 0⟩
  | .tcvt g d a k => some ⟨false, g, r.tVal d, r.tVal a, 0, 0, 68, 72, if tcvtMode f k = 4 then 65536 else 0⟩
  | .mstep g d a b _ => some ⟨true, g, r.tVal d, r.tVal a, r.tVal b, 0, 64, 80, 0⟩
  | .mstepRev g d a b _ => some ⟨true, g, r.tVal d, r.tVal a, r.tVal b, 0, 64, 80, 0⟩
  | .sstep g d a k _ => some ⟨true, g, r.tVal d, r.tVal a, 0, r.kVal k, 64, 96, 0⟩
  | .sdstep g d a k _ => some ⟨true, g, r.tVal d, r.tVal a, r.tVal (a + 1), r.kVal k, 128, 160, 0⟩
  | .sgrad g a k _ => some ⟨true, g, 0, r.tVal a, r.tVal (a + 1), r.kVal k, 64, 84, 0⟩
  | .sgzero g _ => some ⟨true, g, 0, 0, 0, 0, 9, 12, 0⟩
  | .srefine g k _ => some ⟨true, g, 0, 0, 0, r.kVal k, 40, 48, 0⟩
  | .bseal g _ v =>
    let n := if v = 2 ∨ (v = 0 ∧ f.getLsbD 14 = true) then 40 else 16
    some ⟨true, g, 0, 0, 0, 0, n, n + 8, 0⟩
  | _ => none

/-- A stage guard: none, or the stage bit (R102). -/
def stageOn (g : BitVec 4) (r : Regs) : Prop := g = 0 ∨ r.q.getLsbD g.toNat = true

/-- The record of a slot-3 operation of the open bundle, not started. -/
def State.jobFor (s : State) (i : Instr) (w : Slot3Row) : Job :=
  { seq := s.myCore.nextJob, op := i, x := s.issue.x, dd := w.dd, da := w.da, db := w.db, dk := w.dk,
    fmt := s.me.fmt, key := s.me.srkey, ctr := s.me.srctr, spadIn := s.issue.spad0, mark := s.myCore.nextAcc,
    startAt := none, after := [], inj := none }

/-- The type that a descriptor resolves to (R291): FMT's field for TYPE 15. -/
def typeA (f : BitVec 15) (d : Desc) : Nat :=
  if slice d 49 46 ≠ 15 then slice d 49 46
  else if slice d 27 26 = 1 then (if f.getLsbD 10 then 10 else 0) else slice f 3 0

def typeB (f : BitVec 15) (d : Desc) : Nat := if slice d 49 46 ≠ 15 then slice d 49 46 else slice f 7 4

abbrev mxType (t : Nat) : Prop := t = 3 ∨ t = 4 ∨ t = 5

/-- The operands that R291's table accepts, row by row; the index limits that encodings give are the decoder's. -/
def accepted (r : Regs) (f : BitVec 15) : Instr → Prop
  | .mstep _ d a b i =>
    let A := r.tVal a
    let D := r.tVal d
    slice A 27 26 = 0 ∧ mxType (typeA f A) ∧ typeB f (r.tVal b) = typeA f A ∧ slice D 27 26 = 1 ∧
      (typeA f D = 0 ∨ typeA f D = 10 ∧ typeA f A ≠ 5) ∧ slice D 45 35 ≤ 64 ∧ (typeA f A = 5 → i.toNat ≤ 63)
  | .mstepRev _ d a b i =>
    let A := r.tVal a
    let D := r.tVal d
    slice A 27 26 = 0 ∧ mxType (typeA f A) ∧ typeB f (r.tVal b) = typeA f A ∧ slice D 27 26 = 1 ∧
      (typeA f D = 0 ∨ typeA f D = 10 ∧ typeA f A ≠ 5) ∧
      slice D 45 35 ≤ (if typeA f A = 5 then 1024 else 256) ∧ (typeA f A = 5 → i.toNat ≤ 63)
  | .sstep _ d a k _ =>
    let A := r.tVal a
    let D := r.tVal d
    slice A 27 26 = 0 ∧ typeA f A ≤ 1 ∧ slice D 27 26 = 1 ∧ typeA f D = 0 ∧
      1 ≤ slice (r.kVal k) 69 64 ∧ slice (r.kVal k) 69 64 ≤ 32
  | .sdstep _ d a k _ =>
    let A := r.tVal a
    let D := r.tVal d
    let E := r.tVal (a + 1)
    slice A 27 26 = 0 ∧ typeA f A ≤ 1 ∧ slice D 27 26 = 1 ∧ typeA f D = 0 ∧
      1 ≤ slice (r.kVal k) 69 64 ∧ slice (r.kVal k) 69 64 ≤ 32 ∧ slice E 27 26 = 0 ∧ typeA f E = 3
  | .sgrad _ a k _ =>
    let A := r.tVal a
    let E := r.tVal (a + 1)
    slice A 27 26 = 0 ∧ typeA f A ≤ 1 ∧ 1 ≤ slice (r.kVal k) 69 64 ∧ slice (r.kVal k) 69 64 ≤ 32 ∧
      slice E 27 26 = 0 ∧ typeA f E = 3
  | .srefine _ k _ => 1 ≤ slice (r.kVal k) 69 64 ∧ slice (r.kVal k) 69 64 ≤ 16
  | .bseal _ i v =>
    if v = 2 ∨ (v = 0 ∧ f.getLsbD 14 = true) then i.toNat ≤ 27
    else mxType (slice f 7 4) ∧ (slice f 7 4 = 5 → i.toNat ≤ 63)
  | .tzero _ d => slice (r.tVal d) 27 26 = 1 ∧ (typeA f (r.tVal d) = 0 ∨ typeA f (r.tVal d) = 10)
  | .tadd _ d a => slice (r.tVal d) 27 26 = 1 ∧ slice (r.tVal a) 27 26 = 1 ∧
      (typeA f (r.tVal d) = 0 ∨ typeA f (r.tVal d) = 10) ∧ typeA f (r.tVal a) = typeA f (r.tVal d)
  | .tcheck _ d => slice (r.tVal d) 27 26 = 1 ∧ typeA f (r.tVal d) = 10 ∧ slice (r.tVal d) 45 35 ≤ 64
  | .tcvt _ d a _ => slice (r.tVal a) 27 26 = 1 ∧ (typeA f (r.tVal a) = 0 ∨ typeA f (r.tVal a) = 10) ∧
      (slice (r.tVal d) 27 26 = 0 ∨ slice (r.tVal d) 27 26 = 2) ∧
      typeA f (r.tVal d) ≠ 7 ∧ typeA f (r.tVal d) ≠ 9 ∧ typeA f (r.tVal d) ≠ 11
  | _ => True

/-- A descriptor value that S2T and TSET accept (R286). -/
def descFit (d : Desc) : Prop :=
  let base := slice d 25 0
  slice d 127 100 = 0 ∧ slice d 85 85 = 0 ∧ slice d 63 50 = 0 ∧ slice d 27 26 ≠ 3 ∧
    ¬(12 ≤ slice d 49 46 ∧ slice d 49 46 ≤ 14) ∧ slice d 34 28 ≤ 64 ∧ slice d 45 35 ≤ 1024 ∧
    (slice d 27 26 = 0 → base < 393216) ∧
    (slice d 27 26 = 1 → base ≤ 191 ∧ base + (slice d 45 35 + 63) / 64 ≤ 192) ∧
    (slice d 27 26 = 2 → 0x00840000 ≤ base ∧ base ≤ 0x02D3FFFF) ∧
    (slice d 27 26 ≠ 1 → base % 4 = 0 ∧ slice d 83 64 % 4 = 0)

/-- A knot register value that S2K accepts (R293). -/
def knotFit (d : Desc) : Prop := slice d 127 75 = 0 ∧ slice d 71 70 ≠ 3 ∧ slice d 69 64 ≤ 32

/-- TSET's unit (R296), none where its flags are illegal. -/
def tsetStep (a : Desc) (f : BitVec 2) : Option Nat :=
  match f.toNat with
  | 0 => some 0
  | 1 => if slice a 27 26 = 1 then none else some (slice a 83 64)
  | 2 => some (if slice a 27 26 = 1 then 1 else 64)
  | _ => none

/-- An element of type INT32 or FP32 with an exact sum of scaled integers added to it (R89, R304): each term is an
integer with two scale bytes, and e the exponent of the unit. INT32 takes the integers alone; a scale of 0xFF makes an
FP32 element NaN, and an exact zero leaves it as it is. -/
def addTerms (int : Bool) (terms : List (Int × Nat × Nat)) (e : Int) (old : Lane) : Lane :=
  if int then BitVec.ofInt 32 (old.toNat + (terms.map Prod.fst).sum)
  else if ∃ t ∈ terms, t.2.1 = 255 ∨ t.2.2 = 255 then 0x7FC00000
  else
    let z := (terms.map fun t => t.1 * 2 ^ (t.2.1 + t.2.2)).sum
    (toF32 ((f32 old).add (if z = 0 then .fin true 0 0 else .fin (decide (z < 0)) z.natAbs e))).1

/-- v is n / d rounded half to even (R295). -/
def nearestEven (n d v : Int) : Prop :=
  -d ≤ 2 * (n - v * d) ∧ 2 * (n - v * d) ≤ d ∧ (2 * (n - v * d) = d ∨ 2 * (n - v * d) = -d → v % 2 = 0)

/-- What a knot unit finds for input x (R294): poisoned, no contribution, or an interval p and τ with whether x is
outside the grid; and FOG, FNF and FXL. -/
def knotFinds (d : Desc) (x : FVal) (o : KnotOut × Bool × Bool × Bool) : Prop :=
  let g := slice d 69 64
  let oog := slice d 71 70
  let u := f32 (toF32 ((f32 (toF32 (x.add (f32 (d.extractLsb' 0 32)).neg)).1).mul (f32 (d.extractLsb' 32 32)))).1
  let xinf := decide (x = .inf false ∨ x = .inf true)
  let outside (neg : Bool) (extended : KnotOut × Bool × Bool × Bool) : Prop :=
    (oog = 1 → o = (.nothing, true, xinf, false)) ∧
    (oog = 0 → o = (.at_ (if neg then 0 else g) 0 true, true, xinf, false)) ∧
    (oog ≠ 0 → oog ≠ 1 → o = extended)
  if x = .nan ∨ u = .nan then o = (.poisoned, false, true, false)
  else
    (∀ neg m e, u = .fin neg m e →
      let y := finRat neg m e
      (0 ≤ y → y < g → ∃ (p : Nat) (t : Int), o = (.at_ p t false, false, xinf, false) ∧
        (p : Rat) ≤ y ∧ y < p + 1 ∧ (t : Rat) ≤ (y - p) * 1024 ∧ (y - p) * 1024 < t + 1) ∧
      (y < 0 ∨ (g : Rat) ≤ y → ∃ t : Int,
        let p : Nat := if y < 0 then 0 else g - 1
        (t : Rat) ≤ (y - p) * 1024 ∧ (y - p) * 1024 < t + 1 ∧
        outside (decide (y < 0)) (.at_ p (max (-8192) (min 9215 t)) true, true, xinf,
          decide (t < -8192 ∨ 9215 < t)))) ∧
    ∀ neg, u = .inf neg →
      outside neg (.at_ (if neg then 0 else g - 1) (if neg then -8192 else 9215) true, true, xinf, true)

/-- The halfword of R282 for coefficient byte x of row i: the signed sum of the 64 cells' codes, or for MXINT4 the sums
of the low and of the high nibbles modulo 2^8. -/
def halfwordOf (mem : Mem) (c ty i x : Nat) : Nat :=
  let byte (j : Nat) : Nat := (memRead mem (vaultBase c + 1024 * (64 * i + j) + x)).toNat
  let sum (f : Nat → Nat) (n : Nat) : Int := ((List.range 64).map fun j => Int.bmod (f (byte j)) n).sum
  match ty with
  | 3 => (sum id 256 % 65536).toNat
  | 4 => (sum (· % 64) 64 % 65536).toNat
  | _ => (sum (· % 16) 16 % 256).toNat + 256 * (sum (· / 16) 16 % 256).toNat

/-- Address of the checksum halfword of byte x of row i. -/
def halfwordAt (c i x : Nat) : Nat := vaultBase c + 0x00800000 + 2048 * i + 2 * x

/-- The halfwords of bytes lo to lo + n - 1 of every row are those of the window's bytes in m, but for a byte whose
halfword is 0; no other byte of m has changed. -/
def sealedIn (m u : Mem) (c ty lo n : Nat) (zero : Option Nat) : Prop :=
  (∀ i < 64, ∀ x, lo ≤ x → x < lo + n →
    memReadLE u (halfwordAt c i x) 2 = if zero = some x then 0 else halfwordOf m c ty i x) ∧
  ∀ a, (∀ i < 64, ∀ x, lo ≤ x → x < lo + n → a < halfwordAt c i x ∨ halfwordAt c i x + 2 ≤ a) →
    memRead u a = memRead m a

/-- What a step that lands an INT32 or FP32 result makes of element (r, c) of its destination, where the element
lies within every operand's bounds (R300, R301, R304, R305, R307, R308). -/
def rowR300 (k : Core) (mem : Mem) (c : Nat) (j : Job) : Option (Nat → Nat → Lane → Lane) :=
  let int := typeA j.fmt j.dd = 10
  match j.op with
  | .tzero _ _ => some fun _ _ _ => 0
  | .tadd _ _ _ => some fun r q old =>
    if r < slice j.da 34 28 ∧ q < slice j.da 45 35 then
      let a := lane (accRow k.acc (64 * (slice j.da 25 0 + q / 64) + r)) (q % 64)
      if int then old + a else (toF32 ((f32 old).add (f32 a))).1
    else old
  | .mstep _ _ _ _ b => some fun r q old =>
    if r < slice j.da 34 28 ∧ q < slice j.db 34 28 then
      let ty := typeA j.fmt j.da
      let used := (List.range (if ty = 5 then 32 else 8)).filter fun x => 32 * x < slice j.da 45 35
      addTerms int (used.map fun x =>
        (((List.range 32).map fun n =>
          mxCode k j.spadIn ty j.da r (32 * x + n) * weight mem c ty b.toNat (32 * x + n) q).sum,
          mxScaleByte k j.spadIn ty j.da r x, weightScale mem c ty b.toNat x q))
        (-254 - 2 * (6 - 2 * ((ty : Int) - 3))) old
    else old
  | .mstepRev _ _ _ _ b => some fun r q old =>
    if r < slice j.da 34 28 then
      let ty := typeA j.fmt j.da
      let used := (List.range 64).filter fun x => x < slice j.da 45 35 && x < slice j.db 34 28
      addTerms int (used.map fun x =>
        (mxCode k j.spadIn ty j.da r x * weight mem c ty b.toNat q x,
          mxScaleByte k j.spadIn ty j.da r (x / 32), weightScale mem c ty b.toNat (q / 32) x))
        (-254 - 2 * (6 - 2 * ((ty : Int) - 3))) old
    else old
  | .sstep _ _ _ _ n => some fun r q old =>
    if r < slice j.da 34 28 ∧ q < 64 then
      let rows := List.range (min 64 (slice j.da 45 35))
      if rows.any fun i => decide ((knotRow k j r i).1 = .poisoned) then 0x7FC00000
      else addTerms false (rows.filterMap fun i =>
        match (knotRow k j r i).1 with
        | .at_ p t _ => some (((List.range 4).map fun x => basis t x * splineCoef mem c i q n.toNat (p + x)).sum,
            splineScale mem c i q n.toNat, 0)
        | .poisoned | .nothing => none) (-141) old
    else old
  | .sdstep _ _ _ _ n => some fun r q old =>
    if r < slice j.da 34 28 ∧ r < slice j.db 34 28 ∧ q < slice j.da 45 35 ∧ q < 64 then
      let cols := List.range (min 64 (slice j.db 45 35))
      let o := (knotRow k j r q).1
      if o = .poisoned ∨ cols.any (fun x => deltaScale k j r x = 255 || splineScale mem c q x n.toNat = 255) then
        0x7FC00000
      else
        let S : FVal := match o with
          | .at_ p t outside =>
            let z : Int := (cols.map fun y => deltaCode k j r y *
              ((List.range 4).map fun x => dbasis t x * splineCoef mem c q y n.toNat (p + x)).sum *
              2 ^ (deltaScale k j r y + splineScale mem c q y n.toNat)).sum
            if outside && slice j.dk 71 70 = 0 then .fin true 0 0
            else match (f32 (j.dk.extractLsb' 32 32)).mul (.fin (decide (z < 0)) z.natAbs (-274)) with
              | .fin neg m e => if m = 0 then .fin true 0 0 else .fin neg m e
              | v => v
          | .poisoned | .nothing => .fin true 0 0
        (toF32 ((f32 old).add S)).1
    else old
  | _ => none

/-- The value that a row of SGRAD's samples leaves in entry e of cell (r, q), from the value y (R309). -/
def gradEntry (k : Core) (j : Job) (r q e : Nat) (y m : Nat) : Nat :=
  match (knotRow k j m r).1 with
  | .at_ p t _ =>
    if p ≤ e ∧ e ≤ p + 3 ∧ basis t (e - p) ≠ 0 then
      let v := basis t (e - p) * deltaCode k j m q
      if deltaScale k j m q = 255 then 0x7FC00000
      else if v = 0 then y
      else (toF32 ((f32 (BitVec.ofNat 32 y)).add
        (.fin (decide (v < 0)) v.natAbs (deltaScale k j m q - 127 - 6 - 8)))).1.toNat
    else y
  | .poisoned | .nothing => y

/-- Element (r, c) of TCVT's source as it is converted (R302). -/
def convertedElem (k : Core) (j : Job) (r c : Nat) : FVal :=
  if r < slice j.da 34 28 ∧ c < slice j.da 45 35 ∧ c < slice j.dd 45 35 then
    let x := lane (accRow k.acc (64 * (slice j.da 25 0 + c / 64) + r)) (c % 64)
    if typeA j.fmt j.da = 10 then .fin (decide (x.toInt < 0)) x.toInt.natAbs 0 else f32 x
  else .fin false 0 0

/-- The bytes of the rows that TCVT writes (R75, R302), by row and offset: an MX row holds its packed blocks and then
their scales; another row its elements, each rounded once. -/
def convertedRows (k : Core) (j : Job) (mode : Nat) (row : Nat → Nat → Byte) : Prop :=
  let ty := typeA j.fmt j.dd
  let cols := slice j.dd 45 35
  let draw (r c : Nat) : Nat :=
    if mode = 4 then (srg j.key (j.ctr + BitVec.ofNat 64 (1024 * r + c))).toNat / 2 ^ 32 else 0
  let num (r lo n : Nat) : Nat := numLE ((List.range n).map fun i => row r (lo + i))
  if mxType ty then
    let F := 6 - 2 * (ty - 3)
    let nb := (cols + 31) / 32
    ∀ r < slice j.dd 34 28, ∀ β < nb, ∃ (scale : Nat) (code : Nat → Int) (g : Flags),
      quantised 32 F mode (fun i => draw r (32 * β + i)) (fun i => convertedElem k j r (32 * β + i)) scale code g ∧
      (∀ i < 32, num r (4 * (F + 2) * β) (4 * (F + 2)) / 2 ^ ((F + 2) * i) % 2 ^ (F + 2) =
        (code i % 2 ^ (F + 2)).toNat) ∧
      (row r (4 * (F + 2) * nb + β)).toNat = scale
  else ∀ r < slice j.dd 34 28, ∀ c < cols, ∃ (z : Lane) (g : Flags),
    let w := elemBytes ty
    convertsTo (if ty = 10 then 3 else if ty = 8 then 5 else BitVec.ofNat 3 ty) mode (draw r c)
      (convertedElem k j r c) z g ∧ num r (w * c) w = z.toNat % 2 ^ (8 * w)

end Sys2Proof.Machine
end

