-- ==== Sys2Proof/Certificates/Slice0/Obligations.lean ====
section
/-!
DEFINITION. The statements for the provers. Each says which rule of the spec it formalises, or from which it
is derived. `Issuing s`: a bundle is open, and the statement is about one of its operations; the state that
`exec` answers is then the state after that operation, before the bundle commits.
-/

open Sys2Proof Sys2Proof.Machine

/-! ## Encoding (R92 to R97, R109 to R117) -/

/-- Every well-formed bundle is read back from its own words, and from the 128 bits that R92 makes of them. -/
def Obligations.BundleRoundTrip : Prop :=
  ∀ b : Bundle, b.wf = true → decodeBundle b.words = .ok b ∧ bundleWords b.words.bits = b.words

/-- What the decoder accepts in a slot is an operation of that slot that R117 does not refuse, and its word is
the word that was read: no reserved bit, no unassigned operand and no lend bit is passed over. -/
def Obligations.DecodedWordIsItsOwn : Prop :=
  ∀ (k w : Nat) (x : Option (BitVec 7)) (i : Instr), decodeSlot k w x = .ok i →
    i.slotNo = k ∧ k < 4 ∧ i.wf = true ∧ i.word = w ∧ i.lendUse.agrees x = true

/-- Words written out from the spec's encodings decode to the operations they stand for (R92 to R97, R101, R109 to
R117): operations of each slot and format, off8 with and without a header's lend bits, a lend word beside LI, and
words and bundles that are refused, with the slots at fault: R117 says `each slot whose word is at fault`, and that a
double destination is the fault of both its slots is the model's reading of it (log 11). -/
def Obligations.SampleWords : Prop :=
  decodeSlot 0 0x0000000 none = .ok .nopS0 ∧
  decodeSlot 0 0x0170005 none = .ok (.br ⟨3, true⟩ (.short 5)) ∧
  decodeSlot 0 0x2018448 none = .ok (.add ⟨2, false⟩ 3 1 2 false) ∧
  decodeSlot 0 0x387FC01 none = .ok (.addi 15 31 1) ∧
  decodeSlot 0 0x0880C05 none = .ok (.loopI true 3 5) ∧
  decodeSlot 1 0x588A6080 none = .ok (.ldD ⟨0, false⟩ 2 5 6 (.short 0x80)) ∧
  decodeSlot 1 0x588A6080 (some 0) = .ok (.ldD ⟨0, false⟩ 2 5 6 (.long 0x80)) ∧
  decodeSlot 2 0x34D93870 none = .ok (.vxor 27 9 48 7 false 0) ∧
  decodeSlot 3 0x44659390 none = .ok (.sdstep 9 1 9 6 19) ∧
  decodeSlot 0 0x0500000 none = .error .unassigned ∧
  decodeSlot 1 0x00000001 none = .error .reservedBits ∧
  decodeSlot 0 0x0880005 none = .error .operand ∧
  decodeSlot 3 0 (some 1) = .error .lendBits ∧
  decodeBundle ⟨0x34027FFF, 0xFC000001, 0, 0⟩ =
    .ok ⟨3, none, true, .li 4 (.long 0xFFFF), .nopS1, .nopS2, .nopS3⟩ ∧
  decodeBundle ⟨0x1C004000, 0x588A6080, 0, 0⟩ =
    .ok ⟨1, some 0x20, false, .nopS0, .ldD ⟨0, false⟩ 2 5 6 (.long 0x180), .nopS2, .nopS3⟩ ∧
  decodeBundle ⟨0x04828800, 0x580A6080, 0, 0⟩ = .error 3 ∧
  decodeBundle ⟨0x02018448, 0xFC000001, 0, 0⟩ = .error 2

/-! ## The step -/

/-- Where the bytes at the program counter of the context that issues are a bundle that nothing holds or
traps, the step is its four operations, slot 1 to slot 3 and then slot 0, and its commit (R92, R133). -/
def Obligations.StepRunsDecodedBundle : Prop :=
  ∀ (s u : State) (c : Nat) (x : Bool) (b : Bundle), TurnOf s c x →
    (s.polled c).idle c x = false → ((s.polled c).ctx c x).pipeErr = none →
    ((s.polled c).ctx c x).pc.toNat < ((s.polled c).ctx c x).nbundle →
    (s.polled c).bundleAt c x = .ok b → (s.polled c).tryBundle c x b = .issues b u →
    step s =
      andThen (exec b.s1 { u with focusC := c, focusX := x }.openIssue) fun s =>
      andThen (exec b.s2 s) fun s =>
      andThen (exec b.s3 s) fun s =>
      andThen (exec b.s0 s) fun s =>
        .next (((if lendBranch b then s.modIssue fun q => { q with redirect := true } else s).closeIssue.pollBarrier c
          x).stepMade c)

/-- Every step keeps every byte memory in its canonical form: device memory, host memory, scratchpads and
instruction stores. -/
def Obligations.StepKeepsMemories : Prop :=
  ∀ s t : State, s.MemOk → step s = .next t → t.MemOk

/-- What the spec's tables give for reset (R36, R38, R39, R45, R51, R54, R85, R87, R106, R137, R201, R205, R314,
R331, R341, R351, R357, R358, R360, R362, R363, R365, R367, R370, R373 to R375, R379, R382): registers of a context, of a
core, of a die, of a link and of the module.

Every memory of the reset state has its canonical form. -/
def Obligations.ResetState : Prop :=
 (let s := State.reset
  (∀ c < 768, ∀ x, let t := s.ctx c x
    t.strand = none ∧ t.fmt = 0x0033 ∧ t.nfstat = 0 ∧ t.evt = 0 ∧ t.spcount = 0 ∧ t.epc = 0 ∧ t.tvec = 0 ∧
    t.tvecUnset = true ∧ t.tinfo = ⟨0, 0, 0, false, false, 0⟩ ∧ t.regs.q = 0 ∧
    ∀ l, (t.lc l).active = false ∧ (t.lc l).later = false ∧ (t.lc l).rot = false ∧ (t.lc l).remain = 0 ∧
      (t.lc l).first = 0 ∧ (t.lc l).last = 0 ∧ (t.lc l).n = 0) ∧
  (∀ c < 768, let k := s.core c
    k.grant = 0xFFFFFFFF ∧ k.balance = 0 ∧ k.errinj = 0 ∧ k.banks = [] ∧ (∀ i < 4, vget k.ewt i 0 = 0) ∧
    k.dbg.halt = false ∧ k.dbg.drain = false ∧ k.dbg.halted = false) ∧
  (∀ d < 64, let k := s.die d
    k.pat = 0xFFFFFFFFFFFF ∧ k.mirrorEn = false ∧ k.mirrorBase = 0 ∧ k.hrWord = 0 ∧ k.hrVal = 0 ∧
    k.hrBusy = false ∧ k.hrStatus = 0 ∧ k.ds = 0 ∧ (∀ i < 3, vget k.cs i 0 = 0) ∧ k.clean = 0 ∧ k.energy = 0 ∧
    k.energySat = false ∧ k.banks = []) ∧
  (∀ l < 16, let k := s.mdl.link l
    k.state = 0 ∧ k.failed = 0 ∧ k.crcErr.total = 0 ∧ k.replays.total = 0 ∧ k.corr.total = 0 ∧ k.uncorr.total = 0 ∧
    k.inEn = false ∧ k.inBase = 0 ∧ k.inLim = 0) ∧
  (∀ i < 16, vget s.mdl.pwin i 0 = 0 ∧ vget s.mdl.pfroot i 0 = 0) ∧
  s.mdl.gen = 0 ∧ s.mdl.lqBase = 0 ∧ s.mdl.lqHead = 0 ∧ s.mdl.lqTail = 0 ∧ s.mdl.memFree = 0xFFFFFFFF ∧
  s.mdl.agePer = 240000 ∧ s.mdl.ptroot = 0 ∧ s.mdl.inval = none ∧ s.mdl.tlbDrop = false ∧ s.mdl.hapBase = 0 ∧
  s.mdl.w2Base = 0 ∧ s.mdl.bar2 = 36 ∧ s.mdl.evBase = 0 ∧ s.mdl.evHead = 0 ∧ s.mdl.evTail = 0 ∧
  s.mdl.evLost.total = 0 ∧
  s.mdl.pstep = 0 ∧ s.mdl.pLvl = 0 ∧ s.mdl.pStage = 0 ∧ s.mdl.pSettled = true ∧ s.mdl.phase = 0 ∧
  s.mdl.bootCode = 0 ∧ s.mdl.lastFail = 0 ∧ s.mdl.featAccept0 = 0 ∧ s.mdl.featAccept1 = 0) ∧
 (State.reset.MemOk)

/-- No step leaves a bundle open: a bundle commits, or traps, in the step that issues it (R10, R92).

A step takes no time, or it is one master clock, in which each cluster has a core clock where the pattern in
effect has a 1 (R5, R373), and which comes only when no event is due and no core has anything to do; a pattern that
takes effect in the clock counts for that clock; or the module is reset. The order of steps within a clock is the
model's (log 1). -/
def Obligations.StepsCommitInTime : Prop :=
 (∀ s t : State, s.issue.isOpen = false → step s = .next t → t.issue.isOpen = false) ∧
 (∀ s t : State, step s = .next t →
    (t.now = s.now ∧ t.coreClk = s.coreClk) ∨ (∃ r : State, t = r.moduleReset) ∨
    (s.quiet ∧ (∀ c, s.turn ≤ c → c < 768 → s.busy c = false) ∧ t.now = s.now + 1 ∧ t.turn = 0 ∧
      t.cores = s.cores ∧ t.mem = s.mem ∧ t.mdl = s.mdl ∧
      (∀ d < 64, let n := s.now + 1
        t.die d = { s.die d with effPat := if n % 16 = 0 ∧ (n, .clkpatUpdate d) ∈ s.agenda
          then ({ s with now := n } : State).effPattern d else (s.die d).effPat }) ∧
      ∀ g < 192, vget t.coreClk g 0 = vget s.coreClk g 0 +
        bit ((t.die (g / 3)).effPat.getLsbD (16 * (g % 3) + (s.now + 1) % 16))))

/-- Every operation of a slot completes in every state: in its bundle, or alone as a bundle that commits or
traps (R313). Every event completes where its arguments name units that the module has; one that does not
complete stops with `badEvent`, the model's own stop (log 7). None of them takes time, but for the module's reset, and
none takes a memory out of its canonical form. -/
def Obligations.EveryOperationCompletes : Prop :=
  ∀ (i : Instr) (s : State), i ≠ .moduleReset →
    (unitsOk i = true → completes i s) ∧ (completes i s ∨ exec i s = .fault .badEvent)

/-- An operation that only writes registers changes nothing but the registers it names: no other register of
its context and none of another context, no system register, no loop context, no byte of memory, and nothing of
its core but the results in flight; NFSTAT changes at commit at most. -/
def Obligations.RegisterOperationsFrame : Prop :=
  ∀ (s t : State) (i : Instr), Issuing s → registerOnly i = true → exec i s = .next t → SlotFrame i.dests s t

/-! ## Scalar and address operations -/

/-- R160: the value, the latency and the guard of each operation of the table.

R161 and R162 to R163: bit fields, immediates, LI and LIH.

R232, R233 and R236: address arithmetic, ALI and RSLOT.

The copies between register files: S2A, A2S, S2V, V2S, T2S and K2S (R103, R166, R192, R235, R297). -/
def Obligations.ScalarAndAddressOperations : Prop :=
 (∀ (s : State) (i : Instr) (w : Row), Issuing s → rowR160 s.me.regs i = some w → exec i s = .next (w.effect s)) ∧
 ((∀ (s : State) (i : Instr) (w : Row), Issuing s → rowR161 s.me.regs i = some w → exec i s = .next (w.effect s)) ∧
  ∀ (s : State) (i : Instr) (w : Row), Issuing s → rowR162 s.me.regs i = some w → exec i s = .next (w.effect s)) ∧
 (∀ (s : State) (i : Instr) (w : Row), Issuing s → rowR232 s.me.regs i = some w → exec i s = .next (w.effect s)) ∧
 ((∀ (s : State) (i : Instr) (w : Row), Issuing s → rowR103 s.me.regs i = some w → exec i s = .next (w.effect s)) ∧
  (∀ (s : State) (g : Guard) (d : BitVec 6) (a : BitVec 5), Issuing s →
    ∃ v : VReg, (∀ j < 64, (lane v j).toNat = (s.me.regs.sVal a).toNat % 2 ^ 32) ∧
      exec (.s2v g d a) s = .next (if guardHolds g s.me.regs then s.res 3 (.v d v) else s)) ∧
  (∀ (s : State) (d : BitVec 5) (a l : BitVec 6) (u : Bool) (k : BitVec 3), Issuing s →
    exec (.v2s d a l u k) s = .next ((s.res 6 (.s d (BitVec.ofInt 64
      (if k = 1 then (lane (s.me.regs.vVal a) l.toNat).toInt
       else (lane (s.me.regs.vVal a) l.toNat).toNat)))).latch a)) ∧
  (∀ (s : State) (g a : BitVec 4) (d : BitVec 5) (h : Bool), Issuing s →
    exec (.t2s g a d h) s = .next (if g = 0 ∨ s.me.regs.q.getLsbD g.toNat = true
      then s.res 3 (.s d (BitVec.ofNat 64 ((s.me.regs.tVal a).toNat / 2 ^ (if h then 64 else 0)))) else s)) ∧
  ∀ (s : State) (g : BitVec 4) (k : BitVec 3) (d : BitVec 5) (h : Bool), Issuing s →
    exec (.k2s g k d h) s = .next (if g = 0 ∨ s.me.regs.q.getLsbD g.toNat = true
      then s.res 3 (.s d (BitVec.ofNat 64 ((s.me.regs.kVal k).toNat / 2 ^ (if h then 64 else 0)))) else s))

/-- CMP, CMPI, ACMP and PLOG write their predicate, true exactly where the condition holds (R164, R165, R234). -/
def Obligations.ComparesWritePredicates : Prop :=
  ∀ (s : State) (i : Instr) (w : Guard × BitVec 3 × Prop), Issuing s → predRow s.me.regs i = some w →
    ∃ b : Bool, (b = true ↔ w.2.2) ∧
      exec i s = .next (if guardHolds w.1 s.me.regs then s.res 1 (.p w.2.1 b) else s)

/-! ## Control -/

/-- NOP (R97): opcode 0 with every other bit zero, under any E in slot 0; any other word of opcode 0 is illegal. The
NOP of each slot has no effect in its bundle; alone, it only lets its bundle commit. -/
def Obligations.NopHasNoEffect : Prop :=
  (∀ e : BitVec 4, decodeBundle ⟨e.setWidth 32 <<< 28, 0, 0, 0⟩ =
    .ok ⟨e, none, false, .nopS0, .nopS1, .nopS2, .nopS3⟩) ∧
  (∀ (k w : Nat) (x : Option (BitVec 7)), k < 4 → w ≠ 0 →
    w < (match k with | 0 => 2 ^ 20 | 2 => 2 ^ 25 | _ => 2 ^ 26) → decodeSlot k w x = .error .reservedBits) ∧
  ∀ (s : State) (i : Instr), i ∈ [Instr.nopS0, .nopS1, .nopS2, .nopS3] →
    exec i s = .next (if s.issue.isOpen then s else s.openIssue.closeIssue)

/-- BR, CALL, BRI and RET (R134, R135, R136): where the guard holds the transfer is to the target, a redirect,
and CALL's s31 receives the code offset of the next bundle; where it does not, nothing happens.

A transfer whose target is outside the image traps JUMPOUT with the target's code offset, and nothing in its
bundle commits (R134, R135, R313, R315). -/
def Obligations.TransfersOfControl : Prop :=
 (∀ s : State, Issuing s →
    (∀ (g : Guard) (o : Imm 16), 0 ≤ (s.me.pc.toNat : Int) + o.sval →
      exec (.br g o) s =
        .next (if guardHolds g s.me.regs then s.goes ((s.me.pc.toNat : Int) + o.sval).toNat else s)) ∧
    (∀ (g : Guard) (o : Imm 16), 0 ≤ (s.me.pc.toNat : Int) + o.sval →
      exec (.call g o) s = .next (if guardHolds g s.me.regs then
        (s.res 1 (.s 31 (BitVec.ofNat 64 (16 * s.me.pc.toNat + 16)))).goes
          ((s.me.pc.toNat : Int) + o.sval).toNat else s)) ∧
    ∀ (g : Guard) (a : BitVec 5) (n : Nat), (s.me.regs.sVal a).toNat = 16 * n →
      exec (.bri g a) s = .next (if guardHolds g s.me.regs then s.goes n else s) ∧
      exec (.ret g a) s = .next (if guardHolds g s.me.regs then s.goes n else s)) ∧
 (∀ (s : State) (g : Guard), Alone s → guardHolds g s.lone.regs = true →
    (∀ o : Imm 16, ¬(0 ≤ (s.lone.pc.toNat : Int) + o.sval ∧ (s.lone.pc.toNat : Int) + o.sval < s.lone.nbundle) →
      exec (.br g o) s = .next (s.refusedBy 0x06 1 (BitVec.ofInt 32 (16 * (s.lone.pc.toNat + o.sval)))) ∧
      exec (.call g o) s = .next (s.refusedBy 0x06 1 (BitVec.ofInt 32 (16 * (s.lone.pc.toNat + o.sval))))) ∧
    ∀ a : BitVec 5, (s.lone.regs.sVal a).toNat % 16 ≠ 0 ∨ 16 * s.lone.nbundle ≤ (s.lone.regs.sVal a).toNat →
      exec (.bri g a) s = .next (s.refusedBy 0x06 1 (BitVec.ofNat 32 (s.lone.regs.sVal a).toNat)) ∧
      exec (.ret g a) s = .next (s.refusedBy 0x06 1 (BitVec.ofNat 32 (s.lone.regs.sVal a).toNat)))

/-- The four forms of LOOP (R138, R140): a loop is opened; a count of 0 skips the body, or, where the other
loop ends there too, takes that loop's end step, and that this is a redirect like the plain skip is the model's reading
(log 23; R104 calls a loop's back-edge none).

LOOP's two traps (R140): the body would pass the end of the other, active loop, or both would rotate. -/
def Obligations.LoopsOpenSkipOrTrap : Prop :=
 (∀ (s : State) (i : Instr) (l : Bool) (e c : Nat) (n : Option Nat), Issuing s → i.wf = true →
    rowR138 s.me i = some (l, e, c, n) →
    let t := s.me
    let o := t.lc (!l)
    let off := t.setLc l { t.lc l with active := false }
    ∃ u : State, (exec i s = .next u ∨ ∃ r, i = .loopSr l (BitVec.ofNat 7 e) r ∧
        exec i s = .next (u.modMe fun t => { t with wait := { t.wait with countWord := none } })) ∧
      (c ≠ 0 → u = (s.modMe fun _ => loopOpened l e c n t).modIssue fun q => { q with next := some (t.pc.toNat + 1) }) ∧
      (c = 0 → ¬(o.active = true ∧ o.frozen = false ∧ o.last.toNat = t.pc.toNat + e) →
        u = (s.modMe fun _ => off).modIssue fun q =>
          { q with next := some (t.pc.toNat + e + 1), redirect := true }) ∧
      (c = 0 → (o.active = true ∧ o.frozen = false ∧ o.last.toNat = t.pc.toNat + e) →
        ∃ q' : BitVec 16, stagesStepped o t.regs.q q' ∧
          u = (s.modMe fun _ => { off.setLc (!l) (loopStepped o) with regs := { t.regs with q := q' } }).modIssue
            fun q => { q with
              next := some (if 1 < o.remain.toNat then o.first.toNat else o.last.toNat + 1), redirect := true })) ∧
 (∀ (s : State) (i : Instr) (l : Bool) (e c : Nat) (n : Option Nat), Alone s → i.wf = true →
    rowR138 s.lone i = some (l, e, c, n) →
    let o := s.lone.lc (!l)
    o.active = true → o.frozen = false →
    o.last.toNat < s.lone.pc.toNat + e ∨ (n.isSome = true ∧ o.rot = true) →
    exec i s = .next (s.refusedBy 0x01 1 0))

/-- END_STEP (R141), and its order where both loops end at the same bundle: the later one first, and the other
only if that one has come to its end (R142). The order rests on the two LATER bits, which the rule takes to differ. -/
def Obligations.EndStepOrder : Prop :=
  (∀ (k : LoopCtx) (q : BitVec 16), (endStep k q).1 = loopStepped k ∧ stagesStepped k q (endStep k q).2.1 ∧
    (endStep k q).2.2 = if 1 < k.remain.toNat then k.first.toNat else k.last.toNat + 1) ∧
  ∀ (t : Ctx) (i : Nat), t.lc0.endsAt i = true → t.lc1.endsAt i = true →
    ∀ l : Bool, t.lc1.later = l → t.lc0.later = !l →
    let k := t.lc l
    let q := (endStep k t.regs.q).2.1
    (1 < k.remain.toNat → t.endSteps i = ({ t.setLc l (loopStepped k) with regs := { t.regs with q := q } }, k.first.toNat)) ∧
    (k.remain.toNat ≤ 1 → t.endSteps i =
      ({ (t.setLc l (loopStepped k)).setLc (!l) (loopStepped (t.lc (!l))) with
          regs := { t.regs with q := (endStep (t.lc (!l)) q).2.1 } }, (endStep (t.lc (!l)) q).2.2))

/-- LEXIT (R145): its word, and that it makes the context inactive and clears the stage bits of a rotating one, so
that nothing happens to an inactive one; and LSTAT and LSET (R147) where their guard holds, with LSET's refused
values: a context that LSET writes runs from the next bundle, and takes no end step in its own. Word 3, the stage bits,
belongs to neither context and freezes none: the model's choice, log 91. -/
def Obligations.LoopWords : Prop :=
  (∀ (w : Nat) (x : Option (BitVec 7)) (g : Guard) (l : Bool), decodeSlot 0 w x = .ok (.lexit g l) →
    w = 0x09 * 2 ^ 20 + g.p.toNat * 2 ^ 2 + bit g.neg * 2 + bit l) ∧
  (∀ (s : State) (g : Guard) (l : Bool), Issuing s →
    exec (.lexit g l) s = .next (if guardHolds g s.me.regs then
      s.modMe fun t => { t.setLc l { t.lc l with active := false } with
        regs := { t.regs with q := if (t.lc l).active && (t.lc l).rot then 0 else t.regs.q } } else s)) ∧
  (∀ (s : State) (g : Guard) (d : BitVec 5) (w : BitVec 2) (l : Bool), Issuing s →
    ∃ v : Word, loopWordIs s.me l w v ∧
      exec (.lstat g d w l) s = .next (if guardHolds g s.me.regs then s.res 1 (.s d v) else s)) ∧
  (∀ (s : State) (g : Guard) (a : BitVec 5) (w : BitVec 2) (l : Bool), Issuing s →
    exec (.lset g a w l) s = .next (if guardHolds g s.me.regs then
      (s.modMe fun t => t.lset (t.regs.sVal a) w l).modIssue fun u =>
        { u with lset := if w = 3 then u.lset else some l } else s)) ∧
  (∀ (s : State) (g : Guard) (a : BitVec 5) (w : BitVec 2) (l : Bool), Alone s →
    guardHolds g s.lone.regs = true → lsetRefused s.lone (s.lone.regs.sVal a) w l →
    exec (.lset g a w l) s = .next (s.refusedBy 0x01 1 0)) ∧
  ∀ (t : Ctx) (u : Issue) (l : Bool), u.next = none → u.lset = some l → (t.advance u).1.lc l = t.lc l

/-- SETFMT, and the operations that act when their bundle commits: SAFEPT and YIELD outside handler mode, DONE
where its guard holds, PAUSE and TRAP (R148, R149, R151, R154, R156).

What a commit's actions leave of a context (R149, R151, R154, R156, R315); a strand that the bundle itself has
ended stays ended. One that has retired SAFEPT or YIELD notes the topology's generation (R39, R62). -/
def Obligations.ActionsAtCommit : Prop :=
 (∀ s : State, Issuing s →
    (∀ v, exec (.setfmt v) s = .next (s.modMe fun t => { t with fmtNext := (5, v) :: t.fmtNext })) ∧
    (∀ v, exec (.safept v) s = .next (if s.me.tinfo.hm then s else s.modIssue fun u =>
      { u with after := .safept v (s.me.evt.getLsbD 2 && decide (s.me.wait.preqAt < s.now)) })) ∧
    (∀ v, exec (.yield v) s = .next (if s.me.tinfo.hm then s else s.modIssue fun u => { u with after := .safept v true })) ∧
    (∀ g, exec (.done g) s = .next (if guardHolds g s.me.regs then s.modIssue fun u => { u with after := .done } else s)) ∧
    (∀ a v, exec (.pause a v) s = .next (s.modIssue fun u =>
      { u with after := .pause (v.toNat + (s.me.regs.sVal a).toNat % 2 ^ 16) })) ∧
    ∀ v, exec (.trap v) s = .next (s.modIssue fun u => { u with after := .trap v })) ∧
 (∀ (t : Ctx) (n : Nat),
    (∀ k, t.afterCommit n (.pause k) =
      if k = 0 then t else { t with wait := { t.wait with pauseTill := n + 1 + k } }) ∧
    (∀ v go, t.afterCommit n (.safept v go) =
      { t with spcount := 0, status := if go ∧ (∀ e, t.status ≠ .faulted e ∧ t.status ≠ .failing e)
        then .suspending v t.pc.toNat else t.status }) ∧
    t.afterCommit n .done =
      { t with status := if ∀ e, t.status ≠ .faulted e ∧ t.status ≠ .failing e then .ending else t.status } ∧
    (∀ v, t.afterCommit n (.trap v) = t.entersTrap n ⟨0, v, 1, false, true, 0x08⟩ t.pc) ∧
    ∀ g : BitVec 32, ((∃ v p, t.status = .suspending v p) →
        t.noteGen g = { t with strand := t.strand.map fun n => { n with gen := g } }) ∧
      ((∀ v p, t.status ≠ .suspending v p) → t.noteGen g = t))

/-- RFT (R157): its word holds nothing but the guard; where the guard holds it leaves handler mode, unfreezes both
loops, ends every shadow and goes on at EPC, a redirect; outside handler mode it traps as an illegal encoding. -/
def Obligations.ReturnFromTrap : Prop :=
  (∀ (w : Nat) (x : Option (BitVec 7)) (g : Guard), decodeSlot 0 w x = .ok (.rft g) →
    w = 0x17 * 2 ^ 20 + g.p.toNat * 2 ^ 2 + bit g.neg * 2) ∧
  (∀ (s : State) (g : Guard), Issuing s →
    exec (.rft g) s = .next (if guardHolds g s.me.regs then
      (s.modMe fun t => { t with
        tinfo := { t.tinfo with hm := false }, fmt := t.newestFmt, fmtNext := [],
        lc0 := { t.lc0 with frozen := false }, lc1 := { t.lc1 with frozen := false } }).modIssue fun u =>
          { u with next := some s.me.epc.toNat, redirect := true } else s)) ∧
  ∀ (s : State) (g : Guard), Alone s → guardHolds g s.lone.regs = true → s.lone.tinfo.hm = false →
    exec (.rft g) s = .next (s.refusedBy 0x01 1 0)

/-- BARG's arrival and WAITEV (R152, R155): the destination is marked empty; WAITEV's becomes full after 2 clocks
where an event of its mask is present or the mask is 0, and waits otherwise. -/
def Obligations.BarrierAndEventWaits : Prop :=
  ∀ (s : State) (g : Guard) (d : BitVec 5), Issuing s →
    exec (.barg g d) s = .next (if guardHolds g s.me.regs then
      (s.awaitMe (.s d)).modMe fun t => { t with wait := { t.wait with
        bargCount := t.wait.bargCount + 1,
        barg := some ⟨d, t.wait.bargCount + 1, false, s.myCore.nextAcc, none, false⟩ } } else s) ∧
    ∀ a : BitVec 5, let m := (s.me.regs.sVal a).extractLsb' 0 3
      exec (.waitev g d a) s = .next (
        if guardHolds g s.me.regs = false then s
        else if m = 0 ∨ s.me.evt &&& m ≠ 0 then s.res 2 (.s d (BitVec.ofNat 64 s.me.evt.toNat))
        else (s.awaitMe (.s d)).modMe fun t => { t with wait := { t.wait with waitev := t.wait.waitev ++ [(d, m)] } })

/-- MFSR, MTSR and ECAP (R35, R36, R38, R106, R158, R159, R314, R379): the register before the bundle, with latency 2,
and its layout, the writable fields written, an FMT value that traps, and the energy counter with its status as they
stood before the clock, after 24 clocks. -/
def Obligations.SystemRegisters : Prop :=
  (∀ s : State, Issuing s →
    (∀ d i, exec (.mfsr d i) s =
      .next (s.res 2 (.s d (if i = 3 then s.issue.ctr0 else s.sysReg s.issue.c s.issue.x i)))) ∧
    (∀ a i, exec (.mtsr a i) s = .next (s.writesReg i (s.me.regs.sVal a))) ∧
    (∀ d, let k := s.die (s.issue.c / 12)
      let was := k.energyWas.1 = s.now
      exec (.ecap d) s = .next ((s.res 24 (.s d (if was then k.energyWas.2.1 else k.energy))).res 24
        (.s (d + 1) (BitVec.ofNat 64 (bit (if was then k.energyWas.2.2 else k.energySat)))))) ∧
    (let r (i : BitVec 10) := s.sysReg s.issue.c s.issue.x i
     let t := s.me
     (r 0).toNat = t.fmt.toNat ∧ (r 1).toNat = t.nfstat.toNat ∧ r 2 = t.srkey ∧ r 3 = t.srctr ∧
     (r 5).toNat = t.evt.toNat ∧
     slice (r 6) 20 0 = t.spcount.toNat ∧ slice (r 6) 31 21 = 0 ∧
     (∀ n, t.strand = some n → (r 4).toNat = n.stage.toNat ∧
       (n.spdlim ≤ 65536 → slice (r 6) 63 32 = n.spdlim)) ∧
     (let c := s.issue.c
      let alive (g : Nat) : Bool := !(s.die (g / 3)).ret.getLsbD (g % 3)
      let dieIn (d : Nat) : Bool := alive (3 * d) || alive (3 * d + 1) || alive (3 * d + 2)
      let rank := (List.range (c / 4)).countP alive
      slice (r 0x10) 63 42 = 0 ∧ slice (r 0x10) 41 32 = c ∧ slice (r 0x10) 31 24 = c / 4 ∧
      slice (r 0x10) 23 18 = c / 12 ∧ slice (r 0x10) 17 16 = c / 12 / 16 ∧ slice (r 0x10) 15 12 = c / 12 % 16 ∧
      slice (r 0x10) 11 10 = c % 12 / 4 ∧ slice (r 0x10) 9 8 = 0 ∧ slice (r 0x10) 7 4 = c % 12 ∧
      slice (r 0x10) 3 0 = 0 ∧
      slice (r 0x11) 63 42 = 0 ∧ slice (r 0x11) 41 32 = 4 * rank + c % 4 ∧ slice (r 0x11) 31 24 = rank ∧
      slice (r 0x11) 23 16 = (List.range (c / 12)).countP dieIn ∧ slice (r 0x11) 15 0 = 0 ∧
      slice (r 0x12) 63 32 = s.mdl.gen.toNat ∧ slice (r 0x12) 31 16 = (List.range 64).countP dieIn ∧
      slice (r 0x12) 15 0 = (List.range 192).countP alive) ∧
     slice (r 8) 63 32 = t.tinfo.info.toNat ∧ slice (r 8) 31 22 = t.tinfo.code.toNat ∧
     slice (r 8) 21 18 = t.tinfo.slots.toNat ∧ slice (r 8) 17 17 = bit t.tinfo.imp ∧
     slice (r 8) 16 16 = bit t.tinfo.hm ∧ slice (r 8) 15 8 = 0 ∧ slice (r 8) 7 0 = t.tinfo.cause.toNat ∧
     (r 9).toNat = 16 * t.epc.toNat ∧
     slice (r 0xA) 17 4 = t.tvec.toNat ∧ slice (r 0xA) 63 63 = bit t.tvecUnset ∧
     (r 0x13).toNat = s.mdl.modid.toNat)) ∧
  ∀ (s : State) (a : BitVec 5), Alone s →
    let v := s.lone.regs.sVal a
    (slice v 63 15 ≠ 0 ∨ slice v 9 8 ≠ 0 ∨ 5 ≤ slice v 13 11 ∨ 12 ≤ slice v 7 4 ∨ 12 ≤ slice v 3 0) →
    exec (.mtsr a 0) s = .next (s.refusedBy 0x01 1 0)

/-! ## Vector operations -/

/-- The integer operations of R177: each element of an enabled lane of vd is the table's value modulo 2^n of the
elements at its position, and a disabled lane keeps its value (R168). -/
def Obligations.IntegerLanes : Prop :=
  ∀ (s : State) (i : Instr) (d a b : BitVec 6) (m w : BitVec 3) (f : Nat → Nat → Nat → Int), Issuing s →
    i.wf = true → rowR177 i = some (d, a, b, m, w, f) →
    ∃ v : VReg, exec i s = .next ((s.res 4 (.v d v)).latch a) ∧ ∀ j < 64,
      if (s.me.regs.mVal m).getLsbD j = true then
        ∀ k < 2 ^ w.toNat, (elemOf (32 / 2 ^ w.toNat) k (lane v j) : Int) =
          f (32 / 2 ^ w.toNat) (elemOf (32 / 2 ^ w.toNat) k (lane (s.me.regs.vVal a) j))
            (elemOf (32 / 2 ^ w.toNat) k (lane (s.me.regs.vVal b) j)) % 2 ^ (32 / 2 ^ w.toNat)
      else lane v j = lane (s.me.regs.vVal d) j

/-- The float operations of R178: an enabled lane is one rounding by RNE of a value, and NFSTAT's NF and OVF are set by
the enabled lanes that set them (R170, R178). The value that is rounded, as a number: a sum and a product exactly, and
a quotient and a root exactly or between two neighbours far below the last place; 2^a within 2^-60 of itself, and log2 a
within 2^-90, for every FP32 input, each exact where it is an integer or a power of two: that one rounding of these is
one rounding of the exact value is the model's reading, log 9. A zero sum is +0 but for two -0 (R80); -0 is below +0 for
VFMIN and VFMAX; a NaN input and an invalid operation give a NaN; and the special values of R179's table. -/
def Obligations.FloatLanes : Prop :=
  (∀ (s : State) (i : Instr) (d a b : BitVec 6) (m : BitVec 3) (n : Nat) (f : FVal → FVal → FVal → FVal), Issuing s →
    rowR178 i = some (d, a, b, m, n, f) →
    let r := s.me.regs
    ∃ (v : VReg) (e : Nat → Flags) (z : Flags), exec i s = .next (((s.res n (.v d v)).setFlags z).latch a) ∧
      flagsOf (r.mVal m) e z ∧
      (∀ j < 64, if (r.mVal m).getLsbD j = true then
          fp32.rounded 0 0 (f (f32 (lane (r.vVal a) j)) (f32 (lane (r.vVal b) j)) (f32 (lane (r.vVal d) j)))
            (lane v j).toNat (e j)
        else lane v j = lane (r.vVal d) j)) ∧
  (∀ (a : Bool) (m : Nat) (e : Int) (b : Bool) (n : Nat) (f : Int),
    exactAdd a m e b n f (FVal.add (.fin a m e) (.fin b n f)) ∧
    exactMul a m e b n f (FVal.mul (.fin a m e) (.fin b n f)) ∧
    (m ≠ 0 → n ≠ 0 → exactDiv a m e b n f (FVal.div (.fin a m e) (.fin b n f))) ∧
    (m ≠ 0 → exactSqrt m e (FVal.sqrt (.fin false m e)) ∧ exactRsqrt m e (FVal.rsqrt (.fin false m e)) ∧
      FVal.sqrt (.fin true m e) = .nan ∧ FVal.rsqrt (.fin true m e) = .nan ∧
      FVal.mul (.inf a) (.fin b 0 f) = .nan ∧ FVal.div (.fin a m e) (.fin b 0 f) = .inf (a != b)) ∧
    FVal.add (.inf a) (.inf !a) = .nan ∧ FVal.div (.fin a 0 e) (.fin b 0 f) = .nan ∧
    FVal.div (.inf a) (.inf b) = .nan ∧
    FVal.div (.fin a m e) (.inf b) = .fin (a != b) 0 0 ∧ FVal.div (.inf a) (.fin b n f) = .inf (a != b) ∧
    FVal.sqrt (.fin a 0 e) = .fin a 0 0 ∧ FVal.rsqrt (.fin a 0 e) = .inf a ∧ FVal.log2 (.fin a 0 e) = .inf true ∧
    (m ≠ 0 → FVal.log2 (.fin true m e) = .nan) ∧
    (let small : FVal := .fin true 0 e
     let zero : FVal := .fin false 0 f
     small.least zero = small ∧ zero.least small = small ∧ small.greatest zero = zero ∧
       zero.greatest small = zero)) ∧
  (FVal.sqrt (.inf false) = .inf false ∧ FVal.sqrt (.inf true) = .nan ∧ FVal.rsqrt (.inf false) = .fin false 0 0 ∧
    FVal.rsqrt (.inf true) = .nan ∧ FVal.exp2 (.inf true) = .fin false 0 0 ∧ FVal.exp2 (.inf false) = .inf false ∧
    FVal.log2 (.inf false) = .inf false ∧ FVal.log2 (.inf true) = .nan) ∧
  (∀ (neg : Bool) (m : Nat) (e : Int), m < 2 ^ 24 →
    let num (neg : Bool) (m : Nat) (e : Int) : ℝ := (if neg then -1 else 1) * m * (2 : ℝ) ^ e
    let a := num neg m e
    (∃ (k : Nat) (g : Int), FVal.exp2 (.fin neg m e) = .fin false k g ∧
      (|a| < 4096 → |num false k g - (2 : ℝ) ^ a| ≤ (2 : ℝ) ^ (-60 : ℤ) * (2 : ℝ) ^ a) ∧
      (∀ i : ℤ, a = i → |a| < 4096 → num false k g = (2 : ℝ) ^ i) ∧
      (128 ≤ a → (2 : ℝ) ^ (128 : ℤ) ≤ num false k g) ∧ (a ≤ -4096 → num false k g = (2 : ℝ) ^ (-1000 : ℤ))) ∧
    (neg = false → m ≠ 0 → ∃ (c : Bool) (k : Nat) (g : Int), FVal.log2 (.fin false m e) = .fin c k g ∧
      |num c k g - Real.logb 2 a| ≤ (2 : ℝ) ^ (-90 : ℤ) ∧
      (∀ i : ℤ, a = (2 : ℝ) ^ i → num c k g = i ∧ c = decide (i < 0)))) ∧
  ∀ x y : FVal,
    (x = .nan ∨ y = .nan → x.add y = .nan ∧ x.mul y = .nan ∧ x.div y = .nan ∧ x.least y = .nan ∧
      x.greatest y = .nan) ∧
    (x ≠ .nan → y ≠ .nan → (x.least y = x ∨ x.least y = y) ∧ ¬x.Below (x.least y) ∧ ¬y.Below (x.least y) ∧
      (x.greatest y = x ∨ x.greatest y = y) ∧ ¬(x.greatest y).Below x ∧ ¬(x.greatest y).Below y)

/-- VSEL, MPOPC, VUNPACK, VPERM, VROT, VBCAST, VSIGF and VLI: the lanes of vd (R181, R182, R186, R188, R189,
R193).

VPACK (R186): the enabled elements of part p of vd receive the low bits of the lanes of va, and every other
bit of vd keeps its value. -/
def Obligations.LaneMoves : Prop :=
 (∀ (s : State) (i : Instr) (w : LaneRow), Issuing s → i.wf = true → rowMoves s.me.regs i = some w →
    ∃ v : VReg, exec i s = .next (s.laneEffect w.n (.v w.d v) w.a) ∧ w.fits s.me.regs v) ∧
 (∀ (s : State) (d a : BitVec 6) (p m : BitVec 3) (u : Bool) (b : BitVec 3), Issuing s →
    (Instr.vpack d a p m u b).wf = true →
    let n := packWidth b
    ∃ v : VReg, exec (.vpack d a p m u b) s = .next ((s.res 4 (.v d v)).latch a) ∧ ∀ k < 2048,
      v.getLsbD k =
        if k / (64 * n) = p.toNat ∧ (s.me.regs.mVal m).getLsbD (k / n % 64) = true
        then (lane (s.me.regs.vVal a) (k / n % 64)).getLsbD (k % n) else (s.me.regs.vVal d).getLsbD k)

/-- VCMP, VFCMP and MLOG write all 64 bits of their mask register (R180, R182).

VUNI (R183): the common condition of the enabled lanes, false where none is enabled; where the enabled lanes
differ, the bundle traps and nothing in it commits. -/
def Obligations.MasksAndUniformConditions : Prop :=
 (∀ (s : State) (i : Instr) (d : BitVec 3) (a : Option (BitVec 6)) (f : Nat → Prop), Issuing s →
    rowMask s.me.regs i = some (d, a, f) →
    ∃ v : Word, exec i s = .next (s.laneEffect 4 (.m d v) a) ∧ ∀ j < 64, (v.getLsbD j = true ↔ f j)) ∧
 ((∀ (s : State) (i : Instr) (p m : BitVec 3) (a : Option (BitVec 6)) (f : Nat → Prop), Issuing s →
    rowR183 s.me.regs i = some (p, m, a, f) →
    let on (j : Nat) : Prop := j < 64 ∧ (s.me.regs.mVal m).getLsbD j = true
    ((∀ j, on j → f j) → (∃ j, on j) → exec i s = .next (s.laneEffect 4 (.p p true) a)) ∧
    ((∀ j, on j → ¬f j) → exec i s = .next (s.laneEffect 4 (.p p false) a))) ∧
  ∀ (s : State) (i : Instr) (p m : BitVec 3) (a : Option (BitVec 6)) (f : Nat → Prop), Alone s →
    rowR183 s.lone.regs i = some (p, m, a, f) →
    (∃ j < 64, (s.lone.regs.mVal m).getLsbD j = true ∧ f j) →
    (∃ j < 64, (s.lone.regs.mVal m).getLsbD j = true ∧ ¬f j) →
    exec i s = .next (s.refusedBy 0x03 4 0))

/-- VCVT, VMXD and VMXQ (R76, R184, R185): each lane's value, the flags, and under SR the 64 values drawn. A
conversion places, rounds and saturates as its types say; VMXQ's block takes the least scale at which the largest
element fits under RNE, and a NaN, an infinity or an overflow makes it the NaN block. -/
def Obligations.Conversions : Prop :=
  ∀ s : State, Issuing s →
    let t := s.me
    let r := t.regs
    (∀ (d a : BitVec 6) (src dst m : BitVec 3) (u : Bool) (c : BitVec 3), c.toNat ≤ 4 →
      ∃ (v : VReg) (e : Nat → Flags) (z : Flags),
        exec (.vcvt d a src dst m u c) s = .next ((((s.res 4 (.v d v)).setFlags z).drew c.toNat 64).latch a) ∧
        flagsOf (r.mVal m) e z ∧
        ∀ j < 64, if (r.mVal m).getLsbD j = true then
            convertsTo dst c.toNat (if c = 4 then (srg t.srkey (t.srctr + BitVec.ofNat 64 j)).toNat / 2 ^ 32 else 0)
              (convertsFrom src (lane (r.vVal a) j)) (lane v j) (e j)
          else lane v j = lane (r.vVal d) j) ∧
    (∀ (d a : BitVec 6) (m : BitVec 3) (u : Bool) (k : BitVec 2), k ≠ 3 →
      let n := 6 - 2 * k.toNat
      ∃ (v : VReg) (e : Nat → Flags) (z : Flags),
        exec (.vmxd d a m u k) s = .next (((s.res 4 (.v d v)).setFlags z).latch a) ∧ flagsOf (r.mVal m) e z ∧
        ∀ j < 64, if (r.mVal m).getLsbD j = true then
            let x := (lane (r.vVal a) j).toNat
            let c := Int.bmod x (2 ^ (n + 2))
            fp32.rounded 0 0
              (if x / 2 ^ 8 % 2 ^ 8 = 255 then .nan
                else .fin (decide (c < 0)) c.natAbs ((x / 2 ^ 8 % 2 ^ 8 : Nat) - 127 - n)) (lane v j).toNat (e j)
          else lane v j = lane (r.vVal d) j) ∧
    ∀ (d a : BitVec 6) (uf : Bool) (o : BitVec 3) (u : Bool) (k : BitVec 2),
      (Instr.vmxq d a uf o u k).wf = true →
      let mode := if uf then slice t.fmt 13 11 else o.toNat
      ∃ (v : VReg) (e : Nat → Flags) (scale : Nat → Nat) (code : Nat → Nat → Int),
        exec (.vmxq d a uf o u k) s = .next ((((s.res 8 (.v d v)).setFlags ((e 0).or (e 1))).drew mode 64).latch a) ∧
        (∀ h < 2, quantised 32 (6 - 2 * k.toNat) mode
          (fun j => if mode = 4 then (srg t.srkey (t.srctr + BitVec.ofNat 64 (32 * h + j))).toNat / 2 ^ 32 else 0)
          (fun j => f32 (lane (r.vVal a) (32 * h + j))) (scale h) (code h) (e h)) ∧
        ∀ j < 64, (lane v j).toNat = (code (j / 32) (j % 32) % 2 ^ 8).toNat + scale (j / 32) * 2 ^ 8

/-- A rounding to an integer of the magnitude m / 2^n, by the modes of R80 and R83: an exact value stays; RNE is
within a half and takes the even neighbour of a tie; RZ cuts; RDN and RUP go down and up; SR adds its random
value below the last place.

An FP32 value is read back by the rounding that made it: RNE of the value of a finite code is the code
itself, with no flag (R71, R72, R79).

Conversion into an integer type (R82, R79): a NaN gives 0 and sets SAT, a value beyond the range gives its
end and sets SAT, and any other value is its rounding, with no flag. -/
def Obligations.RoundingAndSaturation : Prop :=
 (∀ (neg : Bool) (m n b : Nat), 0 < n →
    let y (mode : Nat) : Nat := roundMag mode b neg m (-(n : Int))
    (m % 2 ^ n = 0 → ∀ mode, y mode = m / 2 ^ n) ∧
    (m % 2 ^ n ≠ 0 →
      (2 * m ≤ 2 * y 0 * 2 ^ n + 2 ^ n ∧ 2 * y 0 * 2 ^ n ≤ 2 * m + 2 ^ n) ∧
      (2 * (m % 2 ^ n) = 2 ^ n → y 0 % 2 = 0) ∧
      y 1 = m / 2 ^ n ∧
      y 2 = m / 2 ^ n + bit neg ∧ y 3 = m / 2 ^ n + bit (!neg) ∧
      y 4 = (m * 2 ^ 32 / 2 ^ n + b) / 2 ^ 32)) ∧
 (∀ x : Lane, x.toNat / 2 ^ 23 % 2 ^ 8 ≠ 255 → toF32 (f32 x) = (x, Flags.none)) ∧
 (∀ (lo hi : Int) (mode b : Nat), lo ≤ 0 → 0 ≤ hi →
    FVal.toIntSat lo hi mode b .nan = (0, true) ∧
    FVal.toIntSat lo hi mode b (.inf true) = (lo, true) ∧
    FVal.toIntSat lo hi mode b (.inf false) = (hi, true) ∧
    ∀ (neg : Bool) (m : Nat) (e : Int),
      let y : Int := (if neg then -1 else 1) * roundMag mode b neg m e
      FVal.toIntSat lo hi mode b (.fin neg m e) = (max lo (min hi y), decide (y < lo ∨ hi < y)))

/-- VRED, VFRED and VSIGR (R90, R187, R189): lane 0 is the root of the fixed tree over the lanes, a masked lane
giving the identity, and the other lanes are zero. VFRED sets NF by lane 0 and OVF by any addition of the tree, where
some lane is enabled. -/
def Obligations.Reductions : Prop :=
  ∀ s : State, Issuing s →
    let r := s.me.regs
    let root (v : VReg) (x : Lane) : Prop := lane v 0 = x ∧ ∀ j, 1 ≤ j → j < 64 → lane v j = 0
    (∀ (d a : BitVec 6) (m : BitVec 3) (u : Bool) (o : BitVec 3),
      ∃ v : VReg, exec (.vred d a m u o) s = .next ((s.res 10 (.v d v)).latch a) ∧
        root v (treeNode (vredOp o) (redLanes r a m (vredIdentity o)) 6 0)) ∧
    (∀ (d a : BitVec 6) (m : BitVec 3) (u : Bool) (o : BitVec 3), o.toNat ≤ 2 → r.mVal m ≠ 0 →
      ∃ (v : VReg) (z : Flags), exec (.vfred d a m u o) s = .next (((s.res 10 (.v d v)).setFlags z).latch a) ∧
        root v (treeNode (vfredOp o) (redLanes r a m (vfredIdentity o)) 6 0) ∧
        (z.nf = true ↔ slice (lane v 0) 30 23 = 255) ∧ z.sat = false ∧
        (z.ovf = true ↔ ∃ n < 6, ∃ i < 2 ^ (5 - n),
          let x (k : Nat) := treeNode (vfredOp o) (redLanes r a m (vfredIdentity o)) n k
          (toF32 (vfredExact o (x (2 * i)) (x (2 * i + 1)))).2.ovf = true)) ∧
    (∀ (d a : BitVec 6) (m : BitVec 3) (u : Bool) (o : BitVec 3), r.mVal m = 0 →
      ∃ v : VReg, exec (.vfred d a m u o) s = .next (((s.res 10 (.v d v)).setFlags Flags.none).latch a) ∧
        root v (vfredIdentity o)) ∧
    ∀ (d a : BitVec 6) (m : BitVec 3) (u : Bool),
      ∃ v : VReg, exec (.vsigr d a m u) s = .next ((s.res 10 (.v d v)).latch a) ∧
        root v (treeNode sigOp (fun j => if (r.mVal m).getLsbD j then sigOp 0 (lane (r.vVal a) j) else 0) 6 0)

/-- VNFS, VNFS.CLR and VSEED (R190, R191): NF where an enabled lane holds a non-finite value in the format, the
clear of NFSTAT, and the stream state from lanes 0 to 3, each made when the bundle commits. -/
def Obligations.FlagTestsAndSeeds : Prop :=
  ∀ s : State, Issuing s →
    (∀ (a : BitVec 6) (m : BitVec 3) (u : Bool) (k : BitVec 3), k.toNat ≤ 2 →
      ∃ hit : Bool, exec (.vnfs a m u k) s = .next ((s.setFlags ⟨hit, false, false⟩).latch a) ∧
        (hit = true ↔ ∃ j < 64, (s.me.regs.mVal m).getLsbD j = true ∧
          let x := lane (s.me.regs.vVal a) j
          match k.toNat with
          | 0 => slice x 30 23 = 255
          | 1 => slice x 14 7 = 255 ∨ slice x 30 23 = 255
          | _ => ∃ i < 4, slice x (8 * i + 6) (8 * i) = 127)) ∧
    exec .vnfsClr s = .next (s.modIssue fun u => { u with nfClr := 7 }) ∧
    ∀ (a : BitVec 6) (u : Bool) (k : BitVec 3), k.toNat ≤ 2 →
      ∃ key ctr : Word,
        (∀ j, j < 2 → key.extractLsb' (32 * j) 32 = lane (s.me.regs.vVal a) j ∧
          ctr.extractLsb' (32 * j) 32 = lane (s.me.regs.vVal a) (2 + j)) ∧
        exec (.vseed a u k) s = .next ((s.modIssue fun q => { q with
          key := if k = 2 then q.key else some key, ctr := if k = 1 then q.ctr else some ctr }).latch a)

/-! ## Scratchpad and accumulator -/

/-- VLD, VLDS and VGATH (R172, R173, R227, R348): an enabled lane receives the word at its address as it stood before
the bundle, guarded bytes reading 0; the latency, the port, the touches of the invalid lanes, and the end of a strand
that reads a poisoned unit.

VST, VSTS and VSCAT (R172, R173, R227, R348): the words of the enabled lanes are written, guarded bytes are not,
the highest lane's word remains where two lanes write one, and units that they cover are poisoned no more; and
nothing else changes but the port and the record of the touches, which holds the first and counts the others. -/
def Obligations.ScratchpadVectors : Prop :=
 (∀ (s : State) (i : Instr) (w : SpadRow), Issuing s → rowR172 s.me.regs i = some w → w.load = true →
    let k := s.myCore
    let mask := s.me.regs.mVal w.m
    let c := if w.wide then lineClocks k mask w.at_ else 1
    ∃ (v : VReg) (b : Bool), (b = true ↔ ∃ j < 64, mask.getLsbD j = true ∧ k.poisonAt (w.at_ j) 4) ∧
      exec i s = .next (((((s.res (5 + c) (.v w.d v)).portFor c).touches s.issue.c s.issue.x
        (touchList k mask w.at_)).stopIf b).latch w.a) ∧
      ∀ j < 64, if mask.getLsbD j = true then
          ∀ b < 4, (lane v j).extractLsb' (8 * b) 8 =
            if k.guarded (w.at_ j + b) then 0 else memRead s.issue.spad0 (w.at_ j + b)
        else lane v j = lane (s.me.regs.vVal w.d) j) ∧
 ((∀ (s : State) (c : Nat) (x : Bool) (l : List GuardRec), c < 768 →
    touchesAre (s.ctx c x).guardRec l ((s.touches c x l).ctx c x).guardRec) ∧
  ∀ (s : State) (i : Instr) (w : SpadRow), Issuing s → rowR172 s.me.regs i = some w → w.load = false →
    Mem.wf s.myCore.spad = true →
    let k := s.myCore
    let mask := s.me.regs.mVal w.m
    let c := if w.wide then lineClocks k mask w.at_ else 1
    ∃ (m : Mem) (p : List Nat), healedLanes k mask w.at_ p ∧
      storedLanes k mask w.at_ (s.me.regs.vVal w.d) m ∧
      exec i s = .next ((((s.modCore s.issue.c fun k => { k with spad := m, spadPoison := p }).portFor c).touches
        s.issue.c s.issue.x (touchList k mask w.at_)).latch w.a))

/-- VLDACC and VSTACC (R175): the row that va and the displacement name, as it stood before the bundle, and the
enabled lanes stored into it; a row of 12,288 or more reads zero, takes nothing, and is a touch where a lane is
enabled. Their words leave the sub-op field zero. An enabled lane of a poisoned unit ends the strand that loads it,
and one that stores all of it makes it sound (R348).

A row stored into the accumulator (R175, R299): that row alone changes, the row's sum is the sum of its
elements, and each column's sum moves with its element. -/
def Obligations.AccumulatorRows : Prop :=
 ((∀ (w : Nat) (x : Option (BitVec 7)) (d a : BitVec 6) (o : Imm 6) (m : BitVec 3) (u : Bool),
    let rest := d.toNat * 2 ^ 19 + a.toNat * 2 ^ 13 + o.low.toNat * 2 ^ 7 + m.toNat * 2 ^ 4 + bit u * 2 ^ 3
    (decodeSlot 2 w x = .ok (.vldacc d a o m u) → w = 0x07 * 2 ^ 25 + rest ∧ o = Imm.read o.low x) ∧
    (decodeSlot 2 w x = .ok (.vstacc d a o m u) → w = 0x08 * 2 ^ 25 + rest ∧ o = Imm.read o.low x)) ∧
  ∀ (s : State) (d a : BitVec 6) (o : Imm 6) (m : BitVec 3) (u : Bool), Issuing s →
    let r := s.me.regs
    let ar := (((lane (r.vVal a) 0).toNat + o.sval) % 16384).toNat
    let g : Option GuardRec :=
      if 12288 ≤ ar ∧ r.mVal m ≠ 0 then some ⟨1, 0, BitVec.ofNat 14 ar, 0, 1, 0⟩ else none
    (∃ (v : VReg) (b : Bool), exec (.vldacc d a o m u) s =
        .next ((((s.res 6 (.v d v)).touch s.issue.c s.issue.x g).stopIf b).latch a) ∧
      (b = true ↔ ∃ q ∈ s.myCore.accPoison, q / 8 = ar ∧ ∃ i < 8, (r.mVal m).getLsbD (8 * (q % 8) + i) = true) ∧
      ∀ j < 64, lane v j = if (r.mVal m).getLsbD j then
          (if 12288 ≤ ar then 0 else lane (accRow s.issue.acc0 ar) j) else lane (r.vVal d) j) ∧
    (12288 ≤ ar → exec (.vstacc d a o m u) s = .next ((s.touch s.issue.c s.issue.x g).latch a)) ∧
    (ar < 12288 → ∃ (v : VReg) (p : List Nat),
      (∀ j < 64, lane v j = if (r.mVal m).getLsbD j then lane (r.vVal d) j else lane (accRow s.myCore.acc ar) j) ∧
      (∀ q, q ∈ p ↔ q ∈ s.myCore.accPoison ∧
        ¬(q / 8 = ar ∧ ∀ i < 8, (r.mVal m).getLsbD (8 * (q % 8) + i) = true)) ∧
      exec (.vstacc d a o m u) s =
        .next ((s.modCore s.issue.c fun k => { k.storeRow ar v with accPoison := p }).latch a))) ∧
 (∀ (k : Core) (ar : Nat) (v : VReg), ar < 12288 →
    let u := k.storeRow ar v
    (∀ q, accRow u.acc q = if q = ar then v else accRow k.acc q) ∧
    (vget (u.strip (ar / 64)).rows (ar % 64) 0).toNat = ((List.range 64).map fun j => (lane v j).toNat).sum % 2 ^ 32 ∧
    (∀ j < 64, vget (u.strip (ar / 64)).cols j 0 + lane (accRow k.acc ar) j =
      vget (k.strip (ar / 64)).cols j 0 + lane v j) ∧
    (∀ q, q ≠ ar / 64 → u.strip q = k.strip q) ∧
    u = { k with acc := u.acc, strips := u.strips })

/-- SLD and SST (R244, R348): n bytes at the offset, aligned down; guarded bytes read 0 and are not written; a poisoned
byte that is read ends the strand. A false guard does nothing (R102). -/
def Obligations.ScratchpadScalars : Prop :=
  ∀ (s : State) (g : Guard) (cl : BitVec 4) (d b : BitVec 5) (o : Imm 8), Issuing s →
    (guardHolds g s.me.regs = false → ∀ i ∈ [Instr.sldW g cl d b o, .sldD g cl d b o, .sstW g cl d b o, .sstD g cl d b o],
      exec i s = .next s) ∧
    (guardHolds g s.me.regs = true →
    let r := s.me.regs
    let k := s.myCore
    let off (n : Nat) : Nat := (((r.aVal b).toNat + n * o.sval) % 2 ^ 19 -
      ((r.aVal b).toNat + n * o.sval) % n).toNat
    let touch (n : Nat) : Option GuardRec := if k.guarded (off n) then
      some ⟨0, BitVec.ofNat 5 (off n / 16384), BitVec.ofNat 14 (off n % 16384 / 64 * 64), 0, 0, 0⟩ else none
    (∀ n i, (n, i) = (4, Instr.sldW g cl d b o) ∨ (n, i) = (8, Instr.sldD g cl d b o) →
      ∃ (v : Word) (q : Bool), v.toNat < 2 ^ (8 * n) ∧ (q = true ↔ k.poisonAt (off n) n) ∧
        (∀ j < n, v.extractLsb' (8 * j) 8 = if k.guarded (off n + j) then 0 else memRead s.issue.spad0 (off n + j)) ∧
        exec i s = .next (((s.res 6 (.a d v)).touch s.issue.c s.issue.x (touch n)).stopIf q)) ∧
    ∀ n i, (n, i) = (4, Instr.sstW g cl d b o) ∨ (n, i) = (8, Instr.sstD g cl d b o) →
      Mem.wf k.spad = true → ∃ m : Mem, Mem.wf m = true ∧
        (∀ p, memRead m p = if off n ≤ p ∧ p < off n + n ∧ k.guarded p = false
          then (r.aVal d).extractLsb' (8 * (p - off n)) 8 else memRead k.spad p) ∧
        exec i s = .next ((s.modCore s.issue.c fun k => { k with spad := m }).touch s.issue.c s.issue.x (touch n)))

/-! ## Global memory -/

/-- Loads, stores, LDACQ, STREL and atomics where they issue (R238, R239, R242, R245, R252): the effective address,
the size, the data as it stands at issue, the destination marked empty, a store's place in its strand's store stream
(R339), and the checks in their order. A false guard does nothing.

The frame of a global access where it issues: no byte of device memory changes but those of stores that are
ready on its die, and, where it is a store, its own at the address of a cached translation; and no register of
its context changes but the one that it empties. -/
def Obligations.GlobalAccesses : Prop :=
 (∀ (s : State) (i : Instr) (g : Guard) (d : Option (BitVec 5)) (a : Access), Issuing s →
    rowAccess s.issue.x s.me.regs i = some (g, d, a) →
    exec i s = .next (if guardHolds g s.me.regs = false then s
      else (match d with
        | some r => s.awaitMe (.a r)
        | none => s.signStore).accessGoes s.issue.c a)) ∧
 (∀ (s t : State) (i : Instr) (g : Guard) (d : Option (BitVec 5)) (a : Access), Issuing s →
    rowAccess s.issue.x s.me.regs i = some (g, d, a) → exec i s = .next t →
    (∀ p, ¬storesAt s.myCore a p → ¬s.readyStoreAt (s.issue.c / 12) p → memRead t.mem p = memRead s.mem p) ∧
    RegFrame (d.toList.map Reg.a) s.me.regs t.me.regs ∧
    (∀ c x, (c, x) ≠ (s.issue.c, s.issue.x) → (t.ctx c x).regs = (s.ctx c x).regs) ∧
    (∀ c, (t.core c).spad = (s.core c).spad ∧ (t.core c).acc = (s.core c).acc))

/-- A protected strand's atomic traps PROT_ATOMIC, whether its guard is true or false (R249). -/
def Obligations.ProtectedAtomicsTrap : Prop :=
  ∀ (s : State) (n : Strand) (g : Guard) (k : BitVec 4) (d b : BitVec 5) (f : BitVec 4) (z : Bool) (sc : BitVec 3),
    Alone s → s.lone.strand = some n → n.cls ≠ 0 →
    exec (.amo g k d b f z sc) s = .next (s.refusedBy 0x07 2 0) ∧
    exec (.cas g k d b z sc) s = .next (s.refusedBy 0x07 2 0) ∧
    exec (.afadd g k d b sc) s = .next (s.refusedBy 0x07 2 0)

/-- FENCE, FENCESC and XFENCE place a hold on later bundles; a mask of zero has no effect (R250). A hold in force
keeps back the bundles of R250's table, and a later TCVT's stores into the vault where class 15 is in its mask (R302);
with none in force nothing is kept back for it; a hold ends when the earlier accesses that it names have performed, each
visible at its scope, and the stores of the path that they may have read are at home where the scope asks for it (R215,
R217, R222): that these are all the stores which the path had accepted by then is the model's reading, log 22. A fence
takes a number among its core's accesses. -/
def Obligations.FencesPlaceHolds : Prop :=
  (∀ (s : State) (c : Nat) (x : Bool) (h : Hold), h ∈ (s.ctx c x).wait.holds → s.holdDone c x h = false →
    (h.xf = false → ∀ cls, h.sc = true ∨ h.mask.getLsbD cls = true → s.accessHeld c x cls = true) ∧
    (h.xf = true → ∀ i, isCommand i = true → s.slot1Held c x i = true) ∧
    (h.xf = false → h.sc = true ∨ h.mask.getLsbD 15 = true → ∀ (j : Job) (g d a : BitVec 4) (f : BitVec 3),
      j.op = .tcvt g d a f → slice j.dd 27 26 = 2 → j.x = x → h.upTo < j.mark → s.landBlocked c j = true)) ∧
  (∀ (s : State) (c : Nat) (x : Bool), (∀ h ∈ (s.ctx c x).wait.holds, s.holdDone c x h = true) →
    (∀ cls, s.fenced c x cls = false) ∧ s.xfenced c x = false) ∧
  (∀ (s : State) (c : Nat) (x : Bool) (h : Hold),
    let home := h.xf = true ∨ 3 ≤ h.scope.toNat ∨ (h.scope = 1 ∧ s.mdl.oneDie (s.ctx c x).runOf = false)
    let earlier : Prop :=
      (∀ a ∈ (s.core c).accs, a.x = x → a.id < h.upTo → h.mask.getLsbD a.cls.toNat = true →
        a.st = .onPath ∧ a.place ≠ 3 ∧ ¬home) ∧
      (∀ e ∈ s.myEntries c x, (e.core = c → e.acc.id < h.upTo) →
        e.acc.kind ≠ .ldacq ∧ h.mask.getLsbD e.acc.cls.toNat = false) ∧
      (h.mask.getLsbD 15 = true → ∀ j ∈ (s.core c).array ++ (s.core c).tile, j.x = x → j.isGlobal = true → h.upTo < j.mark)
    (s.holdDone c x h = true ↔ earlier ∧ (h.xf = true ∨ ∃ n, h.mark = some n ∧
      (home → ∀ p ∈ (s.die (c / 12)).path, n ≤ p.id))) ∧
    (s.holdMark c x h).mark = (match h.mark with
      | some n => some n
      | none => if s.holdReady c x h then some (s.die (c / 12)).nextPath else none)) ∧
  ∀ s : State, Issuing s →
    let hold (m : BitVec 16) (sc : BitVec 3) (all ex : Bool) : State :=
      (s.modCore s.issue.c fun k => { k with nextAcc := s.myCore.nextAcc + 1 }).modMe fun t => { t with wait := { t.wait with
        holds := t.wait.holds ++ [⟨m, sc, all, ex, s.myCore.nextAcc, none⟩] } }
    (∀ (m : BitVec 16) (sc : BitVec 3),
      exec (.fence m sc) s = .next (if m = 0 then s else hold m sc false false)) ∧
    (∀ sc : BitVec 3, exec (.fencesc sc) s = .next (hold 0xFFFF sc true false)) ∧
    ∀ m : BitVec 16, exec (.xfence m) s = .next (if m = 0 then s else hold m 3 false true)

/-- A load's value (R207, R209, R240, R336, R359): byte by byte the newest held by the strand, else a die register's or
the host's, else the newest of the die's path, else the one at home, extended to 64 bits; it lands in its register, or
answers LOOP.SR, and the access ends. A read of the host aperture has been sent before (R359). -/
def Obligations.LoadReturnsValue : Prop :=
  ∀ (s : State) (c id : Nat) (a : Access), c < 768 → (s.core c).acc? id = some a → a.st = .ready →
    a.isLoad = true → s.mayPerform c a = true → a.size ≤ 8 →
    (a.place = 3 ∨ ∀ j < a.size, s.strandPoison c a.x (a.pa + j) = false) →
    (a.sent = true ∨ ∀ off, s.site a.pa ≠ .aperture off) →
    ∃ v : Word,
      (∀ j < a.size, s.loadsByte (s.ctx c a.x).runOf (s.ctx c a.x).rankOf (c / 12) (a.pa + j)
        (v.extractLsb' (8 * j) 8)) ∧
      (∀ j, 8 * a.size ≤ j → j < 64 → v.getLsbD j = (a.sx && v.getLsbD (8 * a.size - 1))) ∧
      exec (.loadValueReturn c id) s =
        let u := s.modCore c fun k => { k with accs := k.accs.filter fun b => b.id != a.id }
        .next ((if a.kind = .count then
          u.modWait c a.x fun w => { w with countWord := some (some (v.extractLsb' 0 32)) }
        else u.modRegs c a.x fun r => r.landed (.a a.reg v)).settle c)

/-- A store of a die's path reaches its home once no earlier store of the path to that home is left: its bytes are
written there, it leaves the path and its core, and what waits for the path on its die goes on (R209, R216).

A store's bytes at a home of memory (R209): those bytes, and no other.

An atomic at its home (R220, R245 to R247): one indivisible read and write, and the old value in its
register, zero-extended. -/
def Obligations.StoresAndAtomicsAtHome : Prop :=
 (∀ (s : State) (d id : Nat) (p : PathStore), d < 64 → (s.die d).path.find? (fun q => q.id == id) = some p →
    (∀ q ∈ (s.die d).path, q.id < id → s.homeOf q.pa ≠ s.homeOf p.pa) →
    exec (.storeReachHome d id) s =
      .next ((((s.homeWrite p.pa p.data).modDie d fun k => { k with path := k.path.filter fun q => q.id != id }).modCore
        p.core fun k => { k with accs := k.accs.filter fun b => b.id != p.acc }).settleDie d)) ∧
 (∀ (s : State) (p : Nat) (l : List Byte),
    (Mem.wf s.mem = true → ∀ a, memRead (s.physWrite p l).mem a =
      if p ≤ a ∧ a < p + l.length then l.getD (a - p) 0 else memRead s.mem a) ∧
    (s.MemOk → (s.physWrite p l).MemOk) ∧
    { s.physWrite p l with mem := s.mem, mdl := s.mdl } = s) ∧
 (∀ (s : State) (c id : Nat) (a : Access), c < 768 →
    let u := s.markReleases c
    (u.core c).acc? id = some a → a.st = .ready →
    a.isAtomic = true → u.mayPerform c a = true → s.poisonedIn a.pa a.size = false → a.size = 4 ∨ a.size = 8 →
    (a.kind = .afadd → a.size = 4) →
    ∃ (m : Nat) (l : List Byte),
      m = ((List.range a.size).map fun j => (memRead s.mem (a.pa + j)).toNat * 256 ^ j).sum ∧
      l.length = a.size ∧ atomicResult a m (numLE l) ∧
      exec (.atomicAtHome c id) s =
        .next ((((u.physWrite a.pa l).modCore c fun k =>
          { k with accs := k.accs.filter fun b => b.id != a.id }).modRegs c a.x fun r =>
            r.landed (.a a.reg (BitVec.ofNat 64 m))).settle c))

/-- The end of a page walk (R202 to R204): where one access waits for it, a fault of the walk, or PERM, marks that
access for the retry ring and leaves the core's cache as it was; a leaf that serves it joins the cache and translates
it. Then the misses that waited for room on the walker begin their walks. Misses share the walk of their page: none, of
whichever core or engine of the die, waits for it any more, a leaf stands in the cache of each core one of whose misses
it serves, and each command has learnt the outcome and goes on. While 64 walks are in progress, or one of the page, a
miss begins none. A number that names no walk in progress has no effect.

The walk of R203 where every table is open memory: NOTMAPPED beyond 48 bits and at an entry with V = 0, and the
leaf of a well-formed 64 KiB or 32 MiB page. -/
def Obligations.PageWalks : Prop :=
 ((∀ (s : State) (c id : Nat), c < 768 → (∀ w ∈ (s.die (c / 12)).walks, w.core = c → w.acc ≠ id) →
    exec (.pageWalk c id) s = .next s) ∧
  (∀ (s : State) (c id : Nat) (a : Access) (w : Walk) (ws : List Walk), c < 768 →
    (s.die (c / 12)).walks = w :: ws → w.core = c → w.acc = id → w.page = a.va.toNat / 65536 → w ∉ ws →
    (s.core c).accs = [a] → a.st = .walking →
    (∀ e, e / 12 = c / 12 → e ≠ c → ∀ b ∈ (s.core e).accs, b.st = .walking → b.va.toNat / 65536 ≠ w.page) →
    (∀ q ∈ (s.die (c / 12)).cmds, q.need ≠ some w.page) →
    let u := s.modDie (c / 12) fun k => { k with walks := ws }
    let ends (st : AccState) (tc : List Transl) : Prop :=
      let b := { a with st := st }
      let z := u.modCore c fun k => { k with accs := [b], tcache := tc }
      exec (.pageWalk c id) s = .next ((((match st with
        | .found t => z.translated c b t
        | .failed f => z.faultAccess c b f
        | _ => z).enterRing c).enterRing c).beginWalks (c / 12))
    let o := s.walk (BitVec.ofNat 64 (65536 * w.page))
    (∀ f, o = .fault f → ends (.failed f) (s.core c).tcache) ∧
    ∀ t, o = .leaf t →
      (s.permBad t a.need = true → ends (.failed 2) (s.core c).tcache) ∧
      (s.permBad t a.need = false → ends (.found t) (cacheAdd (s.core c).tcache t))) ∧
  (∀ (s : State) (c id : Nat) (w : Walk) (ws : List Walk), c < 768 →
    (s.die (c / 12)).walks = w :: ws → w.core = c → w.acc = id →
    let d := c / 12
    let o := s.walk (BitVec.ofNat 64 (65536 * w.page))
    let waits (b : Access) : Prop := b.st = .walking ∧ b.va.toNat / 65536 = w.page
    ∃ t, exec (.pageWalk c id) s = .next t ∧
      (∀ l < 12, ∀ b ∈ (t.core (12 * d + l)).accs, ¬waits b) ∧ (∀ q ∈ (t.die d).cmds, q.need ≠ some w.page) ∧
      (∀ f, o = .leaf f → ∀ l < 12, (∃ b ∈ (s.core (12 * d + l)).accs, waits b ∧ s.permBad f b.need = false) →
        f ∈ (t.core (12 * d + l)).tcache) ∧
      ∀ q ∈ (s.die d).cmds, q.need = some w.page →
        (∃ y ∈ (t.die d).cmds, y.id = q.id ∧ y.need = none ∧ ∃ e ∈ y.xl, e.page = w.page ∧
          (∀ f, o = .leaf f → e.leaf = some f) ∧ ∀ f, o = .fault f → e.leaf = none ∧ e.code = f) ∧
        (s.now + 1, match q.coll with
          | some k => Instr.collInstanceMeet k.1 k.2
          | none => .engineCompletion d q.id) ∈ t.agenda) ∧
  ∀ (s : State) (c page n : Nat), c < 768 →
    let ws := (s.die (c / 12)).walks
    ((∃ w ∈ ws, w.page = page) ∨ 64 ≤ ws.length → s.beginWalk c page n = s) ∧
    ((∀ w ∈ ws, w.page ≠ page) → ws.length < 64 → s.beginWalk c page n = (s.modDie (c / 12) fun k =>
      { k with walks := ws ++ [⟨page, c, n⟩] }).laterPick Config.walk (.pageWalk c n))) ∧
 (∀ (s : State) (va : Word),
    let v := va.toNat
    let e (p : Nat) : Nat := ((List.range 8).map fun j => (memRead s.mem (p + j)).toNat * 256 ^ j).sum
    let e1 := e (s.mdl.ptroot.toNat + 8 * (v / 2 ^ 38))
    let e2 := e (e1 + 8 * (v / 2 ^ 25 % 8192) - 1)
    let e3 := e (e2 + 8 * (v / 2 ^ 16 % 512) - 1)
    (2 ^ 48 ≤ v → s.walk va = .fault 1) ∧
    (v < 2 ^ 48 → s.mdl.poison = [] → (s.site s.mdl.ptroot.toNat).open_ = true →
      (e1 % 2 = 0 → s.walk va = .fault 1) ∧
      (e1 % 65536 = 1 → e1 < 2 ^ 48 → (s.site (e1 - 1)).open_ = true →
        (e2 % 2 = 0 → s.walk va = .fault 1) ∧
        (e2 % 2 ^ 25 = 15 → e2 < 2 ^ 48 → s.frameOk 0 (e2 - 15) 0x2000000 = true →
          s.walk va = .leaf ⟨v / 2 ^ 25 * 2 ^ 25, 2 ^ 25, e2 - 15, 0, true, true⟩) ∧
        (e2 % 4096 = 1 → e2 < 2 ^ 48 → (s.site (e2 - 1)).open_ = true →
          (e3 % 2 = 0 → s.walk va = .fault 1) ∧
          (e3 % 65536 = 15 → e3 < 2 ^ 48 → s.frameOk 0 (e3 - 15) 0x10000 = true →
            s.walk va = .leaf ⟨v / 2 ^ 16 * 2 ^ 16, 2 ^ 16, e3 - 15, 0, true, true⟩)))))

/-- TLBINV (R205): every cached translation that the kind covers is dropped, on cores and in engine caches, and BUSY
falls only once every access, and every store of a store path or of a containment buffer, that used a covered
translation has performed; a TLBINV while BUSY is 1 sets DROP and does nothing else. -/
def Obligations.TranslationsInvalidated : Prop :=
  (∀ (s : State) (i : Instr) (v : BitVec 32) (size : Nat),
    (i, size) = (.tlbinvAll, 0) ∨ (i, size) = (.tlbinvPage64k v, 2 ^ 16) ∨ (i, size) = (.tlbinvPage32m v, 2 ^ 25) →
    let lo := v.toNat * 65536 - v.toNat * 65536 % size
    let meets (a n : Nat) : Prop := size = 0 ∨ (a < lo + size ∧ lo < a + n)
    let used (a : Access) : Prop := (∃ t, a.st = .found t ∧ meets t.base t.size) ∨
      ((a.st = .ready ∨ a.st = .onPath) ∧ meets a.lo a.len)
    (∀ n, s.mdl.inval = some n →
      exec i s = .next (s.modMdl fun m => { m with tlbDrop := true, tlbDropAt := s.now })) ∧
    (s.mdl.inval = none → ∃ t n, exec i s = .next t ∧ t.mdl = { s.mdl with inval := some n } ∧
      (∀ c < 768, ∀ u, u ∈ (t.core c).tcache ↔ u ∈ (s.core c).tcache ∧ ¬meets u.base u.size) ∧
      (∀ d < 64, ∀ u, u ∈ (t.die d).ecache ↔ u ∈ (s.die d).ecache ∧ ¬meets u.base u.size) ∧
      (∀ c k, (c, k) ∈ n.accs ↔ c < 768 ∧ ∃ a ∈ (s.core c).accs, a.id = k ∧ used a) ∧
      (∀ d k, (d, k) ∈ n.stores ↔ d < 64 ∧ ∃ p ∈ (s.die d).path, p.id = k ∧ meets p.lo p.len) ∧
      (∀ d < 64, ∀ h, h ∈ (t.die d).contain ↔ ∃ g ∈ (s.die d).contain, h = { g with old := h.old } ∧
        (h.old = true ↔ g.old = true ∨ ∃ lo len, g.page = some (lo, len) ∧ meets lo len)) ∧
      t.mem = s.mem ∧ (∀ c, (t.core c).accs = (s.core c).accs) ∧ ∀ d, (t.die d).path = (s.die d).path)) ∧
  ∀ s : State,
    (s.mdl.inval = none → exec .tlbinvComplete s = .next s) ∧
    ∀ n, s.mdl.inval = some n →
      let left : Prop := (∃ e ∈ n.accs, ∃ a ∈ (s.core e.1).accs, a.id = e.2) ∨
        (∃ e ∈ n.stores, ∃ p ∈ (s.die e.1).path, p.id = e.2) ∨
        ∃ d < 64, ∃ h ∈ (s.die d).contain, h.old = true
      (¬left → exec .tlbinvComplete s = .next (s.modMdl fun m => { m with inval := none })) ∧
      (left → ∃ t, exec .tlbinvComplete s = .next t ∧ t.mdl.inval ≠ none ∧ { t.mdl with inval := s.mdl.inval } = s.mdl)

/-! ## Engines, tokens and the retry ring -/

/-- COPY, COPYM, RCOPY and COLL where they issue (R255, R256, R262 to R265): the command takes its group as the
registers hold it, joins the end of its die's queue, and its token is marked empty. A die's four copy engines then take
the copies in arrival order, each with its completion to come: after how many clocks, where no choice is given, is the
model's own (log 6). A COLL goes on to the collective engine. A false guard does nothing. -/
def Obligations.EngineCommandIssue : Prop :=
  (∀ (s : State) (g : Guard) (acq rel : Bool) (sc : BitVec 3) (t : BitVec 5) (x : BitVec 3), Issuing s →
    let d := s.issue.c / 12
    let q (i : Instr) : Cmd :=
      { id := s.mdl.nextId, core := s.issue.c, x := s.issue.x, run := s.me.runOf, rank := s.me.rankOf, op := i,
        g0 := s.me.regs.aVal (BitVec.ofNat 5 (4 * x.toNat)), g1 := s.me.regs.aVal (BitVec.ofNat 5 (4 * x.toNat + 1)),
        g2 := s.me.regs.aVal (BitVec.ofNat 5 (4 * x.toNat + 2)),
        g3 := s.me.regs.aVal (BitVec.ofNat 5 (4 * x.toNat + 3)), copyNode := none,
        mark := (s.die d).nextPath, running := false, coll := none,
        prot := s.me.protected_, waits := false, result := none, writes := [], late := none, xl := [], need := none,
        paced := 0 }
    let u (i : Instr) : State :=
      ((s.modMdl fun m => { m with nextId := m.nextId + 1 }).awaitMe (.a t)).modDie d fun k =>
        { k with cmds := k.cmds ++ [q i] }
    (∀ (mval mark : Bool) (ds ss : BitVec 2), let i := Instr.copy g acq rel sc t x mval mark ds ss
      exec i s = .next (if guardHolds g s.me.regs = false then s
        else (match s.me.strand with
          | some n => if ds = 0 then (u i).signSlot n ⟨.cmd, s.mdl.nextId, none⟩ else u i
          | none => u i).enginesTake d)) ∧
    (∀ (mval mark : Bool) (ss : BitVec 2), let i := Instr.copym g acq rel sc t x mval mark ss
      exec i s = .next (if guardHolds g s.me.regs = false then s else (u i).enginesTake d)) ∧
    (∀ (mval mark : Bool) (ss : BitVec 2), let i := Instr.rcopy g acq rel sc t x mval mark ss
      exec i s = .next (if guardHolds g s.me.regs = false then s else (u i).enginesTake d)) ∧
    ∀ ty op ds ss : BitVec 2, let i := Instr.coll g acq rel sc t x ty op ds ss
      exec i s = .next (if guardHolds g s.me.regs = false then s
        else (u i).later 1 (.engineCompletion d s.mdl.nextId))) ∧
  ∀ (s : State) (d : Nat), d < 64 →
    let l := (s.die d).cmds.filter Cmd.isCopy
    s.enginesTake d = ((((s.engineTake d).engineTake d).engineTake d).engineTake d) ∧
    (4 ≤ l.countP Cmd.running ∨ (∀ q ∈ l, q.running = true) → s.engineTake d = s) ∧
    ∀ (p r : List Cmd) (q : Cmd), l.countP Cmd.running < 4 → l = p ++ q :: r → (∀ y ∈ p, y.running = true) →
      q.running = false →
      ∃ n, 1 ≤ n ∧ (s.mdl.pStage.toNat < 2 → s.picks = [] → n = max 1 Config.engine) ∧
        (s.engineTake d).agenda = addEvent s.agenda (s.now + n) (.engineCompletion d q.id) ∧
        ((s.engineTake d).die d).cmds = (s.die d).cmds.map fun y =>
          if y.id = q.id then { y with running := true } else y

/-- An engine's command ends (R257, R267, R271): its token is full with its completion value, or with its fault word
and the mark of a faulted token, and the command has left its die's queue. A fault of one member of a collective brings
MEMBER upon every other; that a member on another module faults is an open choice (log 7).

The copy engines' commands where an engine completes them, their acquire made (R259, R261 to R264, R271): the
first check that fails is the fault, and nothing is written; else every byte of every row, and the marker, is at its
place, no other byte has changed, and the token holds ROWS times LEN. An RCOPY whose source faults after blocks that
are on its link ends with that fault once they are answered. Under throttle stage 2 a command waits for its room (R377).
A request is translated by the die's cache, or by the walk of its page: without one the command waits for it (R204).

A COLL joins its instance, and the instance meets (R256, R266 to R271). The collective engine takes a die's COLLs in
arrival order and reads the table. Where the members of an instance disagree, each faults with GROUP. Where they agree
and their sources can be read, every member here receives the elements of R268 and the flag word of R269; a failed
instance does nothing more, and where a page has to be walked the last part begins anew (R204). What members on other
modules contribute, and whether one of them faults, is free (log 7). The model's choices: PROTECTED names address 0,
MEMBER the table, and a COPYM of no core completes with 0 (log 34); when a table is read, and whose turn it is (logs
35, 77); and a reduction of one member copies its NaN (log 69). -/
def Obligations.EngineCommandsEnd : Prop :=
 (∀ (s : State) (d id : Nat) (q : Cmd), s.CmdOf d id q →
    (∀ (v : Word) (g : Guard) (acq rel : Bool) (sc : BitVec 3) (t : BitVec 5) (x : BitVec 3) (ty op ds ss : BitVec 2),
      q.result = some v → q.op = .coll g acq rel sc t x ty op ds ss →
      ((∀ i, q.coll.bind s.mdl.coll? = some i → i.fail = 0 ∧ (i.links = [] ∨ (s.pick 0).1 = 0)) →
        ∃ u, exec (.engineCompletion d id) s = .next u ∧ tokenIs s u d q v false) ∧
      ∀ i, q.coll.bind s.mdl.coll? = some i → i.fail = 0 → i.links ≠ [] → (s.pick 0).1 ≠ 0 →
        ∃ u, exec (.engineCompletion d id) s = .next u ∧ ∀ m ∈ i.members, m.cmd ≠ 0 → ∀ p, s.cmd? m.die m.cmd = some p →
          (s.now + 1, .engineFault m.die m.cmd (wordFor 24 p.g3)) ∈ u.agenda) ∧
    ∀ fw, ∃ t, exec (.engineFault d id fw) s = .next t ∧ tokenIs s t d q fw true ∧
      ∀ i m p, q.coll.bind s.mdl.coll? = some i → i.fail = 0 → m ∈ i.members → m.cmd ≠ q.id →
        s.cmd? m.die m.cmd = some p → (s.now + 1, .engineFault m.die m.cmd (wordFor 24 p.g3)) ∈ t.agenda) ∧
 ((∀ (s : State) (d id : Nat) (q : Cmd) (g : Guard) (acq rel : Bool) (sc : BitVec 3) (t : BitVec 5) (x : BitVec 3)
    (mval mark : Bool) (ds ss : BitVec 2), s.CmdOf d id q → q.result = none →
    q.op = .copy g acq rel sc t x mval mark ds ss →
    let src := sideOf q.core ss q.g0
    let dst := sideOf q.core ds q.g1
    let o := xferOps q src [dst]
    let res := sideReserved ss q.g0 || sideReserved ds q.g1
    let sn := s.sideNoCore ss q.g0
    let dn := s.sideNoCore ds q.g1
    let fit := src.fits o.rows o.len o.sstr false && dst.fits o.rows o.len o.dstr mark
    let slow : Prop := 2 ≤ s.mdl.pStage.toNat ∧ s.now < q.paced
    (s.acquired d q = false → exec (.engineCompletion d id) s = .next (s.later 1 (.engineCompletion d id))) ∧
    (s.acquired d q = true → slow →
      exec (.engineCompletion d id) s = .next (s.later (q.paced - s.now) (.engineCompletion d id))) ∧
    (s.acquired d q = true → ¬slow →
      (sideReserved ss q.g0 = true → faultsUnwritten s d id q 19 q.g0) ∧
      (sideReserved ss q.g0 = false → sideReserved ds q.g1 = true → faultsUnwritten s d id q 19 q.g1) ∧
      (res = false → sn = true → (dn = true → wordCore q.g0 ≤ wordCore q.g1) → faultsUnwritten s d id q 18 q.g0) ∧
      (res = false → dn = true → (sn = true → wordCore q.g1 < wordCore q.g0) → faultsUnwritten s d id q 18 q.g1) ∧
      (res = false → sn = false → dn = false → src.fits o.rows o.len o.sstr false = false →
        faultsUnwritten s d id q 17 q.g0) ∧
      (res = false → sn = false → dn = false → src.fits o.rows o.len o.sstr false = true →
        dst.fits o.rows o.len o.dstr mark = false → faultsUnwritten s d id q 17 q.g1) ∧
      ∀ S D M, res = false → sn = false → dn = false → fit = true → (q.prot = false ∨ ss ≠ 0 ∧ ds ≠ 0) →
        s.CanMove d o mark S D M →
        ∃ u, exec (.engineCompletion d id) s = .next u ∧ Moved s u o mark mval S D M ∧
          tokenIs s u d q (BitVec.ofNat 64 (slice q.g2 63 32 * slice q.g2 31 0)) false)) ∧
  (∀ (s : State) (d id : Nat) (q : Cmd) (g : Guard) (acq rel : Bool) (sc : BitVec 3) (t : BitVec 5) (x : BitVec 3)
    (mval mark : Bool) (ss : BitVec 2), s.CmdOf d id q → q.result = none → s.acquired d q = true →
    (s.mdl.pStage.toNat < 2 ∨ q.paced ≤ s.now) → q.op = .copym g acq rel sc t x mval mark ss →
    let src := sideOf q.core ss q.g0
    let die := q.g1.toNat / 2 ^ 23 % 64
    let off := q.g1.toNat % 2 ^ 19
    let cores := (List.range 12).filter fun c => q.g1.getLsbD (32 + c)
    let o := xferOps q src (cores.map fun c => .spad (12 * die + c) off)
    let res := sideReserved ss q.g0 || slice q.g1 63 44 != 0 || slice q.g1 31 29 != 0 || slice q.g1 22 19 != 0
    let fit := src.fits o.rows o.len o.sstr false && (Side.spad 0 off).fits o.rows o.len o.dstr mark
    let gone : Prop := ∃ c ∈ cores, s.clusterAlive (3 * die + c / 4) = false
    (sideReserved ss q.g0 = true → faultsUnwritten s d id q 19 q.g0) ∧
    (sideReserved ss q.g0 = false → res = true → faultsUnwritten s d id q 19 q.g1) ∧
    (res = false → cores = [] → ∃ u, exec (.engineCompletion d id) s = .next u ∧ tokenIs s u d q 0 false ∧
      ∀ p, u.byteOf p = s.byteOf p) ∧
    (res = false → gone → faultsUnwritten s d id q 18 q.g1) ∧
    (res = false → cores ≠ [] → ¬gone → src.fits o.rows o.len o.sstr false = false →
      faultsUnwritten s d id q 17 q.g0) ∧
    (res = false → cores ≠ [] → ¬gone → src.fits o.rows o.len o.sstr false = true → fit = false →
      faultsUnwritten s d id q 17 q.g1) ∧
    ∀ S D M, res = false → cores ≠ [] → ¬gone → fit = true → (q.prot = false ∨ ss ≠ 0) →
      s.CanMove d o mark S D M →
      ∃ u, exec (.engineCompletion d id) s = .next u ∧ Moved s u o mark mval S D M ∧
        tokenIs s u d q (BitVec.ofNat 64 (slice q.g2 63 32 * slice q.g2 31 0)) false) ∧
  (∀ (s : State) (d id : Nat) (q : Cmd) (g : Guard) (acq rel : Bool) (sc : BitVec 3) (t : BitVec 5) (x : BitVec 3)
    (mval mark : Bool) (ss : BitVec 2), s.CmdOf d id q → q.op = .rcopy g acq rel sc t x mval mark ss →
    let src := sideOf q.core ss q.g0
    let off := q.g1.toNat % 2 ^ 42
    let win := s.mdl.window (q.g1.toNat / 2 ^ 42 % 16)
    let o := xferOps q src []
    let beyond : Prop := o.rows ≠ 0 ∧ o.len ≠ 0 ∧ 2 ^ 42 < off + (o.rows - 1) * o.dstr + o.len ∨ mark = true ∧ off < 8
    let remote : Prop := s.mdl.featAccept0.getLsbD 0 = false ∨ win = none ∨ beyond
    (q.result = none → s.acquired d q = true → (s.mdl.pStage.toNat < 2 ∨ q.paced ≤ s.now) →
      (q.prot = true → faultsUnwritten s d id q 25 0) ∧
      (q.prot = false → sideReserved ss q.g0 = true → faultsUnwritten s d id q 19 q.g0) ∧
      (q.prot = false → sideReserved ss q.g0 = false → slice q.g1 63 46 ≠ 0 → faultsUnwritten s d id q 19 q.g1) ∧
      (q.prot = false → sideReserved ss q.g0 = false → slice q.g1 63 46 = 0 →
        (remote → faultsUnwritten s d id q 22 q.g1) ∧
        ∀ l, ¬remote → win = some l →
          ((s.mdl.link l).en = false ∨ (s.mdl.link l).state = 0 → faultsUnwritten s d id q 21 q.g1) ∧
          ((s.mdl.link l).en = true → (s.mdl.link l).state ≠ 0 →
            (src.fits o.rows o.len o.sstr false = false → faultsUnwritten s d id q 17 q.g0) ∧
            (src.fits o.rows o.len o.sstr false = true →
              ((s.mdl.link l).state = 1 →
                exec (.engineCompletion d id) s = .next (s.later 1 (.engineCompletion d id))) ∧
              ∀ S, (s.mdl.link l).state ≠ 1 → (o.rows ≠ 0 ∧ o.len ≠ 0 ∨ mark = true) →
                s.CanMove d o false S (fun _ _ => (none, 0)) (fun _ _ => (none, 0)) →
                ∃ (u : State) (ws : List (Nat × List Byte)),
                  exec (.engineCompletion d id) s =
                    .next (u.rcopySend d l q (BitVec.ofNat 64 (slice q.g2 63 32 * slice q.g2 31 0)) none
                      (ws ++ if mark = true then [(off - 8, bytesLE 8 (bit mval))] else [])) ∧
                  (∀ p, u.byteOf p = s.byteOf p) ∧ u.mdl = s.mdl ∧
                  (∀ r < o.rows, ∀ b < o.len, ∃ w ∈ ws, w.1 ≤ off + r * o.dstr + b ∧
                    w.2[off + r * o.dstr + b - w.1]? = some (s.byteOf (S (r * o.sstr + b)))) ∧
                  ∀ w ∈ ws, ∃ r < o.rows, ∃ b < o.len, w.1 = off + r * o.dstr + b ∧ b + w.2.length ≤ o.len)))) ∧
    ∀ v, q.result = some v →
      let l := win.getD 0
      ((s.mdl.link l).unacked (BitVec.ofNat 20 q.id) ≠ 0 →
        exec (.engineCompletion d id) s = .next (s.later 1 (.engineCompletion d id))) ∧
      ((s.mdl.link l).unacked (BitVec.ofNat 20 q.id) = 0 →
        ((s.pick 0).1 = 0 → q.late = none → ∃ u, exec (.engineCompletion d id) s = .next u ∧ tokenIs s u d q v false) ∧
        (∀ w, (s.pick 0).1 = 0 → q.late = some w →
          ∃ u, exec (.engineCompletion d id) s = .next u ∧ tokenIs s u d q w true) ∧
        ∀ n w, (s.pick 0).1 = n + 1 → q.writes[n]? = some w →
          ∃ u, exec (.engineCompletion d id) s = .next u ∧
            tokenIs s u d q (wordFor 22 (BitVec.ofNat 64 (q.g1.toNat / 2 ^ 42 % 16 * 2 ^ 42 + w.1 % 2 ^ 42))) true)) ∧
  ∀ (s : State) (q : Cmd) (va : Word) (n : Need),
    let d := q.core / 12
    let page := va.toNat / 65536
    let told (e : EngPage) : Prop := q.xl.find? (fun f => f.page == page) = some e
    let serves (t : Transl) : Prop :=
      (s.permBad t n = true → s.engXlate q va n = .error (.fault 2)) ∧
      (s.permBad t n = false → s.engXlate q va n = .ok (t.pa va, s.modDie d fun k =>
        { k with ecache := if t ∈ k.ecache then k.ecache else cacheAdd k.ecache t }))
    (2 ^ 48 ≤ va.toNat → s.engXlate q va n = .error (.fault 1)) ∧
    (va.toNat < 2 ^ 48 →
      (∀ t, cached (s.die d).ecache va = some t → serves t) ∧
      (cached (s.die d).ecache va = none →
        (∀ e t, told e → e.leaf = some t → serves t) ∧
        (∀ e, told e → e.leaf = none → s.engXlate q va n = .error (.fault e.code)) ∧
        ((∀ e ∈ q.xl, e.page ≠ page) → s.engXlate q va n = .error (.misses page))))) ∧
 ((∀ (s : State) (d id : Nat) (q : Cmd) (g : Guard) (acq rel : Bool) (sc : BitVec 3) (t : BitVec 5) (x : BitVec 3)
    (ty op ds ss : BitVec 2), s.CmdOf d id q → q.op = .coll g acq rel sc t x ty op ds ss → q.result = none →
    q.running = false →
    let u := s.modCmd d id fun q => { q with running := true }
    let h := u.collTable q
    (s.collTurn d q = false → exec (.engineCompletion d id) s = .next (s.later 1 (.engineCompletion d id))) ∧
    (s.collTurn d q = true → q.g3.toNat % 8 ≠ 0 → exec (.engineCompletion d id) s =
      .next (u.engFail d id ((s.collFaults q ty op ds ss none [] false).getD 0))) ∧
    (s.collTurn d q = true → q.g3.toNat % 8 = 0 → s.mdl.pStage.toNat < 2 ∨ (q.paced ≠ 0 ∧ q.paced ≤ s.now) →
      (∀ w, h.fin = .fault w → exec (.engineCompletion d id) s =
        .next (h.s.engFail d id ((h.s.collFaults q ty op ds ss none [] true).getD w))) ∧
      (∀ p, h.fin = .misses p → exec (.engineCompletion d id) s = .next (s.engMiss d id p)) ∧
      (h.fin = .going → exec (.engineCompletion d id) s = .next (h.s.collEnter d q ty op ds ss h.bytes)))) ∧
  (∀ (s : State) (tag : BitVec 32) (k : Nat) (i : CollInst) (m0 : CollMember) (q0 : Cmd) (qs : List (CollMember × Cmd)),
    s.mdl.coll? (tag, k) = some i →
    (i.members.filterMap fun m => (s.cmd? m.die m.cmd).map fun q => (m, q)) = (m0, q0) :: qs →
    (i.fail ≠ 0 → exec (.collInstanceMeet tag k) s = .next s) ∧
    (i.fail = 0 → (∃ e ∈ qs, e.2.collKey e.1 ≠ q0.collKey m0) →
      ∃ t, exec (.collInstanceMeet tag k) s = .next t ∧ (∀ p, t.byteOf p = s.byteOf p) ∧
        ∀ e ∈ (m0, q0) :: qs, e.1.cmd ≠ 0 →
          (s.now + 1, .engineFault e.1.die e.1.cmd (wordFor 23 e.2.g3)) ∈ t.agenda) ∧
    ∀ (g : Guard) (acq rel : Bool) (sc : BitVec 3) (t : BitVec 5) (x : BitVec 3) (ty op ds ss : BitVec 2)
      (u : State) (l : List Contribution),
      let f := if i.links = [] then s else (s.pick 0).2
      let n := m0.n
      let e := slice q0.g2 31 0
      let root := slice q0.g2 47 32
      i.fail = 0 → q0.op = .coll g acq rel sc t x ty op ds ss → 1 ≤ n → n ≤ 4096 →
      qs.length + 1 = i.members.length → (∀ e ∈ qs, e.2.collKey e.1 = q0.collKey m0) →
      (i.members.length = n ∨ Config.peerAgrees tag.toNat k = true) → (i.links = [] ∨ (s.pick 0).1 = 0) →
      (∀ m ∈ i.members, m.rank < n) → (op = 3 → root < n) →
      (∀ p ∈ (m0, q0) :: qs, s.mdl.pStage.toNat < 2 ∨ p.2.paced ≤ s.now) →
      f.collSources i ss ((if op = 1 then n * e else e) * collSize ty) n = (u, l) →
      (∀ c ∈ l, c.bad = none ∧ c.miss = none) →
      let z := collSize ty
      let w (r j : Nat) : Nat := numLE ((((l.map Contribution.bytes).getD r []).drop (z * j)).take z)
      ∃ (flags : Word) (res : Nat → List Byte), flagWord ty op n (if op = 1 then n * e else e) w flags ∧
        (∀ r < n, (res r).length = (if op = 2 then n * e else e) * z ∧
          ∀ j < (if op = 2 then n * e else e), numLE (((res r).drop (z * j)).take z) = collElement ty op n e r root w j) ∧
        let out := ((m0, q0) :: qs).foldl (fun o p => match o with
          | .ends s => s.collDeliver p.1.die p.2 flags (res p.1.rank)
          | .misses d id page => .misses d id page) (CollOut.ends u)
        (∀ v, out = .ends v → exec (.collInstanceMeet tag k) s = .next v) ∧
        ∀ d id page, out = .misses d id page → exec (.collInstanceMeet tag k) s = .next (f.engMiss d id page)) ∧
  ∀ (s : State) (d id : Nat) (q : Cmd) (g : Guard) (acq rel : Bool) (sc : BitVec 3) (t : BitVec 5) (x : BitVec 3)
    (ty op ds ss : BitVec 2) (f : Word) (l : List Byte) (D : Nat → EngPlace),
    s.CmdOf d id q → q.op = .coll g acq rel sc t x ty op ds ss → q.prot = false →
    (∀ j < l.length, s.engByte d true (sideOf q.core ds q.g1) j (D j)) →
    (∀ j < l.length, ∀ k < l.length, D j = D k → j = k) →
    ∃ u, s.collDeliver d q f l = .ends u ∧
    (∀ j < l.length, u.byteOf (D j) = l.getD j 0) ∧ (∀ p, (∀ j < l.length, p ≠ D j) → u.byteOf p = s.byteOf p) ∧
    (∃ y, u.cmd? d id = some y ∧ y.result = some f) ∧ ∃ n, 1 ≤ n ∧ (s.now + n, .engineCompletion d id) ∈ u.agenda)

/-- TOKST (R275): 0 for a token that is empty, the fault word of a faulted one, else 1; sub-op 1 acknowledges the
fault of a full one. a0, which is always full and never faulted, reads as a complete token. A false guard does
nothing. -/
def Obligations.TokenStatus : Prop :=
  ∀ (s : State) (g : Guard) (d a : BitVec 5) (k : BitVec 3), Issuing s →
    let r := s.me.regs
    let v : Word := if a = 0 then 1 else if r.isFull (.a a) = false then 0
      else if getBit r.aFault a.toNat then r.aVal a else 1
    (guardHolds g r = false → exec (.tokst g d a k) s = .next s) ∧
    (guardHolds g r = true → k = 1 ∧ r.isFull (.a a) = true → exec (.tokst g d a k) s = .next ((s.modMe fun t =>
      { t with regs := { t.regs with aFault := putBit t.regs.aFault a.toNat false } }).res 1 (.a d v))) ∧
    (guardHolds g r = true → ¬(k = 1 ∧ r.isFull (.a a) = true) → exec (.tokst g d a k) s = .next (s.res 1 (.a d v)))

/-- XPOSE (R273, R274): the source is read as it stood before the bundle and the write-back waits 40 clocks in the
queue, element by element in the order of (r, c); a fifth one traps XQOVF; a false guard does nothing. The write-back
puts down every byte outside guard granules, and of several for one place the last in that order. -/
def Obligations.Transpose : Prop :=
  (∀ (s : State) (g : Guard) (d a b : BitVec 5) (z : BitVec 3), Issuing s → guardHolds g s.me.regs = false →
    exec (.xpose g d a b z) s = .next s) ∧
  (∀ (s : State) (g : Guard) (d a b : BitVec 5) (z : BitVec 3), Issuing s → guardHolds g s.me.regs = true →
    let r := s.me.regs
    let n := 2 ^ z.toNat
    let cut (v : Nat) : Nat := v - v % n
    let dst := cut (slice (r.aVal d) 18 0)
    let src := cut (slice (r.aVal a) 18 0)
    let ss := cut (slice (r.aVal b) 15 0)
    let ds := cut (slice (r.aVal b) 31 16)
    ∃ (t : State) (j : XJob), exec (.xpose g d a b z) s = .next t ∧
      t.myCore.xq = s.myCore.xq ++ [j] ∧ j.x = s.issue.x ∧ j.at_ = s.clk s.issue.c + 40 ∧
      j.cells.length = 1024 * n ∧ (∀ i < 32, ∀ c < 32, ∀ e < n, ∃ v, j.cells[(32 * i + c) * n + e]? =
          some (dst + c * ds + i * n + e, v) ∧
        v = if s.myCore.guarded (src + i * ss + c * n + e) then 0
          else memRead s.issue.spad0 (src + i * ss + c * n + e)) ∧
      (∀ c, (t.core c).spad = (s.core c).spad) ∧ t.me.regs = s.me.regs ∧ t.mem = s.mem) ∧
  (∀ (s : State) (g : Guard) (d a b : BitVec 5) (z : BitVec 3), Alone s → guardHolds g s.lone.regs = true →
    4 ≤ (s.core s.focusC).xq.length → exec (.xpose g d a b z) s = .next (s.refusedBy 0x04 2 0)) ∧
  ∀ (s : State) (c : Nat) (j : XJob), c < 768 → (s.core c).xq = [j] → j.at_ ≤ s.clk c →
    ∃ t, exec (.xposeWriteback c) s = .next t ∧ (t.core c).xq = [] ∧
      (∀ p, ((s.core c).guarded p = true ∨ ∀ e ∈ j.cells, e.1 ≠ p) →
        memRead (t.core c).spad p = memRead (s.core c).spad p) ∧
      (Mem.wf (s.core c).spad = true → ∀ p e r, j.cells = p ++ e :: r → (∀ y ∈ r, y.1 ≠ e.1) →
        (s.core c).guarded e.1 = false → memRead (t.core c).spad e.1 = e.2)

/-- RPORT by a strand and by the host (R277, R325, R363): status 3 where the word names no entry of a strand that
still runs, 2 where the entry awaits no value or has it, 1 where its register is full, else 0; the value then stands in
the register from the next clock on, or waits for a suspended strand. An entry that awaits its value is ported with
status 0: by a strand, whose status register fills once the ring's die has answered, and by the host.

RACK by a strand and by the host (R278, R324, R363): status 3 where the word names no entry, 2 where an entry of
its set still awaits its value; else the set's entries leave the ring, and the status is 0 exactly where the named
entry's class has left the diverted set: no entry left, and no access that waits to enter the ring, diverts it (for an
LDACQ entry, no class at all). An entry of a protected strand is performed first: one that is misaligned or finds no
translation ends the strand, with the set freed and the status of R278 all the same, and a store that finds no line of
the containment buffer makes the RACK wait. -/
def Obligations.RetryAnswers : Prop :=
 ((∀ (s : State) (w v : Word),
    (s.entryOf w = none → s.rportAct w v = (3, s)) ∧
    ∀ e, s.entryOf w = some e →
      (s.whereIs e = .ended → s.rportAct w v = (3, s)) ∧
      (s.whereIs e ≠ .ended → (e.acc.awaitsValue = false ∨ e.ported = true) → s.rportAct w v = (2, s)) ∧
      (e.acc.awaitsValue = true → e.ported = false → ∀ c x, s.whereIs e = .resident c x →
        (s.ctx c x).regs.isFull (.a e.acc.reg) = true → s.rportAct w v = (1, s))) ∧
  (∀ (s : State) (g : Guard) (d a b : BitVec 5), Issuing s →
    let w := s.me.regs.aVal a
    let z := s.rportAct w (s.me.regs.aVal b)
    exec (.rport g d a b) s = .next (if guardHolds g s.me.regs = false then s else z.2.answer d w z.1)) ∧
  (∀ (s : State) (d : Nat), d < 64 → let z := s.rportAct (s.die d).hrWord (s.die d).hrVal
    exec (.hostRport d) s = .next (z.2.modDie d fun k => { k with hrBusy := false, hrStatus := BitVec.ofNat 2 z.1 })) ∧
  ∀ (s : State) (w v : Word) (e : RingEntry), s.entryOf w = some e → e.acc.awaitsValue = true → e.ported = false →
    let put := s.putEntry (slice w 21 16) { e with ported := true, val := v }
    ∀ u : State,
      ((∃ c x, s.whereIs e = .resident c x ∧ (s.ctx c x).regs.isFull (.a e.acc.reg) = false ∧
          u = put.later 1 (.resultLand c x (.a e.acc.reg v))) ∨
        ∃ h, s.whereIs e = .suspended h ∧ u = put) →
      (∀ (g : Guard) (d a b : BitVec 5), Issuing s → guardHolds g s.me.regs = true → s.me.regs.aVal a = w →
        s.me.regs.aVal b = v → exec (.rport g d a b) s = .next ((u.awaitMe (.a d)).laterPick
          (if slice w 21 16 = s.issue.c / 12 then Config.sameDie else Config.otherDie)
          (.resultLand s.issue.c s.issue.x (.a d 0)))) ∧
      ∀ d, d < 64 → (s.die d).hrWord = w → (s.die d).hrVal = v →
        exec (.hostRport d) s = .next (u.modDie d fun k => { k with hrBusy := false, hrStatus := 0 })) ∧
 ((∀ (s : State) (w : Word),
    (s.entryOf w = none → s.rackAct w = (some 3, s)) ∧
    ∀ e, s.entryOf w = some e → let d := slice w 21 16
      let set := s.rackSet d e
      ((∃ f ∈ set, f.acc.awaitsValue = true ∧ f.ported = false) → s.rackAct w = (some 2, s)) ∧
      ((∀ f ∈ set, f.acc.awaitsValue = false ∨ f.ported = true) →
        (∀ u n, s.replay (set.filter fun f => f.prot) = .waits u n →
          s.rackAct w = (none, u.later n (.containmentLineFreed (u.entryDie e)))) ∧
        ∀ (u : State) (bad : Bool),
          s.replay (set.filter fun f => f.prot) = (if bad = true then .faults u else .done u) →
          let diverted (c : Nat) : Prop :=
            (∃ f ∈ (u.die d).ring, (∀ h ∈ set, h.idx ≠ f.idx) ∧
              (match u.whereIs e with
                | .resident b x => f.run = (u.ctx b x).runOf ∧ f.rank = (u.ctx b x).rankOf
                | _ => f.run = e.run ∧ f.rank = e.rank) ∧ f.acc.diverts.getLsbD c = true) ∨
            ∃ b x, u.whereIs e = .resident b x ∧ ∃ a ∈ (u.core b).accs, a.x = x ∧ (∃ k, a.st = .faulted k) ∧
              a.diverts.getLsbD c = true
          (∀ b x, u.whereIs e = .resident b x → b < 768) →
          ∃ (v : Nat) (t : State), s.rackAct w = (some v, t) ∧ v ≤ 1 ∧
            (v = 0 ↔ if e.acc.kind = .ldacq then ∀ c < 16, ¬diverted c else ¬diverted e.acc.cls.toNat) ∧
            (bad = false ∨ (∃ b x, u.whereIs e = .resident b x) →
              (t.die d).ring = (u.die d).ring.filter fun f => !(set.any fun h => h.idx == f.idx)) ∧
            (∀ f ∈ (t.die d).ring, f ∈ (u.die d).ring ∧ ∀ h ∈ set, h.idx ≠ f.idx) ∧
            (bad = true → ∀ c x, u.whereIs e = .resident c x → (t.ctx c x).status = .faulted 0) ∧
            (bad = true → ∀ h r, u.whereIs e = .suspended h → u.mdl.run? e.run = some r →
              u.mdl.node? r.node ≠ none → (∀ m ∈ u.mdl.nodes, ∀ y ∈ u.mdl.nodes, m.addr = y.addr → m = y) →
              u.mdl.nodes.Nodup → t.mdl.node? r.node = none))) ∧
  (∀ s : State, s.replay [] = .done s ∧ ∀ (e : RingEntry) (r : List RingEntry),
    (∀ u, s.replayOne e = .done u → s.replay (e :: r) = u.replay r) ∧
    (∀ u, s.replayOne e = .faults u → s.replay (e :: r) = .faults u) ∧
    ∀ u n, s.replayOne e = .waits u n → s.replay (e :: r) = .waits u n) ∧
  (∀ (s : State) (e : RingEntry),
    (e.done = true → s.replayOne e = .done s) ∧
    (e.done = false → e.acc.va.toNat % e.acc.size ≠ 0 → s.replayOne e = .faults s) ∧
    (e.done = false → e.acc.va.toNat % e.acc.size = 0 →
      (∀ f, s.walk e.acc.va = .fault f → s.replayOne e = .faults s) ∧
      ∀ t, s.walk e.acc.va = .leaf t →
        (s.permBad t e.acc.need = true → s.replayOne e = .faults s) ∧
        (s.permBad t e.acc.need = false → e.acc.isStore = true →
          let p := t.pa e.acc.va
          let l := bytesLE e.acc.size e.acc.d0.toNat
          let held : List Held := (s.die (s.entryDie e)).contain ++ [⟨e.run, e.rank, p, l, some (t.base, t.size), false⟩]
          (∀ c o, s.site p = .vault c o → o < 0x00840000 → ∃ u, s.replayOne e = .done u ∧
            u.mem = (s.physWrite p l).mem) ∧
          ((∀ c o, s.site p = .vault c o → 0x00840000 ≤ o) → s.entryDie e < 64 →
            (524288 < (linesOf held e.run).length → s.replayOne e = .overflow s) ∧
            ((linesOf held e.run).length ≤ 524288 →
              (524288 < totalLines held → (linesOf (s.die (s.entryDie e)).contain e.run).length <
                (linesOf held e.run).length → s.replayOne e = .waits s 1) ∧
              (totalLines held ≤ 524288 → ∃ u, s.replayOne e = .done u ∧ u.mem = s.mem ∧
                (u.die (s.entryDie e)).contain = held)))))) ∧
  (∀ (s : State) (g : Guard) (d a : BitVec 5), Issuing s →
    let w := s.me.regs.aVal a
    (guardHolds g s.me.regs = false → exec (.rack g d a) s = .next s) ∧
    (guardHolds g s.me.regs = true →
      (∀ v u, s.rackAct w = (some v, u) → exec (.rack g d a) s = .next (u.answer d w v)) ∧
      ∀ u, s.rackAct w = (none, u) → exec (.rack g d a) s = .next (u.rackWait d w))) ∧
  (∀ (s : State) (d : Nat), d < 64 →
    (∀ v u, s.rackAct (s.die d).hrWord = (some v, u) → exec (.hostRack d) s =
      .next (u.modDie d fun k => { k with hrBusy := false, hrStatus := BitVec.ofNat 2 v })) ∧
    ∀ u, s.rackAct (s.die d).hrWord = (none, u) → exec (.hostRack d) s = .next (u.later 1 (.hostRack d))) ∧
  ∀ (s : State) (w : Word) (e : RingEntry), s.entryOf w = some e →
    let h := slice w 21 16
    let set := s.rackSet h e
    (∀ f ∈ set, f.prot = false ∧ (f.acc.awaitsValue = false ∨ f.ported = true)) →
    let freed (t : State) : Prop :=
      (t.die h).ring = (s.die h).ring.filter fun f => !(set.any fun q => q.idx == f.idx)
    (∀ (g : Guard) (d a : BitVec 5), Issuing s → guardHolds g s.me.regs = true → s.me.regs.aVal a = w →
      ∃ (u : State) (v : Nat), v ≤ 1 ∧ freed u ∧ exec (.rack g d a) s = .next ((u.awaitMe (.a d)).laterPick
        (if h = s.issue.c / 12 then Config.sameDie else Config.otherDie)
        (.resultLand s.issue.c s.issue.x (.a d (BitVec.ofNat 64 v))))) ∧
    ∀ d, d < 64 → (s.die d).hrWord = w →
      ∃ (u : State) (v : Nat), v ≤ 1 ∧ freed u ∧ exec (.hostRack d) s =
        .next (u.modDie d fun k => { k with hrBusy := false, hrStatus := BitVec.ofNat 2 v }))

/-- Entering the ring (R254, R320, R321): an access that has faulted takes the slot at TAIL, with its strand, its
access and its fault code; where that slot is taken it waits.

The retry mirror and RRKILL (R322, R323, R362, R363): EN set publishes every entry anew and raises RR_ENTRY
once; an entry's bytes 8 to 63 are written before its first 8, and then it is published; a fault ends publishing with
RR_MIRROR, and so does a poisoned unit that the slot's first bytes lie in (R348, R366: code 20); RRKILL ends the strand of the entry that its word names and frees that strand's entries. -/
def Obligations.RetryRingAndMirror : Prop :=
 (∀ (s : State) (d c : Nat) (a : Access) (code : BitVec 8), d < 64 → c < 768 →
    (∀ e, e ≠ c → (s.core e).accs = []) → (s.core c).accs = [a] → a.st = .faulted code →
    let q := s.ringOf c a.x
    let k := s.die q
    q < 64 →
    ((∃ e ∈ k.ring, e.idx % 1024 = k.ringTail % 1024) → exec (.retryRingAdmit d) s = .next s) ∧
    ((∀ e ∈ k.ring, e.idx % 1024 ≠ k.ringTail % 1024) →
      ∃ (t : State) (e : RingEntry), exec (.retryRingAdmit d) s = .next t ∧
        (t.die q).ring = k.ring ++ [e] ∧ (t.die q).ringTail = k.ringTail + 1 ∧ (t.core c).accs = [] ∧
        e.idx = k.ringTail ∧ e.acc = a ∧ e.code = code ∧ e.core = c ∧ e.x = a.x ∧ e.published = false ∧ e.due = none ∧
        e.seq = (s.ctx c a.x).ringSeq ∧ (t.ctx c a.x).ringSeq = (s.ctx c a.x).ringSeq + 1 ∧
        (t.ctx c a.x).ringDie = some q ∧
        (∀ n, (s.ctx c a.x).strand = some n → e.run = n.run ∧ e.rank = n.rank ∧ e.stage = n.stage ∧
          e.nodeId = n.nodeId ∧ e.inst = n.inst ∧ e.prot = decide (n.cls ≠ 0) ∧ e.cont = n.slot) ∧
        (k.mirrorEn = false → t.mdl = s.mdl ∧ t.agenda = s.agenda) ∧ t.mem = s.mem)) ∧
 ((∀ (s : State) (d : Nat) (v : Word), d < 64 →
    let k := s.die d
    let u := s.modDie d fun k => { k with mirrorBase := v.extractLsb' 16 32, mirrorEn := v.getLsbD 0 }
    (v.getLsbD 0 = false ∨ k.mirrorEn = true ∨ k.ring = [] → exec (.rrmirrorWrite d v) s = .next u) ∧
    (v.getLsbD 0 = true → k.mirrorEn = false → ∀ e r, k.ring = e :: r →
      exec (.rrmirrorWrite d v) s = .next (((u.modDie d fun k => { k with
        ring := k.ring.map fun e => { e with published := false } }).event 7 d (BitVec.ofNat 32 e.idx) 0).later 1
          (.retryMirrorPublish d)))) ∧
  (∀ (s : State) (d : Nat), d < 64 →
    let k := s.die d
    (k.mirrorEn = false ∨ (∀ e ∈ k.ring, e.published = true) → exec (.retryMirrorPublish d) s = .next s) ∧
    ∀ (p r : List RingEntry) (e : RingEntry), k.mirrorEn = true → k.ring = p ++ e :: r →
      (∀ f ∈ p, f.published = true) → e.published = false →
      let at_ := k.mirrorBase.setWidth 64 <<< 16 ||| BitVec.ofNat 64 (64 * (e.idx % 1024))
      let fails (z : State) (f : BitVec 8) := exec (.retryMirrorPublish d) s = .next ((z.modDie d fun k =>
        { k with mirrorEn := false }).event 15 d (BitVec.ofNat 32 e.idx) (f.setWidth 64))
      (s.entrySettled e = false →
        exec (.retryMirrorPublish d) s = .next (s.later 1 (.retryMirrorPublish d))) ∧
      let ue : Prop := ∃ p q, s.xlate at_ ⟨false, true, false⟩ = .ok (p, q) ∧ p / 32 ∈ s.mdl.poison
      (s.entrySettled e = true → ue → fails s 20) ∧
      (∀ z f, s.entrySettled e = true → ¬ue →
        (s.vWrite (at_ + 8) (e.bytes.drop 8) = .error f ∧ z = s ∨
          s.vWrite (at_ + 8) (e.bytes.drop 8) = .ok z ∧ z.vWrite at_ (e.bytes.take 8) = .error f) → fails z f) ∧
      ∀ u v, s.entrySettled e = true → ¬ue → s.vWrite (at_ + 8) (e.bytes.drop 8) = .ok u →
        u.vWrite at_ (e.bytes.take 8) = .ok v →
        ∃ t, exec (.retryMirrorPublish d) s = .next t ∧ t.mem = v.mem ∧
          (t.die d).ring = k.ring.map (fun f => if f.idx = e.idx then { e with published := true } else f)) ∧
  ∀ (s : State) (d : Nat) (w : Word), d < 64 →
    (s.entryOf w = none → exec (.rrkillWrite d w) s = .next s) ∧
    ∀ e, s.entryOf w = some e →
      let mine (f : RingEntry) : Bool := f.run == e.run && f.rank == e.rank
      (∀ c x, s.whereIs e = .resident c x → c < 768 →
        ∃ t, exec (.rrkillWrite d w) s = .next t ∧ (t.ctx c x).status = .faulted 0 ∧
          (∀ h, (t.die h).ring = (s.die h).ring.filter fun f => !mine f) ∧ t.mem = s.mem ∧ t.mdl = s.mdl) ∧
      ∀ h r, s.whereIs e = .suspended h → s.mdl.run? e.run = some r →
        ∃ u : State, (∀ h, (u.die h).ring = (s.die h).ring.filter fun f => !mine f) ∧ u.mem = s.mem ∧ u.mdl = s.mdl ∧
          u.cores = s.cores ∧
          exec (.rrkillWrite d w) s = .next ((u.yewAdd h 4 0xFF 0
            (BitVec.ofNat 64 (e.nodeId.toNat + e.inst.toNat * 2 ^ 32)) 0).failNode r.node r.inst 6 h))

/-! ## Slot 3 -/

/-- TSET, S2T, S2K and SFLAGS (R166, R286, R289, R293, R296, R298): the values, when they land, and the values that
trap with nothing committed. A value for a register that the slot-3 operation of its own bundle names lands after
that operation. -/
def Obligations.DescriptorOperations : Prop :=
  (∀ (s : State) (g d a : BitVec 4) (n : BitVec 6) (f : BitVec 2), Issuing s →
    (¬stageOn g s.me.regs → exec (.tset g d a n f) s = .next s) ∧
    ∀ u, stageOn g s.me.regs → tsetStep (s.me.regs.tVal a) f = some u →
      slice (s.me.regs.tVal a) 25 0 + n.toNat * u < 2 ^ 26 →
      ∃ v : Desc, slice v 25 0 = slice (s.me.regs.tVal a) 25 0 + n.toNat * u ∧
        v.toNat / 2 ^ 26 = (s.me.regs.tVal a).toNat / 2 ^ 26 ∧
        (descFit v → exec (.tset g d a n f) s = .next (s.res 2 (.t d v))) ∧
        ∀ z : State, Alone z → stageOn g z.lone.regs → z.lone.regs.tVal a = s.me.regs.tVal a → ¬descFit v →
          exec (.tset g d a n f) z = .next (z.refusedBy 0x01 8 0)) ∧
  (∀ (s : State) (g d a : BitVec 4) (n : BitVec 6) (f : BitVec 2), Alone s → stageOn g s.lone.regs →
    (∀ u, tsetStep (s.lone.regs.tVal a) f = some u → 2 ^ 26 ≤ slice (s.lone.regs.tVal a) 25 0 + n.toNat * u) →
    exec (.tset g d a n f) s = .next (s.refusedBy 0x01 8 0)) ∧
  (∀ (s : State) (g : Guard) (a b : BitVec 5), Issuing s →
    let k := s.myCore
    let mine (l : Landing) (j : Job) : Bool := s.issue.job == some j.seq && j.names (landReg l)
    let put (l : Landing) (j : Job) : Job := if mine l j then { j with after := j.after ++ [l] } else j
    ∃ v : Desc, v.toNat = (s.me.regs.sVal a).toNat + (s.me.regs.sVal b).toNat * 2 ^ 64 ∧
      ∀ (i : Instr) (l : Landing), ((∃ d, i = .s2t g d a b ∧ l = .t d v) ∨ ∃ d, i = .s2k g d a b ∧ l = .k d v) →
        (guardHolds g s.me.regs = false → exec i s = .next s) ∧
        (guardHolds g s.me.regs = true → (∀ j ∈ k.array ++ k.tile, mine l j = false) →
          exec i s = .next (s.res 2 l)) ∧
        (guardHolds g s.me.regs = true → (∃ j ∈ k.array ++ k.tile, mine l j = true) →
          exec i s = .next ((s.awaitMe (landReg l)).modCore s.issue.c fun k =>
            { k with array := k.array.map (put l), tile := k.tile.map (put l) }))) ∧
  (∀ (s : State) (g : Guard) (a b : BitVec 5), Alone s → guardHolds g s.lone.regs = true →
    ∀ v : Desc, v.toNat = (s.lone.regs.sVal a).toNat + (s.lone.regs.sVal b).toNat * 2 ^ 64 →
      (¬descFit v → ∀ d, exec (.s2t g d a b) s = .next (s.refusedBy 0x01 1 0)) ∧
      (¬knotFit v → ∀ d, exec (.s2k g d a b) s = .next (s.refusedBy 0x01 1 0))) ∧
  ∀ (s : State) (g d : BitVec 4) (k : BitVec 3) (f : BitVec 2), Issuing s →
    (¬stageOn g s.me.regs → exec (.sflags g d k f) s = .next s) ∧
    (stageOn g s.me.regs → ∃ t, exec (.sflags g d k f) s = .next t ∧ SlotFrame [.t d, .k k] s t ∧
      (∀ n, (t.me.regs.kVal k).getLsbD n =
        ((s.me.regs.kVal k).getLsbD n && !(f.getLsbD 0 && decide (72 ≤ n ∧ n ≤ 74)))) ∧
      ∀ n, (t.me.regs.tVal d).getLsbD n = ((s.me.regs.tVal d).getLsbD n && !(f.getLsbD 1 && decide (n = 84))))

/-- The operations of the array and of the tile unit where they issue (R102, R289, R290): under a false guard
nothing is launched, and TCVT draws its values nevertheless (R86); an array step joins the array's queue and starts
if the array is free; a tile operation starts, and its result comes after the clocks of the table.

An operation whose operands R291's table does not accept traps, and nothing in its bundle commits. -/
def Obligations.ArrayAndTileIssue : Prop :=
 (∀ (s : State) (i : Instr) (w : Slot3Row), Issuing s → rowR290 s.me.regs s.me.fmt i = some w →
    let c := s.issue.c
    let j := s.jobFor i w
    (¬stageOn w.g s.me.regs → exec i s = .next (if w.draws = 0 then s
      else s.modMe fun t => { t with srctr := t.srctr + BitVec.ofNat 64 w.draws })) ∧
    (stageOn w.g s.me.regs → w.array = true →
      exec i s = .next (((s.modCore c fun k => { k with
        array := k.array ++ [j], nextJob := k.nextJob + 1 }).modIssue fun u =>
          { u with job := some j.seq }).startStep c)) ∧
    (stageOn w.g s.me.regs → w.array = false → ∃ (t : State) (e : Option (Inject × Bool)), exec i s = .next t ∧
      t.myCore.tile = s.myCore.tile ++ [{ j with startAt := some (s.clk c), inj := e }] ∧
      t.myCore.timers = addEvent s.myCore.timers (s.clk c + w.lat) (.tileOpComplete c) ∧
      t.myCore.nextJob = s.myCore.nextJob + 1 ∧
      t.issue = { s.issue with job := some s.myCore.nextJob } ∧
      t.me = { s.me with srctr := s.me.srctr + BitVec.ofNat 64 w.draws } ∧
      t.myCore.spad = s.myCore.spad ∧ t.myCore.acc = s.myCore.acc ∧ t.myCore.strips = s.myCore.strips ∧
      t.myCore.array = s.myCore.array ∧ (∀ d, d ≠ c → t.core d = s.core d) ∧ t.mem = s.mem ∧ t.dies = s.dies)) ∧
 (∀ (s : State) (i : Instr) (w : Slot3Row), Alone s → rowR290 s.lone.regs s.lone.fmt i = some w →
    stageOn w.g s.lone.regs → ¬accepted s.lone.regs s.lone.fmt i →
    exec i s = .next (s.refusedBy 0x01 8 0))

/-- The array's events (R289, R290): the oldest step that waits starts if the array is free, with its occupancy and
its result's clock in the table; a result that is due and not held back is made, and is otherwise tried again
in the next clock. A BSEAL one of whose class-15 loads meets a poisoned unit ends its strand with STRAND_FAULT and
writes nothing (R348). -/
def Obligations.ArrayEvents : Prop :=
  (∀ (s : State) (c : Nat) (p r : List Job) (j : Job), c < 768 →
    (s.core c).array = p ++ j :: r → (∀ i ∈ p, i.startAt ≠ none) → j.startAt = none →
    ((s.core c).array.map Job.seq).Nodup →
    (∀ i ∈ (s.core c).array, i.occupied (s.clk c) = false) →
    ∃ (t : State) (e : Option (Inject × Bool)), exec (.arrayStepStart c) s = .next t ∧
      (t.core c).array = p ++ { j with startAt := some (s.clk c), inj := e } :: r ∧
      (t.core c).timers = addEvent (addEvent (s.core c).timers
        (s.clk c + (jobTimes j.fmt j.op).1) (.arrayStepStart c))
        (s.clk c + (jobTimes j.fmt j.op).2) (.arrayResultLand c) ∧
      (t.core c).acc = (s.core c).acc ∧ (t.core c).c0 = (s.core c).c0 ∧ (t.core c).c1 = (s.core c).c1 ∧
      t.mem = s.mem) ∧
  (∀ (s : State) (c : Nat), c < 768 →
    ((∀ i ∈ (s.core c).array, i.startAt ≠ none) ∨ ∃ i ∈ (s.core c).array, i.occupied (s.clk c) = true) →
    exec (.arrayStepStart c) s = .next s) ∧
  (∀ (r : Regs) (f : BitVec 15) (i : Instr) (w : Slot3Row), rowR290 r f i = some w → jobTimes f i = (w.occ, w.lat)) ∧
  ∀ (s : State) (c : Nat), c < 768 → ∀ (i : Instr) (q : List Job),
    (i = .arrayResultLand c ∧ q = (s.core c).array) ∨ (i = .tileOpComplete c ∧ q = (s.core c).tile) →
    ((∀ j ∈ q, ∀ n, j.due = some n → s.clk c < n) → exec i s = .next s) ∧
    ∀ j, dueJob (s.clk c) q = some j →
      (s.landBlocked c j = true → exec i s = .next (s.timer c (s.clk c + 1) i)) ∧
      (∀ u, s.landBlocked c j = false → s.applyJob c j = some u → exec i s = .next (u.settle c)) ∧
      (s.landBlocked c j = false → s.applyJob c j = none →
        exec i s = .next ((s.timer c (s.clk c + 1) i).later 1 (.containmentLineFreed (c / 12)))) ∧
      ((∃ n ∈ s.mdl.poison, ∃ b < 32, vaultBase c ≤ 32 * n + b ∧ j.sealReads (32 * n + b - vaultBase c) = true) →
        ∃ u, s.applyJob c j = some u ∧ (u.ctx c j.x).status = .faulted 0 ∧ u.mem = s.mem)

/-- What lands in the accumulator (R300, R301, R304, R305, R307, R308): TZERO, TADD, MSTEP, MSTEP.REV, SSTEP and SDSTEP
change the elements within t-dest's bounds, each by the rule's value computed exactly and rounded once, and no other
element. What a knot unit finds for an input, and the basis integers, are those of R294 and R295. The model's choices:
which of these sums canonicalise a NaN and report NF (log 69), and SDSTEP under an RINV that is not finite (log 24).

What lands in the array window (R306, R309 to R311): SGZERO clears the 36 entries of its set in every cell; SGRAD
adds each sample's terms to them in sample order, each rounded once; SREFINE writes the refined codes and scale of every
cell by the rule of R76, and the halfwords; BSEAL writes the halfwords of its bytes. No other byte changes. The model's
choices: how SGRAD's terms add NaNs (log 69), and the sum of the nibbles in an MXINT4 slot's halfword (log 67).

What TCVT writes (R302): every byte of every row of t-dest that is not guarded, and no other; a row in vault is
stores of its bytes below 0x02D4_0000. In a protected node an INT32 source whose strip is valid is checked first, and a
mismatch writes nothing.

The checksum strip (R299, R303): TZERO over whole tiles, what MSTEP and TADD do to the strips of their destination,
and what TCHECK finds in the first tile of t-dest. -/
def Obligations.AccumulatorAndStrips : Prop :=
 ((∀ (k : Core) (mem : Mem) (c : Nat) (j : Job) (p : Bool) (f : Nat → Nat → Lane → Lane),
    j.inj = none → descFit j.dd → slice j.dd 27 26 = 1 →
    (typeA j.fmt j.dd = 0 ∨ typeA j.fmt j.dd = 10) →
    (∀ g d a b i, j.op = .mstep g d a b i → mxType (typeA j.fmt j.da) ∧ slice j.dd 45 35 ≤ 64) →
    (∀ g d a b i, j.op = .mstepRev g d a b i → mxType (typeA j.fmt j.da)) →
    (∀ g d a n i, j.op = .sstep g d a n i ∨ j.op = .sdstep g d a n i → typeA j.fmt j.dd = 0) →
    rowR300 k mem c j = some f →
    let u := j.out k mem c p
    (∀ t r x, t < 192 → r < 64 → x < 64 →
      lane (accRow u.core.acc (64 * t + r)) x =
        let q := 64 * (t - slice j.dd 25 0) + x
        let old := lane (accRow k.acc (64 * t + r)) x
        if slice j.dd 25 0 ≤ t ∧ r < slice j.dd 34 28 ∧ q < slice j.dd 45 35 then f r q old else old) ∧
    u.core.spad = k.spad ∧ u.mem = mem ∧ u.stores = []) ∧
  (∀ (d : Desc) (x : FVal), 1 ≤ slice d 69 64 → knotFinds d x (knotUnit d x)) ∧
  ∀ t : Int,
    nearestEven ((1024 - t) ^ 3) (6 * 2 ^ 22) (basis t 0) ∧
    nearestEven (3 * t ^ 3 - 6144 * t ^ 2 + 4 * 2 ^ 30) (6 * 2 ^ 22) (basis t 1) ∧
    nearestEven (t ^ 3) (6 * 2 ^ 22) (basis t 3) ∧
    basis t 0 + basis t 1 + basis t 2 + basis t 3 = 256 ∧
    nearestEven (-(1024 - t) ^ 2) (2 ^ 13) (dbasis t 0) ∧
    nearestEven (3 * t ^ 2 - 4096 * t) (2 ^ 13) (dbasis t 1) ∧
    nearestEven (t ^ 2) (2 ^ 13) (dbasis t 3) ∧
    dbasis t 0 + dbasis t 1 + dbasis t 2 + dbasis t 3 = 0) ∧
 (∀ (k : Core) (mem : Mem) (c : Nat) (j : Job) (p : Bool), Mem.wf mem = true →
    let u := j.out k mem c p
    let cell (r q : Nat) : Nat := vaultBase c + 1024 * (64 * r + q)
    let entry (r q n e : Nat) : Nat := cell r q + 0x00400000 + 144 * n + 4 * e
    (∀ g n, j.op = .sgzero g n → u.core = k ∧ ∀ a,
      ((∃ r < 64, ∃ q < 64, entry r q n.toNat 0 ≤ a ∧ a < entry r q n.toNat 36) → memRead u.mem a = 0) ∧
      ((∀ r < 64, ∀ q < 64, a < entry r q n.toNat 0 ∨ entry r q n.toNat 36 ≤ a) → memRead u.mem a = memRead mem a)) ∧
    (∀ g d b n, j.op = .sgrad g d b n → n.toNat < 7 → u.core = k ∧
      (∀ r < 64, ∀ q < 64, ∀ e < 36,
        let old := memReadLE mem (entry r q n.toNat e) 4
        memReadLE u.mem (entry r q n.toNat e) 4 =
          if r < slice j.da 45 35 ∧ q < slice j.db 45 35 then
            (List.range (min (slice j.da 34 28) (slice j.db 34 28))).foldl (gradEntry k j r q e) old
          else old) ∧
      ∀ a, (∀ r < 64, ∀ q < 64, a < entry r q n.toNat 0 ∨ entry r q n.toNat 36 ≤ a) →
        memRead u.mem a = memRead mem a) ∧
    (∀ g b n, j.op = .srefine g b n → n.toNat < 28 → 1 ≤ slice j.dk 69 64 → slice j.dk 69 64 ≤ 16 → u.core = k ∧
      ∃ (m : Mem) (f : Nat → Nat → Flags), sealedIn m u.mem c 3 (36 * n.toNat) 36 (some (36 * n.toNat + 35)) ∧
        (∀ a, (∀ r < 64, ∀ q < 64, a < cell r q + 36 * n.toNat ∨ cell r q + 36 * n.toNat + 36 ≤ a) →
          memRead m a = memRead mem a) ∧
        (u.flags.nf = true ↔ ∃ r < 64, ∃ q < 64, (f r q).nf = true) ∧
        (u.flags.ovf = true ↔ ∃ r < 64, ∃ q < 64, (f r q).ovf = true) ∧
        ∀ r < 64, ∀ q < 64, ∃ (scale : Nat) (code : Nat → Int),
          let at_ (x : Nat) : Byte := memRead mem (cell r q + 36 * n.toNat + x)
          let e := (at_ 35).toNat
          let G := slice j.dk 69 64
          let v (i : Nat) : Int :=
            if i % 2 = 0 then 4 * ((at_ (i / 2)).toInt + (at_ (i / 2 + 1)).toInt)
            else (at_ (i / 2)).toInt + 6 * (at_ (i / 2 + 1)).toInt + (at_ (i / 2 + 2)).toInt
          (e = 255 → scale = 255 ∧ (∀ i < 2 * G + 3, code i = 0) ∧ f r q = ⟨true, false, false⟩) ∧
          (e ≠ 255 → quantised (2 * G + 3) 6 0 (fun _ => 0)
            (fun i => .fin (decide (v i < 0)) (v i).natAbs (e - 127 - 9)) scale code (f r q)) ∧
          (memRead m (cell r q + 36 * n.toNat + 35)).toNat = scale ∧
          ∀ i < 35, memRead m (cell r q + 36 * n.toNat + i) = BitVec.ofInt 8 (if i < 2 * G + 3 then code i else 0)) ∧
    ∀ g i v, j.op = .bseal g i v → u.core = k ∧
      (v = 2 ∨ v = 0 ∧ j.fmt.getLsbD 14 = true →
        sealedIn mem u.mem c 3 (36 * i.toNat) 36 (some (36 * i.toNat + 35))) ∧
      (¬(v = 2 ∨ v = 0 ∧ j.fmt.getLsbD 14 = true) → mxType (slice j.fmt 7 4) →
        (slice j.fmt 7 4 = 5 → sealedIn mem u.mem c 5 (8 * i.toNat) 8 none) ∧
        (slice j.fmt 7 4 ≠ 5 → sealedIn mem u.mem c (slice j.fmt 7 4) (4 * i.toNat) 4 none))) ∧
 (∀ (k : Core) (mem : Mem) (c : Nat) (j : Job) (g d a : BitVec 4) (f : BitVec 3), j.op = .tcvt g d a f →
    Mem.wf k.spad = true →
    let u := j.out k mem c false
    let ty := typeA j.fmt j.dd
    let n := if mxType ty then (slice j.dd 45 35 + 31) / 32 * (4 * (8 - 2 * (ty - 3)) + 1) else slice j.dd 45 35 * elemBytes ty
    let base := slice j.dd 25 0
    let stride := slice j.dd 83 64
    let tile (t : Nat) : Prop := slice j.da 25 0 ≤ t ∧ 64 * (t - slice j.da 25 0) < slice j.da 45 35
    let wrong : Prop := typeA j.fmt j.da = 10 ∧ slice j.da 27 26 = 1 ∧ slice j.da 34 28 ≠ 0 ∧
      ∃ t, tile t ∧ (k.strip t).valid = true ∧
        ((∃ r < 64, vget (k.strip t).rows r 0 ≠
            ((List.range 64).map fun x => lane (accRow k.acc (64 * t + r)) x).sum) ∨
          ∃ x < 64, vget (k.strip t).cols x 0 ≠
            ((List.range 64).map fun r => lane (accRow k.acc (64 * t + r)) x).sum)
    (slice j.da 34 28 ≤ 64 → slice j.dd 34 28 ≤ 64 → slice j.dd 45 35 ≤ 1024 →
      ty ≠ 7 → ty ≠ 9 → ty < 11 → n ≤ stride ∨ slice j.dd 34 28 ≤ 1 →
      ∃ row : Nat → Nat → Byte, convertedRows k j (tcvtMode j.fmt f) row ∧ u.mem = mem ∧ u.core.acc = k.acc ∧
        (slice j.dd 27 26 = 0 → u.stores = [] ∧
          (∀ r < slice j.dd 34 28, ∀ b < n, k.guarded (base + r * stride + b) = false →
            memRead u.core.spad (base + r * stride + b) = row r b) ∧
          ∀ p, (k.guarded p = true ∨ ∀ r < slice j.dd 34 28, ∀ b < n, p ≠ base + r * stride + b) →
            memRead u.core.spad p = memRead k.spad p) ∧
        (slice j.dd 27 26 = 2 → u.core.spad = k.spad ∧ ∀ p v, (p, v) ∈ u.stores ↔
          ∃ r < slice j.dd 34 28, ∃ b < n, p = vaultBase c + (base + r * stride + b) ∧
            base + r * stride + b < 0x02D40000 ∧ v = row r b)) ∧
    (wrong → (j.out k mem c true).failed = true ∧ (j.out k mem c true).core = k ∧
      (j.out k mem c true).mem = mem ∧ (j.out k mem c true).stores = []) ∧
    (¬wrong → j.out k mem c true = j.out k mem c false)) ∧
 ((∀ (k : Core) (mem : Mem) (c : Nat) (j : Job) (p : Bool) (g d : BitVec 4), j.op = .tzero g d →
    descFit j.dd → slice j.dd 27 26 = 1 → slice j.dd 34 28 = 64 →
    ∀ t, slice j.dd 25 0 ≤ t → 64 * (t - slice j.dd 25 0) + 64 ≤ slice j.dd 45 35 →
      let z := (j.out k mem c p).core.strip t
      z.valid = decide (typeA j.fmt j.dd = 10) ∧ (∀ i < 64, vget z.rows i 0 = 0 ∧ vget z.cols i 0 = 0)) ∧
  (∀ (k : Core) (mem : Mem) (c : Nat) (j : Job) (p : Bool) (g d a b : BitVec 4) (i : WIndex),
    j.op = .mstep g d a b i → descFit j.dd → slice j.dd 27 26 = 1 → slice j.dd 34 28 ≠ 0 →
    let ty := typeA j.fmt j.da
    let whole : Prop := typeA j.fmt j.dd = 10 ∧ slice j.da 34 28 = 64 ∧ slice j.dd 34 28 = 64 ∧
      slice j.dd 45 35 = 64 ∧ slice j.db 34 28 = 64
    (¬whole → ∀ t, slice j.dd 25 0 ≤ t → 64 * (t - slice j.dd 25 0) < slice j.dd 45 35 →
      ((j.out k mem c p).core.strip t).valid = false) ∧
    (whole → ty = 3 ∨ ty = 4 →
      let old := k.strip (slice j.dd 25 0)
      let z := (j.out k mem c p).core.strip (slice j.dd 25 0)
      let code (m n : Nat) : Int := mxCode k j.spadIn ty j.da m n
      z.valid = old.valid ∧ ∀ r < 64,
        vget z.rows r 0 = vget old.rows r 0 + BitVec.ofInt 32
          ((List.range 256).map fun n => code r n * weightCheck mem c ty i.toNat n).sum ∧
        vget z.cols r 0 = vget old.cols r 0 + BitVec.ofInt 32
          ((List.range 256).map fun n => ((List.range 64).map fun m => code m n).sum * weight mem c ty i.toNat n r).sum)) ∧
  (∀ (k : Core) (mem : Mem) (c : Nat) (j : Job) (p : Bool), descFit j.dd → slice j.dd 27 26 = 1 →
    slice j.dd 34 28 ≠ 0 →
    ((∃ g d a b i, j.op = .mstepRev g d a b i) ∨ (∃ g d a n i, j.op = .sstep g d a n i ∨ j.op = .sdstep g d a n i)) →
    ∀ t, slice j.dd 25 0 ≤ t → 64 * (t - slice j.dd 25 0) < slice j.dd 45 35 →
      ((j.out k mem c p).core.strip t).valid = false) ∧
  (∀ (k : Core) (mem : Mem) (c : Nat) (j : Job) (p : Bool) (g d a : BitVec 4), j.op = .tadd g d a →
    slice j.dd 27 26 = 1 → slice j.da 27 26 = 1 → slice j.dd 34 28 ≠ 0 → slice j.da 34 28 ≠ 0 →
    typeA j.fmt j.dd = 10 → ∀ i, 64 * i < slice j.dd 45 35 → 64 * i < slice j.da 45 35 →
      let x := k.strip (slice j.dd 25 0 + i)
      let y := k.strip (slice j.da 25 0 + i)
      let z := (j.out k mem c p).core.strip (slice j.dd 25 0 + i)
      z.valid = (x.valid && y.valid) ∧ ∀ r < 64, vget z.rows r 0 = vget x.rows r 0 + vget y.rows r 0 ∧
        vget z.cols r 0 = vget x.cols r 0 + vget y.cols r 0) ∧
  ∀ (k : Core) (mem : Mem) (c : Nat) (j : Job) (p : Bool) (g d : BitVec 4), j.op = .tcheck g d →
    slice j.dd 27 26 = 1 → slice j.dd 34 28 ≠ 0 → slice j.dd 45 35 ≠ 0 →
    let t := slice j.dd 25 0
    let row (r : Nat) : Prop := (vget (k.strip t).rows r 0).toNat ≠
      ((List.range 64).map fun x => (lane (accRow k.acc (64 * t + r)) x).toNat).sum % 2 ^ 32
    let col (x : Nat) : Prop := (vget (k.strip t).cols x 0).toNat ≠
      ((List.range 64).map fun r => (lane (accRow k.acc (64 * t + r)) x).toNat).sum % 2 ^ 32
    ∃ v : BitVec 16, (j.out k mem c p).desc = some v ∧
      ((k.strip t).valid = false → v = 0) ∧
      ((k.strip t).valid = true →
        ((∀ i < 64, ¬row i ∧ ¬col i) → v = 1) ∧
        (∀ r < 64, ∀ x < 64, (∀ i < 64, row i ↔ i = r) → (∀ i < 64, col i ↔ i = x) →
          slice v 1 0 = 2 ∧ slice v 7 2 = r ∧ slice v 13 8 = x) ∧
        ((∃ i < 64, row i ∨ col i) → 2 ≤ slice v 1 0) ∧
        ((∃ a < 64, ∃ b < 64, a ≠ b ∧ (row a ∧ row b ∨ col a ∧ col b)) → slice v 1 0 = 3)))

/-! ## Results, ends and resumptions -/

/-- A result lands (R99): its register holds the value and is full, a fixed register discards it, and no other
register changes; a BARG whose barrier is complete is over with it (R152); and a pause is over at its clock (R154). -/
def Obligations.ResultsLand : Prop :=
  (∀ (s : State) (c : Nat) (x : Bool) (l : Landing), c < 768 →
    ∃ t, exec (.resultLand c x l) s = .next t ∧
      let r := (s.ctx c x).regs
      let r' := (t.ctx c x).regs
      r'.isFull (landReg l) = true ∧
      r'.view (landReg l) = (if (landReg l).fixed then r.view (landReg l) else landVal l) ∧
      RegFrame [landReg l] r r' ∧ (t.ctx c x).apart = ((s.ctx c x).bargOver l).apart ∧
      (∀ e y, (e, y) ≠ (c, x) → t.ctx e y = s.ctx e y) ∧ { t with cores := s.cores } = s) ∧
  ∀ (s : State) (c : Nat) (x : Bool), c < 768 →
    exec (.pauseEnd c x) s = .next (s.modCtx c x fun t =>
      if t.wait.pauseTill ≤ s.clk c then { t with wait := { t.wait with pauseTill := 0 } } else t)

/-- DONE's end (R30, R44, R151, R211): nothing happens before the strand's work is over; a strand with a faulted token
unacknowledged ends with STRAND_FAULT; it waits while a store that it may have read is on its die's path; then a strand
of class NONE has written its continuation record, with DONE and no link, and its context is free, with none of its
accesses or guarded granules left. Memory is otherwise as it was, but, where the gang's last strand has retired, for
bytes 120 to 127 of the node record; the run is then over. A parked strand of the core then goes on (R60). That it is
the stores of its die's whole path that a strand may have read is the model's choice, log 22.

A suspension (R44, R60, R211, R327): it waits for its drain; then a strand that no entry asks to leave, on a usable
core whose other context is free, is parked where it is, at its resume bundle and with its registers, and its pinned
entry joins its die's queue; one that may not be parked is spilled: it waits while a store that it may have read is on
its die's path; then its save area and its continuation, SPILLED, are in its slot and its context is free. Memory
is otherwise as it was. The topology's generation is the one noted when SAFEPT or YIELD retired (R39). The model's
choices: the record's LINK is the place that the entry takes (log 70), and whose stores are waited for (log 22).

A resumption (R326, R329): where the image, the plan, the continuation record and the save area can be read, the
strand runs with s1 to s4 of its record, EVT says whether the topology has changed, and issue is at the resume
point, or in handler mode at the stub, with the resume point in EPC; its die's queue is looked at again (R61). That a
slot write that faults fails the node with code 3 is the model's choice, log 18; what the reads do that fault is log 85. -/
def Obligations.StrandsEndSuspendAndResume : Prop :=
 (∀ (s : State) (c : Nat) (x : Bool), c < 768 →
    let t := s.ctx c x
    ((t.status ≠ .ending ∨ s.doneDrained c x = false) → exec (.doneRetire c x) s = .next s) ∧
    ∀ n : Strand, t.status = .ending → s.doneDrained c x = true → t.strand = some n →
      let path := (s.die (c / 12)).path
      let m := t.wait.drainMark.getD (s.die (c / 12)).nextPath
      (t.regs.aFault ≠ 0 → exec (.doneRetire c x) s = .next (s.strandFault c x 0)) ∧
      (t.regs.aFault = 0 → (∃ p ∈ path, p.id < m) →
        exec (.doneRetire c x) s = .next (s.modWait c x fun w => { w with drainMark := some m })) ∧
      ∀ u, t.regs.aFault = 0 → (∀ p ∈ path, m ≤ p.id) → n.cls = 0 →
        s.vWrite n.slot (s.contData n c 4 0xFFFF [t.regs.sVal 1, t.regs.sVal 2, t.regs.sVal 3, t.regs.sVal 4]) = .ok u →
        ∃ v : State, exec (.doneRetire c x) s = .next (v.contextEnded c) ∧ v.ctx c x = { Ctx.reset with half := t.half } ∧
          ((s.core c).cur = some x → (v.core c).cur = none) ∧
          (v.core c).guardMap = guardMapOf ((v.core c).c0.plan ++ (v.core c).c1.plan) ∧
          (∀ a ∈ (v.core c).accs, a.x ≠ x) ∧
          (∀ r, s.mdl.run? n.run = some r →
            let last := ∀ k, k ≠ n.rank.toNat → ∀ q, r.ranks[k]? = some q → q.retired = true
            (last → v.mdl.run? n.run = none ∧ (v.mem = u.mem ∨
              ∃ (l : List Byte) (w : State), l.length = 8 ∧ u.vWrite (r.node + 120) l = .ok w ∧ v.mem = w.mem)) ∧
            (¬last → v.mem = u.mem)) ∧
          (s.mdl.run? n.run = none → v.mem = u.mem) ∧
          ((v.core c).lonelyParked = none → v.contextEnded c = v.modCore c fun k => { k with ended := false })) ∧
 (∀ (s : State) (c : Nat) (x : Bool) (id : BitVec 15) (resume : Nat) (n : Strand), c < 768 →
    let t := s.ctx c x
    let d := c / 12
    t.status = .suspending id resume → t.strand = some n → n.cls = 0 → t.evt.getLsbD 2 = false →
    let mark_ := t.wait.drainMark.getD (s.die d).nextPath
    let m : Strand := { n with spidx := id.setWidth 16, age := 0, alone := true }
    let z := ((s.modWait c x fun w => { w with drainMark := some mark_ }).modCtx c x fun t =>
      { t with strand := some m }).modRank n.run n.rank.toNat fun r => { r with gen := n.gen }
    let regs := [t.regs.sVal 1, t.regs.sVal 2, t.regs.sVal 3, t.regs.sVal 4]
    let mayPark := (s.ctx c !x).status = .free ∧ s.coreUsable c = true
    let joins (v : State) (kind : EntryKind) : Prop :=
      ∀ k r, s.mdl.node? n.record = some k → s.mdl.run? n.run = some r →
        ∃ e : QEntry, (v.die d).queue = (s.die d).queue ++ [e] ∧ e.kind = kind ∧ e.node = n.record ∧
          e.nodeId = n.nodeId ∧ e.inst = n.inst ∧ e.stage = n.stage ∧ e.prio = n.prio ∧ e.width = 1 ∧ e.since = s.now
    (s.drained c x = false → exec (.strandSuspension c x) s = .next s) ∧
    (∀ u, s.drained c x = true → mayPark →
      z.vWrite n.slot (z.contData m c 1 (z.stopLink m (.pinned n.run n.rank c x) d) regs) = .ok u →
      ∃ v, exec (.strandSuspension c x) s = .next v ∧ (v.ctx c x).status = .parked ∧
        (v.ctx c x).pc = BitVec.ofNat 14 resume ∧ (v.ctx c x).regs = t.regs ∧ (v.ctx c x).strand = some m ∧
        (v.ctx c x).fmt = t.newestFmt ∧ (v.core c).cur = (if (s.core c).cur = some x then none else (s.core c).cur) ∧
        joins v (.pinned n.run n.rank c x) ∧ v.mem = u.mem) ∧
    (s.drained c x = true → ¬mayPark →
      ((∃ p ∈ (s.die d).path, p.id < mark_) → exec (.strandSuspension c x) s = .next (z.contextEnded c)) ∧
      ∀ (u v : State) (w : Nat), (∀ p ∈ (s.die d).path, mark_ ≤ p.id) → s.pinnedAt c x = none → s.runsOf d 1 ≠ [] →
        z.sptEntry n.sptab id.toNat = some w → z.vWrite (n.slot + 64) (z.saveData m c x w) = .ok u →
        u.vWrite n.slot (u.contData m c 2 (z.stopLink m (.spilled n.run n.rank) d) regs) = .ok v →
        ∃ y : State, exec (.strandSuspension c x) s = .next (y.contextEnded c) ∧ y.ctx c x = { Ctx.reset with half := t.half } ∧
          ((s.core c).cur = some x → (y.core c).cur = none) ∧ joins y (.spilled n.run n.rank) ∧ y.mem = v.mem ∧
          (∀ r, s.mdl.run? n.run = some r → ∀ k, r.ranks[n.rank.toNat]? = some k → ∃ r', y.mdl.run? n.run = some r' ∧
            r'.ranks[n.rank.toNat]? = some { k with gen := n.gen, place := none, seq := t.ringSeq }))) ∧
 ((∀ (s : State) (c : Nat) (x : Bool), c < 768 → (s.ctx c x).status ≠ .placed →
    exec (.strandResume c x) s = .next s) ∧
  ∀ (s u : State) (c : Nat) (x : Bool) (n : Strand) (node : Node) (run : Run) (rank : RankRec)
    (plan : List PlanRec) (cont save : List Byte) (w : Nat), c < 768 →
    (s.ctx c x).status = .placed → (s.ctx c x).strand = some n → s.mdl.node? n.record = some node →
    s.mdl.run? n.run = some run → s.flushing c run = false → run.ranks[n.rank.toNat]? = some rank →
    s.loadImage c x n = .ok u → s.readPlan node.r.plan node.r.nplan.toNat = .ok plan →
    s.slotRead (c / 12) n.run n.rank n.slot 64 = .ok cont →
    u.sptEntry n.sptab (recField (numLE cont) 12 0 16) = some w →
    u.slotRead (c / 12) n.run n.rank (n.slot + 64) (recField w 32 0 32) = .ok save →
    let id := recField (numLE cont) 12 0 16
    let word (i : Nat) : Word := BitVec.ofNat 64 (recField (numLE cont) (24 + 8 * i) 0 64)
    let m : Strand := { n with spidx := BitVec.ofNat 16 id }
    ∃ z : State, z.mem = s.mem ∧ z.mdl = s.mdl ∧ z.dies = s.dies ∧
      (let t := z.ctx c x
       t.status = .running ∧ t.strand = some m ∧ t.plan = plan ∧ t.ringSeq = rank.seq ∧
       t.evt = (if rank.gen = s.mdl.gen then 0 else 1) ∧ t.wait.bargCount = rank.arrived ∧
       (∀ i < 4, ¬(sptS w).contains (i + 1) → t.regs.sVal (BitVec.ofNat 5 (i + 1)) = word i) ∧
       let p := t.resumePoint (recField w 4 0 32)
       (sptStub w = 0xFFFFFFFF → t.pc = BitVec.ofNat 14 p ∧ t.tinfo.hm = false) ∧
       (sptStub w ≠ 0xFFFFFFFF → t.pc = BitVec.ofNat 14 (sptStub w) ∧ t.epc = BitVec.ofNat 14 p ∧
         t.tinfo = ⟨BitVec.ofNat 32 id, 0, 0, false, true, 0x20⟩ ∧ t.lc0.frozen = true ∧ t.lc1.frozen = true)) ∧
      exec (.strandResume c x) s = .next (match z.vWrite n.slot (z.contData m c 0 0xFFFF [word 0, word 1, word 2, word 3]) with
        | .ok v => (v.modRank n.run n.rank.toNat fun k => { k with vals := [] }).later 1 (.gangDispatch (c / 12))
        | .error _ => z.failNode n.record n.inst 3 (c / 12)))

/-! ## Protection and errors -/

/-- A pipeline error (R319, R335, R341): it is kept for a context that is not protected, and abandons the run of
one that is; it charges 16 to the cluster, and 8 to the die of an abandoned run if the gang is queued again, unless an
injected error charges nothing. That no error bank records it is the model's choice, log 45.

The vote of a DUP gang, and the release of a run that passed (R338, R340, R341): equal signatures release the
primary; of three runs any two that agree decide; where all differ the three are clean and the node fails with
VOTE_FAIL, and where all agree no die is charged, nor is one whose run an injection with NOCHG has struck (R351);
a release writes the run's held bytes to their homes in order, they are held no more, and memory is
otherwise as it was, but for bytes 120 to 127 of the node record.

What becomes of writes that wait for a line of the containment buffer (R324, R337): while the buffer has room, the
die's cores and engines, the RACKs that wait, and parked strands that wait to be spilled go on; where it is full and
every run that holds lines waits, the run dispatched last is abandoned and queued again for the same die. -/
def Obligations.ProtectedRuns : Prop :=
 (∀ (s : State) (c : Nat) (x : Bool) (unit : BitVec 3), c < 768 →
    let quiet := (s.core c).nochg
    let u := s.modCore c fun k => { k with nochg := false }
    ((s.ctx c x).protected_ = false →
      let v := u.modCtx c x fun t => { t with pipeErr := some (match t.pipeErr with | some e => e | none => unit) }
      exec (.pipelineError c x unit) s = .next (if quiet then v else v.chargeCluster (c / 4) 16)) ∧
    ((s.ctx c x).protected_ = true →
      let z := u.abandonRun (s.ctx c x).runOf false
      let v := z.contextEnded c
      let again : Prop := ∃ r, s.mdl.run? (s.ctx c x).runOf = some r ∧ z.mdl.gang? r.gang ≠ none
      (quiet = true → exec (.pipelineError c x unit) s = .next v) ∧
      (quiet = false → again →
        exec (.pipelineError c x unit) s = .next ((v.chargeCluster (c / 4) 16).chargeDie (c / 12) 8)) ∧
      (quiet = false → ¬again → exec (.pipelineError c x unit) s = .next (v.chargeCluster (c / 4) 16)))) ∧
 ((∀ (s : State) (id : Nat) (g : Gang) (rs : List Run), s.mdl.gang? id = some g →
    g.votes.filterMap s.mdl.run? = rs → rs.length = g.votes.length →
    (∀ r ∈ rs, ∀ k ∈ r.ranks, k.retired = true) →
    (∀ d < 64, ∀ e ∈ (s.die d).queue, e.gang ≠ id) →
    let keeps (p : Run) (others : List Run) : State :=
      others.foldl (fun z q => (z.endRun q).later 1 (.containmentLineFreed q.die))
        (s.later 1 (.containmentRelease p.id))
    let agree (p q out : Run) : Prop :=
      let z := ((keeps p [q, out]).cleanRun p.die).cleanRun q.die
      exec (.dupVote id) s = .next (if out.ranks.any RankRec.struck then z else z.chargeDie out.die 8)
    (∀ a b p q, rs = [a, b] → (p, q) = (if a.twin then (b, a) else (a, b)) →
      (p.signature = q.signature →
        exec (.dupVote id) s = .next (((keeps p [q]).cleanRun p.die).cleanRun q.die)) ∧
      ∀ n, p.signature ≠ q.signature → s.mdl.node? g.node = some n →
        exec (.dupVote id) s = .next (s.queueGang n g false (s.triedDies g) 2 p.die)) ∧
    ∀ a b t p q, rs = [a, b, t] → (p, q) = (if a.twin then (b, a) else (a, b)) →
      (t.signature = p.signature → t.signature = q.signature → exec (.dupVote id) s =
        .next ((((keeps p [q, t]).cleanRun p.die).cleanRun q.die).cleanRun t.die)) ∧
      (t.signature = p.signature → t.signature ≠ q.signature → agree p t q) ∧
      (t.signature ≠ p.signature → t.signature = q.signature → agree q t p) ∧
      (t.signature ≠ p.signature → t.signature ≠ q.signature → p.signature = q.signature → agree p q t) ∧
      (t.signature ≠ p.signature → t.signature ≠ q.signature → p.signature ≠ q.signature →
        exec (.dupVote id) s =
          .next ((((s.cleanRun p.die).cleanRun q.die).cleanRun t.die).failNode g.node g.inst 7 t.die))) ∧
  (∀ (s : State) (id : Nat), (s.mdl.run? id = none ∨ ∃ r k, s.mdl.run? id = some r ∧ k ∈ r.ranks ∧ k.retired = false) →
    exec (.containmentRelease id) s = .next s) ∧
  ∀ (s : State) (id : Nat) (r : Run), s.mdl.run? id = some r → (∀ k ∈ r.ranks, k.retired = true) → r.die < 64 →
    let u := ((s.die r.die).contain.filter fun h => h.run == id).foldl (fun z h => z.homeWrite h.pa h.data) s
    ∃ t, exec (.containmentRelease id) s = .next t ∧
      (∀ d < 64, ∀ h ∈ (t.die d).contain, h.run ≠ id) ∧ t.mdl.run? id = none ∧ t.mdl.hostMem = u.mdl.hostMem ∧
      (t.mem = u.mem ∨ ∃ (l : List Byte) (w : State), l.length = 8 ∧ u.vWrite (r.node + 120) l = .ok w ∧ t.mem = w.mem)) ∧
 (∀ (s : State) (d : Nat), d < 64 →
    let u := ((s.settleDie d).racksAgain).endedCores d
    let rs := (holdersOf (u.die d).contain).filterMap u.mdl.run?
    (totalLines (u.die d).contain < 524288 ∨ rs = [] ∨ (∃ q ∈ rs, ∀ p ∈ q.places, u.ctxWaits p.1 p.2 = false) →
      exec (.containmentLineFreed d) s = .next u) ∧
    (∀ r, 524288 ≤ totalLines (u.die d).contain →
      (∀ q ∈ rs, ∃ p ∈ q.places, u.ctxWaits p.1 p.2 = true) → r ∈ rs → (∀ q ∈ rs, q.id ≤ r.id) →
      exec (.containmentLineFreed d) s = .next ((u.abandonRun r.id true).later 1 (.containmentLineFreed d))))

/-- A charge (R341 to R343): the score grows and saturates at 255, and a retired cluster takes none; nothing else happens
while no score is at the threshold and more than one cluster is left; a cluster that reaches 64 is retired, but the last
one left is kept, and SUSPECT is raised. After a charge to a cluster or a die every surviving cluster whose own score,
or whose die's, is at the threshold is retired, so all of a die's; where these are all that survive, the one with the
lowest number stays and raises SUSPECT. A clean run on a die (R341).

A retirement (R36, R37, R39, R343): once the clusters' cores hold no context, the clusters no longer survive,
the others do as before, the generation advances by 1, and EVT.TOPOCHG is set in every context that holds a
strand. -/
def Obligations.SuspicionAndRetirement : Prop :=
 ((∀ (s : State) (g n : Nat), g < 192 →
    let left (h : Nat) : Prop := h < 192 ∧ s.clusterAlive h = true ∧ s.retiring h = false
    let calm : Prop := (s.die (g / 3)).ds.toNat < 64 ∧ ∀ h, left h → h ≠ g →
      (s.clusterScore h).toNat < 64 ∧ (s.die (h / 3)).ds.toNat < 64
    let v := min 255 ((s.clusterScore g).toNat + n)
    let u := s.modDie (g / 3) fun k => { k with cs := vset k.cs (g % 3) (BitVec.ofNat 8 v) }
    (s.clusterAlive g = false → s.chargeCluster g n = s) ∧
    (s.clusterAlive g = true → calm → (∃ h, h ≠ g ∧ left h) →
      (v < 64 → s.chargeCluster g n = u) ∧
      (64 ≤ v → left g → s.chargeCluster g n = (u.beginRetire [g]).later 1 (.topologyChange [g] v))) ∧
    (left g → (∀ h, left h → h = g) →
      s.chargeCluster g n = u.event 9 (g / 3) (BitVec.ofNat 32 v) (BitVec.ofNat 64 g))) ∧
  (∀ (s u t : State) (g d n v : Nat),
    (g < 192 ∧ s.clusterAlive g = true ∧ v = min 255 ((s.clusterScore g).toNat + n) ∧ t = s.chargeCluster g n ∧
        u = s.modDie (g / 3) fun k => { k with cs := vset k.cs (g % 3) (BitVec.ofNat 8 v) }) ∨
      (d < 64 ∧ v = min 255 ((s.die d).ds.toNat + n) ∧ t = s.chargeDie d n ∧
        u = s.modDie d fun k => { k with ds := BitVec.ofNat 8 v }) →
    let left := (List.range 192).filter fun h => s.clusterAlive h && !(s.retiring h)
    let atLimit (h : Nat) : Bool := decide (64 ≤ (u.clusterScore h).toNat) || decide (64 ≤ (u.die (h / 3)).ds.toNat)
    let doomed := left.filter atLimit
    (doomed ≠ [] → (∃ h ∈ left, atLimit h = false) → t = (u.beginRetire doomed).later 1 (.topologyChange doomed v)) ∧
    (∀ h r, left = h :: r → (∀ k ∈ left, atLimit k = true) →
      let z := u.event 9 (h / 3) (BitVec.ofNat 32 v) (BitVec.ofNat 64 h)
      (r = [] → t = z) ∧ (r ≠ [] → t = (z.beginRetire r).later 1 (.topologyChange r v))) ∧
    (doomed = [] → left.length ≠ 1 → t = u)) ∧
  (∀ (v : BitVec 8) (n : Nat), (scoreAdd v n).toNat = min 255 (v.toNat + n)) ∧
  ∀ (s : State) (d : Nat), d < 64 →
    let k := s.die d
    (k.clean.toNat < 1023 → s.cleanRun d = s.modDie d fun k => { k with clean := k.clean + 1 }) ∧
    (k.clean.toNat = 1023 →
      let u := (s.cleanRun d).die d
      u.clean = 0 ∧ u.ds.toNat = k.ds.toNat - 1 ∧ ∀ i < 3,
        (vget u.cs i 0).toNat = (vget k.cs i 0).toNat - (if k.ret.getLsbD i then 0 else 1))) ∧
 ((∀ (s : State) (cl : List Nat) (n : Nat), (∀ g ∈ cl, g < 192 ∧ s.clusterAlive g = false) →
    exec (.topologyChange cl n) s = .next s) ∧
  ∀ (s : State) (cl : List Nat) (n : Nat), cl ≠ [] → (∀ g ∈ cl, g < 192 ∧ s.clusterAlive g = true) →
    (∀ g ∈ cl, ∀ k < 4, (s.core (4 * g + k)).c0.status = .free ∧ (s.core (4 * g + k)).c1.status = .free) →
    ∃ t, exec (.topologyChange cl n) s = .next t ∧ t.mdl.gen = s.mdl.gen + 1 ∧
      (∀ g < 192, t.clusterAlive g = (s.clusterAlive g && !cl.contains g)) ∧
      ∀ c < 768, ∀ x, (t.ctx c x).strand ≠ none → (t.ctx c x).evt.getLsbD 0 = true)

/-- The records of errors (R345, R347): the bank of the unit after an error, and after VALID is written with 1. Which
UNITID a line or an address of HBM, and each memory of a die, records under is the model's reading, log 47.

An uncorrectable error is recorded, raises ERR_UE, makes a Yew entry, and is answered by the owner of its line
(R347, R348): the strand of a context ends with STRAND_FAULT, a run that holds the line is abandoned, a ring entry's
strand ends, a Yew entry is lost, a unit without owner is poisoned; the scrubbers record and answer what they cannot
correct (R349, R350), a patrol's channel being log 47 too; and ERRINJ as a write leaves it (R351, R383). The owner of a
line of the instruction store, by its half, is the model's reading, log 79. -/
def Obligations.ErrorsRecorded : Prop :=
 ((∀ (l : List ErrBank) (u : BitVec 8) (ue : Bool) (synd : BitVec 16) (addr : Word),
    ∃ b : ErrBank, bankFind (bankRecord l u ue synd addr) u = some b ∧ getBit b.stat 0 = true ∧
      slice b.stat 15 8 = u.toNat ∧
      (∀ v, v ≠ u → bankFind (bankRecord l u ue synd addr) v = bankFind l v) ∧
      (bankFind l u = none → slice b.stat 47 32 = 1 ∧ slice b.stat 31 16 = synd.toNat ∧ b.addr = addr ∧
        getBit b.stat 2 = ue ∧ getBit b.stat 3 = false) ∧
      ∀ o, bankFind l u = some o →
        slice b.stat 47 32 = min 65535 (slice o.stat 47 32 + 1) ∧ getBit b.stat 3 = true ∧
        (if ue = true ∧ getBit o.stat 2 = false then
          slice b.stat 31 16 = synd.toNat ∧ b.addr = addr ∧ getBit b.stat 2 = true
        else slice b.stat 31 16 = slice o.stat 31 16 ∧ b.addr = o.addr ∧ getBit b.stat 2 = getBit o.stat 2)) ∧
  (∀ (s : State) (c : Nat) (x : Bool) (d n k pa : Nat) (u : BitVec 8) (status : Word),
    (s.placeBank (.register c x n), placeLoc (.register c x n)) = ((c / 12, c % 12, 7), BitVec.ofNat 64 n) ∧
    (s.placeBank (.spad c n), placeLoc (.spad c n)) = ((c / 12, c % 12, 6), BitVec.ofNat 64 n) ∧
    (s.placeBank (.accum c n), placeLoc (.accum c n)) = ((c / 12, c % 12, 5), BitVec.ofNat 64 n) ∧
    (s.placeBank (.istore c n), placeLoc (.istore c n)) = ((c / 12, c % 12, 8), BitVec.ofNat 64 n) ∧
    (s.placeBank (.containment d n pa), placeLoc (.containment d n pa)) = ((d, 0, 0x11), BitVec.ofNat 64 pa) ∧
    (s.placeBank (.ring d n pa), placeLoc (.ring d n pa)) = ((d, 0, 0x12), BitVec.ofNat 64 pa) ∧
    (s.placeBank (.yew d n pa), placeLoc (.yew d n pa)) = ((d, 0, 0x12), BitVec.ofNat 64 pa) ∧
    (s.placeBank (.unit d c u n), placeLoc (.unit d c u n)) = ((d, c, u), BitVec.ofNat 64 n) ∧
    (s.placeBank (.hostPort status), placeLoc (.hostPort status)) = ((0, 0, 0x18), status) ∧
    placeLoc (.memory pa) = BitVec.ofNat 64 pa ∧
    (s.site pa = .vault c k → s.placeBank (.memory pa) = (c / 12, 0, 0x10)) ∧
    (s.mdl.ilv.toNat ≤ 64 → s.site pa = .hbm k → ∃ b : Nat, stackAddr s.mdl.ilv k b = pa ∧
      s.placeBank (.memory pa) = (if k < 16 then k else 32 + k, 0, BitVec.ofNat 8 (128 + b / 256 % 80)))) ∧
  (∀ (d c n : Nat) (u : BitVec 8) (x : Bool) (a : Word), c < 12 →
    placeOf d u (.register c x) a = .register (12 * d + c) x a.toNat ∧
    placeOf d u (.spad c) a = .spad (12 * d + c) a.toNat ∧ placeOf d u (.accum c) a = .accum (12 * d + c) a.toNat ∧
    placeOf d u (.istore c) a = .istore (12 * d + c) a.toNat ∧ placeOf d u (.unit c) a = .unit d c u a.toNat ∧
    placeOf d u (.containment n) a = .containment d n a.toNat ∧ placeOf d u (.ring n) a = .ring d n a.toNat ∧
    placeOf d u (.yew n) a = .yew d n a.toNat ∧ placeOf d u .memory a = .memory a.toNat ∧
    placeOf d u .hostPort a = .hostPort a) ∧
  (∀ (s : State) (d : Nat) (u : BitVec 8) (k : ErrKind) (synd : BitVec 16) (addr : Word),
    let p := placeOf d u k addr
    let b := s.placeBank p
    let y := match p with | .hostPort _ => 0x0010 | _ => synd
    placeOkay p = true → exec (.correctableError d u k synd addr) s = .next (if b.2.2.toNat < 16 then
      s.modCore (12 * b.1 + b.2.1) fun k => { k with banks := bankRecord k.banks b.2.2 false y (placeLoc p) }
    else s.modDie b.1 fun k => { k with banks := bankRecord k.banks b.2.2 false y (placeLoc p) })) ∧
  ∀ (s : State) (d c : Nat) (u : BitVec 8), d < 64 → c < 12 →
    ∃ t, exec (.ebstatClear d c u) s = .next t ∧
      bankFind (if u.toNat < 16 then (t.core (12 * d + c)).banks else (t.die d).banks) u = none ∧
      ∀ v, v ≠ u → bankFind (t.core (12 * d + c)).banks v = bankFind (s.core (12 * d + c)).banks v ∧
        bankFind (t.die d).banks v = bankFind (s.die d).banks v) ∧
 ((∀ (s : State) (d : Nat) (u : BitVec 8) (k : ErrKind) (synd : BitVec 16) (addr : Word),
    placeOkay (placeOf d u k addr) = true →
    let p := placeOf d u k addr
    let b := s.placeBank p
    let y := match p with | .hostPort _ => 0x0011 | _ => synd
    let r := (((if b.2.2.toNat < 16 then s.modCore (12 * b.1 + b.2.1) fun k =>
        { k with banks := bankRecord k.banks b.2.2 true y (placeLoc p) }
      else s.modDie b.1 fun k => { k with banks := bankRecord k.banks b.2.2 true y (placeLoc p) }).event 10 b.1
        (b.2.2.setWidth 32) (placeLoc p)).yewAdd b.1 1 (if b.2.2.toNat < 16 then BitVec.ofNat 8 b.2.1 else 0xFF)
        (b.2.2.setWidth 32) (placeLoc p) 0)
    let e := exec (.uncorrectableError d u k synd addr) s
    let ends (c : Nat) (x : Bool) : Prop := e = .next ((r.strandFault c x 0).contextEnded c)
    let owned (c : Nat) (f : Ctx → Prop) (none_ : Prop) : Prop :=
      let o (x : Bool) : Prop := (r.ctx c x).strand ≠ none ∧ f (r.ctx c x)
      (o false → ends c false) ∧ (¬o false → o true → ends c true) ∧ (¬o false → ¬o true → none_)
    (∀ c x n, p = .register c x n → ends c x) ∧
    (∀ c n, p = .spad c n → owned c
      (fun t => ∃ q ∈ t.plan, q.kind = 0 ∧ q.off < 256 * (n / 256) + 256 ∧ 256 * (n / 256) < q.off + q.size)
      (∃ l, e = .next (r.modCore c fun k => { k with spadPoison := l }) ∧
        ∀ i, i ∈ l ↔ i = n / 32 ∨ i ∈ (r.core c).spadPoison)) ∧
    (∀ c n, p = .accum c n → owned c
      (fun t => ∃ q ∈ t.plan, q.kind = 1 ∧ q.off ≤ n / 16384 ∧ n / 16384 < q.off + q.size)
      (∃ l, e = .next (r.modCore c fun k => { k with accPoison := l }) ∧
        ∀ i, i ∈ l ↔ i = n / 32 ∨ i ∈ (r.core c).accPoison)) ∧
    (∀ c n, p = .istore c n → owned c (fun t => t.half = decide (131072 ≤ n)) (e = .next r)) ∧
    (∀ a, p = .memory a →
      ((s.site a).open_ = false → e = .next r) ∧
      ((s.site a).open_ = true → ∃ l, e = .next (r.modMdl fun m => { m with poison := l }) ∧
        ∀ i, i ∈ l ↔ i = a / 32 ∨ i ∈ r.mdl.poison)) ∧
    (∀ h i a, p = .yew h i a → e = .next (r.modDie h fun k => { k with yew := k.yew.eraseIdx (i + 1) })) ∧
    (∀ h i a, p = .ring h i a → match (r.die h).ring.find? (fun q => q.idx % 1024 == i) with
      | some q => e = .next (r.killEntry q)
      | none => e = .next r) ∧
    (∀ h l a, p = .containment h l a → e = .next
      ((((holdersOf (r.die h).contain).filter fun q => (linesOf (r.die h).contain q).contains l).foldl
        (fun z q => z.abandonRun q false) r).chargeDie h 8)) ∧
    (∀ d c u n, p = .unit d c u n → e = .next r) ∧ ∀ w, p = .hostPort w → e = .next r) ∧
  (∀ (s : State) (k l : Nat), k < 32 → l < 2 ^ 28 →
    let d := if k < 16 then k else 32 + k
    let a := stackAddr s.mdl.ilv k (256 * l)
    exec (.patrolScrub k l none) s = .next s ∧ ∀ synd : BitVec 16,
    let r := s.recordUe d 0 (BitVec.ofNat 8 (128 + l % 80)) synd (BitVec.ofNat 64 a)
    ((s.die d).patrol = 0 ∨ s.mdl.pStage ≠ 0 → exec (.patrolScrub k l (some synd)) s = .next s) ∧
    ((s.die d).patrol ≠ 0 → s.mdl.pStage = 0 → ∃ q, exec (.patrolScrub k l (some synd)) s =
        .next (r.modMdl fun m => { m with poison := q }) ∧
      ∀ n, n ∈ q ↔ n ∈ r.mdl.poison ∨ (a / 32 ≤ n ∧ n < a / 32 + 8))) ∧
  (∀ (s : State) (d : Nat) (u : BitVec 8) (k : ErrKind) (e : ScrubRead), placeOkay (placeOf d u k e.addr) = true →
    (e.bad = false ∨ s.mdl.pStage ≠ 0 → exec (.sramScrub d u k e) s = .next s) ∧
    (e.bad = true → s.mdl.pStage = 0 →
      exec (.sramScrub d u k e) s = exec (.uncorrectableError d u k e.synd e.addr) s)) ∧
  ∀ (s : State) (c : Nat) (v : Word), c < 768 →
    (s.mdl.featAccept0.getLsbD 4 = false → exec (.errinjWrite c v) s = .next s) ∧
    (s.mdl.featAccept0.getLsbD 4 = true → ∃ w : Word,
      exec (.errinjWrite c v) s = .next (s.modCore c fun k => { k with errinj := w }) ∧
      ∀ n, w.getLsbD n =
        if n = 47 then v.getLsbD 47 && decide (slice v 45 44 < 2 ∧ slice v 7 0 < if slice v 45 44 = 1 then 18 else 32)
        else v.getLsbD n && decide (n < 8 ∨ 32 ≤ n ∧ n < 48)))

/-! ## Scheduling -/

/-- LQDOOR and the launch words (R45 to R47): a bad TAIL is refused, an equal one has no effect; a word is read at
LQBASE by its index, and LQHEAD advances by 1 when it has been processed. A word that is malformed, a table that cannot
be read, and the first record that fails R41 or whose counter is armed or named twice report LAUNCH_FAIL, and nothing is
armed. Otherwise every node is armed: its counter holds INITPRED, its record WAITING with DONECNT, FAIL and UNYIELD 0,
and a node with INITPRED 0 becomes ready.

A decrement (R48): the counter that it names falls by 1, and its node becomes ready at 0; a counter that is not
armed or stands at 0 keeps its count, and CTR_UNDERFLOW is raised. -/
def Obligations.LaunchesAndCounters : Prop :=
 ((∀ (s : State) (v : Word),
    let m := s.mdl
    let t := v.extractLsb' 0 9
    (256 < (t - m.lqHead).toNat → exec (.lqdoorWrite v) s = .next (s.event 2 0xFF (t.setWidth 32) 0)) ∧
    ((t - m.lqHead).toNat ≤ 256 → t = m.lqTail → exec (.lqdoorWrite v) s = .next s) ∧
    ((t - m.lqHead).toNat ≤ 256 → t ≠ m.lqTail → ∃ u, exec (.lqdoorWrite v) s = .next u ∧
      u.mdl = { m with lqTail := t } ∧ (m.lqHead = m.lqTail → (s.now + 1, .launchWord) ∈ u.agenda))) ∧
  ∀ s : State,
    let m := s.mdl
    let w : Word := BitVec.ofNat 64 (memReadLE s.mem (2048 * slice m.lqBase 47 11 + 8 * (m.lqHead.toNat % 256)) 8)
    let ends (u : State) : Prop := exec .launchWord s = .next (
      let z := u.modMdl fun k => { k with lqHead := k.lqHead + 1 }
      if z.mdl.lqHead = z.mdl.lqTail then z else z.later 1 .launchWord)
    let fails (tag entry code : Nat) : Prop :=
      ends (s.event 1 0xFF (BitVec.ofNat 32 tag) (BitVec.ofNat 64 (entry + code * 65536)))
    (m.lqHead = m.lqTail → exec .launchWord s = .next s) ∧
    (m.lqHead ≠ m.lqTail →
      (slice w 63 48 ≠ 0 ∨ slice w 2 0 ≠ 0 → fails 0 0xFFFF 3) ∧
      (slice w 63 48 = 0 → slice w 2 0 = 0 →
        (∀ f, s.vRead w 8 = .error f → fails 0 0xFFFF 3) ∧
        ∀ l, s.vRead w 8 = .ok l →
          let n := numLE l % 65536
          let tag := numLE l / 2 ^ 32
          (n = 0 ∨ numLE l / 65536 % 65536 ≠ 0 → fails tag 0xFFFF 3) ∧
          (n ≠ 0 → numLE l / 65536 % 65536 = 0 →
            (s.vWords (w + 8) n = none → fails 0 0xFFFF 3) ∧
            ∀ addrs, s.vWords (w + 8) n = some addrs →
              let bad (a : Word) : Prop := ∀ r, s.readRec a = some r → s.recordBad a r = true
              (∀ (p q : List Word) (a : Word), addrs = p ++ a :: q → (∀ b ∈ p, ¬bad b) → bad a → fails tag p.length 3) ∧
              ((∀ a ∈ addrs, ¬bad a) →
                let recs := addrs.filterMap s.readRec
                let key (r : NodeRec) : Nat × Nat := (r.cdie.toNat, r.cidx.toNat)
                let busy (p : List NodeRec) (r : NodeRec) : Prop :=
                  assocGet (s.die (key r).1).counters (key r).2 ≠ none ∨ ∃ b ∈ p, key b = key r
                (∀ (p q : List NodeRec) (r : NodeRec), recs = p ++ r :: q →
                  (∀ p' q' r', p = p' ++ r' :: q' → ¬busy p' r') → busy p r → fails tag p.length 0xFF) ∧
                ((∀ p q r, recs = p ++ r :: q → ¬busy p r) →
                  let arm (z : State) (e : Word × NodeRec) : State :=
                    let node : Node :=
                      { addr := e.1, tag := BitVec.ofNat 32 tag, r := e.2, st := 1, n := 0, done := 0, unyield := 0,
                        fail := 0, parent := none, held := 0, die := e.2.cdie.toNat, gangsDone := [] }
                    let y := (z.modDie e.2.cdie.toNat fun k => { k with
                      counters := assocPut k.counters e.2.cidx.toNat ⟨e.2.initPred, e.1⟩ }).modMdl fun m =>
                        { m with nodes := dropNode e.1 m.nodes ++ [node] }
                    match y.vWrite (e.1 + 120) (bytesLE 8 1) with
                    | .ok y' => y'
                    | .error _ => y
                  ends ((addrs.zip recs).foldl (fun z e =>
                    if e.2.initPred = 0 then z.later 1 (.nodeReadiness e.1.toNat) else z)
                    ((addrs.zip recs).foldl arm s)))))))) ∧
 (∀ (s : State) (cid sender : BitVec 32) (src : Nat), src < 64 →
    let d := slice cid 21 16
    let i := slice cid 15 0
    let k := assocGet (s.die d).counters i
    ((k = none ∨ ∃ q, k = some q ∧ q.count = 0) → exec (.predecessorDecrement cid sender src) s =
      .next (s.event 3 d cid (sender.setWidth 64))) ∧
    ∀ q, k = some q → q.count ≠ 0 → ∃ t, exec (.predecessorDecrement cid sender src) s = .next t ∧
      assocGet (t.die d).counters i = some { q with count := q.count - 1 } ∧
      (∀ e, e ≠ i → assocGet (t.die d).counters e = assocGet (s.die d).counters e) ∧
      (t.agenda = if q.count = 1 then addEvent s.agenda (s.now + 1) (.nodeReadiness q.addr.toNat) else s.agenda) ∧
      t.mdl = s.mdl ∧ t.mem = s.mem ∧ t.cores = s.cores)

/-- A failed node (R68): it is no longer live, its strands' contexts are free, its queue entries and copy commands are
gone, its record shows FAILED with the code, its counter is free, and NODE_FAIL is raised last.

Readiness (R50, R51): the record is read anew and checked; where memory is short of its watermark the node is HELD,
its counter grows by NRECOMP, and the listed nodes are made ready afresh; a HELD node goes on when its count is 0, with
its record as it was read. Then a node without instances completes at once, an instance count beyond IMAX counts as
complete, and what is left is queued, or copied, in ascending order. The model's choices: a list that cannot be read
fails the node (log 74); a node that is itself a recompute's run counts in `held` what it waits for, and an empty list
lets a HELD node go on at once (log 73).

An instance of a copy node (R43): its 32-byte block gives the group of a COPY with ACQ and REL at SYSTEM scope
and no MARK, which joins the end of the queue of a die's copy engines; a block that cannot be read fails the node. Of the
dies that DIEMASK allows it is the lowest that survives: the model's choice, as is the failure where none does (log 72).

Completion (R48, R51, R67): where the successor list can be read the node becomes COMPLETE in its record and is
live no more, NODE_DONE follows if NOTIFY is set, its counter is free, and every successor is sent a decrement (where no
open choice is given, for the next clock: the model's choice, log 6); where it cannot, the node fails. A run that a
recompute made has no successors and leaves its record and counter alone: the HELD node counts it, in its counter or,
being such a run itself, in `held` (log 73), and raises its own NODE_DONE (log 39): the model's choices. -/
def Obligations.NodesRun : Prop :=
 (∀ (s : State) (a : Word) (i : BitVec 32) (code d : Nat) (n : Node), s.mdl.node? a = some n →
    (∀ m ∈ s.mdl.nodes, m ≠ n → m.addr ≠ a) → s.mdl.nodes.Nodup → n.parent = none →
    let t := s.failNode a i code d
    t.mdl.node? a = none ∧ (∀ r ∈ t.mdl.runs, r.node ≠ a) ∧ (∀ g ∈ t.mdl.gangs, g.node ≠ a) ∧
      (∀ e < 64, (∀ q ∈ (t.die e).queue, q.node ≠ a) ∧ ∀ q ∈ (t.die e).cmds, ∀ b, q.copyNode ≠ some (a, b)) ∧
      assocGet (t.die n.r.cdie.toNat).counters n.r.cidx.toNat = none ∧
      (∀ r ∈ s.mdl.runs, r.node = a → ∀ k ∈ r.ranks, ∀ c x, k.place = some (c, x) → c < 768 →
        t.ctx c x = { Ctx.reset with half := (s.ctx c x).half }) ∧
      ∃ u : State, t = u.event 6 d n.r.nodeId (BitVec.ofNat 64 (i.toNat + code * 2 ^ 32)) ∧
        ∀ y, s.vWrite (n.addr + 120) (bytesLE 8 (6 + n.unyield.toNat * 2 ^ 8 + code % 256 * 2 ^ 16 + n.done * 2 ^ 32)) =
          .ok y → u.mem = y.mem) ∧
 ((∀ (z : State) (h : Node) (a : Word) (r : NodeRec), z.readRec a = some r →
    let n : Node := { addr := a, tag := h.tag, r := r, st := 1, n := 0, done := 0, unyield := 0, fail := 0,
                      parent := some h.addr, held := 0, die := r.cdie.toNat, gangsDone := [] }
    let y := z.modMdl fun m => { m with nodes := m.nodes ++ [n] }
    z.recompute h [a] = if z.mdl.node? a = none then y.later 1 (.nodeReadiness a.toNat) else y) ∧
  ∀ (s : State) (rec : Nat),
    let a : Word := BitVec.ofNat 64 rec
    let goes (t : State) : Prop := exec (.nodeReadiness rec) s = .next t
    let counts (u : State) (m : Node) : Prop :=
      (∀ f, m.r.ind = true → u.vNum (m.r.icnt.setWidth 64) 4 = .error f →
        goes (u.failNode m.addr 0 3 m.r.cdie.toNat)) ∧
      ∀ c, (m.r.ind = false ∧ c = slice m.r.icnt 31 0) ∨
          (m.r.ind = true ∧ u.vNum (m.r.icnt.setWidth 64) 4 = .ok c) →
        let k : Node := { m with n := c, done := c - m.r.imax.toNat, st := 3 }
        let left := min c m.r.imax.toNat
        (left = 0 → goes ((u.setNode k).later 1 (.nodeCompletion m.addr.toNat))) ∧
        (left ≠ 0 → goes (if m.r.copy then (u.updateNode k).queueCopies m.addr left
          else (u.updateNode k).queueInstances m.addr (m.r.stg.toNat + 1) 0 left))
    (s.mdl.node? a = none → goes s) ∧
    ∀ n, s.mdl.node? a = some n →
      (3 ≤ n.st.toNat → goes s) ∧
      (n.st = 2 →
        let waits := if n.parent = none then (s.counterOf n.r).toNat else n.held
        (waits ≠ 0 → goes s) ∧ (waits = 0 → counts s n)) ∧
      (n.st.toNat < 2 → s.readRec a = none → goes (s.failNode a 0 3 n.r.cdie.toNat)) ∧
      ∀ r, n.st.toNat < 2 → s.readRec a = some r →
        let r : NodeRec := { r with cdie := n.r.cdie, cidx := n.r.cidx, initPred := n.r.initPred }
        let m : Node := { n with r := r }
        let u := s.setNode m
        let short := r.wmark ≠ 0 ∧ u.mdl.memFree.toNat < r.wmark.toNat
        (u.recordBad a r = true → goes (u.failNode a 0 3 r.cdie.toNat)) ∧
        (u.recordBad a r = false → ¬short → counts u m) ∧
        (u.recordBad a r = false → short →
          (u.vWords r.recomp r.nrecomp.toNat = none → goes (u.failNode m.addr 0 3 r.cdie.toNat)) ∧
          ∀ l, u.vWords r.recomp r.nrecomp.toNat = some l →
            let h : Node := { m with st := 2, held := l.length }
            let y := u.updateNode h
            let z := if n.parent = none then y.modDie r.cdie.toNat fun k => { k with
                counters := assocPut k.counters r.cidx.toNat ⟨y.counterOf r + r.nrecomp, m.addr⟩ }
              else y
            goes (if l = [] then z.later 1 (.nodeReadiness m.addr.toNat) else z.recompute h l))) ∧
 (∀ (s : State) (rec i : Nat),
    let a : Word := BitVec.ofNat 64 rec
    (s.mdl.node? a = none → exec (.copyNodeInstance rec i) s = .next s) ∧
    ∀ n, s.mdl.node? a = some n →
      let l := s.vWords (n.r.args + BitVec.ofNat 64 (32 * i)) 4
      (l = none ∨ (∀ d < 64, n.r.dieMask.getLsbD d = true → s.dieAlive d = false) → exec (.copyNodeInstance rec i) s =
        .next (s.failNode a (BitVec.ofNat 32 i) 3 n.r.cdie.toNat)) ∧
      ∀ w0 w1 w2 w3 d, l = some [w0, w1, w2, w3] → d < 64 → s.dieAlive d = true → n.r.dieMask.getLsbD d = true →
        (∀ e < d, n.r.dieMask.getLsbD e = true → s.dieAlive e = false) →
        ∃ (y : State) (q : Cmd),
          exec (.copyNodeInstance rec i) s = .next ((y.updateNode { n with st := 4 }).enginesTake d) ∧
          (y.die d).cmds = (s.die d).cmds ++ [q] ∧ q.id = s.mdl.nextId ∧
          q.g0 = w0 ∧ q.g1 = w1 ∧ q.g2 = w2 ∧ q.g3 = w3 ∧ q.copyNode = some (a, BitVec.ofNat 32 i) ∧
          q.op = .copy ⟨0, false⟩ true true 4 1 1 false false 0 0 ∧ q.prot = false ∧ q.result = none ∧
          q.running = false ∧ q.mark = (s.die d).nextPath ∧ y.mdl = { s.mdl with nextId := s.mdl.nextId + 1 } ∧
          { y with mdl := s.mdl, dies := s.dies } = s) ∧
 (∀ (s : State) (rec : Nat),
    let a : Word := BitVec.ofNat 64 rec
    (s.mdl.node? a = none → exec (.nodeCompletion rec) s = .next s) ∧
    ∀ n, s.mdl.node? a = some n →
      let word (i : Nat) := s.vNum (n.r.succ + BitVec.ofNat 64 (4 * i)) 4
      let v := s.setNode { n with st := 5, done := n.n }
      let told (u : State) : State := if n.r.notify then u.event 5 n.die n.r.nodeId (n.tag.setWidth 64) else u
      (n.parent = none →
        (∀ i f, i < n.r.nsucc.toNat → word i = .error f →
          exec (.nodeCompletion rec) s = .next (s.failNode a 0 3 n.die)) ∧
        ∀ u, (∀ i < n.r.nsucc.toNat, ∃ v, word i = .ok v) →
          v.vWrite (n.addr + 120) (bytesLE 8 (5 + n.unyield.toNat * 2 ^ 8 + n.fail.toNat * 2 ^ 16 + n.n * 2 ^ 32)) =
            .ok u →
          (∀ m ∈ s.mdl.nodes, m ≠ n → m.addr ≠ a) → s.mdl.nodes.Nodup →
          ∃ t, exec (.nodeCompletion rec) s = .next t ∧ t.mem = (told u).mem ∧ t.mdl.node? a = none ∧
            assocGet (t.die n.r.cdie.toNat).counters n.r.cidx.toNat = none ∧
            (∀ g ∈ t.mdl.gangs, g.node ≠ a) ∧
            { t.mdl with nodes := (told u).mdl.nodes, gangs := (told u).mdl.gangs } = (told u).mdl ∧
            (s.picks = [] → ∀ i < n.r.nsucc.toNat, ∀ v, word i = .ok v →
              (s.now + 1, .predecessorDecrement (BitVec.ofNat 32 v) n.r.nodeId n.die) ∈ t.agenda)) ∧
      ∀ p, n.parent = some p →
        let y := (told v).modMdl fun m => { m with nodes := dropNode a m.nodes,
                                                   gangs := m.gangs.filter fun g => g.node != a }
        let z := if (y.mdl.node? a).isSome then y.later 1 (.nodeReadiness a.toNat) else y
        (z.mdl.node? p = none → exec (.nodeCompletion rec) s = .next z) ∧
        ∀ q, z.mdl.node? p = some q → exec (.nodeCompletion rec) s = .next (
          if q.parent = none then
            z.later 1 (.predecessorDecrement (BitVec.ofNat 32 (q.r.cdie.toNat * 65536 + q.r.cidx.toNat)) n.r.nodeId n.die)
          else if q.held = 1 then (z.setNode { q with held := 0 }).later 1 (.nodeReadiness q.addr.toNat)
          else z.setNode { q with held := q.held - 1 }))

/-- Dispatch (R54, R56, R57, R59): an empty queue gives up its reservation; a fresh gang at the head of a queue takes the
lowest run of idle cores, its strands are placed there in the order of their ranks, and its entry leaves the queue; and
the queue is looked at again at the earliest clock in which an entry is one AGE_PERIOD older. That a fresh context
runs from half 0 of its core's instruction store is the model's choice, log 75.

The start of a gang of one strand (R24, R28, R58): once its image, its plan and its slot are served, its context
issues at the node's entry with the start state of a fresh strand, and the image stands in its half of the
instruction store; its die's queue is looked at again, since its head may ask the strand to leave (R61). An image that
cannot be read fails the node: with STRAND_FAULT and the strand's Yew entry for an uncorrectable error (R384), with
BAD_RECORD for another fault.

A yield deadline that expires on a running strand (R61, R63, R64): the request is withdrawn, UNYIELD of its node
counts it, SCHED_UNYIELD is raised, and the core leaves its reservation for one AGE_PERIOD; on a cluster that is being
retired the strand ends instead (R343); before its clock, or where nothing is pending, it does nothing. -/
def Obligations.GangsRun : Prop :=
 ((∀ (s : State) (d : Nat), d < 64 →
    ((∀ l < 12, (s.core (12 * d + l)).ended = false) → (s.die d).queue = [] →
      exec (.gangDispatch d) s = .next (s.dropResv d)) ∧
    ∃ t, exec (.gangDispatch d) s = .next t ∧
      ((t.die d).queue = [] → exec (.agePeriodTick d) s = .next t) ∧
      let older (e : QEntry) : Nat := t.agePeriod - (t.now - e.since) % t.agePeriod
      ∀ e ∈ (t.die d).queue, (∀ f ∈ (t.die d).queue, older e ≤ older f) → exec (.agePeriodTick d) s = .next (
        if (t.now + older e, Instr.agePeriodTick d) ∈ t.agenda then t else t.later (older e) (.agePeriodTick d))) ∧
  ∀ (s : State) (d c0 : Nat) (e : QEntry) (n : Node), d < 64 → (∀ l < 12, (s.core (12 * d + l)).ended = false) →
    (s.die d).queue = [e] → e.kind = .fresh → s.mdl.node? e.node = some n → (s.die d).resv = none →
    1 ≤ e.width.toNat → c0 + e.width.toNat ≤ 12 →
    let idle (c : Nat) : Prop := s.coreUsable c = true ∧ (s.core c).cur = none ∧
      (s.core c).c0.status = .free ∧ (s.core c).c1.status = .free ∧ (s.core c).c1.strand = none
    (∀ k < e.width.toNat, idle (12 * d + c0 + k)) →
    (∀ b < c0, ∃ k < e.width.toNat, s.coreUsable (12 * d + b + k) = false) →
    ∃ t, exec (.gangDispatch d) s = .next t ∧ (t.die d).queue = [] ∧
      (∀ k < e.width.toNat, ∃ m : Strand, (t.core (12 * d + c0 + k)).cur = some false ∧
        (t.core (12 * d + c0 + k)).c0 = { Ctx.reset with strand := some m, status := .placed } ∧
        m.nodeId = n.r.nodeId ∧ m.inst = e.inst ∧ m.stage = e.stage ∧ m.rank.toNat = k ∧ m.width = n.r.width ∧
        m.image = n.r.image ∧ m.nbundle = n.r.nbundle.toNat ∧ m.cls = n.r.cls ∧
        m.spdlim = (if n.r.spdlim = 0 then 65536 else n.r.spdlim.toNat) ∧
        m.ydl = (if n.r.ydl = 0 then 48000 else n.r.ydl.toNat)) ∧
      ∃ r ∈ t.mdl.runs, r.id = s.mdl.nextId ∧ r.die = d ∧ r.c0 = c0 ∧ r.gang = e.gang ∧ r.started = false) ∧
 ((∀ (s : State) (d c0 : Nat), d < 64 → (∀ r ∈ s.mdl.runs, r.die = d → r.c0 = c0 → r.started = true) →
    exec (.gangStart d c0) s = .next s) ∧
  (∀ (s : State) (d c : Nat) (x : Bool) (r : Run) (k : RankRec) (n : Strand) (node : Node) (f : BitVec 8), d < 64 →
    s.mdl.runs = [r] → r.die = d → r.started = false → r.ranks = [k] → k.place = some (c, x) →
    s.mdl.node? r.node = some node → (s.ctx c x).strand = some n → s.loadImage c x n = .error f →
    (f ≠ 20 → exec (.gangStart d r.c0) s = .next (s.failNode r.node r.inst 3 d)) ∧
    (f = 20 → exec (.gangStart d r.c0) s = .next ((s.yewAdd d 4 (BitVec.ofNat 8 (c % 12)) 0
      (BitVec.ofNat 64 (node.r.nodeId.toNat + r.inst.toNat * 2 ^ 32)) 0).failNode r.node r.inst 6 d))) ∧
  ∀ (s u v : State) (d c : Nat) (x : Bool) (r : Run) (k : RankRec) (n : Strand) (node : Node)
    (plan : List PlanRec), d < 64 → c < 768 →
    s.mdl.runs = [r] → r.die = d → r.started = false → r.ranks = [k] → k.place = some (c, x) →
    s.mdl.node? r.node = some node → (s.ctx c x).strand = some n → s.loadImage c x n = .ok u →
    u.readPlan node.r.plan node.r.nplan.toNat = .ok plan →
    (u.modCore c fun q => q.setPlan x plan).fillPlan c plan = .ok v →
    let regs := startRegs node.r.args n
    (∃ z, v.vWrite n.slot (v.contData n c 0 0xFFFF [regs.sVal 1, regs.sVal 2, regs.sVal 3, regs.sVal 4]) = .ok z) →
    ∃ t, exec (.gangStart d r.c0) s = .next t ∧ (∀ q ∈ t.mdl.runs, q.started = true) ∧
      (s.now + 1, .gangDispatch d) ∈ t.agenda ∧
      let w := t.ctx c x
      w.status = .running ∧ w.strand = some n ∧ w.pc = BitVec.ofNat 14 node.r.entry.toNat ∧ w.plan = plan ∧
      (w.regs.sVal 1 = node.r.args ∧ w.regs.sVal 2 = n.inst.setWidth 64 ∧ w.regs.sVal 3 = n.rank.setWidth 64 ∧
        w.regs.sVal 4 = n.width.setWidth 64 ∧ (∀ i, 5 ≤ i.toNat → w.regs.sVal i = 0) ∧
        (∀ i, w.regs.aVal i = 0) ∧ (∀ i, w.regs.vVal i = 0) ∧ (∀ i, w.regs.tVal i = 0) ∧
        (∀ i, w.regs.kVal i = 0) ∧ (∀ i, i ≠ 0 → w.regs.mVal i = 0 ∧ w.regs.pVal i = false) ∧ w.regs.q = 0 ∧
        ∀ g, w.regs.isFull g = true) ∧
      w.lc0.active = false ∧ w.lc1.active = false ∧ w.fmt = 0x0033 ∧ w.spcount = 0 ∧ w.evt = 0 ∧
      w.srkey.toNat = node.r.seed.toNat * 2 ^ 32 + n.inst.toNat ∧
      w.srctr.toNat = n.stage.toNat * 2 ^ 60 + n.rank.toNat * 2 ^ 56 ∧ (t.core c).istore = (v.core c).istore) ∧
 (∀ (s : State) (c : Nat) (x : Bool), c < 768 →
    let t := s.ctx c x
    let d := c / 12
    (t.wait.deadline = none ∨ t.strand = none ∨ t.status ≠ .running ∨ (∃ w, t.wait.deadline = some w ∧ s.now ≤ w) →
      exec (.yieldDeadlineExpiry c x) s = .next s) ∧
    ∀ w n, t.wait.deadline = some w → t.strand = some n → w < s.now → t.status = .running →
      ((s.die d).retiring.contains (c / 4) = true →
        exec (.yieldDeadlineExpiry c x) s = .next (s.strandFault c x 0)) ∧
      ((s.die d).retiring.contains (c / 4) = false →
        let v := s.modCtx c x fun t => { t with evt := t.evt &&& 3, wait := { t.wait with deadline := none } }
        let goes (u : State) : Prop :=
          let y := u.event 4 d n.nodeId (BitVec.ofNat 64 (n.inst.toNat + c * 2 ^ 32))
          exec (.yieldDeadlineExpiry c x) s = .next ((y.modDie d fun k =>
            { k with resv := k.resv.map fun r => { r with bans := (c, y.now + y.agePeriod) :: r.bans } }).later
              y.agePeriod (.gangDispatch d))
        (s.mdl.node? n.record = none → goes v) ∧
        ∀ m, s.mdl.node? n.record = some m →
          (m.parent = none → goes (v.updateNode { m with unyield := BitVec.ofNat 8 (min 255 (m.unyield.toNat + 1)) })) ∧
          (m.parent ≠ none →
            (∀ f, v.vNum (m.addr + 121) 1 = .error f → goes v) ∧
            ∀ k u, v.vNum (m.addr + 121) 1 = .ok k → v.vWrite (m.addr + 121) (bytesLE 1 (min 255 (k + 1))) = .ok u →
              goes u)))

/-! ## The host and the links -/

/-- A host event (R223, R365, R366): first the host-aperture stores that the raising die has accepted are sent, in their
order. While the ring is disabled the event is counted and signals its vector; a full ring drops it, and signals vector 0
once; else its 16 bytes stand at index TAIL, TAIL advances, and its vector is signalled. That EVLOST stops at its
largest value is the model's choice, log 44.

Host accesses (R6, R7, R357, R358, R360, R364, R365): BAR2 reaches HBM and vault memory that is not reserved;
elsewhere a read returns ones, a write is dropped, and HOST_ERR is raised; an access outside the window of BAR2's size has
no effect (the model's choice, log 81). A read of EVLOST returns the count before its clock and clears it but for that
clock's events; a 4-byte read of its high half clears nothing. Which part a read takes is an open choice (log 7). And
YEWIDX.

A host-aperture read that completes with Unsupported Request or Completer Abort, or has no completion (R346, R359):
its register receives ones, the error is recorded in the host-link bank of its die and raises ERR_UE and HOST_ERR, and the
access ends. It concerns only a load that has been sent to the host and waits for its value: one that R214 holds back
is not sent yet, and its 50 ms begin when it is. Whether the host answers, and how, is an open choice (log 7).

Host writes to BAR0 (R7, R342, R360 to R364, R372 to R375, R380 to R383): what each register keeps of an aligned
8-byte write, offsets that ignore one, and the drop, with HOST_ERR, of a write of another size or at another offset:
R360 speaks of 4-byte writes, and the other sizes and offsets are the model's choice (log 53), as is that EN of LCTL
written with 0 ends what is in flight over the link (log 44). BAR2 is sized from 1 GiB to 2 TiB (R357); that another
size has no effect is the model's choice (log 81). -/
def Obligations.HostInterface : Prop :=
 (∀ (s : State) (code die : Nat) (a : BitVec 32) (b : Word), 1 ≤ code → code ≤ 15 → die < 256 →
    let u := ((s.die die).path.filter fun p => s.homeOf p.pa == 64).foldl (fun z p =>
      match exec (.storeReachHome die p.id) z with
      | .next y => y
      | .fault _ | .refused _ => z) s
    let m := u.mdl
    let z := m.evBase.toNat % 16
    let n := 2 ^ (z + 8)
    let v : BitVec 6 := BitVec.ofNat 6 (([0, 1, 1, 1, 2, 3, 3, 4, 5, 5, 6, 6, 7, 8, 8, 4] : List Nat).getD code 0)
    let t := (s.event code die a b).mdl
    { s.event code die a b with mdl := m } = u ∧
    (z = 0 → t = { m with evLost := m.evLost.add s.now, msix := v :: m.msix }) ∧
    (z ≠ 0 → (m.evTail - m.evHead).toNat = n →
      t = { m with evLost := m.evLost.add s.now, evFull := true, msix := if m.evFull then m.msix else 0 :: m.msix }) ∧
    (z ≠ 0 → (m.evTail - m.evHead).toNat ≠ n → Mem.wf m.hostMem = true →
      let at_ := m.evBase.toNat / 4096 * 4096 + m.evTail.toNat % n * 16
      t = { m with hostMem := t.hostMem, evTail := m.evTail + 1, evFull := false, msix := v :: m.msix } ∧
      ((List.range 16).map fun j => (memRead t.hostMem (at_ + j)).toNat * 256 ^ j).sum =
        code + die * 2 ^ 16 + a.toNat * 2 ^ 32 + b.toNat * 2 ^ 64 ∧
      ∀ p, p < at_ ∨ at_ + 16 ≤ p → memRead t.hostMem p = memRead m.hostMem p)) ∧
 (∀ s : State,
    (∀ off n : Nat, let p := s.mdl.w2Base.toNat + off
      (2 ^ s.mdl.bar2.toNat < off + n → exec (.hostBar2Read off n) s = .next s) ∧
      (off + n ≤ 2 ^ s.mdl.bar2.toNat →
        ((∀ i < n, (s.site (p + i)).open_ = true) → ∃ l : List Byte, l.length = n ∧
          (∀ i < n, l.getD i 0 = memRead s.mem (p + i)) ∧
          exec (.hostBar2Read off n) s = .next { s with mdl := { s.mdl with resp := ⟨l, s.poisonedIn p n⟩ } }) ∧
        ((∃ i < n, (s.site (p + i)).open_ = false) → exec (.hostBar2Read off n) s = .next (
          { s with mdl := { s.mdl with resp := ⟨List.replicate n 0xFF, false⟩ } }.event 11 0xFF (BitVec.ofNat 32 off) 1)))) ∧
    (∀ (off : Nat) (l : List Byte), let p := s.mdl.w2Base.toNat + off
      (2 ^ s.mdl.bar2.toNat < off + l.length → exec (.hostBar2Write off l) s = .next s) ∧
      (off + l.length ≤ 2 ^ s.mdl.bar2.toNat →
        ((∀ i < l.length, (s.site (p + i)).open_ = true) → exec (.hostBar2Write off l) s = .next (s.physWrite p l)) ∧
        ((∃ i < l.length, (s.site (p + i)).open_ = false) →
          exec (.hostBar2Write off l) s = .next (s.event 11 0xFF (BitVec.ofNat 32 off) 2)))) ∧
    (let e := s.mdl.evLost
     let seen := if e.at_ = s.now then e.before else e.total
     let late := if e.at_ = s.now then e.recent else 0
     (∀ v : Tally, ((v.add s.now).total).toNat = min (2 ^ 32 - 1) (v.total.toNat + 1)) ∧
     let z := s.pick 0
     ∃ t, exec .evlostRead s = .next t ∧
       t.mdl.resp = ⟨if z.1 = 0 then bytesLE 8 seen.toNat else if z.1 = 1 then bytesLE 4 seen.toNat
         else [0, 0, 0, 0], false⟩ ∧
       t.mdl.evLost = (if z.1 < 2 then ⟨late, s.now, 0, late⟩ else e) ∧
       { t with mdl := { t.mdl with evLost := s.mdl.evLost, resp := s.mdl.resp } } = z.2) ∧
    ∀ (d : Nat) (v : Word), d < 64 →
      exec (.yewidxWrite d v) s = .next (s.modDie d fun k => { k with yewIdx := v.extractLsb' 0 12 })) ∧
 (∀ (s : State) (c id : Nat) (k : BitVec 2), c < 768 →
    ((s.core c).acc? id = none → exec (.hostApertureReadTimeout c ⟨id, k⟩) s = .next s) ∧
    ∀ a, (s.core c).acc? id = some a →
      ((a.sent = false ∨ (a.kind ≠ .load ∧ a.kind ≠ .ldacq ∧ a.kind ≠ .count) ∨ ∀ off, s.site a.pa ≠ .aperture off) →
        exec (.hostApertureReadTimeout c ⟨id, k⟩) s = .next s) ∧
      (∀ off, s.site a.pa = .aperture off → a.st = .ready → (a.kind = .load ∨ a.kind = .ldacq) → a.sent = false →
        (s.mayPerform c a = false → exec (.loadValueReturn c id) s = .next (s.later 1 (.loadValueReturn c id))) ∧
        (s.mayPerform c a = true → ∃ t, exec (.loadValueReturn c id) s = .next t ∧
          (t.core c).acc? id = some { a with sent := true } ∧
          (s.now + Config.aperTimeout, .hostApertureReadTimeout c ⟨id, 3⟩) ∈ t.agenda ∧ t.mem = s.mem)) ∧
      ∀ off, s.site a.pa = .aperture off → a.sent = true → (a.kind = .load ∨ a.kind = .ldacq) → a.reg ≠ 0 →
        ∃ t, exec (.hostApertureReadTimeout c ⟨id, k⟩) s = .next t ∧
          (t.ctx c a.x).regs.aVal a.reg = BitVec.allOnes 64 ∧ (t.ctx c a.x).regs.isFull (.a a.reg) = true ∧
          (t.core c).acc? id = none ∧
          (t.die (c / 12)).banks = bankRecord (s.die (c / 12)).banks 0x18 true (k.setWidth 16) (BitVec.ofNat 64 off) ∧
          (s.mdl.evBase.toNat % 16 = 0 → t.mdl.evLost = (s.mdl.evLost.add s.now).add s.now)) ∧
 (∀ (s : State) (v : Word),
    let w (off : Nat) := exec (.registerWrite off (.bar0 8 v)) s
    let sets (off : Nat) (f : Module → Module) : Prop := w off = .next { s with mdl := f s.mdl }
    let field (hi lo : Nat) : Word := BitVec.ofNat 64 (slice v hi lo * 2 ^ lo)
    sets 0x00 (fun m => { m with lqBase := field 47 11 }) ∧ w 0x10 = exec (.lqdoorWrite v) s ∧
    sets 0x18 (fun m => { m with memFree := v.extractLsb' 0 32 }) ∧
    (∃ l, w 0x20 = .next { s with mdl := { s.mdl with agePer := v.extractLsb' 0 32 }, agenda := l } ∧
      ((∀ d < 64, (s.die d).queue = []) → l = s.agenda)) ∧
    sets 0x28 (fun m => { m with ptroot := field 47 13 }) ∧
    (v.extractLsb' 0 2 = 0 → w 0x30 = exec .tlbinvAll s) ∧
    (v.extractLsb' 0 2 = 1 → w 0x30 = exec (.tlbinvPage64k (v.extractLsb' 16 32)) s) ∧
    (v.extractLsb' 0 2 = 2 → w 0x30 = exec (.tlbinvPage32m (v.extractLsb' 16 32)) s) ∧
    (v.extractLsb' 0 2 = 3 → w 0x30 = .next s) ∧
    sets 0x38 (fun m => { m with tlbDrop := m.tlbDrop && (!v.getLsbD 1 || m.tlbDropAt == s.now) }) ∧
    sets 0x50 (fun m => { m with hapBase := field 63 12 }) ∧ sets 0x58 (fun m => { m with w2Base := field 47 30 }) ∧
    sets 0x60 (fun m => { m with evBase := field 63 12 ||| field 3 0 }) ∧
    sets 0x68 (fun m => { m with evHead := v.extractLsb' 0 32 }) ∧
    (s.mdl.phase = 4 → sets 0x120 (fun m => { m with featAccept0 := v &&& m.featOffer0 })) ∧
    (s.mdl.phase ≠ 4 → w 0x120 = .next s) ∧
    w 0x80 = exec (.pstepWrite (v.extractLsb' 0 4)) s ∧ w 0x128 = exec (.featAccept1Write v) s ∧
    (∀ n < 16, sets (0x140 + 8 * n) (fun m => { m with
      pfroot := vset m.pfroot n (v &&& 0x8000FFFFFFFFFFFF) })) ∧
    (∀ n < 16, sets (0x610000 + 8 * n) (fun m => { m with
      pwin := vset m.pwin n (field 63 63 ||| field 23 20 ||| field 15 0) })) ∧
    (∀ off, off ∈ [0x08, 0x40, 0x48, 0x70, 0x78, 0x88, 0x110, 0x118, 0x130, 0x138, 0x1800] → w off = .next s) ∧
    (∀ d < 64, let b := 0x100000 + 0x10000 * d
      w (b + 0x108) = exec (.rrmirrorWrite d v) s ∧ w (b + 0x110) = exec (.rrkillWrite d v) s ∧
      w (b + 0x140) = exec (.yewidxWrite d v) s ∧
      w (b + 0x100) = .next (s.modDie d fun k => { k with
        ds := v.extractLsb' 0 8, cs := #v[v.extractLsb' 8 8, v.extractLsb' 16 8, v.extractLsb' 24 8] }) ∧
      ((s.die d).hrBusy = false →
        w (b + 0x118) = .next (s.modDie d fun k => { k with hrWord := v }) ∧
        w (b + 0x120) = .next (s.modDie d fun k => { k with hrVal := v }) ∧
        (v = 1 → w (b + 0x128) = .next ((s.modDie d fun k => { k with hrBusy := true }).later 1 (.hostRport d))) ∧
        (v = 2 → w (b + 0x128) = .next ((s.modDie d fun k => { k with hrBusy := true }).later 1 (.hostRack d))) ∧
        (v ≠ 1 → v ≠ 2 → w (b + 0x128) = .next s)) ∧
      ((s.die d).hrBusy = true → ∀ r ∈ [0x118, 0x120, 0x128],
        w (b + r) = .next (s.event 11 0xFF (BitVec.ofNat 32 (b + r)) 2)) ∧
      w (b + 0x200) = .next ((s.modDie d fun k => { k with pat := v.extractLsb' 0 48 }).later (16 - s.now % 16)
        (.clkpatUpdate d)) ∧
      ∀ l < 12, let k := b + 0x8000 + 0x400 * l
        w (k + 8) = exec (.errinjWrite (12 * d + l) v) s ∧
        (∀ n < 4, w (k + 0x40 + 8 * n) = .next (s.modCore (12 * d + l) fun q => { q with ewt := vset q.ewt n v })) ∧
        (v.getLsbD 2 = false → w k = exec (.dbgctlHalt (12 * d + l) v) s)) ∧
    (∀ l < 16, let b := 0x600000 + 0x100 * l
      w (b + 0x20) = .next (s.modLink l fun k => { k with inBase := v.extractLsb' 16 32, inEn := v.getLsbD 0 }) ∧
      w (b + 0x28) = .next (s.modLink l fun k => { k with inLim := v.extractLsb' 0 42 }) ∧
      (v.getLsbD 0 = false → v.getLsbD 1 = false → (s.mdl.link l).en = true →
        w b = .next ((s.modLink l fun k => { k with en := false, state := 0 }).linkLost l))) ∧
    (∀ (off : Nat) (n : BitVec 6), exec (.registerWrite off (.bar2 n)) s =
      .next (if 30 ≤ n.toNat ∧ n.toNat ≤ 41 then { s with mdl := { s.mdl with bar2 := n } } else s)) ∧
    ∀ off n, off < 0x1C0 → (n ≠ 8 ∨ off % 8 ≠ 0) →
      exec (.registerWrite off (.bar0 n v)) s = .next (s.event 11 0xFF (BitVec.ofNat 32 off) 2))

/-- Flits (R346, R367, R368, R370): a sequenced flit takes the next number and is held until an acknowledgement covers
it; with 1,024 flits held a new one waits; a type from 5 on is neither sent nor taken (R367 leaves these types open:
the model's choice, log 44). A flit that fails its CRC is
counted, recorded and answered by a replay request; one that is next in order is delivered, a duplicate is discarded, and
a gap is answered by a replay request; a request that is next in order is answered by the replay of every held flit, as
are 2 µs without an advance of ACK.

Lanes (R346, R369, R370, R384): with a whole half left the link trains on it within 100 µs and LINK_DEGRADE is
raised, with none it is down and LINK_DOWN is raised; FEC blocks are counted, and more than 16 uncorrectable ones of a
lane within 1 ms fail it; training ends on what is free of failed lanes, with a replay, or, where no half is, with the
link down and LINK_DOWN raised; RETRAIN and training keep the sequence state.

The counters of a link, of which a host read returns and clears what it takes (an open choice, log 7), but for the
events of its own clock (R6, R7, R370), and writes that arrive through a link (R372): they are made in order, translated with W required, up to
the first that is beyond INLIM, faults, or finds the window closed; that one answers the command with REMOTE, and what
follows of the command is not made; a command whose writes were all made is answered as complete. -/
def Obligations.LinksDeliver : Prop :=
 ((∀ f : Flit, f.payload.length = 244 → (flitBytes f).length = 256 ∧ flitOf (flitBytes f) = some f) ∧
  (∀ (k : Link) (a : BitVec 16) (now : Nat),
    ((a = k.acked ∨ 2 ^ 15 ≤ (a - k.acked).toNat) → k.ackBy a now = k) ∧
    (a ≠ k.acked → (a - k.acked).toNat < 2 ^ 15 → k.ackBy a now = { k with
      acked := a, ackAt := now, replay := k.replay.filter fun f => !decide ((a - f.seq).toNat < 2 ^ 15) })) ∧
  ∀ (s : State) (l : Nat), l < 16 → (s.mdl.link l).en = true → s.mdl.featAccept0.getLsbD 0 = true →
    2 ≤ (s.mdl.link l).state.toNat →
    let k := s.mdl.link l
    let flit (k : Link) (ty : BitVec 4) (stream : BitVec 20) (p : List Byte) : Flit :=
      ⟨k.txSeq, k.rxSeq, ty, BitVec.ofNat 8 p.length, stream, p⟩
    let sent (k : Link) (ty : BitVec 4) (stream : BitVec 20) (p : List Byte) : Link := { k with
      txSeq := k.txSeq + 1, replay := k.replay ++ [flit k ty stream p], wire := k.wire ++ [flitBytes (flit k ty stream p)] }
    let asks (k q : Link) : Prop := if k.replay.length < 1024 then { q with ackAt := k.ackAt } = sent k 4 0 [] else q = k
    let again (k : Link) : Link := { k with
      wire := k.wire ++ k.replay.map (fun f => flitBytes { f with ack := k.rxSeq }), replays := k.replays.add s.now }
    (∀ ty stream (p : List Byte), p.length ≤ 244 → (ty = 1 ∨ ty = 2) → k.outq = [] →
      (1024 ≤ k.replay.length → exec (.flitTransmit l ty stream p) s =
        .next (s.modLink l fun k => { k with outq := [(ty, stream, p)] })) ∧
      (k.replay.length < 1024 → ∃ t, exec (.flitTransmit l ty stream p) s = .next t ∧
        { t.mdl.link l with ackAt := k.ackAt } = sent k ty stream p)) ∧
    (∀ stream (p : List Byte), p.length ≤ 244 → ∃ t, exec (.flitTransmit l 4 stream p) s = .next t ∧
      (k.replay.length < 1024 → { t.mdl.link l with ackAt := k.ackAt } = sent k 4 stream p) ∧
      (1024 ≤ k.replay.length → t = s)) ∧
    (∀ ty stream (p : List Byte), p.length ≤ 244 → (ty = 0 ∨ ty = 3) →
      exec (.flitTransmit l ty stream p) s = .next (s.modLink l fun k => { k with
        wire := k.wire ++ [flitBytes ⟨0, k.rxSeq, ty, BitVec.ofNat 8 p.length, stream, p⟩] })) ∧
    (∀ ty stream (p : List Byte), (5 ≤ ty.toNat ∨ 244 < p.length) → exec (.flitTransmit l ty stream p) s = .next s) ∧
    (∀ (body : List Byte) (crc : BitVec 32), let raw := body ++ bytesLE 4 crc.toNat
      flitOf raw = none → ∃ t, exec (.flitReceive l body crc) s = .next t ∧
      asks { k with crcErr := k.crcErr.add s.now } (t.mdl.link l) ∧
      (t.die (linkDie l)).banks = bankRecord (s.die (linkDie l)).banks 0x18 false (BitVec.ofNat 16 (256 + l))
        (BitVec.ofNat 64 (numLE (raw.take 2)))) ∧
    (∀ (body : List Byte) (crc : BitVec 32) (f : Flit), flitOf (body ++ bytesLE 4 crc.toNat) = some f →
      (5 ≤ f.ty.toNat → exec (.flitReceive l body crc) s = .next s) ∧
      (f.ty.toNat < 5 → k.outq = [] → ∃ t, exec (.flitReceive l body crc) s = .next t ∧
        let q := k.ackBy f.ack s.now
        let r := t.mdl.link l
        ((f.ty = 0 ∨ f.ty = 3) → r = q) ∧
        ((f.ty = 1 ∨ f.ty = 2) → f.seq = k.rxSeq + 1 → r = { q with
          rxSeq := f.seq, delivered := k.delivered ++ [(f.stream, f.payload.take f.len.toNat)] }) ∧
        (f.ty = 4 → f.seq = k.rxSeq + 1 → r = again { q with rxSeq := f.seq }) ∧
        (f.ty ≠ 0 → f.ty ≠ 3 → f.seq ≠ k.rxSeq + 1 →
          ((k.rxSeq - f.seq).toNat < 2 ^ 15 → r = q) ∧ (2 ^ 15 ≤ (k.rxSeq - f.seq).toNat → asks q r)))) ∧
    (k.replay = [] → exec (.replayTimeout l) s = .next s) ∧
    (k.replay ≠ [] → s.now < k.ackAt + Config.replay →
      exec (.replayTimeout l) s = .next (s.later (k.ackAt + Config.replay - s.now) (.replayTimeout l))) ∧
    (k.replay ≠ [] → k.ackAt + Config.replay ≤ s.now → exec (.replayTimeout l) s =
      .next ((s.modLink l fun k => { again k with ackAt := s.now }).later Config.replay (.replayTimeout l)))) ∧
 (∀ (s : State) (l : Nat), l < 16 → (s.mdl.link l).en = true → s.mdl.featAccept0.getLsbD 0 = true →
    let k := s.mdl.link l
    let d := linkDie l
    let kept (t : State) : Prop := (t.mdl.link l).txSeq = k.txSeq ∧ (t.mdl.link l).rxSeq = k.rxSeq ∧
      (t.mdl.link l).acked = k.acked ∧ (t.mdl.link l).replay = k.replay ∧ (t.mdl.link l).delivered = k.delivered
    let trains (u : State) : State :=
      let p := u.pick Config.training
      p.2.later (min 240000 (max 1 p.1)) (.linkTrainingComplete l)
    (∀ lane < 16,
      (k.failed.getLsbD lane = true → exec (.laneFailure l (.lockLost lane)) s = .next s) ∧
      (k.failed.getLsbD lane = false → ∃ (m : BitVec 16) (t : State),
        (∀ j < 16, m.getLsbD j = (k.failed.getLsbD j || decide (j = lane))) ∧
        exec (.laneFailure l (.lockLost lane)) s = .next t ∧ kept t ∧ (t.mdl.link l).failed = m ∧
        let down : Prop := slice m 7 0 ≠ 0 ∧ slice m 15 8 ≠ 0
        let u (st : BitVec 3) : State := (s.modLink l fun k => { k with failed := m, state := st }).yewAdd d 6 0xFF
          (BitVec.ofNat 32 l) (m.setWidth 64) 0
        (down → (t.mdl.link l).state = 0 ∧
          t = (((u 0).recordUe d 0 0x18 (BitVec.ofNat 16 (768 + l)) (m.setWidth 64)).event 14 d (BitVec.ofNat 32 l)
            (m.setWidth 64)).linkLost l) ∧
        (¬down → (t.mdl.link l).state = 1 ∧
          t = trains (((u 1).bankAdd d 0 0x18 false (BitVec.ofNat 16 (512 + l)) (m.setWidth 64)).event 13 d
            (BitVec.ofNat 32 l) (m.setWidth 64)))) ∧
      ∀ corr uncorr : Nat,
        let log := if uncorr = 0 then k.fecLog
          else (lane, s.now, uncorr) :: k.fecLog.filter fun e => decide (s.now < e.2.1 + 2400000)
        let u := s.modLink l fun k => { k with
          corr := k.corr.addN s.now corr, uncorr := k.uncorr.addN s.now uncorr, fecLog := log }
        let fails := uncorr ≠ 0 ∧ 16 < ((log.filter fun e => e.1 == lane).map fun e => e.2.2).sum
        (¬fails → exec (.laneFailure l (.fec lane corr uncorr)) s = .next u) ∧
        (fails → exec (.laneFailure l (.fec lane corr uncorr)) s = exec (.laneFailure l (.lockLost lane)) u)) ∧
    (2 ≤ k.state.toNat → exec (.linkTrainingComplete l) s = .next s) ∧
    (k.state.toNat < 2 → ∃ t, exec (.linkTrainingComplete l) s = .next t ∧
      (t.mdl.link l).state = (if k.failed = 0 then 2 else if slice k.failed 7 0 = 0 then 3
        else if slice k.failed 15 8 = 0 then 4 else 0) ∧
      (slice k.failed 7 0 ≠ 0 → slice k.failed 15 8 ≠ 0 →
        t = ((((s.modLink l fun k => { k with state := 0 }).yewAdd d 6 0xFF (BitVec.ofNat 32 l) (k.failed.setWidth 64)
          0).recordUe d 0 0x18 (BitVec.ofNat 16 (768 + l)) (k.failed.setWidth 64)).event 14 d (BitVec.ofNat 32 l)
            (k.failed.setWidth 64)).linkLost l) ∧
      (k.outq = [] → kept t ∧ ((t.mdl.link l).state ≠ 0 →
        (t.mdl.link l).wire = k.wire ++ k.replay.map (fun f => flitBytes { f with ack := k.rxSeq })))) ∧
    ∀ locked : BitVec 16, ∃ t, exec (.lctlRetrain l locked) s = .next t ∧ kept t ∧
      t = trains (s.modLink l fun k => { k with failed := ~~~locked, state := 1 })) ∧
 ((∀ (s : State) (l : Nat), l < 16 →
    let z := s.pick 0
    let seen (v : Tally) : Nat := (if v.at_ = s.now then v.before else v.total).toNat
    let left (v : Tally) : Tally := if v.at_ = s.now then ⟨v.recent, s.now, 0, v.recent⟩ else ⟨0, s.now, 0, 0⟩
    let low := z.1 < 2
    let high := z.1 ≠ 1
    let k := s.mdl.link l
    let bytes (a b : Nat) : List Byte := (if low then bytesLE 4 a else []) ++ if high then bytesLE 4 b else []
    exec (.lcntRead l) s = .next
      ((z.2.modMdl fun m => { m with resp := ⟨bytes (seen k.replays) (seen k.crcErr), false⟩ }).modLink l fun k => { k with
        replays := if low then left k.replays else k.replays, crcErr := if high then left k.crcErr else k.crcErr }) ∧
    exec (.feccntRead l) s = .next
      ((z.2.modMdl fun m => { m with resp := ⟨bytes (seen k.corr) (seen k.uncorr), false⟩ }).modLink l fun k => { k with
        corr := if low then left k.corr else k.corr, uncorr := if high then left k.uncorr else k.uncorr })) ∧
  ∀ (s : State) (l : Nat) (cmd : BitVec 20) (off : Nat) (last : Bool), l < 16 →
    let k := s.mdl.link l
    let w (off : Nat) (r : List Byte) (s : State) := exec (.inboundWrite l ⟨cmd, off, last⟩ r) s
    let remote := s.modLink l fun k => { k with
      answers := k.answers ++ [(cmd, false)], refused := if last then k.refused else cmd :: k.refused }
    (∀ r, cmd ∈ k.refused → w off r s = .next (if last then s.modLink l fun k => { k with
      refused := k.refused.filter fun c => c != cmd } else s)) ∧
    (cmd ∉ k.refused →
      (∀ r, k.inEn = false → w off r s = .next remote) ∧
      (k.inEn = true →
        w off [] s = .next (if last then s.modLink l fun k => { k with answers := k.answers ++ [(cmd, true)] } else s) ∧
        ∀ (b : Byte) (r : List Byte),
          let x := s.xlate (k.inBase.setWidth 64 <<< 16 + BitVec.ofNat 64 off) ⟨false, true, false⟩
          (k.inLim.toNat ≤ off ∨ (∃ f, x = .error f) → w off (b :: r) s = .next remote) ∧
          ∀ p q, off < k.inLim.toNat → x = .ok (p, q) → w off (b :: r) s = w (off + 1) r (s.physWrite p [b]))))

/-! ## Power, start-up and debug -/

/-- Clock patterns (R373, R377, R378): a change takes effect at a master clock that is a multiple of 16, and is the
programmed pattern under the masks of the stages in force, 0 acting as 1. That stages 5 and 6 hold on a
derated die while its last measured current is over the limit is the model's reading, log 51.

Energy (R7, R374, R376, R379): a refill gives every core its grant, up to four times, and does not cut a balance that
stands above that; a new grant holds only while stage 3 is in force, and changes no more 600,000 clocks after the last
command or stage (the model's reading, log 80); the counter of a die stops at its largest value and sets SAT; a read
returns the count before its clock, and a 4-byte read of the low half latches the high one for the next read of it (which part is read is an open
choice, log 7).

Power steps (R375 to R378, R380, R384): the newest command counts, and of two in one clock the higher; its level is
in force at once, with a Yew entry and new patterns, and SETTLED falls where the target does. The controller estimates
every 10 µs: figures that come sooner have no effect. An estimate above the
target takes one stage more, one with 5 % of headroom one less; a stage taken or released sets EVT.THROTTLE in every
context, below stage 3 every grant is free, and where stage 2 comes into force the commands that run are given 4 clocks
for every request left. A lost phase lowers the limit, raises DERATE, and holds stages 5 and 6
on the die while its draw exceeds it; and a power failure stops the device for good but for a reset. The model's
reading: one stage for an estimate, the level in force at once, and when estimates come (log 51), the contents of Yew
entries of codes 7 and 8 (log 49), and their order in flash, oldest first and die by die (log 50). -/
def Obligations.PowerAndClocks : Prop :=
 (∀ (s : State) (d : Nat), d < 64 →
    (s.now % 16 ≠ 0 → exec (.clkpatUpdate d) s = .next (s.later (16 - s.now % 16) (.clkpatUpdate d))) ∧
    (s.now % 16 = 0 → ∃ v : BitVec 48, exec (.clkpatUpdate d) s = .next (s.modDie d fun k => { k with effPat := v }) ∧
      ∀ i < 3,
        let five := 5 ≤ s.mdl.pStage.toNat ∨ ((s.die d).derated = true ∧ (s.die d).overLim = true)
        let six := 6 ≤ s.mdl.pStage.toNat ∨ ((s.die d).derated = true ∧ (s.die d).overLim = true)
        let p := (s.die d).pat.extractLsb' (16 * i) 16 &&&
          (if five then (vget s.mdl.plim s.mdl.pLvl.toNat 0).extractLsb' 16 16 else 0xFFFF) &&&
          (if six then 0x5555 else 0xFFFF)
        v.extractLsb' (16 * i) 16 = if p = 0 then 1 else p)) ∧
 ((∀ s : State, ∃ t, exec .energyRefill s = .next t ∧ { t with cores := s.cores } = s ∧
    ∀ c < 768,
      let g : Int := max 1 (s.core c).grant.toNat
      let b := (s.core c).balance
      t.core c = { s.core c with balance := if 4 * g < b then b else min (b + g) (4 * g) }) ∧
  (∀ (s : State) (c : Nat) (v : BitVec 32), c < 768 → exec (.grantUpdate c v) s = .next (
    if s.mdl.pStage.toNat < 3 then s.modCore c fun k => { k with grant := 0xFFFFFFFF }
    else if s.now ≤ max s.mdl.pAt s.mdl.pStageAt + 600000 then s.modCore c fun k => { k with grant := v }
    else s)) ∧
  ∀ (s : State) (d : Nat), d < 64 →
    let k := s.die d
    let seen := if k.energyWas.1 = s.now then k.energyWas.2.1 else k.energy
    let sat := if k.energyWas.1 = s.now then k.energyWas.2.2 else k.energySat
    let high : BitVec 32 := seen.extractLsb' 32 32
    let z := s.pick 0
    (∀ n, ∃ t, exec (.energyCount d n) s = .next t ∧ (t.die d).energyWas = (s.now, seen, sat) ∧
      (t.die d).energy.toNat = min (2 ^ 64 - 1) (k.energy.toNat + n) ∧
      ((t.die d).energySat = true ↔ k.energySat = true ∨ 2 ^ 64 - 1 ≤ k.energy.toNat + n)) ∧
    exec (.energyReadLow d) s = .next ((z.2.modMdl fun m => { m with
      resp := ⟨if z.1 = 0 then bytesLE 8 seen.toNat else if z.1 = 1 then bytesLE 4 (seen.toNat % 2 ^ 32)
        else bytesLE 4 (k.energyLatch.getD high).toNat, false⟩ }).modDie d fun k => { k with
      energyLatch := if z.1 = 0 then k.energyLatch else if z.1 = 1 then some high else none })) ∧
 ((∀ (s : State) (v : BitVec 4),
    let target (n : BitVec 4) : Nat := max 1400 ((vget s.mdl.plim n.toNat 0).toNat % 65536)
    let old := s.mdl.pLvl
    let new := if s.mdl.pAt = s.now ∧ v.toNat < s.mdl.pstep.toNat then s.mdl.pstep else v
    let u := s.modMdl fun m => { m with
      pstep := new, pAt := s.now, pLvl := new, pSettled := m.pSettled && decide (target old ≤ target new) }
    (new = old → exec (.pstepWrite v) s = .next u) ∧
    (new ≠ old → ∃ t, exec (.pstepWrite v) s = .next t ∧ t.mdl = u.mdl ∧ t.cores = s.cores ∧ t.mem = s.mem ∧
      ∀ d < 64, (s.now + (16 - s.now % 16), Instr.clkpatUpdate d) ∈ t.agenda ∧
        (t.die d).yew = (⟨BitVec.ofNat 64 s.now, 7, BitVec.ofNat 8 d, 0xFF, new.setWidth 32, 0, 0⟩ ::
          (s.die d).yew).take 4096)) ∧
  (∀ (s : State) (watts avg : Nat) (draws : List (Nat × Nat)),
    let m := s.mdl
    let target := max 1400 ((vget m.plim m.pLvl.toNat 0).toNat % 65536)
    let k : BitVec 3 := if target < watts then (if m.pStage.toNat < 6 then m.pStage + 1 else 6)
      else if 100 * watts ≤ 95 * target ∧ m.pStage ≠ 0 then m.pStage - 1 else m.pStage
    let kept (d : Nat) : Die := if m.pStage.toNat < 2 ∧ 2 ≤ k.toNat then { s.die d with
        cmds := (s.die d).cmds.map fun q =>
          if q.running && q.result.isNone then { q with paced := s.now + 4 * s.requestsLeft q } else q }
      else s.die d
    (s.now < m.pEstAt + 24000 → exec (.powerEstimate ⟨watts, avg⟩ draws) s = .next s) ∧
    (m.pEstAt + 24000 ≤ s.now → ∃ t, exec (.powerEstimate ⟨watts, avg⟩ draws) s = .next t ∧
      t.mdl = { m with pStage := k, pSettled := decide (avg ≤ target), pEstAt := s.now,
                       pStageAt := if k = m.pStage then m.pStageAt else s.now } ∧
      (∀ c < 768, ∀ x, (t.ctx c x).evt = if k = m.pStage then (s.ctx c x).evt else (s.ctx c x).evt ||| 2) ∧
      (∀ c < 768, (t.core c).grant = if k ≠ m.pStage ∧ k.toNat < 3 then 0xFFFFFFFF else (s.core c).grant) ∧
      (∀ c < 768, ∀ x, (t.ctx c x).regs = (s.ctx c x).regs) ∧ t.mem = s.mem ∧
      (k ≠ m.pStage → ∀ d < 64, (s.now + (16 - s.now % 16), Instr.clkpatUpdate d) ∈ t.agenda) ∧
      (∀ d < 64, (∀ e ∈ draws, e.1 ≠ d) → t.die d = kept d) ∧
      ∀ d < 64, ∀ a, draws = [(d, a)] → t.die d = { kept d with
        overLim := if (s.die d).derated then decide ((s.die d).railLim.toNat < a) else (s.die d).overLim })) ∧
  (∀ (s : State) (d : Nat) (p : BitVec 8) (v : BitVec 16) (draw : Nat), d < 64 →
    let u := ((s.modDie d fun k => { k with
      phases := p, railLim := v, derated := true, overLim := decide (v.toNat < draw) }).event 12 d (v.setWidth 32)
        0).yewAdd d 5 0xFF (v.setWidth 32) 0 0
    exec (.regulatorPhaseLoss d p v draw) s = .next (u.later (16 - u.now % 16) (.clkpatUpdate d))) ∧
  ∀ s : State,
    (s.mdl.halted = true → exec .powerFail s = .next s) ∧
    (s.mdl.halted = false → ∃ t, exec .powerFail s = .next t ∧ t.mdl.halted = true ∧ t.mem = s.mem ∧
      t.cores = s.cores ∧
      let ys := (List.range 64).flatMap fun d => (t.die d).yew.reverse
      t.mdl.flash.take (16 + 32 * ys.length) = bytesLE 4 1 ++ bytesLE 4 ys.length ++ List.replicate 8 0 ++
        ys.flatMap (fun e => bytesLE 32 e.word) ∧
      ∀ d < 64, (t.die d).yew = (⟨BitVec.ofNat 64 s.now, 8, BitVec.ofNat 8 d, 0xFF, 0, 0, 0⟩ ::
        (s.die d).yew).take 4096) ∧
    ∀ n i r, s.mdl.halted = true → s.agenda = (n, i) :: r → n ≤ s.now → i ≠ .moduleReset →
      step s = .next { s with agenda := r })

/-- Start-up (R36, R381 to R384): module reset, the image check, HBM training, self-test and acceptance, with the count
of failed starts; after the third in a row, be it the image's, HBM training's or self-test's own, self-test leaves one
die, the module waits for acceptance in phase 4, runs in phase 6 once FEAT_ACCEPT1 has been written, and the count
stands. The model's reading, log 52: an earlier failed start ends in phase 7, the die left is the lowest that is fit,
and the phases and the count of a minimal start.

DBGCTL (R331, R332, R383): ignored while debug is off; HALT halts at the next bundle boundary; STEP lets one
bundle issue while halted; and a step is done when its bundle has issued and, under DRAIN, its work is over. -/
def Obligations.StartUpAndDebug : Prop :=
 ((∀ s : State, ∃ t, exec .moduleReset s = .next t ∧ t.mdl.phase = 0 ∧ t.mdl.phaseAt 1 = 1 ∧ t.mdl.gen = 0 ∧ t.mem = [] ∧
    t.cores = State.reset.cores ∧ t.dies = State.reset.dies ∧ t.mdl.fails = s.mdl.flashFails ∧
    t.mdl.flash = s.mdl.flash ∧ t.mdl.hostMem = s.mdl.hostMem) ∧
  (∀ (s : State) (i : ConfigImage), (s.mdl.phase = 0 ∨ s.mdl.phase = 1) → i.plim.length = 16 →
    (∀ e ∈ i.plim, 4 ≤ (List.range 16).countP (fun n => e.1.getLsbD n) ∧
      (List.range 16).countP (fun n => e.1.getLsbD n) ≤ 15) →
    ∃ t, exec (.imageCheck 0 i) s = .next t ∧ t.mdl.phase = 2 ∧ t.mdl.ilv = i.ilv ∧ t.mdl.modid = i.modid ∧
      (∀ n < 16, ∀ e, i.plim[n]? = some e → slice (vget t.mdl.plim n 0) 31 16 = e.1.toNat ∧
        slice (vget t.mdl.plim n 0) 15 0 = e.2.toNat) ∧ t.mdl.repairs = i.repairs ∧
      (∀ l < 16, (t.mdl.link l).en = i.linkEn.getLsbD l) ∧
      ∀ d < 64, (t.die d).ret = (if i.retired.contains d then 7 else 0) ∧
        (t.die d).patrol = if d < 16 ∨ 48 ≤ d then i.patrol else 0) ∧
  (∀ (s : State) (code : BitVec 8) (i : ConfigImage), (s.mdl.phase = 0 ∨ s.mdl.phase = 1) → code ≠ 0 → s.mdl.bootCode ≠ 5 →
    let u (k : BitVec 8) := if 2 ≤ s.mdl.fails.toNat then
      { s.mdl with flashFails := failCount s.mdl.flashFails, lastFail := k, bootCode := 5, phase := 2 }
      else { s.mdl with flashFails := failCount s.mdl.flashFails, bootCode := k, phase := 7 }
    exec (.imageCheck code i) s = .next { s with mdl := u (if code = 1 then 1 else 2) }) ∧
  (∀ n : BitVec 2, (failCount n).toNat = min 3 (n.toNat + 1)) ∧
  (∀ (s : State) (v : BitVec 32), s.mdl.phase = 2 →
    exec (.hbmTraining v true) s = .next { s with mdl := { s.mdl with trained := v, phase := 3 } } ∧
    (s.mdl.bootCode ≠ 5 → s.mdl.fails.toNat < 2 → exec (.hbmTraining v false) s = .next { s with mdl := { s.mdl with
      trained := v, flashFails := failCount s.mdl.flashFails, bootCode := 3, phase := 7 } }) ∧
    (s.mdl.bootCode ≠ 5 → 2 ≤ s.mdl.fails.toNat → exec (.hbmTraining v false) s = .next { s with mdl := { s.mdl with
      trained := v, flashFails := failCount s.mdl.flashFails, lastFail := 3, bootCode := 5, phase := 3 } }) ∧
    (s.mdl.bootCode = 5 → exec (.hbmTraining v false) s =
      .next { s with mdl := { s.mdl with trained := v, phase := 3 } })) ∧
  (∀ (s : State) (v : BitVec 64), s.mdl.phase = 3 →
    (s.mdl.bootCode ≠ 5 → (∀ d < 64, s.dieAlive d = true → v.getLsbD d = true) →
      exec (.selfTest v) s = .next { s with mdl := { s.mdl with phase := 4 } }) ∧
    (s.mdl.bootCode ≠ 5 → s.mdl.fails.toNat < 2 → (∃ d < 64, s.dieAlive d = true ∧ v.getLsbD d = false) →
      exec (.selfTest v) s = .next { s with mdl := { s.mdl with
        flashFails := failCount s.mdl.flashFails, bootCode := 4, phase := 7 } }) ∧
    let fit (d : Nat) : Prop := v.getLsbD d = true ∧
      (d < 16 ∧ s.mdl.trained.getLsbD d = true ∨ 48 ≤ d ∧ s.mdl.trained.getLsbD (d - 32) = true)
    ∀ last : BitVec 8, (s.mdl.bootCode = 5 ∧ last = s.mdl.lastFail ∨ s.mdl.bootCode ≠ 5 ∧ 2 ≤ s.mdl.fails.toNat ∧
        (∃ d < 64, s.dieAlive d = true ∧ v.getLsbD d = false) ∧ last = 4) →
    let starts (t : State) : Prop := exec (.selfTest v) s = .next t ∧ t.mdl.bootCode = 5 ∧ t.mdl.lastFail = last ∧
      t.mdl.flashFails = if s.mdl.bootCode = 5 then s.mdl.flashFails else failCount s.mdl.flashFails
    ((∀ d < 64, ¬fit d) → ∃ t, starts t ∧ t.mdl.phase = 7) ∧
    ∀ d < 64, fit d → (∀ e < d, ¬fit e) →
      ∃ t, starts t ∧ t.mdl.phase = 4 ∧ (∀ l < 16, (t.mdl.link l).en = false) ∧
        (t.die d).ret = 0 ∧ (∀ e < 64, e ≠ d → (t.die e).ret = 7) ∧
        (t.die d).yew = (⟨BitVec.ofNat 64 s.now, 9, BitVec.ofNat 8 d, 0xFF, 5, last.setWidth 64, 0⟩ ::
          (s.die d).yew).take 4096) ∧
  ∀ (s : State) (v : Word),
    (s.mdl.phase = 4 → s.mdl.bootCode ≠ 5 → exec (.featAccept1Write v) s = .next { s with mdl := { s.mdl with
      featAccept1 := v &&& s.mdl.featOffer1, phase := 5, flashFails := 0 } }) ∧
    (s.mdl.phase = 4 → s.mdl.bootCode = 5 → exec (.featAccept1Write v) s = .next { s with mdl := { s.mdl with
      featAccept1 := v &&& s.mdl.featOffer1, phase := 6 } }) ∧
    (s.mdl.phase ≠ 4 → exec (.featAccept1Write v) s = .next s)) ∧
 (∀ (s : State) (c : Nat), c < 768 →
    let on := s.mdl.featAccept0.getLsbD 3
    let g := (s.core c).dbg
    (∀ v : Word, exec (.dbgctlHalt c v) s = .next (if on then s.modCore c fun k => { k with dbg := { k.dbg with
        halt := v.getLsbD 0, drain := v.getLsbD 3, halted := v.getLsbD 0 && !k.dbg.stepping,
        stepping := v.getLsbD 0 && k.dbg.stepping } } else s)) ∧
    exec (.dbgctlStep c) s = .next (if on ∧ g.halted then s.modCore c fun k => { k with dbg := { k.dbg with
      halted := false, stepping := true, issued := false, accMark := k.nextAcc, jobMark := k.nextJob,
      cmdMark := s.mdl.nextId } } else s) ∧
    exec (.stepDrainDone c) s = .next (
      if ¬(g.stepping ∧ g.issued) then s
      else if g.drain ∧ s.stepDrained c = false then s.later 1 (.stepDrainDone c)
      else s.modCore c fun k => { k with dbg := { k.dbg with
        stepping := false, issued := false, halted := k.dbg.halt } }))
end

