-- ==== Sys2Proof/Laws/Encoding.lean ====
section
/-!
SUPPORT. The fields of a word of each format are the fields it was made of, and its opcode is the one it
was made with (R109 to R112).
-/
namespace Sys2Proof

theorem fld_eq {w lo n : Nat} {x : BitVec n} (h : w / 2 ^ lo % 2 ^ n = x.toNat) : fld w lo n = x := by
  apply BitVec.eq_of_toNat_eq
  simpa [fld] using h

theorem natBit_eq {w i : Nat} {b : Bool} (h : w / 2 ^ i % 2 = bit b) : natBit w i = b := by
  cases b <;> simp_all [natBit, bit]

theorem bit_le (b : Bool) : bit b ≤ 1 := by cases b <;> decide

theorem guardAt_eq {w p n : Nat} {g : Guard} (hp : w / 2 ^ p % 2 ^ 3 = g.p.toNat)
    (hn : w / 2 ^ n % 2 = bit g.neg) : guardAt w p n = g := by
  cases g
  simp only [guardAt, Guard.mk.injEq]
  exact ⟨fld_eq hp, natBit_eq hn⟩

theorem readR_wordR (op : Nat) (g : Guard) (d a b : BitVec 5) (v : Bool)
    (f : Guard → BitVec 5 → BitVec 5 → BitVec 5 → Bool → Instr) :
    readR (wordR op g d a b v) f = f g d a b v := by
  have := g.p.isLt; have := d.isLt; have := a.isLt; have := b.isLt; have := bit_le v; have := bit_le g.neg
  unfold readR wordR
  rw [guardAt_eq, fld_eq, fld_eq, fld_eq, natBit_eq] <;> omega

theorem wordR_op (op : Nat) (g : Guard) (d a b : BitVec 5) (v : Bool) :
    wordR op g d a b v / 2 ^ 20 = op := by
  have := g.p.isLt; have := d.isLt; have := a.isLt; have := b.isLt; have := bit_le v; have := bit_le g.neg
  unfold wordR
  omega

theorem readI_wordI (op : Nat) (d a : BitVec 5) (i : BitVec 10)
    (f : BitVec 5 → BitVec 5 → BitVec 10 → Instr) :
    readI (wordI op d a i) f = f d a i := by
  have := d.isLt; have := a.isLt; have := i.isLt
  unfold readI wordI
  rw [fld_eq, fld_eq, fld_eq] <;> omega

theorem wordI_op (op : Nat) (d a : BitVec 5) (i : BitVec 10) :
    wordI op d a i / 2 ^ 20 = op := by
  have := d.isLt; have := a.isLt; have := i.isLt
  unfold wordI
  omega

theorem readCI_wordCI (op : Nat) (p : BitVec 3) (c : BitVec 2) (a : BitVec 5) (i : BitVec 10)
    (f : BitVec 3 → BitVec 2 → BitVec 5 → BitVec 10 → Instr) :
    readCI (wordCI op p c a i) f = f p c a i := by
  have := p.isLt; have := c.isLt; have := a.isLt; have := i.isLt
  unfold readCI wordCI
  rw [fld_eq, fld_eq, fld_eq, fld_eq] <;> omega

theorem wordCI_op (op : Nat) (p : BitVec 3) (c : BitVec 2) (a : BitVec 5) (i : BitVec 10) :
    wordCI op p c a i / 2 ^ 20 = op := by
  have := p.isLt; have := c.isLt; have := a.isLt; have := i.isLt
  unfold wordCI
  omega

theorem readL_wordL (op : Nat) (d : BitVec 5) (i : BitVec 15)
    (f : BitVec 5 → BitVec 15 → Instr) :
    readL (wordL op d i) f = f d i := by
  have := d.isLt; have := i.isLt
  unfold readL wordL
  rw [fld_eq, fld_eq] <;> omega

theorem wordL_op (op : Nat) (d : BitVec 5) (i : BitVec 15) :
    wordL op d i / 2 ^ 20 = op := by
  have := d.isLt; have := i.isLt
  unfold wordL
  omega

theorem readB_wordB (op : Nat) (g : Guard) (o : BitVec 16)
    (f : Guard → BitVec 16 → Instr) :
    readB (wordB op g o) f = f g o := by
  have := g.p.isLt; have := o.isLt; have := bit_le g.neg
  unfold readB wordB
  rw [guardAt_eq, fld_eq] <;> omega

theorem wordB_op (op : Nat) (g : Guard) (o : BitVec 16) :
    wordB op g o / 2 ^ 20 = op := by
  have := g.p.isLt; have := o.isLt; have := bit_le g.neg
  unfold wordB
  omega

theorem readC_wordC (op : Nat) (g : Guard) (p : BitVec 3) (c : BitVec 2) (a b : BitVec 5) (v : Bool)
    (f : BitVec 3 → BitVec 2 → BitVec 5 → BitVec 5 → Guard → Bool → Instr) :
    readC (wordC op g p c a b v) f = f p c a b g v := by
  have := g.p.isLt; have := p.isLt; have := c.isLt; have := a.isLt; have := b.isLt; have := bit_le g.neg; have := bit_le v
  unfold readC wordC
  rw [fld_eq, fld_eq, fld_eq, fld_eq, guardAt_eq, natBit_eq] <;> omega

theorem wordC_op (op : Nat) (g : Guard) (p : BitVec 3) (c : BitVec 2) (a b : BitVec 5) (v : Bool) :
    wordC op g p c a b v / 2 ^ 20 = op := by
  have := g.p.isLt; have := p.isLt; have := c.isLt; have := a.isLt; have := b.isLt; have := bit_le g.neg; have := bit_le v
  unfold wordC
  omega

theorem readP_wordP (op : Nat) (d a b : BitVec 3) (t : BitVec 4)
    (f : BitVec 3 → BitVec 3 → BitVec 3 → BitVec 4 → Instr) :
    readP (wordP op d a b t) f = f d a b t := by
  have := d.isLt; have := a.isLt; have := b.isLt; have := t.isLt
  unfold readP wordP
  rw [fld_eq, fld_eq, fld_eq, fld_eq] <;> omega

theorem wordP_op (op : Nat) (d a b : BitVec 3) (t : BitVec 4) :
    wordP op d a b t / 2 ^ 20 = op := by
  have := d.isLt; have := a.isLt; have := b.isLt; have := t.isLt
  unfold wordP
  omega

theorem readM_wordM (op : Nat) (k : BitVec 4) (d b : BitVec 5) (g : Guard) (o : BitVec 8)
    (f : BitVec 4 → BitVec 5 → BitVec 5 → Guard → BitVec 8 → Instr) :
    readM (wordM op k d b g o) f = f k d b g o := by
  have := k.isLt; have := d.isLt; have := b.isLt; have := g.p.isLt; have := o.isLt; have := bit_le g.neg
  unfold readM wordM
  rw [fld_eq, fld_eq, fld_eq, guardAt_eq, fld_eq] <;> omega

theorem wordM_op (op : Nat) (k : BitVec 4) (d b : BitVec 5) (g : Guard) (o : BitVec 8) :
    wordM op k d b g o / 2 ^ 26 = op := by
  have := k.isLt; have := d.isLt; have := b.isLt; have := g.p.isLt; have := o.isLt; have := bit_le g.neg
  unfold wordM
  omega

theorem readMX_wordMX (op : Nat) (k : BitVec 4) (d b : BitVec 5) (g : Guard) (x : BitVec 5) (s : BitVec 3)
    (f : BitVec 4 → BitVec 5 → BitVec 5 → Guard → BitVec 5 → BitVec 3 → Instr) :
    readMX (wordMX op k d b g x s) f = f k d b g x s := by
  have := k.isLt; have := d.isLt; have := b.isLt; have := g.p.isLt; have := x.isLt; have := s.isLt; have := bit_le g.neg
  unfold readMX wordMX
  rw [fld_eq, fld_eq, fld_eq, guardAt_eq, fld_eq, fld_eq] <;> omega

theorem wordMX_op (op : Nat) (k : BitVec 4) (d b : BitVec 5) (g : Guard) (x : BitVec 5) (s : BitVec 3) :
    wordMX op k d b g x s / 2 ^ 26 = op := by
  have := k.isLt; have := d.isLt; have := b.isLt; have := g.p.isLt; have := x.isLt; have := s.isLt; have := bit_le g.neg
  unfold wordMX
  omega

theorem readMA_wordMA (op : Nat) (k : BitVec 4) (d b : BitVec 5) (g : Guard) (sc : BitVec 3) (o : BitVec 5)
    (f : BitVec 4 → BitVec 5 → BitVec 5 → Guard → BitVec 3 → BitVec 5 → Instr) :
    readMA (wordMA op k d b g sc o) f = f k d b g sc o := by
  have := k.isLt; have := d.isLt; have := b.isLt; have := g.p.isLt; have := sc.isLt; have := o.isLt; have := bit_le g.neg
  unfold readMA wordMA
  rw [fld_eq, fld_eq, fld_eq, guardAt_eq, fld_eq, fld_eq] <;> omega

theorem wordMA_op (op : Nat) (k : BitVec 4) (d b : BitVec 5) (g : Guard) (sc : BitVec 3) (o : BitVec 5) :
    wordMA op k d b g sc o / 2 ^ 26 = op := by
  have := k.isLt; have := d.isLt; have := b.isLt; have := g.p.isLt; have := sc.isLt; have := o.isLt; have := bit_le g.neg
  unfold wordMA
  omega

theorem readMT_wordMT (op : Nat) (k : BitVec 4) (d b : BitVec 5) (g : Guard) (h : BitVec 4) (z : Bool) (sc : BitVec 3)
    (f : BitVec 4 → BitVec 5 → BitVec 5 → Guard → BitVec 4 → Bool → BitVec 3 → Instr) :
    readMT (wordMT op k d b g h z sc) f = f k d b g h z sc := by
  have := k.isLt; have := d.isLt; have := b.isLt; have := g.p.isLt; have := h.isLt; have := sc.isLt; have := bit_le g.neg; have := bit_le z
  unfold readMT wordMT
  rw [fld_eq, fld_eq, fld_eq, guardAt_eq, fld_eq, natBit_eq, fld_eq] <;> omega

theorem wordMT_op (op : Nat) (k : BitVec 4) (d b : BitVec 5) (g : Guard) (h : BitVec 4) (z : Bool) (sc : BitVec 3) :
    wordMT op k d b g h z sc / 2 ^ 26 = op := by
  have := k.isLt; have := d.isLt; have := b.isLt; have := g.p.isLt; have := h.isLt; have := sc.isLt; have := bit_le g.neg; have := bit_le z
  unfold wordMT
  omega

theorem readAL_wordAL (op : Nat) (d : BitVec 5) (i : BitVec 17)
    (f : BitVec 5 → BitVec 17 → Instr) :
    readAL (wordAL op d i) f = f d i := by
  have := d.isLt; have := i.isLt
  unfold readAL wordAL
  rw [fld_eq, fld_eq] <;> omega

theorem wordAL_op (op : Nat) (d : BitVec 5) (i : BitVec 17) :
    wordAL op d i / 2 ^ 26 = op := by
  have := d.isLt; have := i.isLt
  unfold wordAL
  omega

theorem readAC_wordAC (op : Nat) (p : BitVec 3) (c : BitVec 2) (a : BitVec 5) (g : Guard) (b : BitVec 5) (v : Bool)
    (f : BitVec 3 → BitVec 2 → BitVec 5 → Guard → BitVec 5 → Bool → Instr) :
    readAC (wordAC op p c a g b v) f = f p c a g b v := by
  have := p.isLt; have := c.isLt; have := a.isLt; have := g.p.isLt; have := b.isLt; have := bit_le g.neg; have := bit_le v
  unfold readAC wordAC
  rw [fld_eq, fld_eq, fld_eq, guardAt_eq, fld_eq, natBit_eq] <;> omega

theorem wordAC_op (op : Nat) (p : BitVec 3) (c : BitVec 2) (a : BitVec 5) (g : Guard) (b : BitVec 5) (v : Bool) :
    wordAC op p c a g b v / 2 ^ 26 = op := by
  have := p.isLt; have := c.isLt; have := a.isLt; have := g.p.isLt; have := b.isLt; have := bit_le g.neg; have := bit_le v
  unfold wordAC
  omega

theorem readF_wordF (op : Nat) (m : BitVec 16) (sc : BitVec 3)
    (f : BitVec 16 → BitVec 3 → Instr) :
    readF (wordF op m sc) f = f m sc := by
  have := m.isLt; have := sc.isLt
  unfold readF wordF
  rw [fld_eq, fld_eq] <;> omega

theorem wordF_op (op : Nat) (m : BitVec 16) (sc : BitVec 3) :
    wordF op m sc / 2 ^ 26 = op := by
  have := m.isLt; have := sc.isLt
  unfold wordF
  omega

theorem readE_wordE (op : Nat) (q l : Bool) (sc : BitVec 3) (t : BitVec 5) (x : BitVec 3) (g : Guard) (y o i j : BitVec 2)
    (f : Bool → Bool → BitVec 3 → BitVec 5 → BitVec 3 → Guard → BitVec 2 → BitVec 2 → BitVec 2 → BitVec 2 → Instr) :
    readE (wordE op q l sc t x g y o i j) f = f q l sc t x g y o i j := by
  have := sc.isLt; have := t.isLt; have := x.isLt; have := g.p.isLt; have := y.isLt; have := o.isLt; have := i.isLt; have := j.isLt; have := bit_le g.neg; have := bit_le q; have := bit_le l
  unfold readE wordE
  rw [natBit_eq, natBit_eq, fld_eq, fld_eq, fld_eq, guardAt_eq, fld_eq, fld_eq, fld_eq, fld_eq] <;> omega

theorem wordE_op (op : Nat) (q l : Bool) (sc : BitVec 3) (t : BitVec 5) (x : BitVec 3) (g : Guard) (y o i j : BitVec 2) :
    wordE op q l sc t x g y o i j / 2 ^ 26 = op := by
  have := sc.isLt; have := t.isLt; have := x.isLt; have := g.p.isLt; have := y.isLt; have := o.isLt; have := i.isLt; have := j.isLt; have := bit_le g.neg; have := bit_le q; have := bit_le l
  unfold wordE
  omega

theorem readV_wordV (op : Nat) (d a b : BitVec 6) (m : BitVec 3) (r : Bool) (s : BitVec 3)
    (f : BitVec 6 → BitVec 6 → BitVec 6 → BitVec 3 → Bool → BitVec 3 → Instr) :
    readV (wordV op d a b m r s) f = f d a b m r s := by
  have := d.isLt; have := a.isLt; have := b.isLt; have := m.isLt; have := s.isLt; have := bit_le r
  unfold readV wordV
  rw [fld_eq, fld_eq, fld_eq, fld_eq, natBit_eq, fld_eq] <;> omega

theorem wordV_op (op : Nat) (d a b : BitVec 6) (m : BitVec 3) (r : Bool) (s : BitVec 3) :
    wordV op d a b m r s / 2 ^ 25 = op := by
  have := d.isLt; have := a.isLt; have := b.isLt; have := m.isLt; have := s.isLt; have := bit_le r
  unfold wordV
  omega

theorem readVX_wordVX (op : Nat) (d : BitVec 6) (i : BitVec 12) (m s : BitVec 3)
    (f : BitVec 6 → BitVec 12 → BitVec 3 → BitVec 3 → Instr) :
    readVX (wordVX op d i m s) f = f d i m s := by
  have := d.isLt; have := i.isLt; have := m.isLt; have := s.isLt
  unfold readVX wordVX
  rw [fld_eq, fld_eq, fld_eq, fld_eq] <;> omega

theorem wordVX_op (op : Nat) (d : BitVec 6) (i : BitVec 12) (m s : BitVec 3) :
    wordVX op d i m s / 2 ^ 25 = op := by
  have := d.isLt; have := i.isLt; have := m.isLt; have := s.isLt
  unfold wordVX
  omega

theorem readT_wordT (op : Nat) (d a b : BitVec 4) (i : BitVec 6) (g h : BitVec 4)
    (f : BitVec 4 → BitVec 4 → BitVec 4 → BitVec 6 → BitVec 4 → BitVec 4 → Instr) :
    readT (wordT op d a b i g h) f = f d a b i g h := by
  have := d.isLt; have := a.isLt; have := b.isLt; have := i.isLt; have := g.isLt; have := h.isLt
  unfold readT wordT
  rw [fld_eq, fld_eq, fld_eq, fld_eq, fld_eq, fld_eq] <;> omega

theorem wordT_op (op : Nat) (d a b : BitVec 4) (i : BitVec 6) (g h : BitVec 4) :
    wordT op d a b i g h / 2 ^ 26 = op := by
  have := d.isLt; have := a.isLt; have := b.isLt; have := i.isLt; have := g.isLt; have := h.isLt
  unfold wordT
  omega

theorem readLoop_wordLoopI (l : Bool) (o : BitVec 7) (c : BitVec 10) :
    readLoop (wordLoopI 0x08 l o c) = .loopI l o c := by
  have := o.isLt; have := c.isLt; have := bit_le l
  have h : wordLoopI 0x08 l o c / 2 ^ 17 % 4 = 0 := by unfold wordLoopI; omega
  unfold readLoop
  rw [h]
  show Instr.loopI _ _ _ = _
  unfold wordLoopI
  rw [natBit_eq, fld_eq, fld_eq] <;> omega

theorem readLoop_wordLoopR_1 (l : Bool) (o : BitVec 7) (r n : BitVec 5) :
    readLoop (wordLoopR 0x08 l 1 o r n) = .loopR l o r := by
  have := o.isLt; have := r.isLt; have := n.isLt; have := bit_le l
  have h : wordLoopR 0x08 l 1 o r n / 2 ^ 17 % 4 = 1 := by unfold wordLoopR; omega
  unfold readLoop
  rw [h]
  show Instr.loopR _ _ _ = _
  unfold wordLoopR
  rw [natBit_eq, fld_eq, fld_eq] <;> omega

theorem readLoop_wordLoopR_2 (l : Bool) (o : BitVec 7) (r n : BitVec 5) :
    readLoop (wordLoopR 0x08 l 2 o r n) = .loopSr l o r := by
  have := o.isLt; have := r.isLt; have := n.isLt; have := bit_le l
  have h : wordLoopR 0x08 l 2 o r n / 2 ^ 17 % 4 = 2 := by unfold wordLoopR; omega
  unfold readLoop
  rw [h]
  show Instr.loopSr _ _ _ = _
  unfold wordLoopR
  rw [natBit_eq, fld_eq, fld_eq] <;> omega

theorem readLoop_wordLoopR_3 (l : Bool) (o : BitVec 7) (r : BitVec 5) (n : BitVec 4) :
    readLoop (wordLoopR 0x08 l 3 o r (n.setWidth 5)) = .loopRot l o r n := by
  have := o.isLt; have := r.isLt; have := n.isLt; have := bit_le l
  have hn : (n.setWidth 5).toNat = n.toNat := by
    rw [BitVec.toNat_setWidth]; omega
  have h : wordLoopR 0x08 l 3 o r (n.setWidth 5) / 2 ^ 17 % 4 = 3 := by
    unfold wordLoopR; rw [hn]; omega
  unfold readLoop
  rw [h]
  show Instr.loopRot _ _ _ _ = _
  unfold wordLoopR
  rw [hn, natBit_eq, fld_eq, fld_eq, fld_eq] <;> omega

theorem wordLoopI_op (op : Nat) (l : Bool) (o : BitVec 7) (c : BitVec 10) :
    wordLoopI op l o c / 2 ^ 20 = op := by
  have := o.isLt; have := c.isLt; have := bit_le l
  unfold wordLoopI
  omega

theorem wordLoopR_op (op : Nat) (l : Bool) (src : Nat) (hs : src < 4) (o : BitVec 7) (r n : BitVec 5) :
    wordLoopR op l src o r n / 2 ^ 20 = op := by
  have := o.isLt; have := r.isLt; have := n.isLt; have := bit_le l
  unfold wordLoopR
  omega

/-- Two answers of the decoder are the same, as a test that evaluates. -/
def sameAnswer {ε α : Type} [DecidableEq ε] [DecidableEq α] : Except ε α → Except ε α → Bool
  | .ok a, .ok b => decide (a = b)
  | .error a, .error b => decide (a = b)
  | _, _ => false

theorem eq_of_sameAnswer {ε α : Type} [DecidableEq ε] [DecidableEq α] {x y : Except ε α}
    (h : sameAnswer x y = true) : x = y := by
  cases x <;> cases y <;> simp_all [sameAnswer]

end Sys2Proof
end

