-- ==== Sys2Proof/Laws/Mem.lean ====
section
/-!
SUPPORT. Byte memories: every operation keeps the canonical form, a read after a write, and equality of
canonical memories that read alike.
-/
namespace Sys2Proof.Machine

theorem memWfFrom_mono {lo lo' : Nat} {m : Mem} (h : memWfFrom lo' m = true) (hl : lo ≤ lo') :
    memWfFrom lo m = true := by
  cases m with
  | nil => rfl
  | cons e r =>
    simp only [memWfFrom, Bool.and_eq_true, decide_eq_true_eq] at h ⊢
    exact ⟨⟨by omega, h.1.2⟩, h.2⟩

theorem memWfFrom_memWrite {lo : Nat} {m : Mem} (h : memWfFrom lo m = true) {a : Nat} (ha : lo ≤ a) (v : Byte) :
    memWfFrom lo (memWrite m a v) = true := by
  induction m generalizing lo with
  | nil => by_cases hv : v = 0#8 <;> simp [memWrite, memWfFrom, hv, ha]
  | cons e r ih =>
    obtain ⟨k, b⟩ := e
    simp only [memWfFrom, Bool.and_eq_true, decide_eq_true_eq, bne_iff_ne, ne_eq] at h
    obtain ⟨⟨hk, hb⟩, hr⟩ := h
    unfold memWrite
    split
    · split <;> simp_all [memWfFrom]
    · split
      · split
        · exact memWfFrom_mono hr (by omega)
        · simp_all [memWfFrom]
      · have := ih hr (show k + 1 ≤ a by omega)
        simp_all [memWfFrom]

theorem Mem.wf_nil : Mem.wf [] = true := rfl

theorem wf_memWrite {m : Mem} (h : Mem.wf m = true) (a : Nat) (v : Byte) : Mem.wf (memWrite m a v) = true :=
  memWfFrom_memWrite h (Nat.zero_le a) v

theorem wf_memWriteLE {m : Mem} (h : Mem.wf m = true) (a n v : Nat) : Mem.wf (memWriteLE m a n v) = true := by
  induction n generalizing m a v with
  | zero => exact h
  | succ n ih => exact ih (wf_memWrite h _ _) _ _

theorem wf_memWriteList {m : Mem} (h : Mem.wf m = true) (a : Nat) (l : List Byte) :
    Mem.wf (memWriteList m a l) = true := by
  induction l generalizing m a with
  | nil => exact h
  | cons b r ih => exact ih (wf_memWrite h _ _) _

theorem wf_memWriteCells {m : Mem} (h : Mem.wf m = true) (l : List Host.Cell) :
    Mem.wf (memWriteCells m l) = true := by
  induction l generalizing m with
  | nil => exact h
  | cons e r ih => exact ih (wf_memWrite h _ _)

theorem wf_memZero {m : Mem} (h : Mem.wf m = true) (a n : Nat) : Mem.wf (memZero m a n) = true := by
  induction n generalizing m a with
  | zero => exact h
  | succ n ih => exact ih (wf_memWrite h _ _) _

/-! ## Reads after writes -/

theorem memRead_below {lo : Nat} {m : Mem} (h : memWfFrom lo m = true) {a : Nat} (ha : a < lo) :
    memRead m a = 0 := by
  induction m generalizing lo with
  | nil => rfl
  | cons e r ih =>
    simp only [memWfFrom, Bool.and_eq_true, decide_eq_true_eq] at h
    unfold memRead
    rw [if_neg (by omega)]
    exact ih h.2 (by omega)

theorem memRead_memWrite {lo : Nat} {m : Mem} (h : memWfFrom lo m = true) (a b : Nat) (v : Byte) :
    memRead (memWrite m a v) b = if b = a then v else memRead m b := by
  induction m generalizing lo with
  | nil =>
    by_cases hb : b = a
    · by_cases hv : v = 0#8 <;> simp [memWrite, memRead, hv, hb]
    · by_cases hv : v = 0#8 <;> simp [memWrite, memRead, hv, hb, Ne.symm hb]
  | cons e r ih =>
    obtain ⟨k, w⟩ := e
    simp only [memWfFrom, Bool.and_eq_true, decide_eq_true_eq] at h
    have hr := h.2
    unfold memWrite
    by_cases h1 : a < k
    · rw [if_pos h1]
      by_cases hb : b = a
      · subst hb
        have : memRead r b = 0 := memRead_below hr (by omega)
        by_cases hv : v = 0#8
        · simp [hv, memRead, this]; intro; omega
        · simp [hv, memRead]
      · by_cases hv : v = 0#8 <;> simp [hv, hb, memRead, Ne.symm hb]
    · rw [if_neg h1]
      by_cases h2 : a = k
      · subst h2
        by_cases hb : b = a
        · subst hb
          have : memRead r b = 0 := memRead_below hr (by omega)
          by_cases hv : v = 0#8 <;> simp [hv, memRead, this]
        · by_cases hv : v = 0#8 <;> simp [hv, hb, memRead, Ne.symm hb]
      · rw [if_neg h2]
        by_cases hb : b = a
        · subst hb
          simp [memRead, Ne.symm h2, ih hr]
        · simp [memRead, ih hr, hb]

/-- A read after a write of the same byte gives the value written. -/
theorem memRead_memWrite_same {m : Mem} (h : Mem.wf m = true) (a : Nat) (v : Byte) :
    memRead (memWrite m a v) a = v := by
  simp [memRead_memWrite h]

/-- A write leaves every other byte alone. -/
theorem memRead_memWrite_other {m : Mem} (h : Mem.wf m = true) {a b : Nat} (hb : b ≠ a) (v : Byte) :
    memRead (memWrite m a v) b = memRead m b := by
  simp [memRead_memWrite h, hb]

theorem memRead_memWriteList {m : Mem} (h : Mem.wf m = true) (a b : Nat) (l : List Byte) :
    memRead (memWriteList m a l) b = if a ≤ b then (l[b - a]?).getD (memRead m b) else memRead m b := by
  induction l generalizing m a with
  | nil => simp [memWriteList]
  | cons x r ih =>
    unfold memWriteList
    rw [ih (wf_memWrite h _ _), memRead_memWrite h]
    by_cases h1 : a + 1 ≤ b
    · have e : b - a = (b - (a + 1)) + 1 := by omega
      have hb : b ≠ a := by omega
      have hab : a ≤ b := by omega
      simp [h1, hb, hab, e]
    · by_cases h2 : b = a
      · subst h2; simp
      · have hab : ¬ a ≤ b := by omega
        simp [h1, h2, hab]

/-- Bytes outside a written list are as before. -/
theorem memRead_memWriteList_other {m : Mem} (h : Mem.wf m = true) {a b : Nat} {l : List Byte}
    (hb : b < a ∨ a + l.length ≤ b) : memRead (memWriteList m a l) b = memRead m b := by
  rw [memRead_memWriteList h]
  split
  · rw [List.getElem?_eq_none (by omega)]; rfl
  · rfl

/-- Canonical memories that read alike are equal data. -/
theorem mem_ext_from {lo : Nat} {m m' : Mem} (h : memWfFrom lo m = true) (h' : memWfFrom lo m' = true)
    (e : ∀ a, memRead m a = memRead m' a) : m = m' := by
  induction m generalizing lo m' with
  | nil =>
    cases m' with
    | nil => rfl
    | cons f r =>
      have := e f.1
      simp [memWfFrom] at h'
      simp [memRead] at this
      exact absurd this.symm h'.1.2
  | cons f r ih =>
    cases m' with
    | nil =>
      have := e f.1
      simp [memWfFrom] at h
      simp [memRead] at this
      exact absurd this h.1.2
    | cons g q =>
      obtain ⟨k, b⟩ := f
      obtain ⟨j, c⟩ := g
      simp only [memWfFrom, Bool.and_eq_true, decide_eq_true_eq, bne_iff_ne, ne_eq] at h h'
      have hk : k = j := by
        rcases Nat.lt_trichotomy k j with hlt | heq | hgt
        · have := e k
          simp only [memRead, if_true] at this
          rw [if_neg (by omega), memRead_below h'.2 (by omega)] at this
          exact absurd this h.1.2
        · exact heq
        · have := e j
          simp only [memRead, if_true] at this
          rw [if_neg (by omega), memRead_below h.2 (by omega)] at this
          exact absurd this.symm h'.1.2
      subst hk
      have hb : b = c := by simpa [memRead] using e k
      subst hb
      congr 1
      apply ih h.2 h'.2
      intro a
      by_cases ha : k = a
      · subst ha
        rw [memRead_below h.2 (by omega), memRead_below h'.2 (by omega)]
      · simpa [memRead, ha] using e a

theorem mem_ext {m m' : Mem} (h : Mem.wf m = true) (h' : Mem.wf m' = true)
    (e : ∀ a, memRead m a = memRead m' a) : m = m' := mem_ext_from h h' e

end Sys2Proof.Machine
end

