-- ==== Sys2Proof/Laws/Keep.lean ====
section
/-!
SUPPORT. Keeps (Safety.lean) for the shared operations: no operation over the state moves the time or
takes a memory out of its canonical form.
-/
namespace Sys2Proof.Machine

theorem Keeps.refl (s : State) : Keeps s s := ⟨rfl, rfl, rfl, id⟩

theorem Keeps.trans {s t u : State} (h : Keeps s t) (k : Keeps t u) : Keeps s u :=
  ⟨k.now.trans h.now, k.clk.trans h.clk, k.isOpen.trans h.isOpen, fun m => k.mem (h.mem m)⟩

/-! ## Fields -/

theorem keeps_dies {s u : State} {d : Vector Die 64} (h : Keeps s u) : Keeps s { u with dies := d } :=
  ⟨h.now, h.clk, h.isOpen, fun m => ⟨(h.mem m).mem, (h.mem m).host, (h.mem m).core⟩⟩

theorem keeps_agenda {s u : State} {a : List (Nat × Instr)} (h : Keeps s u) : Keeps s { u with agenda := a } :=
  ⟨h.now, h.clk, h.isOpen, fun m => ⟨(h.mem m).mem, (h.mem m).host, (h.mem m).core⟩⟩

theorem keeps_picks {s u : State} {a : List Nat} (h : Keeps s u) : Keeps s { u with picks := a } :=
  ⟨h.now, h.clk, h.isOpen, fun m => ⟨(h.mem m).mem, (h.mem m).host, (h.mem m).core⟩⟩

theorem keeps_turn {s u : State} {a : Nat} (h : Keeps s u) : Keeps s { u with turn := a } :=
  ⟨h.now, h.clk, h.isOpen, fun m => ⟨(h.mem m).mem, (h.mem m).host, (h.mem m).core⟩⟩

theorem keeps_mem {s u : State} {a : Mem} (ha : Mem.wf u.mem = true → Mem.wf a = true) (h : Keeps s u) :
    Keeps s { u with mem := a } :=
  ⟨h.now, h.clk, h.isOpen, fun m => ⟨ha (h.mem m).mem, (h.mem m).host, (h.mem m).core⟩⟩

theorem keeps_modMdl {s u : State} {f : Module → Module}
    (hf : ∀ m : Module, Mem.wf m.hostMem = true → Mem.wf (f m).hostMem = true) (h : Keeps s u) :
    Keeps s (u.modMdl f) :=
  ⟨h.now, h.clk, h.isOpen, fun m => ⟨(h.mem m).mem, hf _ (h.mem m).host, (h.mem m).core⟩⟩

theorem keeps_modIssue {s u : State} {f : Issue → Issue} (hf : ∀ i, (f i).isOpen = i.isOpen) (h : Keeps s u) :
    Keeps s (u.modIssue f) :=
  ⟨h.now, h.clk, (hf _).trans h.isOpen, fun m => ⟨(h.mem m).mem, (h.mem m).host, (h.mem m).core⟩⟩

theorem keeps_modDie {s u : State} {d : Nat} {f : Die → Die} (h : Keeps s u) : Keeps s (u.modDie d f) :=
  keeps_dies h

/-! ## Cores -/

theorem vget_vset {α : Type} {n : Nat} (v : Vector α n) (i j : Nat) (x d : α) :
    vget (vset v i x) j d = if i = j ∧ i < n then x else vget v j d := by
  unfold vget vset
  by_cases hj : j < n
  · simp only [hj, dite_true, Vector.getElem_setIfInBounds]
    by_cases hij : i = j
    · subst hij; simp [hj]
    · simp [hij]
  · have : ¬ (i = j ∧ i < n) := by rintro ⟨rfl, h⟩; exact hj h
    simp [hj, this]

theorem State.core_setCore (s : State) (c e : Nat) (k : Core) :
    (s.setCore c k).core e = if c = e ∧ c < 768 then k else s.core e := vget_vset _ _ _ _ _

theorem keeps_setCore {s u : State} {c : Nat} {k : Core} (hk : (u.core c).memOk → k.memOk) (h : Keeps s u) :
    Keeps s (u.setCore c k) := by
  refine ⟨h.now, h.clk, h.isOpen, fun m => ⟨(h.mem m).mem, (h.mem m).host, fun e => ?_⟩⟩
  rw [State.core_setCore]
  split
  · exact hk ((h.mem m).core c)
  · exact (h.mem m).core e

theorem keeps_modCore {s u : State} {c : Nat} {f : Core → Core} (hf : ∀ k : Core, k.memOk → (f k).memOk)
    (h : Keeps s u) : Keeps s (u.modCore c f) := keeps_setCore (hf _) h

theorem Core.memOk_setCtx {k : Core} {x : Bool} {t : Ctx} (h : k.memOk) : (k.setCtx x t).memOk := by
  cases x <;> exact h

theorem keeps_setCtx {s u : State} {c : Nat} {x : Bool} {t : Ctx} (h : Keeps s u) : Keeps s (u.setCtx c x t) :=
  keeps_modCore (fun _ => Core.memOk_setCtx) h

theorem keeps_modCtx {s u : State} {c : Nat} {x : Bool} {f : Ctx → Ctx} (h : Keeps s u) :
    Keeps s (u.modCtx c x f) := keeps_setCtx h

theorem keeps_modRegs {s u : State} {c : Nat} {x : Bool} {f : Regs → Regs} (h : Keeps s u) :
    Keeps s (u.modRegs c x f) := keeps_setCtx h

theorem keeps_modWait {s u : State} {c : Nat} {x : Bool} {f : CtxWait → CtxWait} (h : Keeps s u) :
    Keeps s (u.modWait c x f) := keeps_setCtx h

theorem keeps_modMe {s u : State} {f : Ctx → Ctx} (h : Keeps s u) : Keeps s (u.modMe f) := keeps_setCtx h

theorem keeps_coresMap {s u : State} {f : Core → Core} (hf : ∀ k : Core, k.memOk → (f k).memOk)
    (h : Keeps s u) : Keeps s { u with cores := u.cores.map f } := by
  refine ⟨h.now, h.clk, h.isOpen, fun m => ⟨(h.mem m).mem, (h.mem m).host, fun e => ?_⟩⟩
  have := (h.mem m).core e
  unfold State.core vget at this ⊢
  by_cases he : e < 768
  · simp only [he, dite_true, Vector.getElem_map] at this ⊢
    exact hf _ this
  · simp only [he, dite_false] at this ⊢
    exact this

/-! ## Choices, events and folds -/

theorem keeps_later {s u : State} {n : Nat} {i : Instr} (h : Keeps s u) : Keeps s (u.later n i) := keeps_agenda h

theorem keeps_pick {s u : State} {n : Nat} (h : Keeps s u) : Keeps s (u.pick n).2 := by
  unfold State.pick
  split
  · exact h
  · exact keeps_picks h

theorem keeps_laterPick {s u : State} {n : Nat} {i : Instr} (h : Keeps s u) : Keeps s (u.laterPick n i) :=
  keeps_later (keeps_pick h)

theorem keeps_timer {s u : State} {c t : Nat} {i : Instr} (h : Keeps s u) : Keeps s (u.timer c t i) :=
  keeps_modCore (fun _ hk => hk) h

theorem keeps_foldl {α : Type} {s u : State} {l : List α} {f : State → α → State}
    (hf : ∀ v a, Keeps s v → Keeps s (f v a)) (h : Keeps s u) : Keeps s (l.foldl f u) := by
  induction l generalizing u with
  | nil => exact h
  | cons a r ih => exact ih (hf _ _ h)

theorem keeps_ite {p : Prop} [Decidable p] {s a b : State} (ha : Keeps s a) (hb : Keeps s b) :
    Keeps s (if p then a else b) := by split <;> assumption

end Sys2Proof.Machine
end

