-- ==== Sys2Proof/Laws/KeepSlot.lean ====
section
/-!
SUPPORT. Keeps for the parts of operations of slots 0 and 2.
-/
set_option Elab.async false
set_option linter.all false

namespace Sys2Proof.Machine

theorem keeps_result {s u : State} {c : Nat} {x : Bool} {n : Nat} {l : Landing} (h : Keeps s u) : Keeps s (State.result u c x n l) := by
  unfold State.result
  try dsimp only
  repeat' (first
    | with_reducible assumption
    | with_reducible apply keeps_modRegs
    | with_reducible apply keeps_timer
    | exact fun _ hk => hk
    | exact fun _ => rfl
    | intro _
    | split)

theorem keeps_await {s u : State} {c : Nat} {x : Bool} {g : Reg} (h : Keeps s u) : Keeps s (State.await u c x g) := by
  unfold State.await
  try dsimp only
  repeat' (first
    | with_reducible assumption
    | with_reducible apply keeps_modRegs
    | exact fun _ hk => hk
    | exact fun _ => rfl
    | intro _
    | split)

theorem keeps_res {s u : State} {n : Nat} {l : Landing} (h : Keeps s u) : Keeps s (State.res u n l) := by
  unfold State.res
  repeat' (first
    | with_reducible assumption
    | with_reducible apply keeps_result
    | exact fun _ hk => hk
    | exact fun _ => rfl
    | intro _
    | split)

theorem keeps_awaitMe {s u : State} {g : Reg} (h : Keeps s u) : Keeps s (State.awaitMe u g) := by
  unfold State.awaitMe
  repeat' (first
    | with_reducible assumption
    | with_reducible apply keeps_await
    | exact fun _ hk => hk
    | exact fun _ => rfl
    | intro _
    | split)

theorem keeps_stopIf {s u : State} {b : Bool} (h : Keeps s u) : Keeps s (State.stopIf u b) := by
  unfold State.stopIf
  try dsimp only
  repeat' (first
    | with_reducible assumption
    | with_reducible apply keeps_modMe
    | exact fun _ hk => hk
    | exact fun _ => rfl
    | intro _
    | split)

theorem keeps_raiseAll {s u : State} {v : BitVec 3} (h : Keeps s u) : Keeps s (State.raiseAll u v) := by
  unfold State.raiseAll
  try dsimp only
  repeat' (first
    | with_reducible assumption
    | with_reducible apply keeps_coresMap
    | exact fun _ hk => hk
    | exact fun _ => rfl
    | intro _
    | split)

theorem keeps_setFlags {s u : State} {f : Flags} (h : Keeps s u) : Keeps s (State.setFlags u f) := by
  unfold State.setFlags
  try dsimp only
  repeat' (first
    | with_reducible assumption
    | with_reducible apply keeps_modIssue
    | exact fun _ hk => hk
    | exact fun _ => rfl
    | intro _
    | split)

theorem wf_spadPut {k : Core} {m : Mem} (h : Mem.wf m = true) (a : Nat) (l : List Byte) :
    Mem.wf (k.spadPut m a l) = true := by
  induction l generalizing m a with
  | nil => exact h
  | cons b r ih =>
    unfold Core.spadPut
    apply ih
    split
    · exact h
    · exact wf_memWrite h _ _

theorem wf_foldl {α : Type} {l : List α} {f : Mem → α → Mem}
    (hf : ∀ z a, Mem.wf z = true → Mem.wf (f z a) = true) {m : Mem} (h : Mem.wf m = true) :
    Mem.wf (l.foldl f m) = true := by
  induction l generalizing m with
  | nil => exact h
  | cons a r ih => exact ih (hf _ _ h)

theorem memOk_foldl {α : Type} {l : List α} {f : Core → α → Core}
    (hf : ∀ z a, Core.memOk z → Core.memOk (f z a)) {m : Core} (h : m.memOk) : (l.foldl f m).memOk := by
  induction l generalizing m with
  | nil => exact h
  | cons a r ih => exact ih (hf _ _ h)

theorem keeps_touch {s u : State} {c : Nat} {x : Bool} {g : Option GuardRec} (h : Keeps s u) : Keeps s (State.touch u c x g) := by
  unfold State.touch
  try dsimp only
  repeat' (first
    | with_reducible assumption
    | with_reducible apply keeps_modCtx
    | exact fun _ hk => hk
    | exact fun _ => rfl
    | intro _
    | split)

theorem keeps_touches {s u : State} {c : Nat} {x : Bool} {l : List GuardRec} (h : Keeps s u) : Keeps s (State.touches u c x l) := by
  unfold State.touches
  repeat' (first
    | with_reducible assumption
    | with_reducible apply keeps_touch
    | with_reducible apply keeps_foldl
    | exact fun _ hk => hk
    | exact fun _ => rfl
    | intro _
    | split)

theorem keeps_scalarOp {s u : State} {g : Guard} {d : BitVec 5} {n : Nat} {f : Regs → Word} (h : Keeps s u) : Keeps s (scalarOp g d n f u) := by
  unfold scalarOp
  try dsimp only
  repeat' (first
    | with_reducible assumption
    | with_reducible apply keeps_res
    | exact fun _ hk => hk
    | exact fun _ => rfl
    | intro _
    | split)

theorem keeps_scalarImm {s u : State} {d : BitVec 5} {f : Regs → Word} (h : Keeps s u) : Keeps s (scalarImm d f u) := by
  unfold scalarImm
  repeat' (first
    | with_reducible assumption
    | with_reducible apply keeps_res
    | exact fun _ hk => hk
    | exact fun _ => rfl
    | intro _
    | split)

theorem keeps_predOp {s u : State} {g : Guard} {p : BitVec 3} {f : Regs → Bool} (h : Keeps s u) : Keeps s (predOp g p f u) := by
  unfold predOp
  try dsimp only
  repeat' (first
    | with_reducible assumption
    | with_reducible apply keeps_res
    | exact fun _ hk => hk
    | exact fun _ => rfl
    | intro _
    | split)

theorem keeps_transfer {s u : State} {n : Nat} (h : Keeps s u) : Keeps s (State.transfer u n) := by
  unfold State.transfer
  try dsimp only
  repeat' (first
    | with_reducible assumption
    | with_reducible apply keeps_modIssue
    | exact fun _ hk => hk
    | exact fun _ => rfl
    | intro _
    | split)

theorem keeps_jumpReg {s u : State} {g : Guard} {a : BitVec 5} (h : Keeps s u) : Keeps s (jumpReg g a u) := by
  unfold jumpReg
  try dsimp only
  repeat' (first
    | with_reducible assumption
    | with_reducible apply keeps_transfer
    | exact fun _ hk => hk
    | exact fun _ => rfl
    | intro _
    | split)

theorem keeps_loopEnter {s u : State} {l : Bool} {e : Nat} {c : Nat} {n : Nat} (h : Keeps s u) : Keeps s (loopEnter l e c n u) := by
  unfold loopEnter
  try dsimp only
  repeat' (first
    | with_reducible assumption
    | with_reducible apply keeps_modMe
    | with_reducible apply keeps_modIssue
    | exact fun _ hk => hk
    | exact fun _ => rfl
    | intro _
    | split)

theorem keeps_writeSysReg {s u : State} {i : BitVec 10} {v : Word} (h : Keeps s u) : Keeps s (writeSysReg i v u) := by
  unfold writeSysReg
  try dsimp only
  repeat' (first
    | with_reducible assumption
    | with_reducible apply keeps_modMe
    | with_reducible apply keeps_modIssue
    | exact fun _ hk => hk
    | exact fun _ => rfl
    | intro _
    | split)

theorem keeps_laneOp {s u : State} {d : BitVec 6} {m : BitVec 3} {n : Nat} {f : Regs → Nat → Lane} (h : Keeps s u) : Keeps s (laneOp d m n f u) := by
  unfold laneOp
  try dsimp only
  repeat' (first
    | with_reducible assumption
    | with_reducible apply keeps_res
    | exact fun _ hk => hk
    | exact fun _ => rfl
    | intro _
    | split)

theorem keeps_floatOp {s u : State} {d : BitVec 6} {m : BitVec 3} {n : Nat} {f : Regs → Nat → FVal} (h : Keeps s u) : Keeps s (floatOp d m n f u) := by
  unfold floatOp
  try dsimp only
  repeat' (first
    | with_reducible assumption
    | with_reducible apply keeps_res
    | with_reducible apply keeps_setFlags
    | exact fun _ hk => hk
    | exact fun _ => rfl
    | intro _
    | split)

theorem keeps_latch {s u : State} {a : BitVec 6} (h : Keeps s u) : Keeps s (State.latch u a) := by
  unfold State.latch
  try dsimp only
  repeat' (first
    | with_reducible assumption
    | with_reducible apply keeps_modMe
    | exact fun _ hk => hk
    | exact fun _ => rfl
    | intro _
    | split)

theorem keeps_takePort {s u : State} {n : Nat} (h : Keeps s u) : Keeps s (State.takePort u n) := by
  unfold State.takePort
  try dsimp only
  repeat' (first
    | with_reducible assumption
    | with_reducible apply keeps_modCore
    | exact fun _ hk => hk
    | exact fun _ => rfl
    | intro _
    | split)

theorem keeps_spadLoad {s u : State} {d : BitVec 6} {a : BitVec 6} {m : BitVec 3} {wide : Bool} {f : Regs → Nat → Nat} (h : Keeps s u) : Keeps s (spadLoad d a m wide f u) := by
  unfold spadLoad
  try dsimp only
  repeat' (first
    | with_reducible assumption
    | with_reducible apply keeps_res
    | with_reducible apply keeps_takePort
    | with_reducible apply keeps_touches
    | with_reducible apply keeps_stopIf
    | with_reducible apply keeps_latch
    | exact fun _ hk => hk
    | exact fun _ => rfl
    | intro _
    | split)

theorem keeps_spadStore {s u : State} {d a : BitVec 6} {m : BitVec 3} {wide : Bool} {f : Regs → Nat → Nat}
    (h : Keeps s u) : Keeps s (spadStore d a m wide f u) := by
  unfold spadStore
  refine keeps_latch (keeps_touches (keeps_takePort (keeps_modCore (fun k hk => ⟨?_, hk.2⟩) h)))
  exact wf_foldl (fun z e hz => wf_spadPut hz _ _) hk.1

theorem keeps_intOp {s u : State} {d : BitVec 6} {a : BitVec 6} {b : BitVec 6} {m : BitVec 3} {w : BitVec 3} {f : Nat → Nat → Nat → Int} (h : Keeps s u) : Keeps s (intOp d a b m w f u) := by
  unfold intOp
  repeat' (first
    | with_reducible assumption
    | with_reducible apply keeps_laneOp
    | with_reducible apply keeps_latch
    | exact fun _ hk => hk
    | exact fun _ => rfl
    | intro _
    | split)

theorem keeps_bitOp {s u : State} {d : BitVec 6} {a : BitVec 6} {b : BitVec 6} {m : BitVec 3} {f : Lane → Lane → Lane} (h : Keeps s u) : Keeps s (bitOp d a b m f u) := by
  unfold bitOp
  repeat' (first
    | with_reducible assumption
    | with_reducible apply keeps_laneOp
    | with_reducible apply keeps_latch
    | exact fun _ hk => hk
    | exact fun _ => rfl
    | intro _
    | split)

theorem keeps_drew {s u : State} {mode : Nat} {n : Nat} (h : Keeps s u) : Keeps s (State.drew u mode n) := by
  unfold State.drew
  try dsimp only
  repeat' (first
    | with_reducible assumption
    | with_reducible apply keeps_modMe
    | exact fun _ hk => hk
    | exact fun _ => rfl
    | intro _
    | split)

theorem keeps_laterLeast {s u : State} {least : Nat} {usual : Nat} {i : Instr} (h : Keeps s u) : Keeps s (State.laterLeast u least usual i) := by
  unfold State.laterLeast
  try dsimp only
  repeat' (first
    | with_reducible assumption
    | with_reducible apply keeps_pick
    | with_reducible apply keeps_later
    | exact fun _ hk => hk
    | exact fun _ => rfl
    | intro _
    | split)

theorem keeps_fresh {s u : State}  (h : Keeps s u) : Keeps s (State.fresh u).2 := by
  unfold State.fresh
  try dsimp only
  repeat' (first
    | with_reducible assumption
    | with_reducible apply keeps_modMdl
    | exact fun _ hk => hk
    | exact fun _ => rfl
    | intro _
    | split)

theorem wf_event {m : Module} {t code die : Nat} {a : BitVec 32} {b : Word} (h : Mem.wf m.hostMem = true) :
    Mem.wf (m.event t code die a b).hostMem = true := by
  unfold Module.event
  dsimp only
  split
  · exact h
  · split
    · exact h
    · exact wf_memWriteLE h _ _ _

theorem keeps_yewAdd {s u : State} {d : Nat} {code : Nat} {core : BitVec 8} {a : BitVec 32} {b : Word} {c : Word} (h : Keeps s u) : Keeps s (State.yewAdd u d code core a b c) := by
  unfold State.yewAdd
  try dsimp only
  repeat' (first
    | with_reducible assumption
    | with_reducible apply keeps_modDie
    | exact fun _ hk => hk
    | exact fun _ => rfl
    | intro _
    | split)

theorem keeps_bankAdd {s u : State} {d : Nat} {c : Nat} {u_ : BitVec 8} {ue : Bool} {synd : BitVec 16} {addr : Word} (h : Keeps s u) : Keeps s (State.bankAdd u d c u_ ue synd addr) := by
  unfold State.bankAdd
  try dsimp only
  repeat' (first
    | with_reducible assumption
    | with_reducible apply keeps_modCore
    | with_reducible apply keeps_modDie
    | exact fun _ hk => hk
    | exact fun _ => rfl
    | intro _
    | split)

theorem keeps_modRank {s u : State} {run : Nat} {k : Nat} {f : RankRec → RankRec} (h : Keeps s u) : Keeps s (State.modRank u run k f) := by
  unfold State.modRank
  try dsimp only
  repeat' (first
    | with_reducible assumption
    | with_reducible apply keeps_modMdl
    | exact fun _ hk => hk
    | exact fun _ => rfl
    | intro _
    | split)

theorem keeps_signSlot {s u : State} {n : Strand} {e : SigSlot} (h : Keeps s u) : Keeps s (State.signSlot u n e) := by
  unfold State.signSlot
  try dsimp only
  repeat' (first
    | with_reducible assumption
    | with_reducible apply keeps_modRank
    | exact fun _ hk => hk
    | exact fun _ => rfl
    | intro _
    | split)

theorem keeps_sign {s u : State} {n : Strand} {va : Word} {data : List Byte} (h : Keeps s u) : Keeps s (State.sign u n va data) := by
  unfold State.sign
  repeat' (first
    | with_reducible assumption
    | with_reducible apply keeps_signSlot
    | exact fun _ hk => hk
    | exact fun _ => rfl
    | intro _
    | split)

theorem keeps_signFill {s u : State} {n : Strand} {src : SigSrc} {key : Nat} {bytes : List Byte} (h : Keeps s u) : Keeps s (State.signFill u n src key bytes) := by
  unfold State.signFill
  try dsimp only
  repeat' (first
    | with_reducible assumption
    | with_reducible apply keeps_modRank
    | exact fun _ hk => hk
    | exact fun _ => rfl
    | intro _
    | split)

theorem keeps_physWrite {s u : State} {p : Nat} {l : List Byte} (h : Keeps s u) : Keeps s (u.physWrite p l) := by
  have h' : Keeps s { u with mem := memWriteList u.mem p l } := keeps_mem (fun m => wf_memWriteList m _ _) h
  unfold State.physWrite
  dsimp only
  split
  · exact h'
  · exact keeps_modMdl (fun _ hm => hm) h'

theorem keeps_vBytes {s : State} {l : List Byte} : ∀ {u : State} {va : Word}, Keeps s u →
    ∀ {t : State}, u.vBytes va l = .ok t → Keeps s t := by
  induction l with
  | nil =>
    intro u va h t e
    unfold State.vBytes at e
    cases e
    exact h
  | cons b r ih =>
    intro u va h t e
    unfold State.vBytes at e
    split at e
    · cases e
    · exact ih (keeps_physWrite h) e

theorem keeps_vHeal {s u : State} {va : Word} {n : Nat} (h : Keeps s u) : Keeps s (u.vHeal va n) := by
  unfold State.vHeal
  split
  · exact h
  · refine keeps_foldl (fun _ _ hz => ?_) h
    split
    · exact keeps_modMdl (fun _ hm => hm) hz
    · exact hz

theorem keeps_vWrite {s u : State} {va : Word} {l : List Byte} (h : Keeps s u) {t : State}
    (e : u.vWrite va l = .ok t) : Keeps s t := by
  unfold State.vWrite at e
  split at e
  · cases e
  next e' => cases e; exact keeps_vHeal (keeps_vBytes h e')

theorem keeps_invalidate {s u : State} {kind va : Nat} (h : Keeps s u) : Keeps s (u.invalidate kind va) := by
  unfold State.invalidate
  split
  · exact keeps_modMdl (fun _ hm => hm) h
  · have h1 : Keeps s { u with cores := u.cores.map fun (k : Core) =>
        { k with tcache := k.tcache.filter fun t => !(coveredBy kind va t) } } :=
      keeps_coresMap (fun _ hk => hk) h
    exact keeps_laterPick (keeps_modMdl (fun _ hm => hm) (keeps_dies h1))

theorem keeps_invalDone {s u : State}  (h : Keeps s u) : Keeps s (State.invalDone u) := by
  unfold State.invalDone
  try dsimp only
  repeat' (first
    | with_reducible assumption
    | with_reducible apply keeps_modMdl
    | with_reducible apply keeps_later
    | exact fun _ hk => hk
    | exact fun _ => rfl
    | intro _
    | split)

theorem keeps_tlbinv {s u : State} {v : Word} (h : Keeps s u) : Keeps s (State.tlbinv u v) := by
  unfold State.tlbinv
  repeat' (first
    | with_reducible assumption
    | with_reducible apply keeps_invalidate
    | exact fun _ hk => hk
    | exact fun _ => rfl
    | intro _
    | split)

theorem keeps_clearDrop {s u : State}  (h : Keeps s u) : Keeps s (State.clearDrop u) := by
  unfold State.clearDrop
  try dsimp only
  repeat' (first
    | with_reducible assumption
    | with_reducible apply keeps_modMdl
    | exact fun _ hk => hk
    | exact fun _ => rfl
    | intro _
    | split)

theorem keeps_setDieReg {s u : State} {d : Nat} {off : Nat} {v : Word} (h : Keeps s u) : Keeps s (State.setDieReg u d off v) := by
  unfold State.setDieReg
  try dsimp only
  repeat' (first
    | with_reducible assumption
    | with_reducible apply keeps_modDie
    | with_reducible apply keeps_tlbinv
    | with_reducible apply keeps_clearDrop
    | exact fun _ hk => hk
    | exact fun _ => rfl
    | intro _
    | split)

end Sys2Proof.Machine
end

