-- ==== Sys2Proof/Laws/KeepPath.lean ====
section
/-!
SUPPORT. Keeps for global accesses and the operations of slot 1.
-/
set_option Elab.async false
set_option linter.all false

namespace Sys2Proof.Machine

theorem keeps_homeWriteAt {s u : State} {p : Nat} {l : List Byte} {x : Site} (h : Keeps s u) :
    Keeps s (u.homeWriteAt p l x) := by
  cases x with
  | register e off => exact keeps_setDieReg h
  | aperture off =>
    unfold State.homeWriteAt
    refine keeps_modMdl (fun m hm => ?_) h
    exact wf_memWriteList hm _ _
  | hbm _ => exact keeps_physWrite h
  | vault _ _ => exact keeps_physWrite h
  | nowhere => exact keeps_physWrite h

theorem keeps_markReleases {s u : State} {c : Nat} (h : Keeps s u) : Keeps s (State.markReleases u c) := by
  unfold State.markReleases
  try dsimp only
  repeat' (first
    | with_reducible assumption
    | with_reducible apply keeps_modCore
    | exact fun _ hk => hk
    | exact fun _ => rfl
    | intro _
    | split)


theorem keeps_homeWrite {s u : State} {p : Nat} {l : List Byte} (h : Keeps s u) : Keeps s (State.homeWrite u p l) := by
  unfold State.homeWrite
  repeat' (first
    | with_reducible assumption
    | with_reducible apply keeps_homeWriteAt
    | exact fun _ hk => hk
    | exact fun _ => rfl
    | intro _
    | split)

theorem keeps_makeStore {s u : State} {c : Nat} {y : Access} (h : Keeps s u) : Keeps s (State.makeStore u c y) := by
  unfold State.makeStore
  try dsimp only
  repeat' (first
    | with_reducible assumption
    | with_reducible apply keeps_modDie
    | with_reducible apply keeps_modCore
    | with_reducible apply keeps_later
    | with_reducible apply keeps_modCtx
    | with_reducible apply keeps_physWrite
    | with_reducible apply keeps_laterPick
    | exact fun _ hk => hk
    | exact fun _ => rfl
    | intro _
    | split)

theorem keeps_settle {s u : State} {c : Nat} (h : Keeps s u) : Keeps s (State.settle u c) := by
  unfold State.settle
  repeat' (first
    | with_reducible assumption
    | with_reducible apply keeps_markReleases
    | with_reducible apply keeps_makeStore
    | with_reducible apply keeps_foldl
    | exact fun _ hk => hk
    | exact fun _ => rfl
    | intro _
    | split)

theorem keeps_settleDie {s u : State} {d : Nat} (h : Keeps s u) : Keeps s (State.settleDie u d) := by
  unfold State.settleDie
  repeat' (first
    | with_reducible assumption
    | with_reducible apply keeps_settle
    | with_reducible apply keeps_foldl
    | exact fun _ hk => hk
    | exact fun _ => rfl
    | intro _
    | split)

theorem keeps_storeHome {s u : State} {d : Nat} {id : Nat} (h : Keeps s u) : Keeps s (State.storeHome u d id) := by
  unfold State.storeHome
  try dsimp only
  repeat' (first
    | with_reducible assumption
    | with_reducible apply keeps_later
    | with_reducible apply keeps_homeWrite
    | with_reducible apply keeps_modDie
    | with_reducible apply keeps_modCore
    | with_reducible apply keeps_settleDie
    | exact fun _ hk => hk
    | exact fun _ => rfl
    | intro _
    | split)

theorem keeps_sendAperture {s u : State} {d : Nat} (h : Keeps s u) : Keeps s (State.sendAperture u d) := by
  unfold State.sendAperture
  try dsimp only
  repeat' (first
    | with_reducible assumption
    | with_reducible apply keeps_storeHome
    | with_reducible apply keeps_foldl
    | exact fun _ hk => hk
    | exact fun _ => rfl
    | intro _
    | split)

theorem keeps_event {s u : State} {code die : Nat} {a : BitVec 32} {b : Word} (h : Keeps s u) :
    Keeps s (u.event code die a b) := keeps_modMdl (fun _ => wf_event) (keeps_sendAperture h)

theorem keeps_recordUe {s u : State} {d : Nat} {c : Nat} {u_ : BitVec 8} {synd : BitVec 16} {addr : Word} (h : Keeps s u) : Keeps s (State.recordUe u d c u_ synd addr) := by
  unfold State.recordUe
  repeat' (first
    | with_reducible assumption
    | with_reducible apply keeps_bankAdd
    | with_reducible apply keeps_event
    | with_reducible apply keeps_yewAdd
    | exact fun _ hk => hk
    | exact fun _ => rfl
    | intro _
    | split)

theorem keeps_ringAppend {s u : State} {c : Nat} {a : Access} {code : BitVec 8} (h : Keeps s u) : Keeps s (State.ringAppend u c a code) := by
  unfold State.ringAppend
  try dsimp only
  repeat' (first
    | with_reducible assumption
    | with_reducible apply keeps_modDie
    | with_reducible apply keeps_modCtx
    | with_reducible apply keeps_modCore
    | with_reducible apply keeps_event
    | with_reducible apply keeps_later
    | exact fun _ hk => hk
    | exact fun _ => rfl
    | intro _
    | split)

theorem keeps_enterRing {s u : State} {c : Nat} (h : Keeps s u) : Keeps s (State.enterRing u c) := by
  unfold State.enterRing
  try dsimp only
  repeat' (first
    | with_reducible assumption
    | with_reducible apply keeps_ready
    | with_reducible apply keeps_ringAppend
    | with_reducible apply keeps_foldl
    | exact fun _ hk => hk
    | exact fun _ => rfl
    | intro _
    | split)

theorem keeps_divert {s u : State} {c : Nat} {a : Access} {code : BitVec 8} (h : Keeps s u) : Keeps s (State.divert u c a code) := by
  unfold State.divert
  try dsimp only
  repeat' (first
    | with_reducible assumption
    | with_reducible apply keeps_modCore
    | with_reducible apply keeps_modCtx
    | exact fun _ hk => hk
    | exact fun _ => rfl
    | intro _
    | split)

theorem keeps_follow {s u : State} {c : Nat} {b : Access} (h : Keeps s u) : Keeps s (State.follow u c b) := by
  unfold State.follow
  try dsimp only
  repeat' (first
    | with_reducible assumption
    | with_reducible apply keeps_modCore
    | with_reducible apply keeps_modWait
    | with_reducible apply keeps_divert
    | exact fun _ hk => hk
    | exact fun _ => rfl
    | intro _
    | split)

theorem keeps_faultAccess {s u : State} {c : Nat} {a : Access} {code : BitVec 8} (h : Keeps s u) : Keeps s (State.faultAccess u c a code) := by
  unfold State.faultAccess
  try dsimp only
  repeat' (first
    | with_reducible assumption
    | with_reducible apply keeps_modCore
    | with_reducible apply keeps_modCtx
    | with_reducible apply keeps_divert
    | with_reducible apply keeps_follow
    | with_reducible apply keeps_enterRing
    | with_reducible apply keeps_settle
    | with_reducible apply keeps_foldl
    | exact fun _ hk => hk
    | exact fun _ => rfl
    | intro _
    | split)

theorem keeps_countReq {s u : State} {d : Nat} {p : Nat} (h : Keeps s u) : Keeps s (State.countReq u d p) := by
  unfold State.countReq
  try dsimp only
  repeat' (first
    | with_reducible assumption
    | with_reducible apply keeps_modDie
    | exact fun _ hk => hk
    | exact fun _ => rfl
    | intro _
    | split)

theorem keeps_scheduleLoad {s u : State} {c : Nat} {a : Access} {x : Site} (h : Keeps s u) :
    Keeps s (u.scheduleLoad c a x) := by
  cases x with
  | aperture off => exact keeps_later h
  | register e off => exact keeps_laterPick h
  | hbm _ => exact keeps_laterPick h
  | vault _ _ => exact keeps_laterPick h
  | nowhere => exact keeps_laterPick h

theorem keeps_schedule {s u : State} {c : Nat} {a : Access} (h : Keeps s u) : Keeps s (State.schedule u c a) := by
  unfold State.schedule
  repeat' (first
    | with_reducible assumption
    | with_reducible apply keeps_settle
    | with_reducible apply keeps_laterPick
    | with_reducible apply keeps_scheduleLoad
    | exact fun _ hk => hk
    | exact fun _ => rfl
    | intro _
    | split)

theorem keeps_signMade {s u : State} {c : Nat} {a : Access} (h : Keeps s u) : Keeps s (State.signMade u c a) := by
  unfold State.signMade
  repeat' (first
    | with_reducible assumption
    | with_reducible apply keeps_signFill
    | exact fun _ hk => hk
    | exact fun _ => rfl
    | intro _
    | split)

theorem keeps_translated {s u : State} {c : Nat} {a : Access} {t : Transl} (h : Keeps s u) : Keeps s (State.translated u c a t) := by
  unfold State.translated
  try dsimp only
  repeat' (first
    | with_reducible assumption
    | with_reducible apply keeps_ready
    | with_reducible apply keeps_place
    | with_reducible apply keeps_modCore
    | with_reducible apply keeps_signMade
    | with_reducible apply keeps_countReq
    | with_reducible apply keeps_schedule
    | exact fun _ hk => hk
    | exact fun _ => rfl
    | intro _
    | split)

theorem keeps_leaveWalk {s : State} {c : Nat} {x : Bool} {l : List Nat} :
    ∀ {u : State}, Keeps s u → Keeps s (u.leaveWalk c x l) := by
  induction l with
  | nil => intro u h; exact h
  | cons i r ih =>
    intro u h
    unfold State.leaveWalk
    split
    · exact ih h
    · split
      · exact ih h
      · split
        · exact h
        · exact ih (keeps_translated h)
        · exact ih (keeps_faultAccess h)
        · exact ih h
        · exact ih h
        · exact ih h

theorem keeps_leave {s u : State} {c : Nat} {x : Bool} (h : Keeps s u) : Keeps s (State.leave u c x) := by
  unfold State.leave
  repeat' (first
    | with_reducible assumption
    | with_reducible apply keeps_leaveWalk
    | with_reducible apply keeps_enterRing
    | exact fun _ hk => hk
    | exact fun _ => rfl
    | intro _
    | split)

theorem keeps_walkOutcome {s u : State} {c : Nat} {a : Access} {o : WalkOut} (h : Keeps s u) :
    Keeps s (u.walkOutcome c a o) := by
  cases o with
  | fault f =>
    unfold State.walkOutcome
    exact keeps_modCore (fun _ hk => hk) h
  | leaf t =>
    unfold State.walkOutcome
    refine keeps_modCore (fun k hk => ?_) h
    dsimp only
    split <;> exact hk

theorem keeps_walkCore {s u : State} {c : Nat} {page : Nat} {o : WalkOut} (h : Keeps s u) : Keeps s (State.walkCore u c page o) := by
  unfold State.walkCore
  try dsimp only
  repeat' (first
    | with_reducible assumption
    | with_reducible apply keeps_walkOutcome
    | with_reducible apply keeps_leave
    | with_reducible apply keeps_foldl
    | exact fun _ hk => hk
    | exact fun _ => rfl
    | intro _
    | split)

theorem keeps_beginWalk {s u : State} {c : Nat} {page : Nat} {n : Nat} (h : Keeps s u) : Keeps s (State.beginWalk u c page n) := by
  unfold State.beginWalk
  try dsimp only
  repeat' (first
    | with_reducible assumption
    | with_reducible apply keeps_modDie
    | with_reducible apply keeps_laterPick
    | exact fun _ hk => hk
    | exact fun _ => rfl
    | intro _
    | split)

theorem keeps_miss {s u : State} {c : Nat} {a : Access} (h : Keeps s u) : Keeps s (State.miss u c a) := by
  unfold State.miss
  repeat' (first
    | with_reducible assumption
    | with_reducible apply keeps_beginWalk
    | exact fun _ hk => hk
    | exact fun _ => rfl
    | intro _
    | split)

theorem keeps_engWalk {s u : State} {c : Nat} {page : Nat} (h : Keeps s u) : Keeps s (State.engWalk u c page) := by
  unfold State.engWalk
  try dsimp only
  repeat' (first
    | with_reducible assumption
    | with_reducible apply keeps_modCore
    | with_reducible apply keeps_beginWalk
    | exact fun _ hk => hk
    | exact fun _ => rfl
    | intro _
    | split)

theorem keeps_beginWalks {s u : State} {d : Nat} (h : Keeps s u) : Keeps s (State.beginWalks u d) := by
  unfold State.beginWalks
  try dsimp only
  repeat' (first
    | with_reducible assumption
    | with_reducible apply keeps_miss
    | with_reducible apply keeps_engWalk
    | with_reducible apply keeps_foldl
    | exact fun _ hk => hk
    | exact fun _ => rfl
    | intro _
    | split)

theorem keeps_walkCmds {s u : State} {d : Nat} {page : Nat} {o : WalkOut} (h : Keeps s u) : Keeps s (State.walkCmds u d page o) := by
  unfold State.walkCmds
  try dsimp only
  repeat' (first
    | with_reducible assumption
    | with_reducible apply keeps_later
    | with_reducible apply keeps_modDie
    | with_reducible apply keeps_foldl
    | exact fun _ hk => hk
    | exact fun _ => rfl
    | intro _
    | split)

theorem keeps_walkDone {s u : State} {c : Nat} {id : Nat} (h : Keeps s u) : Keeps s (State.walkDone u c id) := by
  unfold State.walkDone
  try dsimp only
  repeat' (first
    | with_reducible assumption
    | with_reducible apply keeps_modDie
    | with_reducible apply keeps_walkCore
    | with_reducible apply keeps_walkCmds
    | with_reducible apply keeps_beginWalks
    | with_reducible apply keeps_foldl
    | exact fun _ hk => hk
    | exact fun _ => rfl
    | intro _
    | split)

theorem keeps_access {s u : State} {c : Nat} {a : Access} (h : Keeps s u) : Keeps s (State.access u c a) := by
  unfold State.access
  try dsimp only
  repeat' (first
    | with_reducible assumption
    | with_reducible apply keeps_modCore
    | with_reducible apply keeps_follow
    | with_reducible apply keeps_enterRing
    | with_reducible apply keeps_miss
    | with_reducible apply keeps_leave
    | exact fun _ hk => hk
    | exact fun _ => rfl
    | intro _
    | split)

theorem keeps_deliver {s u : State} {c : Nat} {a : Access} {v : Word} (h : Keeps s u) : Keeps s (State.deliver u c a v) := by
  unfold State.deliver
  try dsimp only
  repeat' (first
    | with_reducible assumption
    | with_reducible apply keeps_modCore
    | with_reducible apply keeps_modWait
    | with_reducible apply keeps_modRegs
    | with_reducible apply keeps_settle
    | exact fun _ hk => hk
    | exact fun _ => rfl
    | intro _
    | split)

theorem keeps_poisonEnd {s u : State} {c : Nat} {a : Access} (h : Keeps s u) : Keeps s (State.poisonEnd u c a) := by
  unfold State.poisonEnd
  try dsimp only
  repeat' (first
    | with_reducible assumption
    | with_reducible apply keeps_modCore
    | with_reducible apply keeps_modCtx
    | exact fun _ hk => hk
    | exact fun _ => rfl
    | intro _
    | split)

theorem keeps_sendRead {s u : State} {c : Nat} {a : Access} (h : Keeps s u) : Keeps s (u.sendRead c a) := by
  unfold State.sendRead
  extract_lets p v n
  have k : Keeps s v := keeps_later (keeps_pick (keeps_modCore (fun _ hk => hk) h))
  clear_value v
  split
  · exact keeps_laterPick k
  · exact keeps_laterPick k
  · exact keeps_laterPick k
  · exact k

theorem keeps_loadReturn {s u : State} {c : Nat} {id : Nat} (h : Keeps s u) : Keeps s (State.loadReturn u c id) := by
  unfold State.loadReturn
  try dsimp only
  repeat' (first
    | with_reducible assumption
    | with_reducible apply keeps_ready
    | with_reducible apply keeps_later
    | with_reducible apply keeps_sendRead
    | with_reducible apply keeps_place
    | with_reducible apply keeps_poisonEnd
    | with_reducible apply keeps_deliver
    | exact fun _ hk => hk
    | exact fun _ => rfl
    | intro _
    | split)

theorem keeps_atomicHome {s u : State} {c : Nat} {id : Nat} (h : Keeps s u) : Keeps s (State.atomicHome u c id) := by
  unfold State.atomicHome
  try dsimp only
  repeat' (first
    | with_reducible assumption
    | with_reducible apply keeps_markReleases
    | with_reducible apply keeps_ready
    | with_reducible apply keeps_later
    | with_reducible apply keeps_poisonEnd
    | with_reducible apply keeps_physWrite
    | with_reducible apply keeps_deliver
    | exact fun _ hk => hk
    | exact fun _ => rfl
    | intro _
    | split)

theorem keeps_addrOp {s u : State} {g : Guard} {d : BitVec 5} {f : Regs → Word} (h : Keeps s u) : Keeps s (addrOp g d f u) := by
  unfold addrOp
  try dsimp only
  repeat' (first
    | with_reducible assumption
    | with_reducible apply keeps_res
    | exact fun _ hk => hk
    | exact fun _ => rfl
    | intro _
    | split)

theorem keeps_loadOp {s u : State} {g : Guard} {k : BitVec 4} {d : BitVec 5} {n : Nat} {sx : Bool} {w : Bool} {ea : Regs → Word} (h : Keeps s u) : Keeps s (loadOp g k d n sx w ea u) := by
  unfold loadOp
  try dsimp only
  repeat' (first
    | with_reducible assumption
    | with_reducible apply keeps_awaitMe
    | with_reducible apply keeps_access
    | exact fun _ hk => hk
    | exact fun _ => rfl
    | intro _
    | split)

theorem keeps_signStore {s u : State}  (h : Keeps s u) : Keeps s (State.signStore u) := by
  unfold State.signStore
  repeat' (first
    | with_reducible assumption
    | with_reducible apply keeps_signSlot
    | exact fun _ hk => hk
    | exact fun _ => rfl
    | intro _
    | split)

theorem keeps_storeOp {s u : State} {g : Guard} {k : BitVec 4} {d : BitVec 5} {n : Nat} {w : Bool} {ea : Regs → Word} (h : Keeps s u) : Keeps s (storeOp g k d n w ea u) := by
  unfold storeOp
  try dsimp only
  repeat' (first
    | with_reducible assumption
    | with_reducible apply keeps_signStore
    | with_reducible apply keeps_access
    | exact fun _ hk => hk
    | exact fun _ => rfl
    | intro _
    | split)

theorem keeps_ldacqOp {s u : State} {g : Guard} {k : BitVec 4} {d : BitVec 5} {b : BitVec 5} {sc : BitVec 3} {o : Imm 5} {n : Nat} (h : Keeps s u) : Keeps s (ldacqOp g k d b sc o n u) := by
  unfold ldacqOp
  try dsimp only
  repeat' (first
    | with_reducible assumption
    | with_reducible apply keeps_awaitMe
    | with_reducible apply keeps_access
    | exact fun _ hk => hk
    | exact fun _ => rfl
    | intro _
    | split)

theorem keeps_strelOp {s u : State} {g : Guard} {k : BitVec 4} {d : BitVec 5} {b : BitVec 5} {sc : BitVec 3} {o : Imm 5} {n : Nat} (h : Keeps s u) : Keeps s (strelOp g k d b sc o n u) := by
  unfold strelOp
  try dsimp only
  repeat' (first
    | with_reducible assumption
    | with_reducible apply keeps_signStore
    | with_reducible apply keeps_access
    | exact fun _ hk => hk
    | exact fun _ => rfl
    | intro _
    | split)

theorem keeps_sldOp {s u : State} {g : Guard} {d : BitVec 5} {b : BitVec 5} {o : Imm 8} {n : Nat} (h : Keeps s u) : Keeps s (sldOp g d b o n u) := by
  unfold sldOp
  try dsimp only
  repeat' (first
    | with_reducible assumption
    | with_reducible apply keeps_res
    | with_reducible apply keeps_touch
    | with_reducible apply keeps_stopIf
    | exact fun _ hk => hk
    | exact fun _ => rfl
    | intro _
    | split)

theorem keeps_sstOp {s u : State} {g : Guard} {d : BitVec 5} {b : BitVec 5} {o : Imm 8} {n : Nat} (h : Keeps s u) : Keeps s (sstOp g d b o n u) := by
  unfold sstOp
  try dsimp only
  repeat' (first
    | with_reducible assumption
    | with_reducible apply keeps_modCore
    | with_reducible apply keeps_touch
    | exact fun _ hk => hk
    | exact fun _ => rfl
    | exact fun _ hk => ⟨wf_spadPut hk.1 _ _, hk.2⟩
    | intro _
    | split)

theorem keeps_atomicOp {s u : State} {g : Guard} {k : BitVec 4} {d : BitVec 5} {b : BitVec 5} {kind : AccKind} {f : BitVec 4} {n : Nat} {sc : BitVec 3} (h : Keeps s u) : Keeps s (atomicOp g k d b kind f n sc u) := by
  unfold atomicOp
  try dsimp only
  repeat' (first
    | with_reducible assumption
    | with_reducible apply keeps_awaitMe
    | with_reducible apply keeps_access
    | exact fun _ hk => hk
    | exact fun _ => rfl
    | intro _
    | split)

theorem keeps_fenceOp {s u : State} {mask : BitVec 16} {sc : BitVec 3} {total : Bool} {xf : Bool} (h : Keeps s u) : Keeps s (fenceOp mask sc total xf u) := by
  unfold fenceOp
  try dsimp only
  repeat' (first
    | with_reducible assumption
    | with_reducible apply keeps_modCore
    | with_reducible apply keeps_modMe
    | exact fun _ hk => hk
    | exact fun _ => rfl
    | intro _
    | split)

theorem keeps_apertureBad {s u : State} {c : Nat} {off : Nat} {k : BitVec 2} (h : Keeps s u) : Keeps s (State.apertureBad u c off k) := by
  unfold State.apertureBad
  try dsimp only
  repeat' (first
    | with_reducible assumption
    | with_reducible apply keeps_recordUe
    | with_reducible apply keeps_event
    | exact fun _ hk => hk
    | exact fun _ => rfl
    | intro _
    | split)

theorem keeps_apertureAt {s u : State} {c : Nat} {a : Access} {k : BitVec 2} {x : Site} (h : Keeps s u) :
    Keeps s (apertureAt c a k u x) := by
  cases x with
  | aperture off => exact keeps_deliver (keeps_apertureBad h)
  | register e off => exact h
  | hbm _ => exact h
  | vault _ _ => exact h
  | nowhere => exact h

theorem keeps_apertureTimeout {s u : State} {c id : Nat} {k : BitVec 2} (h : Keeps s u) :
    Keeps s (apertureTimeout c id k u) := by
  unfold apertureTimeout
  split
  · exact h
  · split
    · exact keeps_apertureAt h
    · exact h

end Sys2Proof.Machine
end

