-- ==== Sys2Proof/Laws/KeepArray.lean ====
section
/-!
SUPPORT. Keeps for the array, the tile unit and the transpose engine.
-/
set_option Elab.async false
set_option linter.all false

namespace Sys2Proof.Machine

/-- A result leaves the memories of the core and the module's memory in canonical form. -/
def StepOut.Ok (k : Core) (mem : Mem) (o : StepOut) : Prop :=
  (k.memOk → o.core.memOk) ∧ (Mem.wf mem = true → Mem.wf o.mem = true)

theorem memOk_setStrip {k : Core} {t : Nat} {p : Strip} (h : k.memOk) : (k.setStrip t p).memOk := h

theorem memOk_invalidate {k : Core} {t : Nat} (h : k.memOk) : (k.invalidate t).memOk := h

theorem memOk_storeRow {k : Core} {a : Nat} {v : VReg} (h : k.memOk) : (k.storeRow a v).memOk := h

theorem memOk_invalidateAll {k : Core} {l : List Nat} (h : k.memOk) : (k.invalidateAll l).memOk :=
  memOk_foldl (fun _ _ => memOk_invalidate) h

theorem memOk_acc {k : Core} {a : List (Nat × VReg)} (h : k.memOk) : Core.memOk { k with acc := a } := h

theorem memOk_ite {p : Prop} [Decidable p] {k q : Core} (h : k.memOk) (h' : q.memOk) :
    (if p then k else q).memOk := by split <;> assumption

theorem ok_mstepOut {k : Core} {mem : Mem} {c : Nat} {j : Job} {b : Nat} {prot : Bool} :
    StepOut.Ok k mem (mstepOut k mem c j b prot) :=
  ⟨fun h => memOk_acc (memOk_ite (memOk_setStrip h) (memOk_invalidateAll h)), id⟩

theorem ok_mstepRevOut {k : Core} {mem : Mem} {c : Nat} {j : Job} {b : Nat} {prot : Bool} :
    StepOut.Ok k mem (mstepRevOut k mem c j b prot) := ⟨fun h => memOk_invalidateAll h, id⟩

theorem ok_sstepOut {k : Core} {mem : Mem} {c : Nat} {j : Job} {b : Nat} {prot : Bool} :
    StepOut.Ok k mem (sstepOut k mem c j b prot) := ⟨fun h => memOk_invalidateAll h, id⟩

theorem ok_sdstepOut {k : Core} {mem : Mem} {c : Nat} {j : Job} {b : Nat} :
    StepOut.Ok k mem (sdstepOut k mem c j b) := ⟨fun h => memOk_invalidateAll h, id⟩

theorem wf_sealRow {mem : Mem} {c ty i lo n : Nat} {m : Mem} (h : Mem.wf m = true) :
    Mem.wf (sealRow mem c ty i lo n m) = true := wf_foldl (fun _ _ hz => wf_memWriteLE hz _ _ _) h

theorem wf_sealLinear {mem : Mem} {c ty b : Nat} (h : Mem.wf mem = true) : Mem.wf (sealLinear mem c ty b) = true := by
  refine wf_foldl (fun z i hz => ?_) h
  split <;> exact wf_sealRow hz

theorem wf_sealSpline {mem : Mem} {c b : Nat} (h : Mem.wf mem = true) : Mem.wf (sealSpline mem c b) = true :=
  wf_foldl (fun _ _ hz => wf_memWriteLE (wf_sealRow hz) _ _ _) h

theorem ok_bsealOut {k : Core} {mem : Mem} {c : Nat} {j : Job} {i : Nat} {v : BitVec 2} :
    StepOut.Ok k mem (bsealOut k mem c j i v) := by
  refine ⟨id, fun h => ?_⟩
  unfold bsealOut StepOut.of
  dsimp only
  split
  · exact wf_sealSpline h
  · exact wf_sealLinear h

/-- A fold over pairs whose first part is a memory. -/
theorem wf_foldl_fst {α β : Type} {l : List α} {f : Mem × β → α → Mem × β}
    (hf : ∀ z a, Mem.wf z.1 = true → Mem.wf (f z a).1 = true) {m : Mem × β} (h : Mem.wf m.1 = true) :
    Mem.wf (l.foldl f m).1 = true := by
  induction l generalizing m with
  | nil => exact h
  | cons a r ih => exact ih (hf _ _ h)

theorem wf_gradTerm {mem : Mem} {a : Nat} {t : FVal} (h : Mem.wf mem = true) :
    Mem.wf (gradTerm mem a t).1 = true := by
  unfold gradTerm
  split
  · exact h
  · exact wf_memWriteLE h _ _ _

theorem ok_sgradOut {k : Core} {mem : Mem} {c : Nat} {j : Job} {g : Nat} :
    StepOut.Ok k mem (sgradOut k mem c j g) := by
  refine ⟨id, fun h => ?_⟩
  unfold sgradOut StepOut.of
  dsimp only
  refine wf_foldl_fst (fun z a hz => ?_) h
  refine wf_foldl_fst (fun z a hz => ?_) hz
  split
  · exact hz
  · exact hz
  · refine wf_foldl_fst (fun z a hz => ?_) hz
    refine wf_foldl_fst (fun z a hz => ?_) hz
    split
    · exact hz
    · exact wf_gradTerm hz

theorem ok_sgzeroOut {k : Core} {mem : Mem} {c g : Nat} : StepOut.Ok k mem (sgzeroOut k mem c g) := by
  unfold sgzeroOut
  generalize List.range 4096 = l
  exact ⟨id, fun h => wf_foldl (fun _ _ hz => wf_memZero hz _ _) h⟩

theorem wf_refineCell {mem : Mem} {c i col set g : Nat} {z : Mem × Flags} (h : Mem.wf z.1 = true) :
    Mem.wf (refineCell mem c i col set g z).1 = true := by
  unfold refineCell
  exact wf_memWriteList h _ _

theorem ok_srefineOut {k : Core} {mem : Mem} {c : Nat} {j : Job} {g : Nat} :
    StepOut.Ok k mem (srefineOut k mem c j g) := by
  unfold srefineOut
  generalize List.range 4096 = l
  refine ⟨fun h => h, fun h => ?_⟩
  have hl : Mem.wf (l.foldl (fun z n => refineCell mem c (n / 64) (n % 64) g (kG j.dk) z) (mem, Flags.none)).1
      = true := wf_foldl_fst (fun _ _ hz => wf_refineCell hz) h
  clear h
  dsimp only [StepOut.of]
  generalize l.foldl (fun z n => refineCell mem c (n / 64) (n % 64) g (kG j.dk) z) (mem, Flags.none) = z at hl ⊢
  exact wf_sealSpline hl

theorem ok_tzeroOut {k : Core} {mem : Mem} {j : Job} : StepOut.Ok k mem (tzeroOut k mem j) :=
  ⟨fun h => memOk_acc (memOk_foldl (fun _ _ hz => memOk_ite (memOk_setStrip hz) (memOk_invalidate hz)) h), id⟩

theorem ok_taddOut {k : Core} {mem : Mem} {j : Job} : StepOut.Ok k mem (taddOut k mem j) :=
  ⟨fun h => memOk_acc (memOk_ite h (memOk_foldl (fun _ _ hz => memOk_setStrip hz) h)), id⟩

theorem ok_tcheckOut {k : Core} {mem : Mem} {j : Job} {prot : Bool} : StepOut.Ok k mem (tcheckOut k mem j prot) := by
  unfold tcheckOut
  split <;> exact ⟨id, id⟩

theorem ok_tcvtOut {k : Core} {mem : Mem} {c : Nat} {j : Job} {f : BitVec 3} {prot : Bool} :
    StepOut.Ok k mem (tcvtOut k mem c j f prot) := by
  unfold tcvtOut
  dsimp only
  split
  · exact ⟨id, id⟩
  · split
    · exact ⟨fun h => ⟨wf_memWriteCells h.1 _, h.2⟩, id⟩
    · exact ⟨id, id⟩

theorem ok_out {j : Job} {k : Core} {mem : Mem} {c : Nat} {prot : Bool} : StepOut.Ok k mem (j.out k mem c prot) := by
  unfold Job.out
  split
  · exact ok_mstepOut
  · exact ok_mstepRevOut
  · exact ok_bsealOut
  · exact ok_sstepOut
  · exact ok_sdstepOut
  · exact ok_sgradOut
  · exact ok_sgzeroOut
  · exact ok_srefineOut
  · exact ok_tzeroOut
  · exact ok_taddOut
  · exact ok_tcheckOut
  · exact ok_tcvtOut
  · exact ⟨id, id⟩

theorem memOk_inject {k : Core} {j : Job} (h : k.memOk) : (k.inject j).1.memOk := by
  unfold Core.inject
  split
  · exact h
  · dsimp only
    generalize (if (injectOf k.errinj).1.cell = true then j.formsIntegers
      else j.lands (injectOf k.errinj).1.row (injectOf k.errinj).1.col) = b
    cases b <;> exact h

theorem keeps_startStep {s u : State} {c : Nat} (h : Keeps s u) : Keeps s (u.startStep c) := by
  unfold State.startStep
  dsimp only
  split
  · exact h
  · split
    · exact h
    · exact keeps_timer (keeps_timer (keeps_setCore (fun hk => memOk_inject hk) h))

theorem keeps_launchArray {s u : State} {op : Instr} (h : Keeps s u) : Keeps s (State.launchArray u op) := by
  unfold State.launchArray
  try dsimp only
  repeat' (first
    | with_reducible assumption
    | with_reducible apply keeps_modCore
    | with_reducible apply keeps_modIssue
    | with_reducible apply keeps_startStep
    | exact fun _ hk => hk
    | exact fun _ => rfl
    | intro _
    | split)

theorem keeps_launchTile {s u : State} {op : Instr} (h : Keeps s u) : Keeps s (u.launchTile op) := by
  unfold State.launchTile
  dsimp only
  have h1 : ∀ (t : Nat) (i : Instr) (f : Issue → Issue) (k : Core), (∀ i, (f i).isOpen = i.isOpen) →
      (u.myCore.memOk → k.memOk) →
      Keeps s (((u.setCore u.issue.c k).modIssue f).timer u.issue.c t i) := fun t i f k hf hk =>
    keeps_timer (keeps_modIssue hf (keeps_setCore hk h))
  split
  · split
    · exact keeps_signSlot (h1 _ _ _ _ (fun _ => rfl) (fun hk => memOk_inject hk))
    · exact h1 _ _ _ _ (fun _ => rfl) (fun hk => memOk_inject hk)
  · exact h1 _ _ _ _ (fun _ => rfl) (fun hk => memOk_inject hk)

theorem keeps_arrayOp {s u : State} {g : BitVec 4} {op : Instr} (h : Keeps s u) : Keeps s (arrayOp g op u) := by
  unfold arrayOp
  repeat' (first
    | with_reducible assumption
    | with_reducible apply keeps_launchArray
    | exact fun _ hk => hk
    | exact fun _ => rfl
    | intro _
    | split)

theorem keeps_tileOp {s u : State} {g : BitVec 4} {op : Instr} (h : Keeps s u) : Keeps s (tileOp g op u) := by
  unfold tileOp
  repeat' (first
    | with_reducible assumption
    | with_reducible apply keeps_launchTile
    | exact fun _ hk => hk
    | exact fun _ => rfl
    | intro _
    | split)

theorem keeps_setDesc {s u : State} {l : Landing} (h : Keeps s u) : Keeps s (State.setDesc u l) := by
  unfold State.setDesc
  try dsimp only
  repeat' (first
    | with_reducible assumption
    | with_reducible apply keeps_awaitMe
    | with_reducible apply keeps_modCore
    | with_reducible apply keeps_res
    | exact fun _ hk => hk
    | exact fun _ => rfl
    | intro _
    | split)

theorem keeps_rowStores {s : State} {c : Nat} {j : Job} {rows : List (Nat × Nat × List Byte)} {u : State}
    (h : Keeps s u) {t : State} (e : State.rowStores u c j rows = some t) : Keeps s t := by
  have key : ∀ (l : List (Nat × Nat × List Byte)) (f : Option State → Nat × Nat × List Byte → Option State)
      (_ : ∀ o e, (∀ v, o = some v → Keeps s v) → ∀ v, f o e = some v → Keeps s v) (o : Option State)
      (_ : ∀ v, o = some v → Keeps s v), ∀ v, l.foldl f o = some v → Keeps s v := by
    intro l f hf
    induction l with
    | nil => intro o ho; exact ho
    | cons e r ih => intro o ho; exact ih _ (hf _ _ ho)
  unfold State.rowStores at e
  dsimp only at e
  refine key _ _ ?_ _ (fun v hv => by cases hv; exact h) _ e
  intro o e ho v hv
  cases o with
  | none => cases hv
  | some w =>
    have hw := ho w rfl
    dsimp only at hv
    split at hv
    · split at hv
      · cases hv; exact keeps_modDie (keeps_modDie hw)
      · cases hv
      · cases hv; exact keeps_modCtx (keeps_modDie hw)
    · cases hv; exact keeps_physWrite (keeps_modDie hw)

theorem keeps_healWindow {s u : State} {c : Nat} {j : Job} (h : Keeps s u) : Keeps s (State.healWindow u c j) := by
  unfold State.healWindow
  try dsimp only
  repeat' (first
    | with_reducible assumption
    | with_reducible apply keeps_modMdl
    | exact fun _ hk => hk
    | exact fun _ => rfl
    | intro _
    | split)

theorem keeps_noteQuiet {s u : State} {t : Ctx} {j : Job} (h : Keeps s u) : Keeps s (State.noteQuiet u t j) := by
  unfold State.noteQuiet
  try dsimp only
  repeat' (first
    | with_reducible assumption
    | with_reducible apply keeps_modRank
    | exact fun _ hk => hk
    | exact fun _ => rfl
    | intro _
    | split)

theorem memOk_coreAfter {j : Job} {k : Core} (h : k.memOk) : (j.coreAfter k).memOk := by
  have h' : (j.flipIn k).memOk := by
    unfold Job.flipIn
    split
    · split <;> exact h
    · exact h
  exact h'

theorem keeps_setCoreOf {s u : State} {c : Nat} {k : Core} (hk : s.MemOk → k.memOk) (h : Keeps s u) :
    Keeps s (u.setCore c k) := by
  refine ⟨h.now, h.clk, h.isOpen, fun m => ⟨(h.mem m).mem, (h.mem m).host, fun e => ?_⟩⟩
  rw [State.core_setCore]
  split
  · exact hk m
  · exact (h.mem m).core e

theorem keeps_pipeLater {s u : State} {c : Nat} {q : Bool} {i : Instr} {p : Prop} [Decidable p] {o : Option State}
    (h : Keeps s u) (ho : (if p then some ((u.modCore c fun k => { k with nochg := q }).later 0 i)
      else some u) = o) : ∀ t, o = some t → Keeps s t := by
  intro t e
  subst e
  split at ho
  · cases ho; exact keeps_later (keeps_modCore (fun _ hk => hk) h)
  · cases ho; exact h

theorem keeps_landResult {s u : State} {c : Nat} {j : Job} (h : Keeps s u) {t : State}
    (e : u.landResult c j = some t) : Keeps s t := by
  unfold State.landResult at e
  dsimp only at e
  generalize ho : j.out (u.core c) u.mem c (u.ctx c j.x).protected_ = o at e
  have hok : StepOut.Ok (u.core c) u.mem o := by rw [← ho]; exact ok_out
  have h0 : Keeps s { u with mem := o.mem } := keeps_mem hok.2 h
  have hc : s.MemOk → o.core.memOk := fun m => hok.1 ((h.mem m).core c)
  split at e
  · cases e
  · rename_i w hw
    have h2 : Keeps s w := h0.trans (keeps_rowStores (Keeps.refl _) hw)
    refine keeps_pipeLater ?_ rfl _ e
    have hset : ∀ (y : Ctx) (f : Ctx → Ctx) (g : Option GuardRec),
        Keeps s (((((w.setCore c (j.coreAfter o.core)).healWindow c j).noteQuiet y j).modCtx c j.x f).touch c j.x g) :=
      fun y f g => keeps_touch (keeps_modCtx (keeps_noteQuiet (keeps_healWindow
        (keeps_setCoreOf (fun m => memOk_coreAfter (hc m)) h2))))
    split
    · exact keeps_signFill (hset _ _ _)
    · exact hset _ _ _

theorem keeps_applyJob {s u : State} {c : Nat} {j : Job} (h : Keeps s u) {t : State}
    (e : u.applyJob c j = some t) : Keeps s t := by
  unfold State.applyJob at e
  split at e
  · cases e
    exact keeps_modCtx (keeps_modCore (fun _ hk => hk) h)
  · exact keeps_landResult h e

theorem keeps_landJob {s u : State} {c : Nat} {tile : Bool} (h : Keeps s u) : Keeps s (u.landJob c tile) := by
  unfold State.landJob
  dsimp only
  split
  · exact h
  · split
    · exact keeps_timer h
    · split
      · rename_i e
        exact keeps_settle (keeps_applyJob h e)
      · exact keeps_later (keeps_timer h)

theorem keeps_xposeDue {s u : State} {c : Nat} (h : Keeps s u) : Keeps s (State.xposeDue u c) := by
  unfold State.xposeDue
  try dsimp only
  repeat' (first
    | with_reducible assumption
    | with_reducible apply keeps_modCore
    | with_reducible apply keeps_touch
    | with_reducible apply keeps_touches
    | with_reducible apply keeps_foldl
    | exact fun _ hk => hk
    | exact fun _ => rfl
    | exact fun _ hk => ⟨wf_memWriteCells hk.1 _, hk.2⟩
    | intro _
    | split)

end Sys2Proof.Machine
end

