-- ==== Sys2Proof/Laws/KeepRun.lean ====
section
/-!
SUPPORT. Keeps for gangs and the scheduler.
-/
set_option Elab.async false
set_option linter.all false

namespace Sys2Proof.Machine

theorem keeps_setNode {s u : State} {n : Node} (h : Keeps s u) : Keeps s (State.setNode u n) := by
  unfold State.setNode
  try dsimp only
  repeat' (first
    | with_reducible assumption
    | with_reducible apply keeps_modMdl
    | exact fun _ hk => hk
    | exact fun _ => rfl
    | intro _
    | split)

theorem keeps_writeNode {s u : State} {n : Node} (h : Keeps s u) : Keeps s (State.writeNode u n) := by
  unfold State.writeNode
  try dsimp only
  repeat' (first
    | with_reducible assumption
    | with_reducible refine keeps_vWrite ?_ ‹_ = Except.ok _›
    | exact fun _ hk => hk
    | exact fun _ => rfl
    | intro _
    | split)

theorem keeps_updateNode {s u : State} {n : Node} (h : Keeps s u) : Keeps s (State.updateNode u n) := by
  unfold State.updateNode
  repeat' (first
    | with_reducible assumption
    | with_reducible apply keeps_setNode
    | with_reducible apply keeps_writeNode
    | exact fun _ hk => hk
    | exact fun _ => rfl
    | intro _
    | split)

theorem keeps_enqueue {s u : State} {d : Nat} {e : QEntry} (h : Keeps s u) : Keeps s (State.enqueue u d e) := by
  unfold State.enqueue
  try dsimp only
  repeat' (first
    | with_reducible assumption
    | with_reducible apply keeps_modDie
    | with_reducible apply keeps_later
    | exact fun _ hk => hk
    | exact fun _ => rfl
    | intro _
    | split)

/-- Where a slot write answers with a state, it keeps what Keeps names. -/
def SlotOut.Keeps (s : State) : SlotOut → Prop
  | .done t => Machine.Keeps s t
  | .fault | .waits | .overflow => True

theorem keeps_slotWrite {s u : State} {d run : Nat} {rank : BitVec 4} {prot : Bool} {va : Word} {l : List Byte}
    (h : Keeps s u) : (u.slotWrite d run rank prot va l).Keeps s := by
  unfold State.slotWrite
  split
  · have : ∀ (m : List (Byte × Nat)) (o : SlotOut), o.Keeps s → (m.foldl (fun o e =>
      match o with
      | .fault | .waits | .overflow => o
      | .done s =>
        match s.xlate (va + BitVec.ofNat 64 e.2) needWrite with
        | .error _ => .fault
        | .ok (p, _) =>
          match holdWrite (s.die d).contain ⟨run, rank, p, [e.1], s.pageAt (va + BitVec.ofNat 64 e.2), false⟩ with
          | .held q => .done (s.modDie d fun k => { k with contain := q })
          | .waits => .waits
          | .overflow => .overflow) o).Keeps s := by
      intro m
      induction m with
      | nil => exact fun _ h => h
      | cons a l ih =>
        intro o ho
        refine ih _ ?_
        cases o with
        | done v =>
          dsimp only
          split
          · trivial
          · split
            · exact keeps_modDie ho
            · trivial
            · trivial
        | fault => trivial
        | waits => trivial
        | overflow => trivial
    exact this _ _ h
  · split
    next heq => exact keeps_vWrite h heq
    · trivial

theorem memOk_freeCtx {k : Core} {c : Nat} {x : Bool} (h : k.memOk) : (k.freeCtx c x).memOk := by
  cases x <;> exact h

theorem keeps_freeCtx {s u : State} {c : Nat} {x : Bool} (h : Keeps s u) : Keeps s (u.freeCtx c x) :=
  keeps_later (keeps_agenda (keeps_modCore (fun _ => memOk_freeCtx) h))

theorem keeps_clearPreq {s u : State} {c : Nat} {x : Bool} (h : Keeps s u) : Keeps s (State.clearPreq u c x) := by
  unfold State.clearPreq
  try dsimp only
  repeat' (first
    | with_reducible assumption
    | with_reducible apply keeps_modCtx
    | exact fun _ hk => hk
    | exact fun _ => rfl
    | intro _
    | split)

theorem keeps_dropResv {s u : State} {d : Nat} (h : Keeps s u) : Keeps s (State.dropResv u d) := by
  unfold State.dropResv
  try dsimp only
  repeat' (first
    | with_reducible assumption
    | with_reducible apply keeps_clearPreq
    | with_reducible apply keeps_modDie
    | with_reducible apply keeps_foldl
    | exact fun _ hk => hk
    | exact fun _ => rfl
    | intro _
    | split)

theorem keeps_tidyResv {s u : State}  (h : Keeps s u) : Keeps s (State.tidyResv u) := by
  unfold State.tidyResv
  try dsimp only
  repeat' (first
    | with_reducible assumption
    | with_reducible apply keeps_dropResv
    | with_reducible apply keeps_foldl
    | exact fun _ hk => hk
    | exact fun _ => rfl
    | intro _
    | split)

theorem keeps_endRun {s u : State} {r : Run} (h : Keeps s u) : Keeps s (State.endRun u r) := by
  unfold State.endRun
  try dsimp only
  repeat' (first
    | with_reducible assumption
    | with_reducible apply keeps_freeCtx
    | with_reducible apply keeps_fresh
    | with_reducible apply keeps_modMdl
    | with_reducible apply keeps_tidyResv
    | with_reducible apply keeps_foldl
    | with_reducible apply keeps_dies
    | exact fun _ hk => hk
    | exact fun _ => rfl
    | intro _
    | split)

theorem keeps_freeCounter {s u : State} {r : NodeRec} (h : Keeps s u) : Keeps s (State.freeCounter u r) := by
  unfold State.freeCounter
  try dsimp only
  repeat' (first
    | with_reducible assumption
    | with_reducible apply keeps_modDie
    | exact fun _ hk => hk
    | exact fun _ => rfl
    | intro _
    | split)

theorem keeps_endRuns {s u : State} {l : List Run} (h : Keeps s u) :
    Keeps s (l.foldl (fun s r => s.endRun r) u) := keeps_foldl (fun _ _ => keeps_endRun) h

theorem keeps_failNode {s u : State} {addr : Word} {inst : BitVec 32} {code d : Nat} (h : Keeps s u) :
    Keeps s (u.failNode addr inst code d) := by
  unfold State.failNode
  split
  · exact h
  next n _ =>
    refine keeps_event (keeps_modMdl (fun _ hm => hm) ?_)
    generalize hv : List.foldl _ u _ = v
    have hk : Keeps s v := hv ▸ keeps_endRuns h
    split
    · exact keeps_freeCounter (keeps_updateNode (keeps_tidyResv (keeps_dies hk)))
    · exact keeps_updateNode (keeps_tidyResv (keeps_dies hk))

theorem keeps_yewStrand {s u : State} {d : Nat} {core : BitVec 8} {cause : BitVec 8} {nodeId : BitVec 32} {inst : BitVec 32} (h : Keeps s u) : Keeps s (State.yewStrand u d core cause nodeId inst) := by
  unfold State.yewStrand
  repeat' (first
    | with_reducible assumption
    | with_reducible apply keeps_yewAdd
    | exact fun _ hk => hk
    | exact fun _ => rfl
    | intro _
    | split)

theorem keeps_strandFault {s u : State} {c : Nat} {x : Bool} {cause : BitVec 8} (h : Keeps s u) : Keeps s (State.strandFault u c x cause) := by
  unfold State.strandFault
  try dsimp only
  repeat' (first
    | with_reducible assumption
    | with_reducible apply keeps_freeCtx
    | with_reducible apply keeps_yewStrand
    | with_reducible apply keeps_failNode
    | exact fun _ hk => hk
    | exact fun _ => rfl
    | intro _
    | split)

theorem keeps_strandFail {s u : State} {c : Nat} {x : Bool} {code : BitVec 8} (h : Keeps s u) : Keeps s (State.strandFail u c x code) := by
  unfold State.strandFail
  repeat' (first
    | with_reducible assumption
    | with_reducible apply keeps_freeCtx
    | with_reducible apply keeps_failNode
    | exact fun _ hk => hk
    | exact fun _ => rfl
    | intro _
    | split)

theorem keeps_afterSlot {s u : State} {c : Nat} {x : Bool} {o : SlotOut} {k : State → State}
    (ho : o.Keeps s) (hk : ∀ v, Keeps s v → Keeps s (k v)) (h : Keeps s u) :
    Keeps s (State.afterSlot u c x o k) := by
  cases o with
  | done v => exact hk v ho
  | fault => exact keeps_strandFault h
  | waits => exact keeps_later h
  | overflow => exact keeps_strandFail h

theorem keeps_queueGang {s u : State} {n : Node} {g : Gang} {twin : Bool} {excl : List Nat} {code : Nat} {by_ : Nat} (h : Keeps s u) : Keeps s (State.queueGang u n g twin excl code by_) := by
  unfold State.queueGang
  try dsimp only
  repeat' (first
    | with_reducible assumption
    | with_reducible apply keeps_failNode
    | with_reducible apply keeps_fresh
    | with_reducible apply keeps_enqueue
    | exact fun _ hk => hk
    | exact fun _ => rfl
    | intro _
    | split)

theorem keeps_abandonRun {s u : State} {id : Nat} {same : Bool} (h : Keeps s u) : Keeps s (State.abandonRun u id same) := by
  unfold State.abandonRun
  try dsimp only
  repeat' (first
    | with_reducible assumption
    | with_reducible apply keeps_endRun
    | with_reducible apply keeps_yewAdd
    | with_reducible apply keeps_modMdl
    | with_reducible apply keeps_fresh
    | with_reducible apply keeps_enqueue
    | with_reducible apply keeps_queueGang
    | exact fun _ hk => hk
    | exact fun _ => rfl
    | intro _
    | split)

theorem keeps_lqdoor {s u : State} {v : Word} (h : Keeps s u) : Keeps s (State.lqdoor u v) := by
  unfold State.lqdoor
  try dsimp only
  repeat' (first
    | with_reducible assumption
    | with_reducible apply keeps_event
    | with_reducible apply keeps_modMdl
    | with_reducible apply keeps_later
    | exact fun _ hk => hk
    | exact fun _ => rfl
    | intro _
    | split)

theorem keeps_launchFail {s u : State} {tag : Nat} {entry : Nat} {code : Nat} (h : Keeps s u) : Keeps s (State.launchFail u tag entry code) := by
  unfold State.launchFail
  repeat' (first
    | with_reducible assumption
    | with_reducible apply keeps_event
    | exact fun _ hk => hk
    | exact fun _ => rfl
    | intro _
    | split)

theorem keeps_arm {s u : State} {tag : Nat} {addr : Word} {r : NodeRec} (h : Keeps s u) : Keeps s (State.arm u tag addr r) := by
  unfold State.arm
  try dsimp only
  repeat' (first
    | with_reducible assumption
    | with_reducible apply keeps_modDie
    | with_reducible apply keeps_modMdl
    | with_reducible apply keeps_writeNode
    | exact fun _ hk => hk
    | exact fun _ => rfl
    | intro _
    | split)

theorem keeps_launch {s u : State} {w : Word} (h : Keeps s u) : Keeps s (State.launch u w) := by
  unfold State.launch
  try dsimp only
  repeat' (first
    | with_reducible assumption
    | with_reducible apply keeps_launchFail
    | with_reducible apply keeps_arm
    | with_reducible apply keeps_later
    | with_reducible apply keeps_foldl
    | exact fun _ hk => hk
    | exact fun _ => rfl
    | intro _
    | split)

theorem keeps_launchNext {s u : State}  (h : Keeps s u) : Keeps s (State.launchNext u) := by
  unfold State.launchNext
  try dsimp only
  repeat' (first
    | with_reducible assumption
    | with_reducible apply keeps_launch
    | with_reducible apply keeps_modMdl
    | with_reducible apply keeps_later
    | exact fun _ hk => hk
    | exact fun _ => rfl
    | intro _
    | split)

theorem keeps_decrement {s u : State} {cid : BitVec 32} {sender : BitVec 32} (h : Keeps s u) : Keeps s (State.decrement u cid sender) := by
  unfold State.decrement
  try dsimp only
  repeat' (first
    | with_reducible assumption
    | with_reducible apply keeps_event
    | with_reducible apply keeps_modDie
    | with_reducible apply keeps_later
    | exact fun _ hk => hk
    | exact fun _ => rfl
    | intro _
    | split)

theorem keeps_queueStages {s u : State} {a : Word} {i k : Nat} (h : Keeps s u) :
    Keeps s (u.queueStages a i k) := by
  induction k with
  | zero => exact h
  | succ n ih =>
    unfold State.queueStages
    dsimp only
    repeat' (first
      | with_reducible assumption
      | with_reducible apply keeps_queueGang
      | with_reducible apply keeps_modMdl
      | with_reducible apply keeps_fresh
      | exact fun _ hm => hm
      | split)

theorem keeps_queueInstances {s u : State} {a : Word} {st f k : Nat} (h : Keeps s u) :
    Keeps s (u.queueInstances a st f k) := by
  induction k with
  | zero => exact h
  | succ n ih => exact keeps_queueStages ih

theorem keeps_queueCopies {s u : State} {a : Word} {k : Nat} (h : Keeps s u) : Keeps s (u.queueCopies a k) := by
  induction k with
  | zero => exact h
  | succ n ih => exact keeps_later ih

theorem keeps_readyCount {s u : State} {n : Node} (h : Keeps s u) : Keeps s (State.readyCount u n) := by
  unfold State.readyCount
  try dsimp only
  repeat' (first
    | with_reducible assumption
    | with_reducible apply keeps_failNode
    | with_reducible apply keeps_setNode
    | with_reducible apply keeps_later
    | with_reducible apply keeps_updateNode
    | with_reducible apply keeps_queueCopies
    | with_reducible apply keeps_queueInstances
    | exact fun _ hk => hk
    | exact fun _ => rfl
    | intro _
    | split)

theorem keeps_recompute {s u : State} {parent : Node} {l : List Word} (h : Keeps s u) : Keeps s (State.recompute u parent l) := by
  unfold State.recompute
  try dsimp only
  repeat' (first
    | with_reducible assumption
    | with_reducible apply keeps_failNode
    | with_reducible apply keeps_modMdl
    | with_reducible apply keeps_later
    | with_reducible apply keeps_foldl
    | exact fun _ hk => hk
    | exact fun _ => rfl
    | intro _
    | split)

theorem keeps_holdNode {s u : State} {n : Node} (h : Keeps s u) : Keeps s (State.holdNode u n) := by
  unfold State.holdNode
  try dsimp only
  repeat' (first
    | with_reducible assumption
    | with_reducible apply keeps_failNode
    | with_reducible apply keeps_updateNode
    | with_reducible apply keeps_modDie
    | with_reducible apply keeps_later
    | with_reducible apply keeps_recompute
    | exact fun _ hk => hk
    | exact fun _ => rfl
    | intro _
    | split)

theorem keeps_ready {s u : State} {addr : Word} (h : Keeps s u) : Keeps s (State.ready u addr) := by
  unfold State.ready
  try dsimp only
  repeat' (first
    | with_reducible assumption
    | with_reducible apply keeps_readyCount
    | with_reducible apply keeps_failNode
    | with_reducible apply keeps_setNode
    | with_reducible apply keeps_holdNode
    | exact fun _ hk => hk
    | exact fun _ => rfl
    | intro _
    | split)

theorem keeps_heldDown {s u : State} {q : Node} {sender : BitVec 32} {d : Nat} (h : Keeps s u) : Keeps s (State.heldDown u q sender d) := by
  unfold State.heldDown
  try dsimp only
  repeat' (first
    | with_reducible assumption
    | with_reducible apply keeps_setNode
    | with_reducible apply keeps_later
    | exact fun _ hk => hk
    | exact fun _ => rfl
    | intro _
    | split)

theorem keeps_completeNode {s u : State} {addr : Word} (h : Keeps s u) : Keeps s (State.completeNode u addr) := by
  unfold State.completeNode
  try dsimp only
  repeat' (first
    | with_reducible assumption
    | with_reducible apply keeps_failNode
    | with_reducible apply keeps_updateNode
    | with_reducible apply keeps_event
    | with_reducible apply keeps_freeCounter
    | with_reducible apply keeps_modMdl
    | with_reducible apply keeps_later
    | with_reducible apply keeps_heldDown
    | with_reducible apply keeps_laterPick
    | with_reducible apply keeps_foldl
    | exact fun _ hk => hk
    | exact fun _ => rfl
    | intro _
    | split)

theorem keeps_gangDone {s u : State} {addr : Word} {inst : Nat} {d : Nat} (h : Keeps s u) : Keeps s (State.gangDone u addr inst d) := by
  unfold State.gangDone
  try dsimp only
  repeat' (first
    | with_reducible assumption
    | with_reducible apply keeps_setNode
    | with_reducible apply keeps_updateNode
    | with_reducible apply keeps_later
    | exact fun _ hk => hk
    | exact fun _ => rfl
    | intro _
    | split)

theorem keeps_engineTake {s u : State} {d : Nat} (h : Keeps s u) : Keeps s (State.engineTake u d) := by
  unfold State.engineTake
  try dsimp only
  repeat' (first
    | with_reducible assumption
    | with_reducible apply keeps_modDie
    | with_reducible apply keeps_laterLeast
    | exact fun _ hk => hk
    | exact fun _ => rfl
    | intro _
    | split)

theorem keeps_enginesTake {s u : State} {d : Nat} (h : Keeps s u) : Keeps s (State.enginesTake u d) := by
  unfold State.enginesTake
  repeat' (first
    | with_reducible assumption
    | with_reducible apply keeps_engineTake
    | exact fun _ hk => hk
    | exact fun _ => rfl
    | intro _
    | split)

theorem keeps_copyInstance {s u : State} {addr : Word} {i : Nat} (h : Keeps s u) : Keeps s (State.copyInstance u addr i) := by
  unfold State.copyInstance
  try dsimp only
  repeat' (first
    | with_reducible assumption
    | with_reducible apply keeps_fresh
    | with_reducible apply keeps_modDie
    | with_reducible apply keeps_updateNode
    | with_reducible apply keeps_enginesTake
    | with_reducible apply keeps_failNode
    | exact fun _ hk => hk
    | exact fun _ => rfl
    | intro _
    | split)

theorem keeps_setPreq {s u : State} {c : Nat} {x : Bool} (h : Keeps s u) : Keeps s (State.setPreq u c x) := by
  unfold State.setPreq
  try dsimp only
  repeat' (first
    | with_reducible assumption
    | with_reducible apply keeps_modCtx
    | with_reducible apply keeps_later
    | exact fun _ hk => hk
    | exact fun _ => rfl
    | intro _
    | split)

theorem keeps_countUnyield {s u : State} {n : Node} (h : Keeps s u) : Keeps s (State.countUnyield u n) := by
  unfold State.countUnyield
  try dsimp only
  repeat' (first
    | with_reducible assumption
    | with_reducible apply keeps_updateNode
    | with_reducible refine keeps_vWrite ?_ ‹_ = Except.ok _›
    | exact fun _ hk => hk
    | exact fun _ => rfl
    | intro _
    | split)

theorem keeps_deadlineExpired {s u : State} {c : Nat} {x : Bool} (h : Keeps s u) : Keeps s (State.deadlineExpired u c x) := by
  unfold State.deadlineExpired
  try dsimp only
  repeat' (first
    | with_reducible assumption
    | with_reducible apply keeps_strandFault
    | with_reducible apply keeps_clearPreq
    | with_reducible apply keeps_countUnyield
    | with_reducible apply keeps_event
    | with_reducible apply keeps_modDie
    | with_reducible apply keeps_later
    | exact fun _ hk => hk
    | exact fun _ => rfl
    | intro _
    | split)

theorem keeps_requestRun {s u : State} {d : Nat} {e : QEntry} {r : Resv} (h : Keeps s u) : Keeps s (State.requestRun u d e r) := by
  unfold State.requestRun
  repeat' (first
    | with_reducible assumption
    | with_reducible apply keeps_setPreq
    | with_reducible apply keeps_foldl
    | exact fun _ hk => hk
    | exact fun _ => rfl
    | intro _
    | split)

theorem keeps_reserve {s u : State} {d : Nat} {e : QEntry} (h : Keeps s u) : Keeps s (State.reserve u d e) := by
  unfold State.reserve
  try dsimp only
  repeat' (first
    | with_reducible assumption
    | with_reducible apply keeps_modDie
    | with_reducible apply keeps_requestRun
    | with_reducible apply keeps_fresh
    | with_reducible apply keeps_foldl
    | exact fun _ hk => hk
    | exact fun _ => rfl
    | intro _
    | split)

theorem keeps_place {s u : State} {c : Nat} {x : Bool} {n : Strand} (h : Keeps s u) :
    Keeps s (State.place u c x n) := by
  unfold State.place
  refine keeps_modCore (fun k hk => ?_) h
  cases x <;> exact hk

theorem keeps_unqueue {s u : State} {d : Nat} {e : QEntry} (h : Keeps s u) : Keeps s (State.unqueue u d e) := by
  unfold State.unqueue
  try dsimp only
  repeat' (first
    | with_reducible assumption
    | with_reducible apply keeps_dropResv
    | with_reducible apply keeps_modDie
    | exact fun _ hk => hk
    | exact fun _ => rfl
    | intro _
    | split)

theorem keeps_placeAll {s u : State} {d : Nat} {l : List (((Nat × Bool)) × Nat)} {n : Node} {e : QEntry} {r : Nat}
    (h : Keeps s u) : Keeps s (l.foldl (fun s p =>
      s.place p.1.1 p.1.2 (strandOf n e.inst e.stage p.2 r s.mdl.gen (s.ageOf e))) u) :=
  keeps_foldl (fun _ _ => keeps_place) h

theorem keeps_placeGang {s u : State} {d c0 : Nat} {e : QEntry} {n : Node} (h : Keeps s u) :
    Keeps s (State.placeGang u d c0 e n) := by
  unfold State.placeGang
  refine keeps_laterPick ?_
  generalize hv : List.foldl _ _ _ = v
  have hk : Keeps s v := hv ▸ keeps_placeAll (d := d) (keeps_modMdl (fun _ hm => hm) (keeps_unqueue (keeps_fresh h)))
  split
  · exact keeps_updateNode hk
  · exact hk

theorem keeps_placeSpilled {s u : State} {d : Nat} {c : Nat} {e : QEntry} {n : Node} {run : Nat} {rank : BitVec 4} (h : Keeps s u) : Keeps s (State.placeSpilled u d c e n run rank) := by
  unfold State.placeSpilled
  try dsimp only
  repeat' (first
    | with_reducible assumption
    | with_reducible apply keeps_unqueue
    | with_reducible apply keeps_place
    | with_reducible apply keeps_modRank
    | with_reducible apply keeps_laterPick
    | exact fun _ hk => hk
    | exact fun _ => rfl
    | intro _
    | split)

end Sys2Proof.Machine
end

