-- ==== Sys2Proof/Laws/KeepSuspend.lean ====
section
/-!
SUPPORT. Keeps for suspension, starting, dispatch and the retry ring.
-/
set_option Elab.async false
set_option linter.all false

namespace Sys2Proof.Machine

theorem memOk_items {z : Restore} {l : List Nat} {n : Nat} {f : Core → Nat → Nat → Core}
    (hf : ∀ (k : Core) (i v : Nat), k.memOk → (f k i v).memOk) (h : z.core.memOk) :
    (z.items l n f).core.memOk := by
  unfold Restore.items
  induction l generalizing z with
  | nil => exact h
  | cons i l ih => exact ih (hf _ _ _ h)

theorem memOk_setPlan {k : Core} {x : Bool} {l : List PlanRec} (h : k.memOk) : (k.setPlan x l).memOk := by
  unfold Core.setPlan; cases x <;> exact h

theorem memOk_putReg {k : Core} {x : Bool} {l : Landing} (h : k.memOk) : (k.putReg x l).memOk :=
  Core.memOk_setCtx h

theorem memOk_putTile {k : Core} {t v : Nat} (h : k.memOk) : (k.putTile t v).memOk := h

theorem memOk_loops {x : Bool} {l : List Nat} {z : Restore} (h : z.core.memOk) :
    (l.foldl (fun z i => (List.range 3).foldl (fun (z : Restore) j =>
    let p := takeNum z.rest 8
    let t := z.core.ctx x
    ⟨z.core.setCtx x (t.setLc (i == 1) ((t.lc (i == 1)).setWord (BitVec.ofNat 2 j)
      (BitVec.ofNat 64 p.1))), p.2⟩) z) z).core.memOk := by
  induction l generalizing z with
  | nil => exact h
  | cons i l ih =>
    refine ih ?_
    generalize List.range 3 = q
    induction q generalizing z with
    | nil => exact h
    | cons j q ihq => exact ihq (Core.memOk_setCtx h)

theorem memOk_spads {l : List (Nat × Nat)} {z : Restore} (h : z.core.memOk) :
    (l.foldl (fun (z : Restore) e =>
    ⟨({ z.core with spad := memWriteList z.core.spad e.1 (z.rest.take e.2) } : Core).healSpad
      fun p => e.1 ≤ p && p < e.1 + e.2, z.rest.drop e.2⟩) z).core.memOk := by
  induction l generalizing z with
  | nil => exact h
  | cons i l ih => exact ih ⟨wf_memWriteList h.1 _ _, h.2⟩

theorem memOk_restore {k : Core} {x : Bool} {w : Nat} {l : List Byte} (h : k.memOk) :
    (restore k x w l).memOk := by
  unfold restore
  dsimp only
  refine memOk_spads (memOk_items (fun _ _ _ => memOk_putTile) ?_)
  refine memOk_items (fun _ _ _ => memOk_putReg) (memOk_items (fun _ _ _ => memOk_putReg)
    (memOk_items (fun _ _ _ => memOk_putReg) (memOk_loops ?_)))
  refine memOk_items (fun _ _ _ => Core.memOk_setCtx) (memOk_items (fun _ _ _ hk => ?_) ?_)
  · exact memOk_foldl (fun _ _ => memOk_putReg) hk
  · exact memOk_items (fun _ _ _ => memOk_putReg) (memOk_items (fun _ _ _ => memOk_putReg)
      (memOk_items (fun _ _ _ => memOk_putReg) (memOk_items (fun _ _ _ => Core.memOk_setCtx)
        (memOk_items (fun _ _ _ => Core.memOk_setCtx) (memOk_items (fun _ _ _ => Core.memOk_setCtx) h)))))

theorem keeps_requeue {s u : State} {c : Nat} {n : Strand} {kind : EntryKind} {d : Nat} (h : Keeps s u) : Keeps s (State.requeue u c n kind d) := by
  unfold State.requeue
  repeat' (first
    | with_reducible assumption
    | with_reducible apply keeps_fresh
    | with_reducible apply keeps_enqueue
    | with_reducible apply keeps_later
    | exact fun _ hk => hk
    | exact fun _ => rfl
    | intro _
    | split)

theorem keeps_markDrain {s u : State} {c : Nat} {x : Bool} (h : Keeps s u) : Keeps s (State.markDrain u c x) := by
  unfold State.markDrain
  try dsimp only
  repeat' (first
    | with_reducible assumption
    | with_reducible apply keeps_modWait
    | exact fun _ hk => hk
    | exact fun _ => rfl
    | intro _
    | split)

theorem keeps_spillStrand {s u : State} {c : Nat} {x : Bool} (h : Keeps s u) : Keeps s (State.spillStrand u c x) := by
  unfold State.spillStrand
  try dsimp only
  repeat' (first
    | with_reducible assumption
    | with_reducible apply keeps_freeCtx
    | with_reducible apply keeps_strandFault
    | with_reducible apply keeps_afterSlot
    | with_reducible apply keeps_modRank
    | with_reducible apply keeps_modDie
    | with_reducible apply keeps_requeue
    | with_reducible apply keeps_failNode
    | with_reducible apply keeps_slotWrite
    | exact fun _ hk => hk
    | exact fun _ => rfl
    | intro _
    | split)

theorem keeps_parkStrand {s u : State} {c : Nat} {x : Bool} {resume : Nat} (h : Keeps s u) : Keeps s (State.parkStrand u c x resume) := by
  unfold State.parkStrand
  try dsimp only
  repeat' (first
    | with_reducible assumption
    | with_reducible apply keeps_freeCtx
    | with_reducible apply keeps_afterSlot
    | with_reducible apply keeps_modCore
    | with_reducible apply keeps_clearPreq
    | with_reducible apply keeps_modCtx
    | with_reducible apply keeps_requeue
    | with_reducible apply keeps_slotWrite
    | exact fun _ hk => hk
    | exact fun _ => rfl
    | intro _
    | split)

theorem keeps_resumeParked {s u : State} {c : Nat} {x : Bool} (h : Keeps s u) : Keeps s (State.resumeParked u c x) := by
  unfold State.resumeParked
  try dsimp only
  repeat' (first
    | with_reducible assumption
    | with_reducible apply keeps_unqueue
    | with_reducible apply keeps_modCore
    | with_reducible apply keeps_modCtx
    | with_reducible apply keeps_failNode
    | with_reducible refine keeps_vWrite ?_ ‹_ = Except.ok _›
    | exact fun _ hk => hk
    | exact fun _ => rfl
    | intro _
    | split)

theorem keeps_contextEnded {s u : State} {c : Nat} (h : Keeps s u) : Keeps s (State.contextEnded u c) := by
  unfold State.contextEnded
  try dsimp only
  repeat' (first
    | with_reducible assumption
    | with_reducible apply keeps_modCore
    | with_reducible apply keeps_spillStrand
    | with_reducible apply keeps_later
    | with_reducible apply keeps_resumeParked
    | exact fun _ hk => hk
    | exact fun _ => rfl
    | intro _
    | split)

theorem keeps_suspend {s u : State} {c : Nat} {x : Bool} (h : Keeps s u) : Keeps s (State.suspend u c x) := by
  unfold State.suspend
  try dsimp only
  repeat' (first
    | with_reducible assumption
    | with_reducible apply keeps_markDrain
    | with_reducible apply keeps_modCtx
    | with_reducible apply keeps_modRank
    | with_reducible apply keeps_parkStrand
    | with_reducible apply keeps_later
    | with_reducible apply keeps_spillStrand
    | with_reducible apply keeps_contextEnded
    | exact fun _ hk => hk
    | exact fun _ => rfl
    | intro _
    | split)

theorem keeps_loadImage {s u t : State} {c : Nat} {x : Bool} {n : Strand} (h : Keeps s u)
    (e : u.loadImage c x n = .ok t) : Keeps s t := by
  have put : ∀ l, Keeps s (u.modCore c fun k =>
      { k with istore := memWriteList k.istore (131072 * bit (k.ctx x).half) l }) :=
    fun l => keeps_modCore (fun _ hk => ⟨hk.1, wf_memWriteList hk.2 _ _⟩) h
  unfold State.loadImage at e
  split at e
  · split at e
    · cases e; exact h
    · split at e
      · cases e
      · cases e; exact put _
  · split at e
    · cases e
    · cases e; exact put _

theorem keeps_fillPlan {s t : State} {c : Nat} {l : List PlanRec} : ∀ {u : State}, Keeps s u →
    u.fillPlan c l = .ok t → Keeps s t := by
  have zero : ∀ {u : State} {p : PlanRec}, Keeps s u →
      Keeps s (u.modCore c fun k => ({ k with spad := memZero k.spad p.off p.size } : Core).healSpad p.covers) :=
    fun h => keeps_modCore (fun _ hk => ⟨wf_memZero hk.1 _ _, hk.2⟩) h
  have put : ∀ {u : State} {o : Nat} {l : List Byte} {q : Nat → Bool}, Keeps s u →
      Keeps s (u.modCore c fun k => ({ k with spad := memWriteList k.spad o l } : Core).healSpad q) :=
    fun h => keeps_modCore (fun _ hk => ⟨wf_memWriteList hk.1 _ _, hk.2⟩) h
  have tiles : ∀ {u : State} {p : PlanRec} {r : List Nat} {q : List Nat}, Keeps s u →
      Keeps s (u.modCore c fun k => q.foldl (fun k i =>
        (({ k with acc := r.foldl (fun a j => accPut a (64 * (p.off + i) + j) 0) k.acc } :
          Core).healAcc fun u => u / 512 == p.off + i).setStrip (p.off + i) (Strip.zero true)) k) :=
    by
    intro u p r q h
    refine keeps_modCore (fun k hk => ?_) h
    refine memOk_foldl (fun z i hz => ?_) hk
    exact hz
  induction l with
  | nil => intro u h e; cases e; exact h
  | cons p r ih =>
    intro u h e
    unfold State.fillPlan at e
    split at e
    · exact ih (tiles h) e
    · split at e
      · split at e
        · exact ih (zero h) e
        · split at e
          · cases e
          · exact ih (put h) e
      · exact ih h e

theorem keeps_startOne {s u t : State} {n : Node} {c : Nat} {x : Bool} (h : Keeps s u)
    (e : u.startOne n c x = .ok t) : Keeps s t := by
  unfold State.startOne at e
  split at e
  · cases e; exact h
  · split at e
    · cases e
    next h1 =>
      have k1 := keeps_loadImage h h1
      split at e
      · cases e
      · split at e
        · cases e
        next h2 =>
          have k2 := keeps_fillPlan (keeps_modCore (fun _ => memOk_setPlan) k1) h2
          dsimp only at e
          split at e
          · cases e
          next h3 => cases e; exact keeps_modCtx (keeps_vWrite k2 h3)

theorem keeps_startAll {s t : State} {n : Node} {l : List (Nat × Bool)} : ∀ {u : State}, Keeps s u →
    u.startAll n l = .ok t → Keeps s t := by
  induction l with
  | nil => intro u h e; cases e; exact h
  | cons p r ih =>
    intro u h e
    unfold State.startAll at e
    split at e
    · cases e
    next h1 => exact ih (keeps_startOne h h1) e

theorem keeps_startGang {s u : State} {d : Nat} {c0 : Nat} (h : Keeps s u) : Keeps s (State.startGang u d c0) := by
  unfold State.startGang
  try dsimp only
  repeat' (first
    | with_reducible assumption
    | with_reducible apply keeps_modMdl
    | with_reducible apply keeps_later
    | with_reducible apply keeps_yewStrand
    | with_reducible apply keeps_failNode
    | with_reducible apply keeps_foldl
    | with_reducible refine keeps_startAll ?_ ‹_ = Except.ok _›
    | exact fun _ hk => hk
    | exact fun _ => rfl
    | intro _
    | split)

theorem keeps_resume {s u : State} {c : Nat} {x : Bool} (h : Keeps s u) : Keeps s (State.resume u c x) := by
  unfold State.resume
  try dsimp only
  repeat' (first
    | with_reducible assumption
    | with_reducible apply keeps_later
    | with_reducible apply keeps_strandFault
    | with_reducible apply keeps_modCore
    | with_reducible apply keeps_modCtx
    | with_reducible apply keeps_failNode
    | with_reducible apply keeps_modRank
    | with_reducible apply keeps_foldl
    | with_reducible refine keeps_loadImage ?_ ‹_ = Except.ok _›
    | exact fun _ => memOk_restore
    | exact fun _ => memOk_setPlan
    | with_reducible refine keeps_vWrite ?_ ‹_ = Except.ok _›
    | exact fun _ hk => hk
    | exact fun _ => rfl
    | intro _
    | split)

theorem keeps_barrierCheck {s u : State} {run : Nat} (h : Keeps s u) : Keeps s (State.barrierCheck u run) := by
  unfold State.barrierCheck
  try dsimp only
  repeat' (first
    | with_reducible assumption
    | with_reducible apply keeps_modMdl
    | with_reducible apply keeps_modWait
    | with_reducible apply keeps_timer
    | with_reducible apply keeps_laterPick
    | with_reducible apply keeps_foldl
    | exact fun _ hk => hk
    | exact fun _ => rfl
    | intro _
    | split)

theorem keeps_arrive {s u : State} {c : Nat} {x : Bool} (h : Keeps s u) : Keeps s (State.arrive u c x) := by
  unfold State.arrive
  try dsimp only
  repeat' (first
    | with_reducible assumption
    | with_reducible apply keeps_modWait
    | with_reducible apply keeps_modRank
    | with_reducible apply keeps_barrierCheck
    | with_reducible apply keeps_timer
    | exact fun _ hk => hk
    | exact fun _ => rfl
    | intro _
    | split)

theorem keeps_runEnded {s u : State} {r : Run} {cls : BitVec 2} {d : Nat} (h : Keeps s u) : Keeps s (State.runEnded u r cls d) := by
  unfold State.runEnded
  try dsimp only
  repeat' (first
    | with_reducible assumption
    | with_reducible apply keeps_modMdl
    | with_reducible apply keeps_gangDone
    | with_reducible apply keeps_later
    | exact fun _ hk => hk
    | exact fun _ => rfl
    | intro _
    | split)

theorem keeps_retire {s u : State} {c : Nat} {x : Bool} (h : Keeps s u) : Keeps s (State.retire u c x) := by
  unfold State.retire
  try dsimp only
  repeat' (first
    | with_reducible assumption
    | with_reducible apply keeps_strandFault
    | with_reducible apply keeps_markDrain
    | with_reducible apply keeps_afterSlot
    | with_reducible apply keeps_sign
    | with_reducible apply keeps_modRank
    | with_reducible apply keeps_freeCtx
    | with_reducible apply keeps_barrierCheck
    | with_reducible apply keeps_runEnded
    | with_reducible apply keeps_contextEnded
    | with_reducible apply keeps_slotWrite
    | exact fun _ hk => hk
    | exact fun _ => rfl
    | intro _
    | split)

theorem keeps_clearSeats {s u : State} {e : QEntry} {cores : List Nat} (h : Keeps s u) : Keeps s (State.clearSeats u e cores) := by
  unfold State.clearSeats
  repeat' (first
    | with_reducible assumption
    | with_reducible apply keeps_spillStrand
    | with_reducible apply keeps_foldl
    | exact fun _ hk => hk
    | exact fun _ => rfl
    | intro _
    | split)

/-- What a try at an entry keeps. -/
def Try.keeps (s : State) : Try → Prop
  | .placed t => Keeps s t
  | .waits t _ => Keeps s t
  | .noRun => True

theorem keeps_takeRun {s u : State} {d c0 : Nat} {e : QEntry} {f : State → Node → State}
    (hf : ∀ v n, Keeps s v → Keeps s (f v n)) (h : Keeps s u) : (u.takeRun d c0 e f).keeps s := by
  unfold State.takeRun
  dsimp only
  have h' : Keeps s (u.clearSeats e (e.cores d c0)) := keeps_clearSeats h
  split
  · split
    · exact hf _ _ h'
    · exact keeps_later h'
  · exact h'

theorem keeps_tryEntry {s u : State} {d : Nat} {q : QEntry} {l : List Nat} (h : Keeps s u) :
    (u.tryEntry d q l).keeps s := by
  unfold State.tryEntry
  split
  · exact keeps_unqueue h
  · split
    · split <;> split <;> first | exact keeps_resumeParked h | trivial
    · split
      · trivial
      · exact keeps_takeRun (fun _ _ => keeps_placeGang) h
    · split
      · trivial
      · exact keeps_takeRun (fun _ _ => keeps_placeSpilled) h

theorem keeps_dispatchList {s : State} {d : Nat} {l : List QEntry} : ∀ {u : State} {b : Bool} {k : List Nat},
    Keeps s u → Keeps s (u.dispatchList d b k l) := by
  induction l with
  | nil => intro u b k h; exact h
  | cons q r ih =>
    intro u b k h
    have key := keeps_tryEntry (d := d) (q := q) (l := k) h
    unfold State.dispatchList
    split
    next e => rw [e] at key; exact keeps_later key
    next e => rw [e] at key; exact ih key
    next =>
      refine ih ?_
      split
      · exact keeps_reserve h
      · exact h

theorem keeps_keepResv {s u : State} {d : Nat} {head : Option QEntry} (h : Keeps s u) : Keeps s (State.keepResv u d head) := by
  unfold State.keepResv
  repeat' (first
    | with_reducible assumption
    | with_reducible apply keeps_dropResv
    | exact fun _ hk => hk
    | exact fun _ => rfl
    | intro _
    | split)

theorem keeps_endedCores {s u : State} {d : Nat} (h : Keeps s u) : Keeps s (State.endedCores u d) := by
  unfold State.endedCores
  repeat' (first
    | with_reducible assumption
    | with_reducible apply keeps_contextEnded
    | with_reducible apply keeps_foldl
    | exact fun _ hk => hk
    | exact fun _ => rfl
    | intro _
    | split)

theorem keeps_dispatch {s u : State} {d : Nat} (h : Keeps s u) : Keeps s (State.dispatch u d) := by
  unfold State.dispatch
  try dsimp only
  repeat' (first
    | with_reducible assumption
    | with_reducible apply keeps_endedCores
    | with_reducible apply keeps_keepResv
    | with_reducible apply keeps_dispatchList
    | exact fun _ hk => hk
    | exact fun _ => rfl
    | intro _
    | split)

theorem keeps_putEntry {s u : State} {d : Nat} {e : RingEntry} (h : Keeps s u) : Keeps s (State.putEntry u d e) := by
  unfold State.putEntry
  try dsimp only
  repeat' (first
    | with_reducible assumption
    | with_reducible apply keeps_modDie
    | exact fun _ hk => hk
    | exact fun _ => rfl
    | intro _
    | split)

theorem keeps_rportAct {s u : State} {w : Word} {v : Word} (h : Keeps s u) : Keeps s (State.rportAct u w v).2 := by
  unfold State.rportAct
  try dsimp only
  repeat' (first
    | with_reducible assumption
    | with_reducible apply keeps_putEntry
    | with_reducible apply keeps_later
    | exact fun _ hk => hk
    | exact fun _ => rfl
    | intro _
    | split)

theorem keeps_endResident {s u : State} {c : Nat} {x : Bool} (h : Keeps s u) : Keeps s (State.endResident u c x) := by
  unfold State.endResident
  try dsimp only
  repeat' (first
    | with_reducible assumption
    | with_reducible apply keeps_modCtx
    | exact fun _ hk => hk
    | exact fun _ => rfl
    | intro _
    | split)

theorem keeps_entryValue {s u : State} {e : RingEntry} {v : Word} (h : Keeps s u) : Keeps s (State.entryValue u e v) := by
  unfold State.entryValue
  try dsimp only
  repeat' (first
    | with_reducible assumption
    | with_reducible apply keeps_modRegs
    | with_reducible apply keeps_modRank
    | exact fun _ hk => hk
    | exact fun _ => rfl
    | intro _
    | split)

theorem keeps_endSuspended {s u : State} {e : RingEntry} {d : Nat} {code : Nat} (h : Keeps s u) : Keeps s (State.endSuspended u e d code) := by
  unfold State.endSuspended
  try dsimp only
  repeat' (first
    | with_reducible assumption
    | with_reducible apply keeps_yewStrand
    | with_reducible apply keeps_failNode
    | exact fun _ hk => hk
    | exact fun _ => rfl
    | intro _
    | split)

theorem keeps_endStrand {s u : State} {e : RingEntry} {code : BitVec 8} (h : Keeps s u) : Keeps s (State.endStrand u e code) := by
  unfold State.endStrand
  try dsimp only
  repeat' (first
    | with_reducible assumption
    | with_reducible apply keeps_endResident
    | with_reducible apply keeps_modCtx
    | with_reducible apply keeps_endSuspended
    | exact fun _ hk => hk
    | exact fun _ => rfl
    | intro _
    | split)

/-- What a replay keeps. -/
def ReplayOut.keeps (s : State) : ReplayOut → Prop
  | .done t => Keeps s t
  | .faults t => Keeps s t
  | .waits t _ => Keeps s t
  | .overflow t => Keeps s t





theorem keeps_replaySign {s u : State} {e : RingEntry} {p : Nat} (h : Keeps s u) : Keeps s (State.replaySign u e p) := by
  unfold State.replaySign
  try dsimp only
  repeat' (first
    | with_reducible assumption
    | with_reducible apply keeps_modRank
    | exact fun _ hk => hk
    | exact fun _ => rfl
    | intro _
    | split)

theorem keeps_replayed {s u : State} {e : RingEntry} (h : Keeps s u) : (u.replayed e).keeps s := keeps_putEntry h

theorem keeps_replayBad {s u : State} {e : RingEntry} {off : Nat} {k : BitVec 2} (h : Keeps s u) :
    (u.replayBad e off k).keeps s := keeps_replayed (keeps_entryValue (keeps_apertureBad h))

theorem keeps_replayHost {s u : State} {e : RingEntry} {off : Nat} {v : Word} (h : Keeps s u) :
    (u.replayHost e off v).keeps s := by
  unfold State.replayHost
  split
  · split
    · exact h
    · exact keeps_replayBad h
  · extract_lets p
    have k : Keeps s p.2 := keeps_pick h
    clear_value p
    split
    · exact keeps_replayed (keeps_entryValue k)
    · exact keeps_replayBad k
    · exact keeps_replayBad k
    · exact keeps_putEntry k

theorem keeps_replayLoad {s u : State} {e : RingEntry} {v : Word} {x : Site} (h : Keeps s u) :
    (u.replayLoad e v x).keeps s := by
  cases x with
  | aperture off => exact keeps_replayHost h
  | register a off => exact keeps_replayed (keeps_entryValue h)
  | hbm a => exact keeps_replayed (keeps_entryValue h)
  | vault a off => exact keeps_replayed (keeps_entryValue h)
  | nowhere => exact keeps_replayed (keeps_entryValue h)

theorem keeps_replayOne {s u : State} {e : RingEntry} (h : Keeps s u) : (u.replayOne e).keeps s := by
  unfold State.replayOne
  dsimp only
  split
  · exact h
  · split
    · exact h
    · split
      · exact h
      · split
        · split
          · exact keeps_replayed (keeps_replaySign (keeps_physWrite (keeps_countReq h)))
          · split
            · exact keeps_replayed (keeps_replaySign (keeps_modDie (keeps_countReq h)))
            · exact h
            · exact h
        · split
          · exact h
          · exact keeps_replayLoad (keeps_countReq h)

theorem keeps_replay {s : State} {l : List RingEntry} : ∀ {u : State}, Keeps s u → (u.replay l).keeps s := by
  induction l with
  | nil => intro u h; exact h
  | cons e r ih =>
    intro u h
    have key := keeps_replayOne (e := e) h
    unfold State.replay
    split
    next q => rw [q] at key; exact ih key
    next q => rw [q] at key; exact key
    next q => rw [q] at key; exact key
    next q => rw [q] at key; exact key

theorem keeps_freeSet {s u : State} {d : Nat} {l : List RingEntry} (h : Keeps s u) : Keeps s (State.freeSet u d l) := by
  unfold State.freeSet
  try dsimp only
  repeat' (first
    | with_reducible assumption
    | with_reducible apply keeps_entryValue
    | with_reducible apply keeps_modDie
    | with_reducible apply keeps_foldl
    | exact fun _ hk => hk
    | exact fun _ => rfl
    | intro _
    | split)

theorem keeps_refreshDiverted {s u : State} {c : Nat} {x : Bool} {d : Nat} (h : Keeps s u) : Keeps s (State.refreshDiverted u c x d) := by
  unfold State.refreshDiverted
  try dsimp only
  repeat' (first
    | with_reducible assumption
    | with_reducible apply keeps_modCtx
    | exact fun _ hk => hk
    | exact fun _ => rfl
    | intro _
    | split)

theorem keeps_rackFree {s u : State} {d : Nat} {e : RingEntry} {l : List RingEntry} (h : Keeps s u) : Keeps s (State.rackFree u d e l).2 := by
  unfold State.rackFree
  try dsimp only
  repeat' (first
    | with_reducible assumption
    | with_reducible apply keeps_freeSet
    | with_reducible apply keeps_later
    | with_reducible apply keeps_refreshDiverted
    | with_reducible apply keeps_settle
    | exact fun _ hk => hk
    | exact fun _ => rfl
    | intro _
    | split)

theorem keeps_rackAct {s u : State} {w : Word} (h : Keeps s u) : Keeps s (u.rackAct w).2 := by
  unfold State.rackAct
  split
  · exact h
  · dsimp only
    split
    · exact h
    · next e _ _ =>
      have key := keeps_replay (l := (u.rackSet (slice w 21 16) e).filter fun f => f.prot) h
      split
      next q => rw [q] at key; exact keeps_rackFree key
      next q => rw [q] at key; exact keeps_endStrand (keeps_rackFree key)
      next q => rw [q] at key; exact keeps_endStrand (keeps_rackFree key)
      next q => rw [q] at key; exact keeps_later key

theorem keeps_answer {s u : State} {d : BitVec 5} {w : Word} {v : Nat} (h : Keeps s u) : Keeps s (State.answer u d w v) := by
  unfold State.answer
  try dsimp only
  repeat' (first
    | with_reducible assumption
    | with_reducible apply keeps_awaitMe
    | with_reducible apply keeps_laterPick
    | exact fun _ hk => hk
    | exact fun _ => rfl
    | intro _
    | split)

theorem keeps_rackWait {s u : State} {d : BitVec 5} {w : Word} (h : Keeps s u) : Keeps s (State.rackWait u d w) := by
  unfold State.rackWait
  try dsimp only
  repeat' (first
    | with_reducible assumption
    | with_reducible apply keeps_awaitMe
    | with_reducible apply keeps_modDie
    | exact fun _ hk => hk
    | exact fun _ => rfl
    | intro _
    | split)

theorem keeps_rackAgain {s u : State} {d : Nat} {q : RackWait} (h : Keeps s u) : Keeps s (u.rackAgain d q) := by
  unfold State.rackAgain
  have key := keeps_rackAct (w := q.w) h
  split
  next e => rw [e] at key; exact key
  next e =>
    rw [e] at key
    dsimp only
    split
    · exact keeps_later (keeps_modDie key)
    · exact keeps_modDie key

theorem keeps_racksAgain {s u : State}  (h : Keeps s u) : Keeps s (State.racksAgain u) := by
  unfold State.racksAgain
  repeat' (first
    | with_reducible assumption
    | with_reducible apply keeps_rackAgain
    | with_reducible apply keeps_foldl
    | exact fun _ hk => hk
    | exact fun _ => rfl
    | intro _
    | split)

theorem keeps_mirrorFault {s u : State} {d : Nat} {idx : Nat} {code : BitVec 8} (h : Keeps s u) : Keeps s (State.mirrorFault u d idx code) := by
  unfold State.mirrorFault
  try dsimp only
  repeat' (first
    | with_reducible assumption
    | with_reducible apply keeps_modDie
    | with_reducible apply keeps_event
    | exact fun _ hk => hk
    | exact fun _ => rfl
    | intro _
    | split)

theorem keeps_publish {s u : State} {d : Nat} (h : Keeps s u) : Keeps s (State.publish u d) := by
  unfold State.publish
  try dsimp only
  repeat' (first
    | with_reducible assumption
    | with_reducible apply keeps_later
    | with_reducible apply keeps_mirrorFault
    | with_reducible apply keeps_putEntry
    | with_reducible refine keeps_vWrite ?_ ‹_ = Except.ok _›
    | exact fun _ hk => hk
    | exact fun _ => rfl
    | intro _
    | split)

theorem keeps_setMirror {s u : State} {d : Nat} {v : Word} (h : Keeps s u) : Keeps s (State.setMirror u d v) := by
  unfold State.setMirror
  try dsimp only
  repeat' (first
    | with_reducible assumption
    | with_reducible apply keeps_modDie
    | with_reducible apply keeps_event
    | with_reducible apply keeps_later
    | exact fun _ hk => hk
    | exact fun _ => rfl
    | intro _
    | split)

end Sys2Proof.Machine
end

