-- ==== Sys2Proof/Laws/KeepEngines.lean ====
section
/-!
SUPPORT. Keeps for the engines and the collective unit.
-/
set_option Elab.async false
set_option linter.all false

namespace Sys2Proof.Machine

theorem keeps_modLink {s u : State} {l : Nat} {f : Link → Link} (h : Keeps s u) : Keeps s (State.modLink u l f) := by
  unfold State.modLink
  try dsimp only
  repeat' (first
    | with_reducible assumption
    | with_reducible apply keeps_modMdl
    | exact fun _ hk => hk
    | exact fun _ => rfl
    | intro _
    | split)

theorem keeps_sends {s u : State} {l : Nat} {f : Link → Link} (h : Keeps s u) : Keeps s (State.sends u l f) := by
  unfold State.sends
  try dsimp only
  repeat' (first
    | with_reducible assumption
    | with_reducible apply keeps_replay
    | with_reducible apply keeps_modLink
    | with_reducible apply keeps_later
    | exact fun _ hk => hk
    | exact fun _ => rfl
    | intro _
    | split)

theorem keeps_linkPump {s u : State} {l : Nat} (h : Keeps s u) : Keeps s (State.linkPump u l) := by
  unfold State.linkPump
  try dsimp only
  repeat' (first
    | with_reducible assumption
    | with_reducible apply keeps_sends
    | exact fun _ hk => hk
    | exact fun _ => rfl
    | intro _
    | split)

theorem keeps_transmit {s u : State} {l : Nat} {ty : BitVec 4} {stream : BitVec 20} {payload : List Byte} (h : Keeps s u) : Keeps s (State.transmit u l ty stream payload) := by
  unfold State.transmit
  try dsimp only
  repeat' (first
    | with_reducible assumption
    | with_reducible apply keeps_sends
    | with_reducible apply keeps_modLink
    | with_reducible apply keeps_linkPump
    | exact fun _ hk => hk
    | exact fun _ => rfl
    | intro _
    | split)

theorem keeps_linkWrites {s u : State} {l : Nat} {stream : BitVec 20} {ws : List (Nat × List Byte)} (h : Keeps s u) : Keeps s (State.linkWrites u l stream ws) := by
  unfold State.linkWrites
  try dsimp only
  repeat' (first
    | with_reducible assumption
    | with_reducible apply keeps_modLink
    | with_reducible apply keeps_linkPump
    | exact fun _ hk => hk
    | exact fun _ => rfl
    | intro _
    | split)

theorem keeps_engLeaf {s u t : State} {d p : Nat} {va : Word} {n : Need} {l : Transl} (h : Keeps s u)
    (e : u.engLeaf d va n l = .ok (p, t)) : Keeps s t := by
  unfold State.engLeaf at e
  split at e
  · cases e
  · cases e; exact keeps_modDie h

theorem keeps_engXlate {s u t : State} {q : Cmd} {p : Nat} {va : Word} {n : Need} (h : Keeps s u)
    (e : u.engXlate q va n = .ok (p, t)) : Keeps s t := by
  unfold State.engXlate at e
  dsimp only at e
  split at e
  · cases e
  · split at e
    · exact keeps_engLeaf h e
    · split at e
      · cases e
      · split at e
        · exact keeps_engLeaf h e
        · cases e

theorem keeps_engMiss {s u : State} {d id page : Nat} (h : Keeps s u) : Keeps s (u.engMiss d id page) := by
  unfold State.engMiss
  dsimp only
  split
  · exact keeps_engWalk (keeps_modDie h)
  · exact keeps_modDie h

theorem keeps_engRead {s u t : State} {q : Cmd} {n : Nat} {e : Side} {l : List Byte} (h : Keeps s u)
    (e' : u.engRead q n e = .ok (l, t)) : Keeps s t := by
  cases e with
  | spad c off =>
    unfold State.engRead at e'
    dsimp only at e'
    split at e'
    · cases e'
    · split at e'
      · cases e'
      · cases e'; exact h
  | glob va =>
    unfold State.engRead at e'
    dsimp only at e'
    split at e'
    · cases e'
    next h1 =>
      have k1 := keeps_engXlate h h1
      split at e' <;> split at e' <;> cases e' <;> exact keeps_countReq k1

theorem keeps_countSpad {s u : State} {q : Cmd} {c : Nat} (h : Keeps s u) : Keeps s (State.countSpad u q c) := by
  unfold State.countSpad
  try dsimp only
  repeat' (first
    | with_reducible assumption
    | with_reducible apply keeps_modDie
    | exact fun _ hk => hk
    | exact fun _ => rfl
    | intro _
    | split)

/-- Where a write request answers with a state, it keeps what Keeps names. -/
def WriteOut.Keeps (s : State) : WriteOut → Prop
  | .done t _ => Machine.Keeps s t
  | .err _ | .waits | .overflow => True

theorem keeps_engWrite {s u : State} {q : Cmd} {l : List Byte} {e : Side} (h : Keeps s u) :
    (u.engWrite q l e).Keeps s := by
  cases e with
  | spad c off =>
    unfold State.engWrite
    dsimp only
    split
    · trivial
    · exact keeps_modCore (fun _ hk => ⟨wf_memWriteList hk.1 _ _, hk.2⟩) (keeps_countSpad h)
  | glob va =>
    unfold State.engWrite
    dsimp only
    split
    · trivial
    next h1 =>
      have k1 := keeps_engXlate h h1
      split
      · exact keeps_physWrite (keeps_countReq k1)
      · split
        · exact keeps_countReq k1
        · split
          · exact keeps_physWrite (keeps_countReq k1)
          · split
            · exact keeps_modDie (keeps_countReq k1)
            · trivial
            · trivial

theorem keeps_writeAll {s : State} {z : Xfer} {q : Cmd} {w : Word} {n : Nat} {l : List Byte} {dsts : List Side}
    (h : Keeps s z.s) : Keeps s (z.writeAll q w n l dsts).s := by
  have go : ∀ (ds : List Side) (z : Xfer), Keeps s z.s → Keeps s (ds.foldl (fun z e =>
      match z.fin with
      | .fault _ | .misses _ | .waits | .overflow => z
      | .going =>
        match z.s.engWrite q l e with
        | .done s r => { z with s := s, recs := z.recs ++ r }
        | .err f => { z with fin := f.stop (w + BitVec.ofNat 64 n) }
        | .waits => { z with fin := .waits }
        | .overflow => { z with fin := .overflow }) z).s := by
    intro ds
    induction ds with
    | nil => exact fun _ h => h
    | cons e r ih =>
      intro z hz
      refine ih _ ?_
      dsimp only
      split
      · exact hz
      · exact hz
      · exact hz
      · exact hz
      · have k := keeps_engWrite (q := q) (l := l) (e := e) hz
        split
        next heq => rw [heq] at k; exact k
        · exact hz
        · exact hz
        · exact hz
  unfold Xfer.writeAll
  dsimp only
  split
  · exact h
  · exact go dsts z h

/-- A piece keeps what Keeps names. -/
def Piece.Keeps (s : State) (f : Piece) : Prop := ∀ n m len z, Machine.Keeps s z.s → Machine.Keeps s (f n m len z).s

theorem keeps_cutRow {s : State} {f : Piece} (hf : Piece.Keeps s f) {a b : Option Side} {fuel : Nat} :
    ∀ {left n m : Nat} {z : Xfer}, Keeps s z.s → Keeps s (cutRow f a b fuel left n m z).s := by
  induction fuel with
  | zero => exact fun h => h
  | succ k ih =>
    intro left n m z h
    unfold cutRow
    split
    · exact h
    · exact ih (hf _ _ _ _ h)

theorem keeps_copyPiece {s : State} {q : Cmd} {o : XferOps} : Piece.Keeps s (copyPiece q o) := by
  intro n m len z h
  unfold copyPiece
  split
  · exact h
  next h1 => exact keeps_writeAll (keeps_engRead h h1)

theorem keeps_copyRows {s : State} {f : Piece} (hf : Piece.Keeps s f) {o : XferOps} {k : Nat} {z : Xfer}
    (h : Keeps s z.s) : Keeps s (copyRows f o k z).s := by
  induction k with
  | zero => exact h
  | succ k ih => exact keeps_cutRow hf ih

theorem keeps_marker {s : State} {q : Cmd} {o : XferOps} {mark mval : Bool} {z : Xfer} (h : Keeps s z.s) :
    Keeps s (z.marker q o mark mval).s := by
  unfold Xfer.marker
  split
  · exact h
  · exact keeps_cutRow (fun _ _ _ _ h => keeps_writeAll h) h

theorem keeps_xfer {s u : State} {q : Cmd} {o : XferOps} {mark mval : Bool} (h : Keeps s u) :
    Keeps s (u.xfer q o mark mval).s := keeps_marker (keeps_copyRows keeps_copyPiece h)

theorem keeps_dropCmd {s u : State} {d : Nat} {id : Nat} (h : Keeps s u) : Keeps s (State.dropCmd u d id) := by
  unfold State.dropCmd
  try dsimp only
  repeat' (first
    | with_reducible assumption
    | with_reducible apply keeps_modDie
    | with_reducible apply keeps_enginesTake
    | exact fun _ hk => hk
    | exact fun _ => rfl
    | intro _
    | split)

theorem keeps_modCmd {s u : State} {d : Nat} {id : Nat} {f : Cmd → Cmd} (h : Keeps s u) : Keeps s (State.modCmd u d id f) := by
  unfold State.modCmd
  try dsimp only
  repeat' (first
    | with_reducible assumption
    | with_reducible apply keeps_modDie
    | exact fun _ hk => hk
    | exact fun _ => rfl
    | intro _
    | split)

theorem keeps_cmdRecords {s u : State} {q : Cmd} {recs : List Byte} (h : Keeps s u) : Keeps s (State.cmdRecords u q recs) := by
  unfold State.cmdRecords
  repeat' (first
    | with_reducible assumption
    | with_reducible apply keeps_signFill
    | exact fun _ hk => hk
    | exact fun _ => rfl
    | intro _
    | split)

theorem keeps_cmdDone {s u : State} {d : Nat} {q : Cmd} {v : Word} (h : Keeps s u) : Keeps s (State.cmdDone u d q v) := by
  unfold State.cmdDone
  try dsimp only
  repeat' (first
    | with_reducible assumption
    | with_reducible apply keeps_dropCmd
    | with_reducible apply keeps_gangDone
    | with_reducible apply keeps_modRegs
    | exact fun _ hk => hk
    | exact fun _ => rfl
    | intro _
    | split)

theorem keeps_failInst {s u : State} {i : CollInst} {but : Nat} {code : Nat} (h : Keeps s u) : Keeps s (State.failInst u i but code) := by
  unfold State.failInst
  try dsimp only
  repeat' (first
    | with_reducible assumption
    | with_reducible apply keeps_modMdl
    | with_reducible apply keeps_later
    | with_reducible apply keeps_foldl
    | exact fun _ hk => hk
    | exact fun _ => rfl
    | intro _
    | split)

theorem keeps_failColl {s u : State} {q : Cmd} (h : Keeps s u) : Keeps s (State.failColl u q) := by
  unfold State.failColl
  repeat' (first
    | with_reducible assumption
    | with_reducible apply keeps_failInst
    | exact fun _ hk => hk
    | exact fun _ => rfl
    | intro _
    | split)

theorem keeps_cmdFault {s u : State} {d : Nat} {q : Cmd} {fw : Word} (h : Keeps s u) : Keeps s (State.cmdFault u d q fw) := by
  unfold State.cmdFault
  try dsimp only
  repeat' (first
    | with_reducible assumption
    | with_reducible apply keeps_dropCmd
    | with_reducible apply keeps_failColl
    | with_reducible apply keeps_failNode
    | with_reducible apply keeps_modRegs
    | exact fun _ hk => hk
    | exact fun _ => rfl
    | intro _
    | split)

theorem keeps_cmdEnd {s u : State} {d : Nat} {q : Cmd} {v : Word} {z : Xfer} (h : Keeps s u) (hz : Keeps s z.s) :
    Keeps s (State.cmdEnd u d q v z) := by
  unfold State.cmdEnd
  split
  · exact keeps_cmdDone (keeps_cmdRecords hz)
  · exact keeps_cmdFault (keeps_cmdRecords hz)
  · exact keeps_engMiss h
  · exact keeps_later (keeps_later (keeps_modCmd h))
  · dsimp only
    split
    · exact keeps_modCtx (keeps_dropCmd h)
    · exact keeps_dropCmd h

theorem keeps_runCopy {s u : State} {d : Nat} {q : Cmd} {mval : Bool} {mark : Bool} {ds : BitVec 2} {ss : BitVec 2} (h : Keeps s u) : Keeps s (State.runCopy u d q mval mark ds ss) := by
  unfold State.runCopy
  try dsimp only
  repeat' (first
    | with_reducible assumption
    | with_reducible apply keeps_cmdRecords
    | with_reducible apply keeps_cmdFault
    | with_reducible apply keeps_cmdEnd
    | with_reducible apply keeps_xfer
    | exact fun _ hk => hk
    | exact fun _ => rfl
    | intro _
    | split)

theorem keeps_runCopym {s u : State} {d : Nat} {q : Cmd} {mval : Bool} {mark : Bool} {ss : BitVec 2} (h : Keeps s u) : Keeps s (State.runCopym u d q mval mark ss) := by
  unfold State.runCopym
  try dsimp only
  repeat' (first
    | with_reducible assumption
    | with_reducible apply keeps_cmdFault
    | with_reducible apply keeps_cmdDone
    | with_reducible apply keeps_cmdEnd
    | with_reducible apply keeps_coresMap
    | with_reducible apply keeps_xfer
    | exact fun _ hk => hk
    | exact fun _ => rfl
    | intro _
    | split)

theorem keeps_rcopyPiece {s : State} {q : Cmd} {o : XferOps} {b : Nat} : Piece.Keeps s (rcopyPiece q o b) := by
  intro n m len z h
  unfold rcopyPiece
  split
  · exact h
  next h1 => exact keeps_engRead h h1

theorem keeps_rcopySend {s u : State} {d : Nat} {l : Nat} {q : Cmd} {v : Word} {late : Option Word} {ws : List (Nat × List Byte)} (h : Keeps s u) : Keeps s (State.rcopySend u d l q v late ws) := by
  unfold State.rcopySend
  try dsimp only
  repeat' (first
    | with_reducible assumption
    | with_reducible apply keeps_linkWrites
    | with_reducible apply keeps_modCmd
    | with_reducible apply keeps_laterPick
    | exact fun _ hk => hk
    | exact fun _ => rfl
    | intro _
    | split)

theorem keeps_rcopyMove {s u : State} {d l : Nat} {q : Cmd} {o : XferOps} {mark mval : Bool} (h : Keeps s u) :
    Keeps s (u.rcopyMove d l q o mark mval) := by
  unfold State.rcopyMove
  extract_lets off z
  have k : Keeps s z.s := keeps_copyRows keeps_rcopyPiece h
  clear_value z
  split
  · split
    · exact keeps_cmdFault k
    · exact keeps_rcopySend k
  · exact keeps_engMiss h
  all_goals
    split
    · exact keeps_cmdDone k
    · exact keeps_rcopySend k

theorem keeps_runRcopy {s u : State} {d : Nat} {q : Cmd} {mval : Bool} {mark : Bool} {ss : BitVec 2} (h : Keeps s u) : Keeps s (State.runRcopy u d q mval mark ss) := by
  unfold State.runRcopy
  try dsimp only
  repeat' (first
    | with_reducible assumption
    | with_reducible apply keeps_cmdFault
    | with_reducible apply keeps_later
    | with_reducible apply keeps_rcopyMove
    | exact fun _ hk => hk
    | exact fun _ => rfl
    | intro _
    | split)

theorem keeps_rcopyEnd {s u : State} {d : Nat} {q : Cmd} {v : Word} (h : Keeps s u) : Keeps s (State.rcopyEnd u d q v) := by
  unfold State.rcopyEnd
  repeat' (first
    | with_reducible assumption
    | with_reducible apply keeps_cmdFault
    | with_reducible apply keeps_cmdDone
    | exact fun _ hk => hk
    | exact fun _ => rfl
    | intro _
    | split)

theorem keeps_rcopyAnswer {s u : State} {d : Nat} {q : Cmd} {v : Word} (h : Keeps s u) :
    Keeps s (u.rcopyAnswer d q v) := by
  unfold State.rcopyAnswer
  extract_lets l p
  have k : Keeps s p.2 := keeps_pick h
  clear_value p
  split
  · exact keeps_later h
  · split
    · exact keeps_rcopyEnd k
    · split
      · exact keeps_cmdFault k
      · exact keeps_rcopyEnd k

theorem keeps_command {s u : State} {t : BitVec 5} {x : BitVec 3} {op : Instr} (h : Keeps s u) : Keeps s (State.command u t x op).2 := by
  unfold State.command
  try dsimp only
  repeat' (first
    | with_reducible assumption
    | with_reducible apply keeps_fresh
    | with_reducible apply keeps_awaitMe
    | with_reducible apply keeps_modDie
    | exact fun _ hk => hk
    | exact fun _ => rfl
    | intro _
    | split)

theorem keeps_copyCmd {s u : State} {g : Guard} {t : BitVec 5} {x : BitVec 3} {glob : Bool} {op : Instr} (h : Keeps s u) : Keeps s (copyCmd g t x glob op u) := by
  unfold copyCmd
  try dsimp only
  repeat' (first
    | with_reducible assumption
    | with_reducible apply keeps_command
    | with_reducible apply keeps_signSlot
    | with_reducible apply keeps_enginesTake
    | exact fun _ hk => hk
    | exact fun _ => rfl
    | intro _
    | split)

theorem keeps_gatherFrom {s : State} {q : Cmd} {e : Side} {w : Word} {fuel : Nat} : ∀ {left n : Nat} {z : Gather},
    Keeps s z.s → Keeps s (gatherFrom q e w fuel left n z).s := by
  induction fuel with
  | zero => exact fun h => h
  | succ k ih =>
    intro left n z h
    unfold gatherFrom
    split
    · exact h
    · dsimp only
      split
      · exact h
      next h1 => exact ih (keeps_engRead h h1)

theorem keeps_gather {s u : State} {q : Cmd} {e : Side} {w : Word} {n : Nat} (h : Keeps s u) :
    Keeps s (u.gather q e w n).s := keeps_gatherFrom h

theorem keeps_collTable {s u : State} {q : Cmd} (h : Keeps s u) : Keeps s (u.collTable q).s := by
  unfold State.collTable
  dsimp only
  split
  · exact keeps_gather h
  · exact keeps_gather (keeps_gather h)

theorem keeps_collAdd {s u : State} {d id : Nat} {tag : BitVec 32} {k : Nat} {me : CollMember} {dies links : List Nat}
    (h : Keeps s u) : Keeps s (u.collAdd d id tag k me dies links) := by
  unfold State.collAdd
  refine keeps_modCmd (keeps_modMdl (fun m hm => ?_) (keeps_modDie h))
  split
  · exact hm
  · exact hm

theorem keeps_engFail {s u : State} {d : Nat} {id : Nat} {w : Word} (h : Keeps s u) : Keeps s (State.engFail u d id w) := by
  unfold State.engFail
  repeat' (first
    | with_reducible assumption
    | with_reducible apply keeps_laterPick
    | exact fun _ hk => hk
    | exact fun _ => rfl
    | intro _
    | split)

theorem keeps_peerFault {s u : State} {i : CollInst} (h : Keeps s u) : Keeps s (u.peerFault i).2 := by
  unfold State.peerFault
  split
  · exact h
  · exact keeps_pick h

theorem keeps_collJoined {s u : State} {d : Nat} {q : Cmd} {i : CollInst} {me : CollMember} {dies : List Nat} {n : Nat}
    {own : Option Word} (h : Keeps s u) : Keeps s (u.collJoined d q i me dies n own) := by
  unfold State.collJoined
  extract_lets group member p
  have k : Keeps s p.2 := keeps_peerFault h
  clear_value p
  split
  · exact keeps_engFail (keeps_failInst h)
  · split
    · exact keeps_engFail h
    · split
      · exact keeps_failInst h
      · split
        · exact keeps_engFail (keeps_failInst h)
        · split
          · exact keeps_failInst k
          · split
            · exact keeps_laterLeast k
            · exact k

theorem keeps_collEnter {s u : State} {d : Nat} {q : Cmd} {ty op ds ss : BitVec 2} {l : List Byte} (h : Keeps s u) :
    Keeps s (u.collEnter d q ty op ds ss l) := by
  unfold State.collEnter
  extract_lets n tag ok es m rank dies links me z
  have kz : Keeps s z := keeps_collAdd h
  clear_value z
  split
  · exact keeps_collJoined kz
  · exact kz

theorem keeps_collRead {s u : State} {d : Nat} {q : Cmd} {ty op ds ss : BitVec 2} (h : Keeps s u) :
    Keeps s (u.collRead d q ty op ds ss) := by
  unfold State.collRead
  extract_lets z
  have hh : Keeps s z.s := keeps_collTable (keeps_modCmd h)
  clear_value z
  split
  · exact keeps_engFail hh
  · exact keeps_engMiss h
  all_goals exact keeps_collEnter hh

theorem keeps_collJoin {s u : State} {d : Nat} {q : Cmd} {ty op ds ss : BitVec 2} (h : Keeps s u) :
    Keeps s (u.collJoin d q ty op ds ss) := by
  unfold State.collJoin
  extract_lets n till
  split
  · exact keeps_engFail (keeps_modCmd h)
  · split
    · exact keeps_later (keeps_modCmd h)
    · exact keeps_collRead h

theorem keeps_runColl {s u : State} {d : Nat} {q : Cmd} {ty op ds ss : BitVec 2} (h : Keeps s u) :
    Keeps s (u.runColl d q ty op ds ss) := by
  unfold State.runColl
  split
  · next v i _ _ =>
    split
    · have k : Keeps s (u.peerFault i).2 := keeps_peerFault h
      dsimp only
      split
      · exact keeps_failInst k
      · exact keeps_cmdDone k
    · exact h
  · exact keeps_cmdDone h
  · split
    · exact h
    · split
      · exact keeps_collJoin h
      · exact keeps_later h

theorem keeps_runCopies {s u : State} {d : Nat} {q : Cmd} (h : Keeps s u) : Keeps s (State.runCopies u d q) := by
  unfold State.runCopies
  try dsimp only
  repeat' (first
    | with_reducible assumption
    | with_reducible apply keeps_result
    | with_reducible apply keeps_rcopyAnswer
    | with_reducible apply keeps_later
    | with_reducible apply keeps_runCopy
    | with_reducible apply keeps_runCopym
    | with_reducible apply keeps_runRcopy
    | exact fun _ hk => hk
    | exact fun _ => rfl
    | intro _
    | split)

theorem keeps_engineDone {s u : State} {d : Nat} {id : Nat} (h : Keeps s u) : Keeps s (State.engineDone u d id) := by
  unfold State.engineDone
  repeat' (first
    | with_reducible assumption
    | with_reducible apply keeps_runColl
    | with_reducible apply keeps_runCopies
    | exact fun _ hk => hk
    | exact fun _ => rfl
    | intro _
    | split)

theorem keeps_resultPiece {s : State} {q : Cmd} {o : XferOps} {l : List Byte} : Piece.Keeps s (resultPiece q o l) :=
  fun _ _ _ _ h => keeps_writeAll h

theorem keeps_collSources {s u : State} {i : CollInst} {ss : BitVec 2} {b n : Nat} (h : Keeps s u) :
    Keeps s (u.collSources i ss b n).1 := by
  induction n with
  | zero => exact h
  | succ n ih =>
    unfold State.collSources
    dsimp only
    split
    · exact ih
    · split
      · exact ih
      · exact keeps_gather ih

theorem keeps_collDisagree {s u : State} {i : CollInst} (h : Keeps s u) : Keeps s (State.collDisagree u i) := by
  unfold State.collDisagree
  repeat' (first
    | with_reducible assumption
    | with_reducible apply keeps_failInst
    | exact fun _ hk => hk
    | exact fun _ => rfl
    | intro _
    | split)

theorem keeps_collWrite {s u : State} {q : Cmd} {l : List Byte} (h : Keeps s u) :
    Keeps s (u.collWrite q l).s := keeps_cutRow keeps_resultPiece h

/-- What the last part of a collective keeps. -/
def CollOut.keeps (s : State) : CollOut → Prop
  | .ends t => Keeps s t
  | .misses _ _ _ => True

theorem keeps_collDeliver {s u : State} {d : Nat} {q : Cmd} {w : Word} {l : List Byte} (h : Keeps s u) :
    (u.collDeliver d q w l).keeps s := by
  unfold State.collDeliver
  extract_lets z
  have k : Keeps s z.s := keeps_collWrite h
  clear_value z
  split
  · exact keeps_cmdFault k
  · trivial
  all_goals exact keeps_laterLeast (keeps_modCmd k)

theorem keeps_collFinish {s u : State} {qs : List (CollMember × Cmd)} {ty op : BitVec 2} {n : Nat} {g2 : Word}
    {srcs : List (List Byte)} (h : Keeps s u) : (u.collFinish qs ty op n g2 srcs).keeps s := by
  unfold State.collFinish
  extract_lets e red
  have key : ∀ (l : List (CollMember × Cmd)) (o : CollOut), o.keeps s → (l.foldl (fun o p => match o with
      | .ends s => s.collDeliver p.1.die p.2 (collFlags ty op srcs red)
          (collResult ty op srcs red e p.1.rank (slice p.2.g2 47 32))
      | .misses d id page => .misses d id page) o).keeps s := by
    intro l
    induction l with
    | nil => exact fun _ h => h
    | cons p r ih =>
      intro o ho
      refine ih _ ?_
      cases o with
      | ends v => exact keeps_collDeliver ho
      | misses a b c => trivial
  exact key qs _ h

theorem keeps_collBreak {s u : State} {q : Cmd} {m : CollMember} {w : Word} {ty op : BitVec 2}
    {srcs : List (List Byte)} {p : Nat} (h : Keeps s u) : (u.collBreak q m w ty op srcs p).keeps s := by
  unfold State.collBreak
  extract_lets v l z
  have k : Keeps s z.s := keeps_collWrite h
  clear_value z
  split
  · exact keeps_cmdFault k
  · trivial
  all_goals exact keeps_cmdFault k

theorem keeps_collMove {s u : State} {i : CollInst} {qs : List (CollMember × Cmd)} {ty op ss : BitVec 2} {n : Nat}
    {g2 : Word} (h : Keeps s u) : (u.collMove i qs ty op ss n g2).keeps s := by
  unfold State.collMove
  extract_lets z srcs
  have k : Keeps s z.1 := keeps_collSources h
  clear_value z
  split
  · trivial
  · split
    · split
      · exact keeps_collBreak k
      · exact k
    · exact keeps_collFinish k

theorem keeps_collMeet {s u : State} {i : CollInst} (h : Keeps s u) : Keeps s (u.collMeet i) := by
  unfold State.collMeet
  generalize List.filterMap _ i.members = qs
  have k : Keeps s (u.peerFault i).2 := keeps_peerFault h
  dsimp only
  generalize u.peerFault i = f at k ⊢
  split
  · exact h
  · split
    · exact keeps_collDisagree h
    · split
      · exact keeps_later h
      · split
        · exact keeps_failInst k
        · split
          · have km : ∀ qs ty op ss n g o, f.2.collMove i qs ty op ss n g = o → o.keeps s :=
              fun qs ty op ss n g o e => e ▸ keeps_collMove k
            split
            next e => exact km _ _ _ _ _ _ _ e
            next e => exact keeps_engMiss k
          · exact k

theorem keeps_xposeOp {s u : State} {g : Guard} {d : BitVec 5} {a : BitVec 5} {b : BitVec 5} {z : BitVec 3} (h : Keeps s u) : Keeps s (xposeOp g d a b z u) := by
  unfold xposeOp
  try dsimp only
  repeat' (first
    | with_reducible assumption
    | with_reducible apply keeps_modCore
    | with_reducible apply keeps_touch
    | with_reducible apply keeps_timer
    | exact fun _ hk => hk
    | exact fun _ => rfl
    | intro _
    | split)

end Sys2Proof.Machine
end

