-- ==== Sys2Proof/Laws/KeepModule.lean ====
section
/-!
SUPPORT. Keeps for protection, the links and power.
-/
set_option Elab.async false
set_option linter.all false

namespace Sys2Proof.Machine

theorem keeps_cleanRun {s u : State} {d : Nat} (h : Keeps s u) : Keeps s (State.cleanRun u d) := by
  unfold State.cleanRun
  try dsimp only
  repeat' (first
    | with_reducible assumption
    | with_reducible apply keeps_modDie
    | exact fun _ hk => hk
    | exact fun _ => rfl
    | intro _
    | split)

theorem keeps_beginRetire {s u : State} {cl : List Nat} (h : Keeps s u) : Keeps s (State.beginRetire u cl) := by
  unfold State.beginRetire
  try dsimp only
  repeat' (first
    | with_reducible assumption
    | with_reducible apply keeps_modDie
    | with_reducible apply keeps_dropResv
    | with_reducible apply keeps_abandonRun
    | with_reducible apply keeps_foldl
    | exact fun _ hk => hk
    | exact fun _ => rfl
    | intro _
    | split)

theorem keeps_retireClusters {s u : State} {cl : List Nat} {score : Nat} (h : Keeps s u) : Keeps s (State.retireClusters u cl score) := by
  unfold State.retireClusters
  repeat' (first
    | with_reducible assumption
    | with_reducible apply keeps_beginRetire
    | with_reducible apply keeps_later
    | exact fun _ hk => hk
    | exact fun _ => rfl
    | intro _
    | split)

theorem keeps_evaluate {s u : State} {hit : Option Nat} {score : Nat} (h : Keeps s u) : Keeps s (State.evaluate u hit score) := by
  unfold State.evaluate
  try dsimp only
  repeat' (first
    | with_reducible assumption
    | with_reducible apply keeps_event
    | with_reducible apply keeps_retireClusters
    | exact fun _ hk => hk
    | exact fun _ => rfl
    | intro _
    | split)

theorem keeps_chargeCluster {s u : State} {g : Nat} {n : Nat} (h : Keeps s u) : Keeps s (State.chargeCluster u g n) := by
  unfold State.chargeCluster
  try dsimp only
  repeat' (first
    | with_reducible assumption
    | with_reducible apply keeps_modDie
    | with_reducible apply keeps_evaluate
    | exact fun _ hk => hk
    | exact fun _ => rfl
    | intro _
    | split)

theorem keeps_chargeDie {s u : State} {d : Nat} {n : Nat} (h : Keeps s u) : Keeps s (State.chargeDie u d n) := by
  unfold State.chargeDie
  try dsimp only
  repeat' (first
    | with_reducible assumption
    | with_reducible apply keeps_modDie
    | with_reducible apply keeps_evaluate
    | exact fun _ hk => hk
    | exact fun _ => rfl
    | intro _
    | split)

theorem keeps_leaveCore {s u : State} {c : Nat} (h : Keeps s u) : Keeps s (State.leaveCore u c) := by
  unfold State.leaveCore
  try dsimp only
  repeat' (first
    | with_reducible assumption
    | with_reducible apply keeps_spillStrand
    | with_reducible apply keeps_setPreq
    | exact fun _ hk => hk
    | exact fun _ => rfl
    | intro _
    | split)

theorem keeps_replace {s u : State} {d : Nat} {e : QEntry} (h : Keeps s u) : Keeps s (State.replace u d e) := by
  unfold State.replace
  try dsimp only
  repeat' (first
    | with_reducible assumption
    | with_reducible apply keeps_unqueue
    | with_reducible apply keeps_abandonRun
    | with_reducible apply keeps_failNode
    | with_reducible apply keeps_enqueue
    | with_reducible apply keeps_fresh
    | exact fun _ hk => hk
    | exact fun _ => rfl
    | intro _
    | split)

theorem keeps_finishRetire {s u : State} {cl : List Nat} {score : Nat} (h : Keeps s u) :
    Keeps s (u.finishRetire cl score) := by
  unfold State.finishRetire
  extract_lets ds a b c d e
  have ha : Keeps s a := keeps_foldl (fun _ _ => keeps_modDie) h
  have hb : Keeps s b := keeps_modMdl (fun _ hm => hm) ha
  have hc : Keeps s c := keeps_coresMap (fun _ hk => hk) hb
  have hd : Keeps s d := keeps_foldl (fun _ _ => keeps_foldl (fun _ _ => keeps_replace)) hc
  have he : Keeps s e := by
    refine keeps_foldl (fun v i hv => ?_) hd
    split
    · exact keeps_failInst hv
    · exact hv
  exact keeps_foldl (fun _ _ hv => keeps_later (keeps_yewAdd (keeps_event hv))) he

theorem keeps_topology {s u : State} {cl : List Nat} {score : Nat} (h : Keeps s u) : Keeps s (State.topology u cl score) := by
  unfold State.topology
  try dsimp only
  repeat' (first
    | with_reducible assumption
    | with_reducible apply keeps_beginRetire
    | with_reducible apply keeps_leaveCore
    | with_reducible apply keeps_finishRetire
    | with_reducible apply keeps_later
    | with_reducible apply keeps_foldl
    | exact fun _ hk => hk
    | exact fun _ => rfl
    | intro _
    | split)

theorem keeps_pipelineErr {s u : State} {c : Nat} {x : Bool} {unit : BitVec 3} (h : Keeps s u) : Keeps s (State.pipelineErr u c x unit) := by
  unfold State.pipelineErr
  try dsimp only
  repeat' (first
    | with_reducible assumption
    | with_reducible apply keeps_modCore
    | with_reducible apply keeps_modCtx
    | with_reducible apply keeps_chargeCluster
    | with_reducible apply keeps_abandonRun
    | with_reducible apply keeps_contextEnded
    | with_reducible apply keeps_chargeDie
    | exact fun _ hk => hk
    | exact fun _ => rfl
    | intro _
    | split)

theorem keeps_writeHeld {s u : State} {d : Nat} {run : Nat} (h : Keeps s u) : Keeps s (State.writeHeld u d run) := by
  unfold State.writeHeld
  try dsimp only
  repeat' (first
    | with_reducible assumption
    | with_reducible apply keeps_homeWrite
    | with_reducible apply keeps_foldl
    | exact fun _ hk => hk
    | exact fun _ => rfl
    | intro _
    | split)

theorem keeps_release {s u : State} {run : Nat} (h : Keeps s u) : Keeps s (State.release u run) := by
  unfold State.release
  try dsimp only
  repeat' (first
    | with_reducible assumption
    | with_reducible apply keeps_writeHeld
    | with_reducible apply keeps_endRun
    | with_reducible apply keeps_modMdl
    | with_reducible apply keeps_cleanRun
    | with_reducible apply keeps_gangDone
    | with_reducible apply keeps_later
    | exact fun _ hk => hk
    | exact fun _ => rfl
    | intro _
    | split)

theorem keeps_elect {s u : State} {r : Run} {others : List Run} (h : Keeps s u) :
    Keeps s (u.elect r others) := by
  unfold State.elect
  refine keeps_foldl (fun _ _ hz => ?_) ?_
  · exact keeps_later (keeps_endRun hz)
  · exact keeps_later h

theorem keeps_outvote {s u : State} {p : Run} {q : Run} {out : Run} (h : Keeps s u) : Keeps s (State.outvote u p q out) := by
  unfold State.outvote
  try dsimp only
  repeat' (first
    | with_reducible assumption
    | with_reducible apply keeps_elect
    | with_reducible apply keeps_cleanRun
    | with_reducible apply keeps_chargeDie
    | exact fun _ hk => hk
    | exact fun _ => rfl
    | intro _
    | split)

theorem keeps_vote {s u : State} {gang : Nat} (h : Keeps s u) : Keeps s (State.vote u gang) := by
  unfold State.vote
  try dsimp only
  repeat' (first
    | with_reducible assumption
    | with_reducible apply keeps_elect
    | with_reducible apply keeps_cleanRun
    | with_reducible apply keeps_queueGang
    | with_reducible apply keeps_outvote
    | with_reducible apply keeps_failNode
    | exact fun _ hk => hk
    | exact fun _ => rfl
    | intro _
    | split)

theorem keeps_lineFreed {s u : State} {d : Nat} (h : Keeps s u) : Keeps s (State.lineFreed u d) := by
  unfold State.lineFreed
  try dsimp only
  repeat' (first
    | with_reducible assumption
    | with_reducible apply keeps_settleDie
    | with_reducible apply keeps_racksAgain
    | with_reducible apply keeps_endedCores
    | with_reducible apply keeps_abandonRun
    | with_reducible apply keeps_later
    | exact fun _ hk => hk
    | exact fun _ => rfl
    | intro _
    | split)

theorem keeps_killEntry {s u : State} {e : RingEntry} (h : Keeps s u) : Keeps s (u.killEntry e) :=
  keeps_endStrand (keeps_foldl (fun _ _ => keeps_later) (keeps_dies h))

theorem keeps_rrkill {s u : State} {w : Word} (h : Keeps s u) : Keeps s (State.rrkill u w) := by
  unfold State.rrkill
  repeat' (first
    | with_reducible assumption
    | with_reducible apply keeps_killEntry
    | exact fun _ hk => hk
    | exact fun _ => rfl
    | intro _
    | split)

theorem keeps_poisonUnits {s u : State} {p : Nat} {n : Nat} (h : Keeps s u) : Keeps s (State.poisonUnits u p n) := by
  unfold State.poisonUnits
  try dsimp only
  repeat' (first
    | with_reducible assumption
    | with_reducible apply keeps_modMdl
    | exact fun _ hk => hk
    | exact fun _ => rfl
    | intro _
    | split)

theorem keeps_ueStrand {s u : State} {c : Nat} {x : Bool} (h : Keeps s u) : Keeps s (State.ueStrand u c x) := by
  unfold State.ueStrand
  repeat' (first
    | with_reducible assumption
    | with_reducible apply keeps_strandFault
    | with_reducible apply keeps_contextEnded
    | exact fun _ hk => hk
    | exact fun _ => rfl
    | intro _
    | split)

theorem keeps_answerUe {s u : State} {p : ErrPlace} (h : Keeps s u) : Keeps s (u.answerUe p) := by
  cases p <;> simp only [State.answerUe]
  case register => exact keeps_ueStrand h
  case spad => split
               · exact keeps_ueStrand h
               · exact keeps_modCore (fun _ hk => hk) h
  case accum => split
                · exact keeps_ueStrand h
                · exact keeps_modCore (fun _ hk => hk) h
  case istore => split
                 · exact keeps_ueStrand h
                 · exact h
  case containment => exact keeps_chargeDie (keeps_foldl (fun _ _ => keeps_abandonRun) h)
  case ring => split
               · exact keeps_killEntry h
               · exact h
  case yew => exact keeps_modDie h
  case memory => split
                 · exact keeps_poisonUnits h
                 · exact h
  case unit => exact h
  case hostPort => exact h

theorem keeps_ueAt {s u : State} {p : ErrPlace} {synd : BitVec 16} (h : Keeps s u) :
    Keeps s (u.ueAt p synd) := keeps_answerUe (keeps_recordUe h)

theorem keeps_ceAt {s u : State} {p : ErrPlace} {synd : BitVec 16} (h : Keeps s u) : Keeps s (State.ceAt u p synd) := by
  unfold State.ceAt
  try dsimp only
  repeat' (first
    | with_reducible assumption
    | with_reducible apply keeps_bankAdd
    | exact fun _ hk => hk
    | exact fun _ => rfl
    | intro _
    | split)

theorem keeps_bankClear {s u : State} {d : Nat} {c : Nat} {u_ : BitVec 8} (h : Keeps s u) : Keeps s (State.bankClear u d c u_) := by
  unfold State.bankClear
  try dsimp only
  repeat' (first
    | with_reducible assumption
    | with_reducible apply keeps_modCore
    | with_reducible apply keeps_modDie
    | exact fun _ hk => hk
    | exact fun _ => rfl
    | intro _
    | split)

theorem keeps_patrolLine {s u : State} {stack : Nat} {line : Nat} {bad : Option (BitVec 16)} (h : Keeps s u) : Keeps s (State.patrolLine u stack line bad) := by
  unfold State.patrolLine
  try dsimp only
  repeat' (first
    | with_reducible assumption
    | with_reducible apply keeps_recordUe
    | with_reducible apply keeps_poisonUnits
    | exact fun _ hk => hk
    | exact fun _ => rfl
    | intro _
    | split)

theorem keeps_setErrinj {s u : State} {c : Nat} {v : Word} (h : Keeps s u) : Keeps s (State.setErrinj u c v) := by
  unfold State.setErrinj
  try dsimp only
  repeat' (first
    | with_reducible assumption
    | with_reducible apply keeps_modCore
    | exact fun _ hk => hk
    | exact fun _ => rfl
    | intro _
    | split)

theorem keeps_replayNow {s u : State} {l : Nat} (h : Keeps s u) : Keeps s (State.replayNow u l) := by
  unfold State.replayNow
  try dsimp only
  repeat' (first
    | with_reducible assumption
    | with_reducible apply keeps_modLink
    | with_reducible apply keeps_later
    | with_reducible apply keeps_replay
    | exact fun _ hk => hk
    | exact fun _ => rfl
    | intro _
    | split)

theorem keeps_sequencedIn {s u : State} {l : Nat} {f : Flit} (h : Keeps s u) : Keeps s (State.sequencedIn u l f) := by
  unfold State.sequencedIn
  try dsimp only
  repeat' (first
    | with_reducible assumption
    | with_reducible apply keeps_modLink
    | with_reducible apply keeps_transmit
    | exact fun _ hk => hk
    | exact fun _ => rfl
    | intro _
    | split)

theorem keeps_flitIn {s u : State} {l : Nat} {raw : List Byte} (h : Keeps s u) : Keeps s (State.flitIn u l raw) := by
  unfold State.flitIn
  try dsimp only
  repeat' (first
    | with_reducible assumption
    | with_reducible apply keeps_modLink
    | with_reducible apply keeps_bankAdd
    | with_reducible apply keeps_transmit
    | with_reducible apply keeps_linkPump
    | with_reducible apply keeps_sequencedIn
    | exact fun _ hk => hk
    | exact fun _ => rfl
    | intro _
    | split)

theorem keeps_replayDue {s u : State} {l : Nat} (h : Keeps s u) : Keeps s (State.replayDue u l) := by
  unfold State.replayDue
  try dsimp only
  repeat' (first
    | with_reducible assumption
    | with_reducible apply keeps_replay
    | with_reducible apply keeps_replayNow
    | with_reducible apply keeps_later
    | exact fun _ hk => hk
    | exact fun _ => rfl
    | intro _
    | split)

theorem keeps_linkLost {s u : State} {l : Nat} (h : Keeps s u) : Keeps s (State.linkLost u l) := by
  unfold State.linkLost
  try dsimp only
  repeat' (first
    | with_reducible assumption
    | with_reducible apply keeps_later
    | with_reducible apply keeps_failInst
    | with_reducible apply keeps_foldl
    | exact fun _ hk => hk
    | exact fun _ => rfl
    | intro _
    | split)

theorem keeps_train {s u : State} {l : Nat} (h : Keeps s u) : Keeps s (State.train u l) := by
  unfold State.train
  try dsimp only
  repeat' (first
    | with_reducible assumption
    | with_reducible apply keeps_pick
    | with_reducible apply keeps_later
    | exact fun _ hk => hk
    | exact fun _ => rfl
    | intro _
    | split)

theorem keeps_linkDown {s u : State} {l : Nat} (h : Keeps s u) : Keeps s (State.linkDown u l) := by
  unfold State.linkDown
  try dsimp only
  repeat' (first
    | with_reducible assumption
    | with_reducible apply keeps_modLink
    | with_reducible apply keeps_yewAdd
    | with_reducible apply keeps_recordUe
    | with_reducible apply keeps_event
    | with_reducible apply keeps_linkLost
    | exact fun _ hk => hk
    | exact fun _ => rfl
    | intro _
    | split)

theorem keeps_laneFails {s u : State} {l : Nat} {lane : Nat} (h : Keeps s u) : Keeps s (State.laneFails u l lane) := by
  unfold State.laneFails
  try dsimp only
  repeat' (first
    | with_reducible assumption
    | with_reducible apply keeps_modLink
    | with_reducible apply keeps_linkDown
    | with_reducible apply keeps_yewAdd
    | with_reducible apply keeps_bankAdd
    | with_reducible apply keeps_event
    | with_reducible apply keeps_train
    | exact fun _ hk => hk
    | exact fun _ => rfl
    | intro _
    | split)

theorem keeps_laneSign {s u : State} {l : Nat} {e : LaneSign} (h : Keeps s u) :
    Keeps s (u.laneSign l e) := by
  cases e with
  | lockLost n => exact keeps_laneFails h
  | fec m c n =>
    unfold State.laneSign
    exact keeps_ite (keeps_laneFails (keeps_modLink h)) (keeps_modLink h)

theorem keeps_trained {s u : State} {l : Nat} (h : Keeps s u) : Keeps s (State.trained u l) := by
  unfold State.trained
  try dsimp only
  repeat' (first
    | with_reducible assumption
    | with_reducible apply keeps_linkDown
    | with_reducible apply keeps_modLink
    | with_reducible apply keeps_replay
    | with_reducible apply keeps_replayNow
    | with_reducible apply keeps_linkPump
    | exact fun _ hk => hk
    | exact fun _ => rfl
    | intro _
    | split)

theorem keeps_retrain {s u : State} {l : Nat} {locked : BitVec 16} (h : Keeps s u) : Keeps s (State.retrain u l locked) := by
  unfold State.retrain
  try dsimp only
  repeat' (first
    | with_reducible assumption
    | with_reducible apply keeps_modLink
    | with_reducible apply keeps_train
    | exact fun _ hk => hk
    | exact fun _ => rfl
    | intro _
    | split)

theorem keeps_respond {s u : State} {l : List Byte} (h : Keeps s u) : Keeps s (State.respond u l) := by
  unfold State.respond
  try dsimp only
  repeat' (first
    | with_reducible assumption
    | with_reducible apply keeps_modMdl
    | exact fun _ hk => hk
    | exact fun _ => rfl
    | intro _
    | split)

theorem keeps_readPart {s u : State} (h : Keeps s u) : Keeps s u.readPart.2 := by
  unfold State.readPart
  exact keeps_pick h

theorem keeps_readLcnt {s u : State} {l : Nat} {p : Part} (h : Keeps s u) : Keeps s (State.readLcnt u l p) := by
  unfold State.readLcnt
  try dsimp only
  repeat' (first
    | with_reducible assumption
    | with_reducible apply keeps_respond
    | with_reducible apply keeps_modLink
    | exact fun _ hk => hk
    | exact fun _ => rfl
    | intro _
    | split)

theorem keeps_readFeccnt {s u : State} {l : Nat} {p : Part} (h : Keeps s u) : Keeps s (State.readFeccnt u l p) := by
  unfold State.readFeccnt
  try dsimp only
  repeat' (first
    | with_reducible assumption
    | with_reducible apply keeps_respond
    | with_reducible apply keeps_modLink
    | exact fun _ hk => hk
    | exact fun _ => rfl
    | intro _
    | split)

theorem keeps_inboundBytes {s : State} {k : Link} {bs : List Byte} : ∀ {u : State} {a : Nat}, Keeps s u →
    Keeps s (u.inboundBytes k a bs).2 := by
  induction bs with
  | nil => exact fun h => h
  | cons b r ih =>
    intro u a h
    unfold State.inboundBytes
    split
    · exact h
    · split
      · exact h
      · exact ih (keeps_physWrite h)

theorem keeps_answerPeer {s u : State} {l : Nat} {cmd : BitVec 20} {ok : Bool} (h : Keeps s u) : Keeps s (State.answerPeer u l cmd ok) := by
  unfold State.answerPeer
  try dsimp only
  repeat' (first
    | with_reducible assumption
    | with_reducible apply keeps_modLink
    | exact fun _ hk => hk
    | exact fun _ => rfl
    | intro _
    | split)

theorem keeps_inbound {s u : State} {l : Nat} {cmd : BitVec 20} {off : Nat} {data : List Byte} {last : Bool}
    (h : Keeps s u) : Keeps s (u.inbound l cmd off data last) := by
  unfold State.inbound
  extract_lets k forget z
  have kz : Keeps s z.2 := by
    show Keeps s (if _ then _ else _ : Bool × State).2
    split
    · exact keeps_inboundBytes h
    · exact h
  clear_value z
  split
  · split
    · exact keeps_modLink h
    · exact h
  · split
    · split
      · exact keeps_answerPeer kz
      · exact keeps_modLink (keeps_answerPeer kz)
    · split
      · exact keeps_answerPeer kz
      · exact kz

theorem keeps_clkpat {s u : State} {d : Nat} (h : Keeps s u) : Keeps s (State.clkpat u d) := by
  unfold State.clkpat
  try dsimp only
  repeat' (first
    | with_reducible assumption
    | with_reducible apply keeps_modDie
    | with_reducible apply keeps_later
    | exact fun _ hk => hk
    | exact fun _ => rfl
    | intro _
    | split)

theorem keeps_repattern {s u : State} {d : Nat} (h : Keeps s u) : Keeps s (State.repattern u d) := by
  unfold State.repattern
  repeat' (first
    | with_reducible assumption
    | with_reducible apply keeps_later
    | exact fun _ hk => hk
    | exact fun _ => rfl
    | intro _
    | split)

theorem keeps_repatternAll {s u : State}  (h : Keeps s u) : Keeps s (State.repatternAll u) := by
  unfold State.repatternAll
  repeat' (first
    | with_reducible assumption
    | with_reducible apply keeps_repattern
    | with_reducible apply keeps_foldl
    | exact fun _ hk => hk
    | exact fun _ => rfl
    | intro _
    | split)

theorem keeps_setGrant {s u : State} {c : Nat} {v : BitVec 32} (h : Keeps s u) : Keeps s (State.setGrant u c v) := by
  unfold State.setGrant
  try dsimp only
  repeat' (first
    | with_reducible assumption
    | with_reducible apply keeps_modCore
    | exact fun _ hk => hk
    | exact fun _ => rfl
    | intro _
    | split)

theorem keeps_pstepSet {s u : State} {lvl : BitVec 4} (h : Keeps s u) : Keeps s (State.pstepSet u lvl) := by
  unfold State.pstepSet
  try dsimp only
  repeat' (first
    | with_reducible assumption
    | with_reducible apply keeps_modMdl
    | with_reducible apply keeps_yewAdd
    | with_reducible apply keeps_repatternAll
    | with_reducible apply keeps_foldl
    | exact fun _ hk => hk
    | exact fun _ => rfl
    | intro _
    | split)

theorem keeps_throttle {s u : State}  (h : Keeps s u) : Keeps s (State.throttle u) := by
  unfold State.throttle
  repeat' (first
    | with_reducible assumption
    | with_reducible apply keeps_raiseAll
    | exact fun _ hk => hk
    | exact fun _ => rfl
    | intro _
    | split)

theorem keeps_paceRunning {s u : State}  (h : Keeps s u) : Keeps s (State.paceRunning u) := by
  unfold State.paceRunning
  try dsimp only
  repeat' (first
    | with_reducible assumption
    | with_reducible apply keeps_result
    | with_reducible apply keeps_dies
    | exact fun _ hk => hk
    | exact fun _ => rfl
    | intro _
    | split)

theorem keeps_setStage {s u : State} {stage : BitVec 3} (h : Keeps s u) : Keeps s (State.setStage u stage) := by
  unfold State.setStage
  try dsimp only
  repeat' (first
    | with_reducible assumption
    | with_reducible apply keeps_paceRunning
    | with_reducible apply keeps_modMdl
    | with_reducible apply keeps_throttle
    | with_reducible apply keeps_repatternAll
    | with_reducible apply keeps_coresMap
    | exact fun _ hk => hk
    | exact fun _ => rfl
    | intro _
    | split)

theorem keeps_draw {s u : State} {d : Nat} {a : Nat} (h : Keeps s u) : Keeps s (State.draw u d a) := by
  unfold State.draw
  try dsimp only
  repeat' (first
    | with_reducible assumption
    | with_reducible apply keeps_modDie
    | with_reducible apply keeps_repattern
    | exact fun _ hk => hk
    | exact fun _ => rfl
    | intro _
    | split)

theorem keeps_estimate {s u : State} {watts : Nat} {avg : Nat} {draws : List (Nat × Nat)} (h : Keeps s u) : Keeps s (State.estimate u watts avg draws) := by
  unfold State.estimate
  try dsimp only
  repeat' (first
    | with_reducible assumption
    | with_reducible apply keeps_modMdl
    | with_reducible apply keeps_setStage
    | with_reducible apply keeps_draw
    | with_reducible apply keeps_foldl
    | exact fun _ hk => hk
    | exact fun _ => rfl
    | intro _
    | split)

theorem keeps_estimateDue {s u : State} {w : Watts} {draws : List (Nat × Nat)} (h : Keeps s u) : Keeps s (State.estimateDue u w draws) := by
  unfold State.estimateDue
  repeat' (first
    | with_reducible assumption
    | with_reducible apply keeps_estimate
    | exact fun _ hk => hk
    | exact fun _ => rfl
    | intro _
    | split)

theorem keeps_phaseLoss {s u : State} {d : Nat} {phases : BitVec 8} {limit : BitVec 16} {draw : Nat} (h : Keeps s u) :
    Keeps s (u.phaseLoss d phases limit draw) :=
  keeps_repattern (keeps_yewAdd (keeps_event (keeps_modDie h)))

theorem keeps_energyRead {s u : State} {d : Nat} {p : Part} (h : Keeps s u) : Keeps s (State.energyRead u d p) := by
  unfold State.energyRead
  try dsimp only
  repeat' (first
    | with_reducible assumption
    | with_reducible apply keeps_respond
    | with_reducible apply keeps_modDie
    | exact fun _ hk => hk
    | exact fun _ => rfl
    | intro _
    | split)

theorem keeps_powerDown {s u : State}  (h : Keeps s u) : Keeps s (State.powerDown u) := by
  unfold State.powerDown
  try dsimp only
  repeat' (first
    | with_reducible assumption
    | with_reducible apply keeps_yewAdd
    | with_reducible apply keeps_modMdl
    | with_reducible apply keeps_foldl
    | exact fun _ hk => hk
    | exact fun _ => rfl
    | intro _
    | split)

theorem wf_bootFail {m : Module} {a : BitVec 8} {b : BitVec 3} (h : Mem.wf m.hostMem = true) :
    Mem.wf (m.bootFail a b).hostMem = true := by
  unfold Module.bootFail
  split
  · exact h
  · split <;> exact h

theorem keeps_configure {s u : State} {i : ConfigImage} (h : Keeps s u) : Keeps s (State.configure u i) := by
  unfold State.configure
  try dsimp only
  repeat' (first
    | with_reducible assumption
    | with_reducible apply keeps_modMdl
    | with_reducible apply keeps_dies
    | exact fun _ hk => hk
    | exact fun _ => rfl
    | intro _
    | split)

theorem keeps_checkImage {s u : State} {code : BitVec 8} {i : ConfigImage} (h : Keeps s u) :
    Keeps s (u.checkImage code i) := by
  unfold State.checkImage
  split
  · exact h
  · split
    · exact keeps_configure h
    · exact keeps_modMdl (fun _ => wf_bootFail) h

theorem keeps_trainHbm {s u : State} {t : BitVec 32} {r : Bool} (h : Keeps s u) : Keeps s (u.trainHbm t r) := by
  unfold State.trainHbm
  split
  · exact h
  · refine keeps_modMdl (fun m hm => ?_) h
    dsimp only
    split
    · exact hm
    · exact wf_bootFail hm

theorem keeps_minimal {s u : State} {p : BitVec 64} (h : Keeps s u) : Keeps s (u.minimal p) := by
  unfold State.minimal
  split
  · exact keeps_modMdl (fun _ hm => hm) h
  · refine keeps_yewAdd (keeps_modMdl (fun m hm => ?_) (keeps_dies h))
    exact hm

theorem keeps_tested {s u : State} {p : BitVec 64} (h : Keeps s u) : Keeps s (u.tested p) := by
  unfold State.tested
  split
  · exact h
  · extract_lets ok v
    have hv : Keeps s v := by
      show Keeps s (if _ then _ else _)
      split
      · exact keeps_modMdl (fun _ hm => hm) h
      · exact keeps_modMdl (fun _ => wf_bootFail) h
    clear_value v
    split
    · exact keeps_minimal hv
    · exact hv

theorem keeps_accept1 {s u : State} {v : Word} (h : Keeps s u) : Keeps s (State.accept1 u v) := by
  unfold State.accept1
  try dsimp only
  repeat' (first
    | with_reducible assumption
    | with_reducible apply keeps_modMdl
    | exact fun _ hk => hk
    | exact fun _ => rfl
    | intro _
    | split)

theorem keeps_accept0 {s u : State} {v : Word} (h : Keeps s u) : Keeps s (State.accept0 u v) := by
  unfold State.accept0
  try dsimp only
  repeat' (first
    | with_reducible assumption
    | with_reducible apply keeps_modMdl
    | exact fun _ hk => hk
    | exact fun _ => rfl
    | intro _
    | split)

end Sys2Proof.Machine
end

