-- ==== Sys2Proof/Laws/KeepHost.lean ====
section
/-!
SUPPORT. Keeps for the host interface, issue and the clock.
-/
set_option Elab.async false
set_option linter.all false

namespace Sys2Proof.Machine

theorem keeps_hostErr {s u : State} {off : Nat} {b : Nat} (h : Keeps s u) : Keeps s (State.hostErr u off b) := by
  unfold State.hostErr
  repeat' (first
    | with_reducible assumption
    | with_reducible apply keeps_event
    | exact fun _ hk => hk
    | exact fun _ => rfl
    | intro _
    | split)

theorem keeps_bar2Read {s u : State} {off : Nat} {n : Nat} (h : Keeps s u) : Keeps s (State.bar2Read u off n) := by
  unfold State.bar2Read
  try dsimp only
  repeat' (first
    | with_reducible assumption
    | with_reducible apply keeps_modMdl
    | with_reducible apply keeps_respond
    | with_reducible apply keeps_hostErr
    | exact fun _ hk => hk
    | exact fun _ => rfl
    | intro _
    | split)

theorem keeps_bar2Write {s u : State} {off : Nat} {data : List Byte} (h : Keeps s u) : Keeps s (State.bar2Write u off data) := by
  unfold State.bar2Write
  repeat' (first
    | with_reducible assumption
    | with_reducible apply keeps_physWrite
    | with_reducible apply keeps_hostErr
    | exact fun _ hk => hk
    | exact fun _ => rfl
    | intro _
    | split)

theorem keeps_readEvlost {s u : State} {p : Part} (h : Keeps s u) : Keeps s (State.readEvlost u p) := by
  unfold State.readEvlost
  try dsimp only
  repeat' (first
    | with_reducible assumption
    | with_reducible apply keeps_respond
    | with_reducible apply keeps_modMdl
    | exact fun _ hk => hk
    | exact fun _ => rfl
    | intro _
    | split)

theorem keeps_setYewIdx {s u : State} {d : Nat} {v : Word} (h : Keeps s u) : Keeps s (State.setYewIdx u d v) := by
  unfold State.setYewIdx
  try dsimp only
  repeat' (first
    | with_reducible assumption
    | with_reducible apply keeps_modDie
    | exact fun _ hk => hk
    | exact fun _ => rfl
    | intro _
    | split)

theorem keeps_dbgHalt {s u : State} {c : Nat} {v : Word} (h : Keeps s u) : Keeps s (State.dbgHalt u c v) := by
  unfold State.dbgHalt
  try dsimp only
  repeat' (first
    | with_reducible assumption
    | with_reducible apply keeps_modCore
    | exact fun _ hk => hk
    | exact fun _ => rfl
    | intro _
    | split)

theorem keeps_dbgStep {s u : State} {c : Nat} (h : Keeps s u) : Keeps s (State.dbgStep u c) := by
  unfold State.dbgStep
  try dsimp only
  repeat' (first
    | with_reducible assumption
    | with_reducible apply keeps_modCore
    | exact fun _ hk => hk
    | exact fun _ => rfl
    | intro _
    | split)

theorem keeps_stepDone {s u : State} {c : Nat} (h : Keeps s u) : Keeps s (State.stepDone u c) := by
  unfold State.stepDone
  try dsimp only
  repeat' (first
    | with_reducible assumption
    | with_reducible apply keeps_later
    | with_reducible apply keeps_modCore
    | exact fun _ hk => hk
    | exact fun _ => rfl
    | intro _
    | split)

theorem keeps_setDbg {s u : State} {c : Nat} {v : Word} (h : Keeps s u) : Keeps s (State.setDbg u c v) := by
  unfold State.setDbg
  try dsimp only
  repeat' (first
    | with_reducible assumption
    | with_reducible apply keeps_dbgHalt
    | with_reducible apply keeps_dbgStep
    | exact fun _ hk => hk
    | exact fun _ => rfl
    | intro _
    | split)

theorem keeps_setAgePer {s u : State} {v : BitVec 32} (h : Keeps s u) : Keeps s (State.setAgePer u v) := by
  unfold State.setAgePer
  try dsimp only
  repeat' (first
    | with_reducible assumption
    | with_reducible apply keeps_modMdl
    | with_reducible apply keeps_later
    | with_reducible apply keeps_foldl
    | exact fun _ hk => hk
    | exact fun _ => rfl
    | intro _
    | split)

theorem keeps_writeModule {s u : State} {off : Nat} {v : Word} (h : Keeps s u) : Keeps s (State.writeModule u off v) := by
  unfold State.writeModule
  try dsimp only
  repeat' (first
    | with_reducible assumption
    | with_reducible apply keeps_modMdl
    | with_reducible apply keeps_lqdoor
    | with_reducible apply keeps_setAgePer
    | with_reducible apply keeps_tlbinv
    | with_reducible apply keeps_setDieReg
    | with_reducible apply keeps_pstepSet
    | with_reducible apply keeps_accept0
    | with_reducible apply keeps_accept1
    | exact fun _ hk => hk
    | exact fun _ => rfl
    | intro _
    | split)

theorem keeps_hostRetry {s u : State} {d : Nat} {rel : Nat} {off : Nat} {v : Word} (h : Keeps s u) : Keeps s (State.hostRetry u d rel off v) := by
  unfold State.hostRetry
  try dsimp only
  repeat' (first
    | with_reducible assumption
    | with_reducible apply keeps_hostErr
    | with_reducible apply keeps_modDie
    | with_reducible apply keeps_later
    | exact fun _ hk => hk
    | exact fun _ => rfl
    | intro _
    | split)

theorem keeps_writeSusp {s u : State} {d : Nat} {v : Word} (h : Keeps s u) : Keeps s (State.writeSusp u d v) := by
  unfold State.writeSusp
  try dsimp only
  repeat' (first
    | with_reducible assumption
    | with_reducible apply keeps_modDie
    | exact fun _ hk => hk
    | exact fun _ => rfl
    | intro _
    | split)

theorem keeps_writeCoreReg {s u : State} {c : Nat} {rel : Nat} {v : Word} (h : Keeps s u) : Keeps s (State.writeCoreReg u c rel v) := by
  unfold State.writeCoreReg
  try dsimp only
  repeat' (first
    | with_reducible assumption
    | with_reducible apply keeps_bankClear
    | with_reducible apply keeps_modCore
    | with_reducible apply keeps_setDbg
    | with_reducible apply keeps_setErrinj
    | exact fun _ hk => hk
    | exact fun _ => rfl
    | intro _
    | split)

theorem keeps_writeDieReg {s u : State} {d : Nat} {rel : Nat} {off : Nat} {v : Word} (h : Keeps s u) : Keeps s (State.writeDieReg u d rel off v) := by
  unfold State.writeDieReg
  try dsimp only
  repeat' (first
    | with_reducible assumption
    | with_reducible apply keeps_writeCoreReg
    | with_reducible apply keeps_bankClear
    | with_reducible apply keeps_setDieReg
    | with_reducible apply keeps_writeSusp
    | with_reducible apply keeps_setMirror
    | with_reducible apply keeps_rrkill
    | with_reducible apply keeps_hostRetry
    | with_reducible apply keeps_modDie
    | with_reducible apply keeps_setYewIdx
    | with_reducible apply keeps_repattern
    | exact fun _ hk => hk
    | exact fun _ => rfl
    | intro _
    | split)

theorem keeps_writeLctl {s u : State} {l : Nat} {v : Word} (h : Keeps s u) : Keeps s (State.writeLctl u l v) := by
  unfold State.writeLctl
  try dsimp only
  repeat' (first
    | with_reducible assumption
    | with_reducible apply keeps_modLink
    | with_reducible apply keeps_linkLost
    | with_reducible apply keeps_pick
    | with_reducible apply keeps_retrain
    | exact fun _ hk => hk
    | exact fun _ => rfl
    | intro _
    | split)

theorem keeps_writeLinkReg {s u : State} {l : Nat} {rel : Nat} {v : Word} (h : Keeps s u) : Keeps s (State.writeLinkReg u l rel v) := by
  unfold State.writeLinkReg
  try dsimp only
  repeat' (first
    | with_reducible assumption
    | with_reducible apply keeps_writeLctl
    | with_reducible apply keeps_modLink
    | exact fun _ hk => hk
    | exact fun _ => rfl
    | intro _
    | split)

theorem keeps_writeBar0 {s u : State} {off : Nat} {v : Word} (h : Keeps s u) : Keeps s (State.writeBar0 u off v) := by
  unfold State.writeBar0
  try dsimp only
  repeat' (first
    | with_reducible assumption
    | with_reducible apply keeps_hostErr
    | with_reducible apply keeps_writeModule
    | with_reducible apply keeps_writeDieReg
    | with_reducible apply keeps_writeLinkReg
    | with_reducible apply keeps_modMdl
    | exact fun _ hk => hk
    | exact fun _ => rfl
    | intro _
    | split)

theorem keeps_deliverPipeErr {s u : State} {c : Nat} {x : Bool} {unit : BitVec 3} (h : Keeps s u) : Keeps s (State.deliverPipeErr u c x unit) := by
  unfold State.deliverPipeErr
  try dsimp only
  repeat' (first
    | with_reducible assumption
    | with_reducible apply keeps_modCore
    | with_reducible apply keeps_modCtx
    | exact fun _ hk => hk
    | exact fun _ => rfl
    | intro _
    | split)

theorem keeps_fellOut {s u : State} {c : Nat} {x : Bool} (h : Keeps s u) : Keeps s (State.fellOut u c x) := by
  unfold State.fellOut
  try dsimp only
  repeat' (first
    | with_reducible assumption
    | with_reducible apply keeps_modCtx
    | exact fun _ hk => hk
    | exact fun _ => rfl
    | intro _
    | split)

theorem keeps_askCount {s u : State} {c : Nat} {x : Bool} {a : BitVec 5} (h : Keeps s u) : Keeps s (State.askCount u c x a) := by
  unfold State.askCount
  try dsimp only
  repeat' (first
    | with_reducible assumption
    | with_reducible apply keeps_modWait
    | with_reducible apply keeps_access
    | exact fun _ hk => hk
    | exact fun _ => rfl
    | intro _
    | split)

theorem keeps_stepMade {s u : State} {c : Nat} (h : Keeps s u) : Keeps s (State.stepMade u c) := by
  unfold State.stepMade
  try dsimp only
  repeat' (first
    | with_reducible assumption
    | with_reducible apply keeps_modCore
    | with_reducible apply keeps_stepDone
    | exact fun _ hk => hk
    | exact fun _ => rfl
    | intro _
    | split)

theorem keeps_pollEvents {s u : State} {c : Nat} {x : Bool} (h : Keeps s u) : Keeps s (State.pollEvents u c x) := by
  unfold State.pollEvents
  try dsimp only
  repeat' (first
    | with_reducible assumption
    | with_reducible apply keeps_modWait
    | with_reducible apply keeps_timer
    | with_reducible apply keeps_foldl
    | exact fun _ hk => hk
    | exact fun _ => rfl
    | intro _
    | split)

theorem keeps_pollBarrier {s u : State} {c : Nat} {x : Bool} (h : Keeps s u) : Keeps s (State.pollBarrier u c x) := by
  unfold State.pollBarrier
  try dsimp only
  repeat' (first
    | with_reducible assumption
    | with_reducible apply keeps_modWait
    | with_reducible apply keeps_arrive
    | exact fun _ hk => hk
    | exact fun _ => rfl
    | intro _
    | split)

theorem keeps_pollFences {s u : State} {c : Nat} {x : Bool} (h : Keeps s u) : Keeps s (State.pollFences u c x) := by
  unfold State.pollFences
  try dsimp only
  repeat' (first
    | with_reducible assumption
    | with_reducible apply keeps_modWait
    | exact fun _ hk => hk
    | exact fun _ => rfl
    | intro _
    | split)

theorem keeps_poll {s u : State} {c : Nat} {x : Bool} (h : Keeps s u) : Keeps s (State.poll u c x) := by
  unfold State.poll
  repeat' (first
    | with_reducible assumption
    | with_reducible apply keeps_pollEvents
    | with_reducible apply keeps_pollBarrier
    | with_reducible apply keeps_pollFences
    | exact fun _ hk => hk
    | exact fun _ => rfl
    | intro _
    | split)

theorem keeps_patternsDue {s u : State}  (h : Keeps s u) : Keeps s (State.patternsDue u) := by
  unfold State.patternsDue
  try dsimp only
  repeat' (first
    | with_reducible assumption
    | with_reducible apply keeps_modDie
    | with_reducible apply keeps_foldl
    | exact fun _ hk => hk
    | exact fun _ => rfl
    | intro _
    | split)


theorem memOk_of {u v : State} (hm : v.mem = u.mem) (hd : v.mdl.hostMem = u.mdl.hostMem) (hc : v.cores = u.cores)
    (h : u.MemOk) : v.MemOk :=
  ⟨hm ▸ h.mem, hd ▸ h.host, fun c => by rw [State.core, hc]; exact h.core c⟩

/-- The core clocks counted keep every memory's form, and the time. -/
theorem advanceClocks_keeps (u : State) : (u.MemOk → u.advanceClocks.MemOk) ∧ u.advanceClocks.now = u.now ∧
    u.advanceClocks.issue.isOpen = u.issue.isOpen := by
  unfold State.advanceClocks
  extract_lets clk
  generalize Vector.ofFn clk = v
  exact ⟨fun h => memOk_of (u := u) rfl rfl rfl h, rfl, rfl⟩

/-- The next master clock keeps every memory's form. -/
theorem memOk_tick {u : State} (h : u.MemOk) : u.tick.MemOk := by
  unfold State.tick
  extract_lets a
  have ha : a.MemOk := (advanceClocks_keeps _).1
    ((keeps_patternsDue (Keeps.refl _)).mem (memOk_of (u := u) rfl rfl rfl h))
  clear_value a
  split
  · exact memOk_of (u := a) rfl rfl rfl ha
  · exact ha

/-- The next master clock is one later, and opens no bundle. -/
theorem tick_now (u : State) : u.tick.now = u.now + 1 ∧ u.tick.issue.isOpen = u.issue.isOpen := by
  unfold State.tick
  extract_lets a
  have k : Keeps { u with now := u.now + 1, turn := 0 } (State.patternsDue { u with now := u.now + 1, turn := 0 }) :=
    keeps_patternsDue (Keeps.refl _)
  have ha : a.now = u.now + 1 ∧ a.issue.isOpen = u.issue.isOpen :=
    ⟨(advanceClocks_keeps _).2.1.trans k.now, (advanceClocks_keeps _).2.2.trans k.isOpen⟩
  clear_value a
  split <;> exact ha


end Sys2Proof.Machine
end

