-- ==== Sys2Proof/Laws/State.lean ====
section
/-!
SUPPORT. Each update of the state, field by field: what it writes, and that it leaves the rest alone.
-/
set_option Elab.async false

namespace Sys2Proof.Machine

/-! ## setCore -/

@[simp] theorem State.setCore_now (s : State) (c : Nat) (k : Core) : (s.setCore c k).now = s.now := rfl
@[simp] theorem State.setCore_agenda (s : State) (c : Nat) (k : Core) : (s.setCore c k).agenda = s.agenda := rfl
@[simp] theorem State.setCore_picks (s : State) (c : Nat) (k : Core) : (s.setCore c k).picks = s.picks := rfl
@[simp] theorem State.setCore_turn (s : State) (c : Nat) (k : Core) : (s.setCore c k).turn = s.turn := rfl
@[simp] theorem State.setCore_coreClk (s : State) (c : Nat) (k : Core) : (s.setCore c k).coreClk = s.coreClk := rfl
@[simp] theorem State.setCore_cores (s : State) (c : Nat) (k : Core) : (s.setCore c k).cores = vset s.cores c k := rfl
@[simp] theorem State.setCore_focusC (s : State) (c : Nat) (k : Core) : (s.setCore c k).focusC = s.focusC := rfl
@[simp] theorem State.setCore_focusX (s : State) (c : Nat) (k : Core) : (s.setCore c k).focusX = s.focusX := rfl
@[simp] theorem State.setCore_issue (s : State) (c : Nat) (k : Core) : (s.setCore c k).issue = s.issue := rfl
@[simp] theorem State.setCore_dies (s : State) (c : Nat) (k : Core) : (s.setCore c k).dies = s.dies := rfl
@[simp] theorem State.setCore_mdl (s : State) (c : Nat) (k : Core) : (s.setCore c k).mdl = s.mdl := rfl
@[simp] theorem State.setCore_mem (s : State) (c : Nat) (k : Core) : (s.setCore c k).mem = s.mem := rfl

/-! ## modCore -/

@[simp] theorem State.modCore_now (s : State) (c : Nat) (f : Core → Core) : (s.modCore c f).now = s.now := rfl
@[simp] theorem State.modCore_agenda (s : State) (c : Nat) (f : Core → Core) : (s.modCore c f).agenda = s.agenda := rfl
@[simp] theorem State.modCore_picks (s : State) (c : Nat) (f : Core → Core) : (s.modCore c f).picks = s.picks := rfl
@[simp] theorem State.modCore_turn (s : State) (c : Nat) (f : Core → Core) : (s.modCore c f).turn = s.turn := rfl
@[simp] theorem State.modCore_coreClk (s : State) (c : Nat) (f : Core → Core) : (s.modCore c f).coreClk = s.coreClk := rfl
@[simp] theorem State.modCore_cores (s : State) (c : Nat) (f : Core → Core) : (s.modCore c f).cores = vset s.cores c (f (s.core c)) := rfl
@[simp] theorem State.modCore_focusC (s : State) (c : Nat) (f : Core → Core) : (s.modCore c f).focusC = s.focusC := rfl
@[simp] theorem State.modCore_focusX (s : State) (c : Nat) (f : Core → Core) : (s.modCore c f).focusX = s.focusX := rfl
@[simp] theorem State.modCore_issue (s : State) (c : Nat) (f : Core → Core) : (s.modCore c f).issue = s.issue := rfl
@[simp] theorem State.modCore_dies (s : State) (c : Nat) (f : Core → Core) : (s.modCore c f).dies = s.dies := rfl
@[simp] theorem State.modCore_mdl (s : State) (c : Nat) (f : Core → Core) : (s.modCore c f).mdl = s.mdl := rfl
@[simp] theorem State.modCore_mem (s : State) (c : Nat) (f : Core → Core) : (s.modCore c f).mem = s.mem := rfl

/-! ## setCtx -/

@[simp] theorem State.setCtx_now (s : State) (c : Nat) (x : Bool) (t : Ctx) : (s.setCtx c x t).now = s.now := rfl
@[simp] theorem State.setCtx_agenda (s : State) (c : Nat) (x : Bool) (t : Ctx) : (s.setCtx c x t).agenda = s.agenda := rfl
@[simp] theorem State.setCtx_picks (s : State) (c : Nat) (x : Bool) (t : Ctx) : (s.setCtx c x t).picks = s.picks := rfl
@[simp] theorem State.setCtx_turn (s : State) (c : Nat) (x : Bool) (t : Ctx) : (s.setCtx c x t).turn = s.turn := rfl
@[simp] theorem State.setCtx_coreClk (s : State) (c : Nat) (x : Bool) (t : Ctx) : (s.setCtx c x t).coreClk = s.coreClk := rfl
@[simp] theorem State.setCtx_cores (s : State) (c : Nat) (x : Bool) (t : Ctx) : (s.setCtx c x t).cores = vset s.cores c ((s.core c).setCtx x t) := rfl
@[simp] theorem State.setCtx_focusC (s : State) (c : Nat) (x : Bool) (t : Ctx) : (s.setCtx c x t).focusC = s.focusC := rfl
@[simp] theorem State.setCtx_focusX (s : State) (c : Nat) (x : Bool) (t : Ctx) : (s.setCtx c x t).focusX = s.focusX := rfl
@[simp] theorem State.setCtx_issue (s : State) (c : Nat) (x : Bool) (t : Ctx) : (s.setCtx c x t).issue = s.issue := rfl
@[simp] theorem State.setCtx_dies (s : State) (c : Nat) (x : Bool) (t : Ctx) : (s.setCtx c x t).dies = s.dies := rfl
@[simp] theorem State.setCtx_mdl (s : State) (c : Nat) (x : Bool) (t : Ctx) : (s.setCtx c x t).mdl = s.mdl := rfl
@[simp] theorem State.setCtx_mem (s : State) (c : Nat) (x : Bool) (t : Ctx) : (s.setCtx c x t).mem = s.mem := rfl

/-! ## modCtx -/

@[simp] theorem State.modCtx_now (s : State) (c : Nat) (x : Bool) (f : Ctx → Ctx) : (s.modCtx c x f).now = s.now := rfl
@[simp] theorem State.modCtx_agenda (s : State) (c : Nat) (x : Bool) (f : Ctx → Ctx) : (s.modCtx c x f).agenda = s.agenda := rfl
@[simp] theorem State.modCtx_picks (s : State) (c : Nat) (x : Bool) (f : Ctx → Ctx) : (s.modCtx c x f).picks = s.picks := rfl
@[simp] theorem State.modCtx_turn (s : State) (c : Nat) (x : Bool) (f : Ctx → Ctx) : (s.modCtx c x f).turn = s.turn := rfl
@[simp] theorem State.modCtx_coreClk (s : State) (c : Nat) (x : Bool) (f : Ctx → Ctx) : (s.modCtx c x f).coreClk = s.coreClk := rfl
@[simp] theorem State.modCtx_cores (s : State) (c : Nat) (x : Bool) (f : Ctx → Ctx) : (s.modCtx c x f).cores = vset s.cores c ((s.core c).setCtx x (f (s.ctx c x))) := rfl
@[simp] theorem State.modCtx_focusC (s : State) (c : Nat) (x : Bool) (f : Ctx → Ctx) : (s.modCtx c x f).focusC = s.focusC := rfl
@[simp] theorem State.modCtx_focusX (s : State) (c : Nat) (x : Bool) (f : Ctx → Ctx) : (s.modCtx c x f).focusX = s.focusX := rfl
@[simp] theorem State.modCtx_issue (s : State) (c : Nat) (x : Bool) (f : Ctx → Ctx) : (s.modCtx c x f).issue = s.issue := rfl
@[simp] theorem State.modCtx_dies (s : State) (c : Nat) (x : Bool) (f : Ctx → Ctx) : (s.modCtx c x f).dies = s.dies := rfl
@[simp] theorem State.modCtx_mdl (s : State) (c : Nat) (x : Bool) (f : Ctx → Ctx) : (s.modCtx c x f).mdl = s.mdl := rfl
@[simp] theorem State.modCtx_mem (s : State) (c : Nat) (x : Bool) (f : Ctx → Ctx) : (s.modCtx c x f).mem = s.mem := rfl

/-! ## modRegs -/

@[simp] theorem State.modRegs_now (s : State) (c : Nat) (x : Bool) (f : Regs → Regs) : (s.modRegs c x f).now = s.now := rfl
@[simp] theorem State.modRegs_agenda (s : State) (c : Nat) (x : Bool) (f : Regs → Regs) : (s.modRegs c x f).agenda = s.agenda := rfl
@[simp] theorem State.modRegs_picks (s : State) (c : Nat) (x : Bool) (f : Regs → Regs) : (s.modRegs c x f).picks = s.picks := rfl
@[simp] theorem State.modRegs_turn (s : State) (c : Nat) (x : Bool) (f : Regs → Regs) : (s.modRegs c x f).turn = s.turn := rfl
@[simp] theorem State.modRegs_coreClk (s : State) (c : Nat) (x : Bool) (f : Regs → Regs) : (s.modRegs c x f).coreClk = s.coreClk := rfl
@[simp] theorem State.modRegs_focusC (s : State) (c : Nat) (x : Bool) (f : Regs → Regs) : (s.modRegs c x f).focusC = s.focusC := rfl
@[simp] theorem State.modRegs_focusX (s : State) (c : Nat) (x : Bool) (f : Regs → Regs) : (s.modRegs c x f).focusX = s.focusX := rfl
@[simp] theorem State.modRegs_issue (s : State) (c : Nat) (x : Bool) (f : Regs → Regs) : (s.modRegs c x f).issue = s.issue := rfl
@[simp] theorem State.modRegs_dies (s : State) (c : Nat) (x : Bool) (f : Regs → Regs) : (s.modRegs c x f).dies = s.dies := rfl
@[simp] theorem State.modRegs_mdl (s : State) (c : Nat) (x : Bool) (f : Regs → Regs) : (s.modRegs c x f).mdl = s.mdl := rfl
@[simp] theorem State.modRegs_mem (s : State) (c : Nat) (x : Bool) (f : Regs → Regs) : (s.modRegs c x f).mem = s.mem := rfl

/-! ## modWait -/

@[simp] theorem State.modWait_now (s : State) (c : Nat) (x : Bool) (f : CtxWait → CtxWait) : (s.modWait c x f).now = s.now := rfl
@[simp] theorem State.modWait_agenda (s : State) (c : Nat) (x : Bool) (f : CtxWait → CtxWait) : (s.modWait c x f).agenda = s.agenda := rfl
@[simp] theorem State.modWait_picks (s : State) (c : Nat) (x : Bool) (f : CtxWait → CtxWait) : (s.modWait c x f).picks = s.picks := rfl
@[simp] theorem State.modWait_turn (s : State) (c : Nat) (x : Bool) (f : CtxWait → CtxWait) : (s.modWait c x f).turn = s.turn := rfl
@[simp] theorem State.modWait_coreClk (s : State) (c : Nat) (x : Bool) (f : CtxWait → CtxWait) : (s.modWait c x f).coreClk = s.coreClk := rfl
@[simp] theorem State.modWait_focusC (s : State) (c : Nat) (x : Bool) (f : CtxWait → CtxWait) : (s.modWait c x f).focusC = s.focusC := rfl
@[simp] theorem State.modWait_focusX (s : State) (c : Nat) (x : Bool) (f : CtxWait → CtxWait) : (s.modWait c x f).focusX = s.focusX := rfl
@[simp] theorem State.modWait_issue (s : State) (c : Nat) (x : Bool) (f : CtxWait → CtxWait) : (s.modWait c x f).issue = s.issue := rfl
@[simp] theorem State.modWait_dies (s : State) (c : Nat) (x : Bool) (f : CtxWait → CtxWait) : (s.modWait c x f).dies = s.dies := rfl
@[simp] theorem State.modWait_mdl (s : State) (c : Nat) (x : Bool) (f : CtxWait → CtxWait) : (s.modWait c x f).mdl = s.mdl := rfl
@[simp] theorem State.modWait_mem (s : State) (c : Nat) (x : Bool) (f : CtxWait → CtxWait) : (s.modWait c x f).mem = s.mem := rfl

/-! ## timer -/

@[simp] theorem State.timer_now (s : State) (c t : Nat) (i : Instr) : (s.timer c t i).now = s.now := rfl
@[simp] theorem State.timer_agenda (s : State) (c t : Nat) (i : Instr) : (s.timer c t i).agenda = s.agenda := rfl
@[simp] theorem State.timer_picks (s : State) (c t : Nat) (i : Instr) : (s.timer c t i).picks = s.picks := rfl
@[simp] theorem State.timer_turn (s : State) (c t : Nat) (i : Instr) : (s.timer c t i).turn = s.turn := rfl
@[simp] theorem State.timer_coreClk (s : State) (c t : Nat) (i : Instr) : (s.timer c t i).coreClk = s.coreClk := rfl
@[simp] theorem State.timer_focusC (s : State) (c t : Nat) (i : Instr) : (s.timer c t i).focusC = s.focusC := rfl
@[simp] theorem State.timer_focusX (s : State) (c t : Nat) (i : Instr) : (s.timer c t i).focusX = s.focusX := rfl
@[simp] theorem State.timer_issue (s : State) (c t : Nat) (i : Instr) : (s.timer c t i).issue = s.issue := rfl
@[simp] theorem State.timer_dies (s : State) (c t : Nat) (i : Instr) : (s.timer c t i).dies = s.dies := rfl
@[simp] theorem State.timer_mdl (s : State) (c t : Nat) (i : Instr) : (s.timer c t i).mdl = s.mdl := rfl
@[simp] theorem State.timer_mem (s : State) (c t : Nat) (i : Instr) : (s.timer c t i).mem = s.mem := rfl

/-! ## modMe -/

@[simp] theorem State.modMe_now (s : State) (f : Ctx → Ctx) : (s.modMe f).now = s.now := rfl
@[simp] theorem State.modMe_agenda (s : State) (f : Ctx → Ctx) : (s.modMe f).agenda = s.agenda := rfl
@[simp] theorem State.modMe_picks (s : State) (f : Ctx → Ctx) : (s.modMe f).picks = s.picks := rfl
@[simp] theorem State.modMe_turn (s : State) (f : Ctx → Ctx) : (s.modMe f).turn = s.turn := rfl
@[simp] theorem State.modMe_coreClk (s : State) (f : Ctx → Ctx) : (s.modMe f).coreClk = s.coreClk := rfl
@[simp] theorem State.modMe_focusC (s : State) (f : Ctx → Ctx) : (s.modMe f).focusC = s.focusC := rfl
@[simp] theorem State.modMe_focusX (s : State) (f : Ctx → Ctx) : (s.modMe f).focusX = s.focusX := rfl
@[simp] theorem State.modMe_issue (s : State) (f : Ctx → Ctx) : (s.modMe f).issue = s.issue := rfl
@[simp] theorem State.modMe_dies (s : State) (f : Ctx → Ctx) : (s.modMe f).dies = s.dies := rfl
@[simp] theorem State.modMe_mdl (s : State) (f : Ctx → Ctx) : (s.modMe f).mdl = s.mdl := rfl
@[simp] theorem State.modMe_mem (s : State) (f : Ctx → Ctx) : (s.modMe f).mem = s.mem := rfl

/-! ## modDie -/

@[simp] theorem State.modDie_now (s : State) (d : Nat) (f : Die → Die) : (s.modDie d f).now = s.now := rfl
@[simp] theorem State.modDie_agenda (s : State) (d : Nat) (f : Die → Die) : (s.modDie d f).agenda = s.agenda := rfl
@[simp] theorem State.modDie_picks (s : State) (d : Nat) (f : Die → Die) : (s.modDie d f).picks = s.picks := rfl
@[simp] theorem State.modDie_turn (s : State) (d : Nat) (f : Die → Die) : (s.modDie d f).turn = s.turn := rfl
@[simp] theorem State.modDie_coreClk (s : State) (d : Nat) (f : Die → Die) : (s.modDie d f).coreClk = s.coreClk := rfl
@[simp] theorem State.modDie_cores (s : State) (d : Nat) (f : Die → Die) : (s.modDie d f).cores = s.cores := rfl
@[simp] theorem State.modDie_focusC (s : State) (d : Nat) (f : Die → Die) : (s.modDie d f).focusC = s.focusC := rfl
@[simp] theorem State.modDie_focusX (s : State) (d : Nat) (f : Die → Die) : (s.modDie d f).focusX = s.focusX := rfl
@[simp] theorem State.modDie_issue (s : State) (d : Nat) (f : Die → Die) : (s.modDie d f).issue = s.issue := rfl
@[simp] theorem State.modDie_dies (s : State) (d : Nat) (f : Die → Die) : (s.modDie d f).dies = vset s.dies d (f (s.die d)) := rfl
@[simp] theorem State.modDie_mdl (s : State) (d : Nat) (f : Die → Die) : (s.modDie d f).mdl = s.mdl := rfl
@[simp] theorem State.modDie_mem (s : State) (d : Nat) (f : Die → Die) : (s.modDie d f).mem = s.mem := rfl

/-! ## later -/

@[simp] theorem State.later_now (s : State) (n : Nat) (i : Instr) : (s.later n i).now = s.now := rfl
@[simp] theorem State.later_agenda (s : State) (n : Nat) (i : Instr) : (s.later n i).agenda = addEvent s.agenda (s.now + n) i := rfl
@[simp] theorem State.later_picks (s : State) (n : Nat) (i : Instr) : (s.later n i).picks = s.picks := rfl
@[simp] theorem State.later_turn (s : State) (n : Nat) (i : Instr) : (s.later n i).turn = s.turn := rfl
@[simp] theorem State.later_coreClk (s : State) (n : Nat) (i : Instr) : (s.later n i).coreClk = s.coreClk := rfl
@[simp] theorem State.later_cores (s : State) (n : Nat) (i : Instr) : (s.later n i).cores = s.cores := rfl
@[simp] theorem State.later_focusC (s : State) (n : Nat) (i : Instr) : (s.later n i).focusC = s.focusC := rfl
@[simp] theorem State.later_focusX (s : State) (n : Nat) (i : Instr) : (s.later n i).focusX = s.focusX := rfl
@[simp] theorem State.later_issue (s : State) (n : Nat) (i : Instr) : (s.later n i).issue = s.issue := rfl
@[simp] theorem State.later_dies (s : State) (n : Nat) (i : Instr) : (s.later n i).dies = s.dies := rfl
@[simp] theorem State.later_mdl (s : State) (n : Nat) (i : Instr) : (s.later n i).mdl = s.mdl := rfl
@[simp] theorem State.later_mem (s : State) (n : Nat) (i : Instr) : (s.later n i).mem = s.mem := rfl

/-! ## modIssue -/

@[simp] theorem State.modIssue_now (s : State) (f : Issue → Issue) : (s.modIssue f).now = s.now := rfl
@[simp] theorem State.modIssue_agenda (s : State) (f : Issue → Issue) : (s.modIssue f).agenda = s.agenda := rfl
@[simp] theorem State.modIssue_picks (s : State) (f : Issue → Issue) : (s.modIssue f).picks = s.picks := rfl
@[simp] theorem State.modIssue_turn (s : State) (f : Issue → Issue) : (s.modIssue f).turn = s.turn := rfl
@[simp] theorem State.modIssue_coreClk (s : State) (f : Issue → Issue) : (s.modIssue f).coreClk = s.coreClk := rfl
@[simp] theorem State.modIssue_cores (s : State) (f : Issue → Issue) : (s.modIssue f).cores = s.cores := rfl
@[simp] theorem State.modIssue_focusC (s : State) (f : Issue → Issue) : (s.modIssue f).focusC = s.focusC := rfl
@[simp] theorem State.modIssue_focusX (s : State) (f : Issue → Issue) : (s.modIssue f).focusX = s.focusX := rfl
@[simp] theorem State.modIssue_issue (s : State) (f : Issue → Issue) : (s.modIssue f).issue = f s.issue := rfl
@[simp] theorem State.modIssue_dies (s : State) (f : Issue → Issue) : (s.modIssue f).dies = s.dies := rfl
@[simp] theorem State.modIssue_mdl (s : State) (f : Issue → Issue) : (s.modIssue f).mdl = s.mdl := rfl
@[simp] theorem State.modIssue_mem (s : State) (f : Issue → Issue) : (s.modIssue f).mem = s.mem := rfl

/-! ## modMdl -/

@[simp] theorem State.modMdl_now (s : State) (f : Module → Module) : (s.modMdl f).now = s.now := rfl
@[simp] theorem State.modMdl_agenda (s : State) (f : Module → Module) : (s.modMdl f).agenda = s.agenda := rfl
@[simp] theorem State.modMdl_picks (s : State) (f : Module → Module) : (s.modMdl f).picks = s.picks := rfl
@[simp] theorem State.modMdl_turn (s : State) (f : Module → Module) : (s.modMdl f).turn = s.turn := rfl
@[simp] theorem State.modMdl_coreClk (s : State) (f : Module → Module) : (s.modMdl f).coreClk = s.coreClk := rfl
@[simp] theorem State.modMdl_cores (s : State) (f : Module → Module) : (s.modMdl f).cores = s.cores := rfl
@[simp] theorem State.modMdl_focusC (s : State) (f : Module → Module) : (s.modMdl f).focusC = s.focusC := rfl
@[simp] theorem State.modMdl_focusX (s : State) (f : Module → Module) : (s.modMdl f).focusX = s.focusX := rfl
@[simp] theorem State.modMdl_issue (s : State) (f : Module → Module) : (s.modMdl f).issue = s.issue := rfl
@[simp] theorem State.modMdl_dies (s : State) (f : Module → Module) : (s.modMdl f).dies = s.dies := rfl
@[simp] theorem State.modMdl_mdl (s : State) (f : Module → Module) : (s.modMdl f).mdl = f s.mdl := rfl
@[simp] theorem State.modMdl_mem (s : State) (f : Module → Module) : (s.modMdl f).mem = s.mem := rfl

/-! ## yewAdd -/

@[simp] theorem State.yewAdd_now (s : State) (d e : Nat) (q : BitVec 8) (a : BitVec 32) (b c : Word) : (s.yewAdd d e q a b c).now = s.now := rfl
@[simp] theorem State.yewAdd_agenda (s : State) (d e : Nat) (q : BitVec 8) (a : BitVec 32) (b c : Word) : (s.yewAdd d e q a b c).agenda = s.agenda := rfl
@[simp] theorem State.yewAdd_picks (s : State) (d e : Nat) (q : BitVec 8) (a : BitVec 32) (b c : Word) : (s.yewAdd d e q a b c).picks = s.picks := rfl
@[simp] theorem State.yewAdd_turn (s : State) (d e : Nat) (q : BitVec 8) (a : BitVec 32) (b c : Word) : (s.yewAdd d e q a b c).turn = s.turn := rfl
@[simp] theorem State.yewAdd_coreClk (s : State) (d e : Nat) (q : BitVec 8) (a : BitVec 32) (b c : Word) : (s.yewAdd d e q a b c).coreClk = s.coreClk := rfl
@[simp] theorem State.yewAdd_cores (s : State) (d e : Nat) (q : BitVec 8) (a : BitVec 32) (b c : Word) : (s.yewAdd d e q a b c).cores = s.cores := rfl
@[simp] theorem State.yewAdd_focusC (s : State) (d e : Nat) (q : BitVec 8) (a : BitVec 32) (b c : Word) : (s.yewAdd d e q a b c).focusC = s.focusC := rfl
@[simp] theorem State.yewAdd_focusX (s : State) (d e : Nat) (q : BitVec 8) (a : BitVec 32) (b c : Word) : (s.yewAdd d e q a b c).focusX = s.focusX := rfl
@[simp] theorem State.yewAdd_issue (s : State) (d e : Nat) (q : BitVec 8) (a : BitVec 32) (b c : Word) : (s.yewAdd d e q a b c).issue = s.issue := rfl
@[simp] theorem State.yewAdd_mdl (s : State) (d e : Nat) (q : BitVec 8) (a : BitVec 32) (b c : Word) : (s.yewAdd d e q a b c).mdl = s.mdl := rfl
@[simp] theorem State.yewAdd_mem (s : State) (d e : Nat) (q : BitVec 8) (a : BitVec 32) (b c : Word) : (s.yewAdd d e q a b c).mem = s.mem := rfl

/-! ## setFlags -/

@[simp] theorem State.setFlags_now (s : State) (f : Flags) : (s.setFlags f).now = s.now := rfl
@[simp] theorem State.setFlags_agenda (s : State) (f : Flags) : (s.setFlags f).agenda = s.agenda := rfl
@[simp] theorem State.setFlags_picks (s : State) (f : Flags) : (s.setFlags f).picks = s.picks := rfl
@[simp] theorem State.setFlags_turn (s : State) (f : Flags) : (s.setFlags f).turn = s.turn := rfl
@[simp] theorem State.setFlags_coreClk (s : State) (f : Flags) : (s.setFlags f).coreClk = s.coreClk := rfl
@[simp] theorem State.setFlags_cores (s : State) (f : Flags) : (s.setFlags f).cores = s.cores := rfl
@[simp] theorem State.setFlags_focusC (s : State) (f : Flags) : (s.setFlags f).focusC = s.focusC := rfl
@[simp] theorem State.setFlags_focusX (s : State) (f : Flags) : (s.setFlags f).focusX = s.focusX := rfl
@[simp] theorem State.setFlags_dies (s : State) (f : Flags) : (s.setFlags f).dies = s.dies := rfl
@[simp] theorem State.setFlags_mdl (s : State) (f : Flags) : (s.setFlags f).mdl = s.mdl := rfl
@[simp] theorem State.setFlags_mem (s : State) (f : Flags) : (s.setFlags f).mem = s.mem := rfl

/-! ## A context of a core replaced -/

@[simp] theorem Core.setCtx_cur (k : Core) (x : Bool) (t : Ctx) : (k.setCtx x t).cur = k.cur := by cases x <;> rfl
@[simp] theorem Core.setCtx_ended (k : Core) (x : Bool) (t : Ctx) : (k.setCtx x t).ended = k.ended := by cases x <;> rfl
@[simp] theorem Core.setCtx_spad (k : Core) (x : Bool) (t : Ctx) : (k.setCtx x t).spad = k.spad := by cases x <;> rfl
@[simp] theorem Core.setCtx_guardMap (k : Core) (x : Bool) (t : Ctx) : (k.setCtx x t).guardMap = k.guardMap := by cases x <;> rfl
@[simp] theorem Core.setCtx_acc (k : Core) (x : Bool) (t : Ctx) : (k.setCtx x t).acc = k.acc := by cases x <;> rfl
@[simp] theorem Core.setCtx_strips (k : Core) (x : Bool) (t : Ctx) : (k.setCtx x t).strips = k.strips := by cases x <;> rfl
@[simp] theorem Core.setCtx_istore (k : Core) (x : Bool) (t : Ctx) : (k.setCtx x t).istore = k.istore := by cases x <;> rfl
@[simp] theorem Core.setCtx_array (k : Core) (x : Bool) (t : Ctx) : (k.setCtx x t).array = k.array := by cases x <;> rfl
@[simp] theorem Core.setCtx_tile (k : Core) (x : Bool) (t : Ctx) : (k.setCtx x t).tile = k.tile := by cases x <;> rfl
@[simp] theorem Core.setCtx_nextJob (k : Core) (x : Bool) (t : Ctx) : (k.setCtx x t).nextJob = k.nextJob := by cases x <;> rfl
@[simp] theorem Core.setCtx_xq (k : Core) (x : Bool) (t : Ctx) : (k.setCtx x t).xq = k.xq := by cases x <;> rfl
@[simp] theorem Core.setCtx_portFree (k : Core) (x : Bool) (t : Ctx) : (k.setCtx x t).portFree = k.portFree := by cases x <;> rfl
@[simp] theorem Core.setCtx_accs (k : Core) (x : Bool) (t : Ctx) : (k.setCtx x t).accs = k.accs := by cases x <;> rfl
@[simp] theorem Core.setCtx_nextAcc (k : Core) (x : Bool) (t : Ctx) : (k.setCtx x t).nextAcc = k.nextAcc := by cases x <;> rfl
@[simp] theorem Core.setCtx_tcache (k : Core) (x : Bool) (t : Ctx) : (k.setCtx x t).tcache = k.tcache := by cases x <;> rfl
@[simp] theorem Core.setCtx_timers (k : Core) (x : Bool) (t : Ctx) : (k.setCtx x t).timers = k.timers := by cases x <;> rfl
@[simp] theorem Core.setCtx_ewt (k : Core) (x : Bool) (t : Ctx) : (k.setCtx x t).ewt = k.ewt := by cases x <;> rfl
@[simp] theorem Core.setCtx_grant (k : Core) (x : Bool) (t : Ctx) : (k.setCtx x t).grant = k.grant := by cases x <;> rfl
@[simp] theorem Core.setCtx_balance (k : Core) (x : Bool) (t : Ctx) : (k.setCtx x t).balance = k.balance := by cases x <;> rfl
@[simp] theorem Core.setCtx_dbg (k : Core) (x : Bool) (t : Ctx) : (k.setCtx x t).dbg = k.dbg := by cases x <;> rfl
@[simp] theorem Core.setCtx_errinj (k : Core) (x : Bool) (t : Ctx) : (k.setCtx x t).errinj = k.errinj := by cases x <;> rfl
@[simp] theorem Core.setCtx_banks (k : Core) (x : Bool) (t : Ctx) : (k.setCtx x t).banks = k.banks := by cases x <;> rfl
@[simp] theorem Core.setCtx_spadPoison (k : Core) (x : Bool) (t : Ctx) : (k.setCtx x t).spadPoison = k.spadPoison := by cases x <;> rfl
@[simp] theorem Core.setCtx_accPoison (k : Core) (x : Bool) (t : Ctx) : (k.setCtx x t).accPoison = k.accPoison := by cases x <;> rfl
@[simp] theorem Core.setCtx_vlast (k : Core) (x : Bool) (t : Ctx) : (k.setCtx x t).vlast = k.vlast := by cases x <;> rfl
@[simp] theorem Core.setCtx_nochg (k : Core) (x : Bool) (t : Ctx) : (k.setCtx x t).nochg = k.nochg := by cases x <;> rfl

@[simp] theorem Core.ctx_setCtx (k : Core) (x : Bool) (t : Ctx) : (k.setCtx x t).ctx x = t := by cases x <;> rfl

@[simp] theorem Core.ctx_setCtx_other (k : Core) (x : Bool) (t : Ctx) : (k.setCtx x t).ctx (!x) = k.ctx (!x) := by
  cases x <;> rfl

/-! ## Registers -/

@[simp] theorem Regs.setFull_s_s (r : Regs) (b : Bool) (i : BitVec 5) : (r.setFull b (.s i)).s = r.s := rfl
@[simp] theorem Regs.setFull_s_a (r : Regs) (b : Bool) (i : BitVec 5) : (r.setFull b (.s i)).a = r.a := rfl
@[simp] theorem Regs.setFull_s_v (r : Regs) (b : Bool) (i : BitVec 5) : (r.setFull b (.s i)).v = r.v := rfl
@[simp] theorem Regs.setFull_s_m (r : Regs) (b : Bool) (i : BitVec 5) : (r.setFull b (.s i)).m = r.m := rfl
@[simp] theorem Regs.setFull_s_p (r : Regs) (b : Bool) (i : BitVec 5) : (r.setFull b (.s i)).p = r.p := rfl
@[simp] theorem Regs.setFull_s_t (r : Regs) (b : Bool) (i : BitVec 5) : (r.setFull b (.s i)).t = r.t := rfl
@[simp] theorem Regs.setFull_s_k (r : Regs) (b : Bool) (i : BitVec 5) : (r.setFull b (.s i)).k = r.k := rfl
@[simp] theorem Regs.setFull_s_q (r : Regs) (b : Bool) (i : BitVec 5) : (r.setFull b (.s i)).q = r.q := rfl
@[simp] theorem Regs.setFull_s_sFull (r : Regs) (b : Bool) (i : BitVec 5) : (r.setFull b (.s i)).sFull = putBit r.sFull i.toNat b := rfl
@[simp] theorem Regs.setFull_s_aFull (r : Regs) (b : Bool) (i : BitVec 5) : (r.setFull b (.s i)).aFull = r.aFull := rfl
@[simp] theorem Regs.setFull_s_vFull (r : Regs) (b : Bool) (i : BitVec 5) : (r.setFull b (.s i)).vFull = r.vFull := rfl
@[simp] theorem Regs.setFull_s_tFull (r : Regs) (b : Bool) (i : BitVec 5) : (r.setFull b (.s i)).tFull = r.tFull := rfl
@[simp] theorem Regs.setFull_s_kFull (r : Regs) (b : Bool) (i : BitVec 5) : (r.setFull b (.s i)).kFull = r.kFull := rfl
@[simp] theorem Regs.setFull_s_aFault (r : Regs) (b : Bool) (i : BitVec 5) : (r.setFull b (.s i)).aFault = r.aFault := rfl
@[simp] theorem Regs.setFull_a_s (r : Regs) (b : Bool) (i : BitVec 5) : (r.setFull b (.a i)).s = r.s := rfl
@[simp] theorem Regs.setFull_a_a (r : Regs) (b : Bool) (i : BitVec 5) : (r.setFull b (.a i)).a = r.a := rfl
@[simp] theorem Regs.setFull_a_v (r : Regs) (b : Bool) (i : BitVec 5) : (r.setFull b (.a i)).v = r.v := rfl
@[simp] theorem Regs.setFull_a_m (r : Regs) (b : Bool) (i : BitVec 5) : (r.setFull b (.a i)).m = r.m := rfl
@[simp] theorem Regs.setFull_a_p (r : Regs) (b : Bool) (i : BitVec 5) : (r.setFull b (.a i)).p = r.p := rfl
@[simp] theorem Regs.setFull_a_t (r : Regs) (b : Bool) (i : BitVec 5) : (r.setFull b (.a i)).t = r.t := rfl
@[simp] theorem Regs.setFull_a_k (r : Regs) (b : Bool) (i : BitVec 5) : (r.setFull b (.a i)).k = r.k := rfl
@[simp] theorem Regs.setFull_a_q (r : Regs) (b : Bool) (i : BitVec 5) : (r.setFull b (.a i)).q = r.q := rfl
@[simp] theorem Regs.setFull_a_sFull (r : Regs) (b : Bool) (i : BitVec 5) : (r.setFull b (.a i)).sFull = r.sFull := rfl
@[simp] theorem Regs.setFull_a_aFull (r : Regs) (b : Bool) (i : BitVec 5) : (r.setFull b (.a i)).aFull = putBit r.aFull i.toNat b := rfl
@[simp] theorem Regs.setFull_a_vFull (r : Regs) (b : Bool) (i : BitVec 5) : (r.setFull b (.a i)).vFull = r.vFull := rfl
@[simp] theorem Regs.setFull_a_tFull (r : Regs) (b : Bool) (i : BitVec 5) : (r.setFull b (.a i)).tFull = r.tFull := rfl
@[simp] theorem Regs.setFull_a_kFull (r : Regs) (b : Bool) (i : BitVec 5) : (r.setFull b (.a i)).kFull = r.kFull := rfl
@[simp] theorem Regs.setFull_a_aFault (r : Regs) (b : Bool) (i : BitVec 5) : (r.setFull b (.a i)).aFault = r.aFault := rfl
@[simp] theorem Regs.setFull_v_s (r : Regs) (b : Bool) (i : BitVec 6) : (r.setFull b (.v i)).s = r.s := rfl
@[simp] theorem Regs.setFull_v_a (r : Regs) (b : Bool) (i : BitVec 6) : (r.setFull b (.v i)).a = r.a := rfl
@[simp] theorem Regs.setFull_v_v (r : Regs) (b : Bool) (i : BitVec 6) : (r.setFull b (.v i)).v = r.v := rfl
@[simp] theorem Regs.setFull_v_m (r : Regs) (b : Bool) (i : BitVec 6) : (r.setFull b (.v i)).m = r.m := rfl
@[simp] theorem Regs.setFull_v_p (r : Regs) (b : Bool) (i : BitVec 6) : (r.setFull b (.v i)).p = r.p := rfl
@[simp] theorem Regs.setFull_v_t (r : Regs) (b : Bool) (i : BitVec 6) : (r.setFull b (.v i)).t = r.t := rfl
@[simp] theorem Regs.setFull_v_k (r : Regs) (b : Bool) (i : BitVec 6) : (r.setFull b (.v i)).k = r.k := rfl
@[simp] theorem Regs.setFull_v_q (r : Regs) (b : Bool) (i : BitVec 6) : (r.setFull b (.v i)).q = r.q := rfl
@[simp] theorem Regs.setFull_v_sFull (r : Regs) (b : Bool) (i : BitVec 6) : (r.setFull b (.v i)).sFull = r.sFull := rfl
@[simp] theorem Regs.setFull_v_aFull (r : Regs) (b : Bool) (i : BitVec 6) : (r.setFull b (.v i)).aFull = r.aFull := rfl
@[simp] theorem Regs.setFull_v_vFull (r : Regs) (b : Bool) (i : BitVec 6) : (r.setFull b (.v i)).vFull = putBit r.vFull i.toNat b := rfl
@[simp] theorem Regs.setFull_v_tFull (r : Regs) (b : Bool) (i : BitVec 6) : (r.setFull b (.v i)).tFull = r.tFull := rfl
@[simp] theorem Regs.setFull_v_kFull (r : Regs) (b : Bool) (i : BitVec 6) : (r.setFull b (.v i)).kFull = r.kFull := rfl
@[simp] theorem Regs.setFull_v_aFault (r : Regs) (b : Bool) (i : BitVec 6) : (r.setFull b (.v i)).aFault = r.aFault := rfl
@[simp] theorem Regs.setFull_t_s (r : Regs) (b : Bool) (i : BitVec 4) : (r.setFull b (.t i)).s = r.s := rfl
@[simp] theorem Regs.setFull_t_a (r : Regs) (b : Bool) (i : BitVec 4) : (r.setFull b (.t i)).a = r.a := rfl
@[simp] theorem Regs.setFull_t_v (r : Regs) (b : Bool) (i : BitVec 4) : (r.setFull b (.t i)).v = r.v := rfl
@[simp] theorem Regs.setFull_t_m (r : Regs) (b : Bool) (i : BitVec 4) : (r.setFull b (.t i)).m = r.m := rfl
@[simp] theorem Regs.setFull_t_p (r : Regs) (b : Bool) (i : BitVec 4) : (r.setFull b (.t i)).p = r.p := rfl
@[simp] theorem Regs.setFull_t_t (r : Regs) (b : Bool) (i : BitVec 4) : (r.setFull b (.t i)).t = r.t := rfl
@[simp] theorem Regs.setFull_t_k (r : Regs) (b : Bool) (i : BitVec 4) : (r.setFull b (.t i)).k = r.k := rfl
@[simp] theorem Regs.setFull_t_q (r : Regs) (b : Bool) (i : BitVec 4) : (r.setFull b (.t i)).q = r.q := rfl
@[simp] theorem Regs.setFull_t_sFull (r : Regs) (b : Bool) (i : BitVec 4) : (r.setFull b (.t i)).sFull = r.sFull := rfl
@[simp] theorem Regs.setFull_t_aFull (r : Regs) (b : Bool) (i : BitVec 4) : (r.setFull b (.t i)).aFull = r.aFull := rfl
@[simp] theorem Regs.setFull_t_vFull (r : Regs) (b : Bool) (i : BitVec 4) : (r.setFull b (.t i)).vFull = r.vFull := rfl
@[simp] theorem Regs.setFull_t_tFull (r : Regs) (b : Bool) (i : BitVec 4) : (r.setFull b (.t i)).tFull = putBit r.tFull i.toNat b := rfl
@[simp] theorem Regs.setFull_t_kFull (r : Regs) (b : Bool) (i : BitVec 4) : (r.setFull b (.t i)).kFull = r.kFull := rfl
@[simp] theorem Regs.setFull_t_aFault (r : Regs) (b : Bool) (i : BitVec 4) : (r.setFull b (.t i)).aFault = r.aFault := rfl
@[simp] theorem Regs.setFull_k_s (r : Regs) (b : Bool) (i : BitVec 3) : (r.setFull b (.k i)).s = r.s := rfl
@[simp] theorem Regs.setFull_k_a (r : Regs) (b : Bool) (i : BitVec 3) : (r.setFull b (.k i)).a = r.a := rfl
@[simp] theorem Regs.setFull_k_v (r : Regs) (b : Bool) (i : BitVec 3) : (r.setFull b (.k i)).v = r.v := rfl
@[simp] theorem Regs.setFull_k_m (r : Regs) (b : Bool) (i : BitVec 3) : (r.setFull b (.k i)).m = r.m := rfl
@[simp] theorem Regs.setFull_k_p (r : Regs) (b : Bool) (i : BitVec 3) : (r.setFull b (.k i)).p = r.p := rfl
@[simp] theorem Regs.setFull_k_t (r : Regs) (b : Bool) (i : BitVec 3) : (r.setFull b (.k i)).t = r.t := rfl
@[simp] theorem Regs.setFull_k_k (r : Regs) (b : Bool) (i : BitVec 3) : (r.setFull b (.k i)).k = r.k := rfl
@[simp] theorem Regs.setFull_k_q (r : Regs) (b : Bool) (i : BitVec 3) : (r.setFull b (.k i)).q = r.q := rfl
@[simp] theorem Regs.setFull_k_sFull (r : Regs) (b : Bool) (i : BitVec 3) : (r.setFull b (.k i)).sFull = r.sFull := rfl
@[simp] theorem Regs.setFull_k_aFull (r : Regs) (b : Bool) (i : BitVec 3) : (r.setFull b (.k i)).aFull = r.aFull := rfl
@[simp] theorem Regs.setFull_k_vFull (r : Regs) (b : Bool) (i : BitVec 3) : (r.setFull b (.k i)).vFull = r.vFull := rfl
@[simp] theorem Regs.setFull_k_tFull (r : Regs) (b : Bool) (i : BitVec 3) : (r.setFull b (.k i)).tFull = r.tFull := rfl
@[simp] theorem Regs.setFull_k_kFull (r : Regs) (b : Bool) (i : BitVec 3) : (r.setFull b (.k i)).kFull = putBit r.kFull i.toNat b := rfl
@[simp] theorem Regs.setFull_k_aFault (r : Regs) (b : Bool) (i : BitVec 3) : (r.setFull b (.k i)).aFault = r.aFault := rfl
@[simp] theorem Regs.setFull_m_s (r : Regs) (b : Bool) (i : BitVec 3) : (r.setFull b (.m i)).s = r.s := rfl
@[simp] theorem Regs.setFull_m_a (r : Regs) (b : Bool) (i : BitVec 3) : (r.setFull b (.m i)).a = r.a := rfl
@[simp] theorem Regs.setFull_m_v (r : Regs) (b : Bool) (i : BitVec 3) : (r.setFull b (.m i)).v = r.v := rfl
@[simp] theorem Regs.setFull_m_m (r : Regs) (b : Bool) (i : BitVec 3) : (r.setFull b (.m i)).m = r.m := rfl
@[simp] theorem Regs.setFull_m_p (r : Regs) (b : Bool) (i : BitVec 3) : (r.setFull b (.m i)).p = r.p := rfl
@[simp] theorem Regs.setFull_m_t (r : Regs) (b : Bool) (i : BitVec 3) : (r.setFull b (.m i)).t = r.t := rfl
@[simp] theorem Regs.setFull_m_k (r : Regs) (b : Bool) (i : BitVec 3) : (r.setFull b (.m i)).k = r.k := rfl
@[simp] theorem Regs.setFull_m_q (r : Regs) (b : Bool) (i : BitVec 3) : (r.setFull b (.m i)).q = r.q := rfl
@[simp] theorem Regs.setFull_m_sFull (r : Regs) (b : Bool) (i : BitVec 3) : (r.setFull b (.m i)).sFull = r.sFull := rfl
@[simp] theorem Regs.setFull_m_aFull (r : Regs) (b : Bool) (i : BitVec 3) : (r.setFull b (.m i)).aFull = r.aFull := rfl
@[simp] theorem Regs.setFull_m_vFull (r : Regs) (b : Bool) (i : BitVec 3) : (r.setFull b (.m i)).vFull = r.vFull := rfl
@[simp] theorem Regs.setFull_m_tFull (r : Regs) (b : Bool) (i : BitVec 3) : (r.setFull b (.m i)).tFull = r.tFull := rfl
@[simp] theorem Regs.setFull_m_kFull (r : Regs) (b : Bool) (i : BitVec 3) : (r.setFull b (.m i)).kFull = r.kFull := rfl
@[simp] theorem Regs.setFull_m_aFault (r : Regs) (b : Bool) (i : BitVec 3) : (r.setFull b (.m i)).aFault = r.aFault := rfl
@[simp] theorem Regs.setFull_p_s (r : Regs) (b : Bool) (i : BitVec 3) : (r.setFull b (.p i)).s = r.s := rfl
@[simp] theorem Regs.setFull_p_a (r : Regs) (b : Bool) (i : BitVec 3) : (r.setFull b (.p i)).a = r.a := rfl
@[simp] theorem Regs.setFull_p_v (r : Regs) (b : Bool) (i : BitVec 3) : (r.setFull b (.p i)).v = r.v := rfl
@[simp] theorem Regs.setFull_p_m (r : Regs) (b : Bool) (i : BitVec 3) : (r.setFull b (.p i)).m = r.m := rfl
@[simp] theorem Regs.setFull_p_p (r : Regs) (b : Bool) (i : BitVec 3) : (r.setFull b (.p i)).p = r.p := rfl
@[simp] theorem Regs.setFull_p_t (r : Regs) (b : Bool) (i : BitVec 3) : (r.setFull b (.p i)).t = r.t := rfl
@[simp] theorem Regs.setFull_p_k (r : Regs) (b : Bool) (i : BitVec 3) : (r.setFull b (.p i)).k = r.k := rfl
@[simp] theorem Regs.setFull_p_q (r : Regs) (b : Bool) (i : BitVec 3) : (r.setFull b (.p i)).q = r.q := rfl
@[simp] theorem Regs.setFull_p_sFull (r : Regs) (b : Bool) (i : BitVec 3) : (r.setFull b (.p i)).sFull = r.sFull := rfl
@[simp] theorem Regs.setFull_p_aFull (r : Regs) (b : Bool) (i : BitVec 3) : (r.setFull b (.p i)).aFull = r.aFull := rfl
@[simp] theorem Regs.setFull_p_vFull (r : Regs) (b : Bool) (i : BitVec 3) : (r.setFull b (.p i)).vFull = r.vFull := rfl
@[simp] theorem Regs.setFull_p_tFull (r : Regs) (b : Bool) (i : BitVec 3) : (r.setFull b (.p i)).tFull = r.tFull := rfl
@[simp] theorem Regs.setFull_p_kFull (r : Regs) (b : Bool) (i : BitVec 3) : (r.setFull b (.p i)).kFull = r.kFull := rfl
@[simp] theorem Regs.setFull_p_aFault (r : Regs) (b : Bool) (i : BitVec 3) : (r.setFull b (.p i)).aFault = r.aFault := rfl

end Sys2Proof.Machine
end

