-- ==== Sys2Proof/Laws/Ops.lean ====
section
/-!
SUPPORT. What the shared operations do: reads after writes of cores, contexts, dies and registers, results in
flight, bundles opened and closed, and which trap is taken.
-/
set_option Elab.async false

namespace Sys2Proof.Machine

/-! ## Performing -/

theorem perform_open {i : Instr} {f : State → State} {s : State} (h : s.issue.isOpen = true) :
    perform i f s = .next (f s) := if_pos h

theorem perform_closed {i : Instr} {f : State → State} {s : State} (h : s.issue.isOpen = false) :
    perform i f s = (match worstTrap (trapsOf i s s.focusC s.focusX) with
      | some t => .next (s.takeTrap s.focusC s.focusX t)
      | none => .next (f s.openIssue).closeIssue) := if_neg (by simp [h])

theorem worstTrap_none {l : List Trap} : worstTrap l = none ↔ l = [] := by
  constructor
  · intro h
    cases l with
    | nil => rfl
    | cons a r =>
      unfold worstTrap at h
      split at h
      · cases h
      · split at h
        · cases h
        · split at h <;> cases h
  · rintro rfl; rfl

/-- The trap that is taken has the cause and the INFO of one of the causes, and none precedes it. -/
theorem worstTrap_spec {l : List Trap} {t : Trap} (h : worstTrap l = some t) :
    (∃ u ∈ l, u.prec = t.prec ∧ u.cause = t.cause ∧ u.info = t.info) ∧ ∀ u ∈ l, t.prec ≤ u.prec := by
  induction l generalizing t with
  | nil => cases h
  | cons a r ih =>
    unfold worstTrap at h
    split at h
    next hn =>
      cases h
      rw [worstTrap_none] at hn
      subst hn
      simp
    next w hw =>
      obtain ⟨⟨u, hu, e⟩, k⟩ := ih hw
      split at h
      next hlt =>
        obtain rfl : w = t := Option.some.inj h
        refine ⟨⟨u, List.mem_cons_of_mem _ hu, e⟩, fun v hv => ?_⟩
        rcases List.mem_cons.1 hv with rfl | hv
        · omega
        · exact k v hv
      next hle =>
        have ht : t.prec = a.prec ∧ t.cause = a.cause ∧ t.info = a.info := by
          split at h <;> (obtain rfl := Option.some.inj h; exact ⟨rfl, rfl, rfl⟩)
        refine ⟨⟨a, List.mem_cons_self, ht.1.symm, ht.2.1.symm, ht.2.2.symm⟩, fun v hv => ?_⟩
        rcases List.mem_cons.1 hv with rfl | hv
        · omega
        · have := k v hv; omega

/-! ## Cores, contexts and dies -/

theorem State.core_modCore (s : State) (c e : Nat) (f : Core → Core) :
    (s.modCore c f).core e = if c = e ∧ c < 768 then f (s.core c) else s.core e := State.core_setCore ..

theorem State.core_modCore_same {s : State} {c : Nat} {f : Core → Core} (h : c < 768) :
    (s.modCore c f).core c = f (s.core c) := by rw [State.core_modCore, if_pos ⟨rfl, h⟩]

theorem State.core_modCore_other {s : State} {c e : Nat} {f : Core → Core} (h : c ≠ e) :
    (s.modCore c f).core e = s.core e := by rw [State.core_modCore, if_neg (fun k => h k.1)]

theorem State.ctx_setCtx (s : State) (c e : Nat) (x y : Bool) (t : Ctx) :
    (s.setCtx c x t).ctx e y = if c = e ∧ x = y ∧ c < 768 then t else s.ctx e y := by
  unfold State.ctx State.setCtx
  rw [State.core_modCore]
  by_cases h : c = e ∧ c < 768
  · rw [if_pos h]
    obtain ⟨rfl, hc⟩ := h
    cases x <;> cases y <;> simp [Core.setCtx, Core.ctx, hc]
  · rw [if_neg h, if_neg (fun k => h ⟨k.1, k.2.2⟩)]

theorem State.ctx_modCtx_same {s : State} {c : Nat} {x : Bool} {f : Ctx → Ctx} (h : c < 768) :
    (s.modCtx c x f).ctx c x = f (s.ctx c x) := by
  unfold State.modCtx; rw [State.ctx_setCtx, if_pos ⟨rfl, rfl, h⟩]

theorem State.ctx_modCtx_other {s : State} {c e : Nat} {x y : Bool} {f : Ctx → Ctx} (h : (e, y) ≠ (c, x)) :
    (s.modCtx c x f).ctx e y = s.ctx e y := by
  unfold State.modCtx
  rw [State.ctx_setCtx, if_neg]
  rintro ⟨rfl, rfl, -⟩
  exact h rfl

theorem State.die_modDie (s : State) (d e : Nat) (f : Die → Die) :
    (s.modDie d f).die e = if d = e ∧ d < 64 then f (s.die d) else s.die e := vget_vset _ _ _ _ _

theorem State.die_modDie_same {s : State} {d : Nat} {f : Die → Die} (h : d < 64) :
    (s.modDie d f).die d = f (s.die d) := by rw [State.die_modDie, if_pos ⟨rfl, h⟩]

/-! ## Bundles -/

theorem openIssue_isOpen (s : State) : s.openIssue.issue.isOpen = true := rfl

theorem closeIssue_issue (s : State) : s.closeIssue.issue = Issue.reset := rfl

theorem takeTrap_issue (s : State) (c : Nat) (x : Bool) (t : Trap) : (s.takeTrap c x t).issue = s.issue := rfl

/-! ## Registers -/

theorem getBit_putBit {w : Nat} (v : BitVec w) (i j : Nat) (b : Bool) :
    getBit (putBit v i b) j = if i = j ∧ j < w then b else getBit v j := by
  have hb : (BitVec.ofNat w (2 ^ i)).getLsbD j = (decide (j < w) && decide (i = j)) := by
    rw [BitVec.getLsbD_ofNat, Nat.testBit_two_pow]
  have hs : getBit (putBit v i b) j = if b then v.getLsbD j || (BitVec.ofNat w (2 ^ i)).getLsbD j
      else v.getLsbD j && (decide (j < w) && !(BitVec.ofNat w (2 ^ i)).getLsbD j) := by
    unfold getBit putBit
    cases b
    · rw [if_neg (by decide), if_neg (by decide), BitVec.getLsbD_and, BitVec.getLsbD_not]
    · rw [if_pos rfl, if_pos rfl, BitVec.getLsbD_or]
  rw [hs, hb]
  unfold getBit
  by_cases hj : j < w
  · by_cases hij : i = j <;> cases b <;> simp only [hj, hij] <;> simp
  · have : v.getLsbD j = false := BitVec.getLsbD_of_ge v j (by omega)
    cases b <;> simp only [hj, this] <;> simp

/-- A register number as a kind and an index, and the registers that share neither. -/
theorem bv_ne {w : Nat} {i j : BitVec w} (h : i ≠ j) : i.toNat ≠ j.toNat := fun e => h (BitVec.eq_of_toNat_eq e)

/-- Setting a register's full/empty bit: a register with one reads it, a fixed one stays full, the others keep
theirs (R98, R99). -/
theorem isFull_setFull (r : Regs) (b : Bool) (g h : Reg) :
    (r.setFull b g).isFull h =
      if g = h then (r.setFull b g).isFull g else r.isFull h := by
  by_cases e : g = h
  · subst e; simp
  · rw [if_neg e]
    cases g with
    | s i => cases h with
      | s j =>
        have : i.toNat ≠ j.toNat := bv_ne fun k => e (k ▸ rfl)
        simp only [Regs.isFull, Regs.setFull, getBit_putBit, this, false_and, if_false]
      | a _ => rfl | v _ => rfl | t _ => rfl | k _ => rfl | m _ => rfl | p _ => rfl
    | a i => cases h with
      | a j =>
        have : i.toNat ≠ j.toNat := bv_ne fun k => e (k ▸ rfl)
        simp only [Regs.isFull, Regs.setFull, getBit_putBit, this, false_and, if_false]
      | s _ => rfl | v _ => rfl | t _ => rfl | k _ => rfl | m _ => rfl | p _ => rfl
    | v i => cases h with
      | v j =>
        have : i.toNat ≠ j.toNat := bv_ne fun k => e (k ▸ rfl)
        simp only [Regs.isFull, Regs.setFull, getBit_putBit, this, false_and, if_false]
      | a _ => rfl | s _ => rfl | t _ => rfl | k _ => rfl | m _ => rfl | p _ => rfl
    | t i => cases h with
      | t j =>
        have : i.toNat ≠ j.toNat := bv_ne fun k => e (k ▸ rfl)
        simp only [Regs.isFull, Regs.setFull, getBit_putBit, this, false_and, if_false]
      | a _ => rfl | v _ => rfl | s _ => rfl | k _ => rfl | m _ => rfl | p _ => rfl
    | k i => cases h with
      | k j =>
        have : i.toNat ≠ j.toNat := bv_ne fun k => e (k ▸ rfl)
        simp only [Regs.isFull, Regs.setFull, getBit_putBit, this, false_and, if_false]
      | a _ => rfl | v _ => rfl | t _ => rfl | s _ => rfl | m _ => rfl | p _ => rfl
    | m i => rfl
    | p i => rfl

/-- A register without a full/empty bit, or fixed, is always full. -/
theorem isFull_setFull_self (r : Regs) (b : Bool) (g : Reg) :
    (r.setFull b g).isFull g = (b || g.fixed || (match g with | .m _ | .p _ => true | _ => false)) := by
  cases g with
  | s i => simp [Regs.isFull, Regs.setFull, getBit_putBit, Reg.fixed, i.isLt, Bool.or_comm]
  | a i => simp [Regs.isFull, Regs.setFull, getBit_putBit, Reg.fixed, i.isLt, Bool.or_comm]
  | v i => simp [Regs.isFull, Regs.setFull, getBit_putBit, Reg.fixed, i.isLt]
  | t i => simp [Regs.isFull, Regs.setFull, getBit_putBit, Reg.fixed, i.isLt]
  | k i => simp [Regs.isFull, Regs.setFull, getBit_putBit, Reg.fixed, i.isLt]
  | m i => simp [Regs.isFull, Regs.setFull]
  | p i => simp [Regs.isFull, Regs.setFull]

theorem view_setFull (r : Regs) (b : Bool) (g h : Reg) : (r.setFull b g).view h = r.view h := by
  cases g <;> cases h <;> rfl

/-- A value put into a register: the register holds it, unless it is fixed (R98); every other register holds
what it held. -/
theorem view_put (r : Regs) (l : Landing) (g : Reg) :
    (r.put l).view g = if landReg l = g ∧ g.fixed = false then landVal l else r.view g := by
  cases l with
  | s i v =>
    by_cases hi : i = 0
    · have e : r.put (.s i v) = r := if_pos hi
      rw [e, if_neg]
      rintro ⟨rfl, h⟩
      simp [landReg, Reg.fixed, hi] at h
    · have e : r.put (.s i v) = { r with s := vset r.s i.toNat v } := if_neg hi
      rw [e]
      cases g with
      | s j =>
        by_cases hij : i = j
        · subst hij
          rw [if_pos ⟨rfl, beq_false_of_ne hi⟩]
          simp only [Regs.view, Regs.sVal, if_neg hi, landVal, vget_vset]
          simp [i.isLt]
        · rw [if_neg (fun h => hij (by simpa [landReg] using h.1))]
          simp only [Regs.view, Regs.sVal, vget_vset, bv_ne hij, false_and, if_false]
      | a _ | v _ | t _ | k _ | m _ | p _ => exact (if_neg (fun h => by simp [landReg] at h)).symm
  | a i v =>
    by_cases hi : i = 0
    · have e : r.put (.a i v) = r := if_pos hi
      rw [e, if_neg]
      rintro ⟨rfl, h⟩
      simp [landReg, Reg.fixed, hi] at h
    · have e : r.put (.a i v) = { r with a := vset r.a i.toNat v } := if_neg hi
      rw [e]
      cases g with
      | a j =>
        by_cases hij : i = j
        · subst hij
          rw [if_pos ⟨rfl, beq_false_of_ne hi⟩]
          simp only [Regs.view, Regs.aVal, if_neg hi, landVal, vget_vset]
          simp [i.isLt]
        · rw [if_neg (fun h => hij (by simpa [landReg] using h.1))]
          simp only [Regs.view, Regs.aVal, vget_vset, bv_ne hij, false_and, if_false]
      | s _ | v _ | t _ | k _ | m _ | p _ => exact (if_neg (fun h => by simp [landReg] at h)).symm
  | m i v =>
    by_cases hi : i = 0
    · have e : r.put (.m i v) = r := if_pos hi
      rw [e, if_neg]
      rintro ⟨rfl, h⟩
      simp [landReg, Reg.fixed, hi] at h
    · have e : r.put (.m i v) = { r with m := vset r.m i.toNat v } := if_neg hi
      rw [e]
      cases g with
      | m j =>
        by_cases hij : i = j
        · subst hij
          rw [if_pos ⟨rfl, beq_false_of_ne hi⟩]
          simp only [Regs.view, Regs.mVal, if_neg hi, landVal, vget_vset]
          simp [i.isLt]
        · rw [if_neg (fun h => hij (by simpa [landReg] using h.1))]
          simp only [Regs.view, Regs.mVal, vget_vset, bv_ne hij, false_and, if_false]
      | s _ | a _ | v _ | t _ | k _ | p _ => exact (if_neg (fun h => by simp [landReg] at h)).symm
  | p i v =>
    by_cases hi : i = 0
    · have e : r.put (.p i v) = r := if_pos hi
      rw [e, if_neg]
      rintro ⟨rfl, h⟩
      simp [landReg, Reg.fixed, hi] at h
    · have e : r.put (.p i v) = { r with p := vset r.p i.toNat v } := if_neg hi
      rw [e]
      cases g with
      | p j =>
        by_cases hij : i = j
        · subst hij
          rw [if_pos ⟨rfl, beq_false_of_ne hi⟩]
          simp only [Regs.view, Regs.pVal, if_neg hi, landVal, vget_vset]
          simp [i.isLt]
        · rw [if_neg (fun h => hij (by simpa [landReg] using h.1))]
          simp only [Regs.view, Regs.pVal, vget_vset, bv_ne hij, false_and, if_false]
      | s _ | a _ | v _ | t _ | k _ | m _ => exact (if_neg (fun h => by simp [landReg] at h)).symm
  | v i v => cases g with
    | v j =>
      by_cases hij : i = j
      · subst hij; simp [Regs.put, Regs.view, Regs.vVal, landReg, landVal, Reg.fixed, vget_vset, i.isLt]
      · simp [Regs.put, Regs.view, Regs.vVal, landReg, hij, vget_vset, bv_ne hij]
    | s _ | a _ | t _ | k _ | m _ | p _ => simp [Regs.put, landReg]; rfl
  | t i v => cases g with
    | t j =>
      by_cases hij : i = j
      · subst hij; simp [Regs.put, Regs.view, Regs.tVal, landReg, landVal, Reg.fixed, vget_vset, i.isLt]
      · simp [Regs.put, Regs.view, Regs.tVal, landReg, hij, vget_vset, bv_ne hij]
    | s _ | a _ | v _ | k _ | m _ | p _ => simp [Regs.put, landReg]; rfl
  | k i v => cases g with
    | k j =>
      by_cases hij : i = j
      · subst hij; simp [Regs.put, Regs.view, Regs.kVal, landReg, landVal, Reg.fixed, vget_vset, i.isLt]
      · simp [Regs.put, Regs.view, Regs.kVal, landReg, hij, vget_vset, bv_ne hij]
    | s _ | a _ | v _ | t _ | m _ | p _ => simp [Regs.put, landReg]; rfl

/-- A result that has landed: what every register holds (R99). -/
theorem view_landed (r : Regs) (l : Landing) (g : Reg) :
    (r.landed l).view g = if landReg l = g ∧ g.fixed = false then landVal l else r.view g := by
  rw [← view_put, ← view_setFull (r.put l) true (landReg l) g]
  cases l <;> cases g <;> rfl

/-! ## Results in flight -/

/-- A result of the open bundle: nothing for a fixed register; else its register is empty and the result is a
timer of the core (R98, R99). -/
theorem res_eq (s : State) (n : Nat) (l : Landing) :
    s.res n l = if (landReg l).fixed then s
      else (s.modRegs s.issue.c s.issue.x fun r => r.setFull false (landReg l)).timer s.issue.c
        (s.clk s.issue.c + n) (.resultLand s.issue.c s.issue.x l) := rfl

@[simp] theorem res_issue (s : State) (n : Nat) (l : Landing) : (s.res n l).issue = s.issue := by
  rw [res_eq]; split <;> rfl

@[simp] theorem res_mem (s : State) (n : Nat) (l : Landing) : (s.res n l).mem = s.mem := by
  rw [res_eq]; split <;> rfl

@[simp] theorem res_dies (s : State) (n : Nat) (l : Landing) : (s.res n l).dies = s.dies := by
  rw [res_eq]; split <;> rfl

@[simp] theorem res_mdl (s : State) (n : Nat) (l : Landing) : (s.res n l).mdl = s.mdl := by
  rw [res_eq]; split <;> rfl

end Sys2Proof.Machine
end

