-- ==== Sys2Proof/Laws/PerInstr.lean ====
section
/-!
SUPPORT. Statements made of each operation as syntax. SlotWord: the decoder reads an operation's own word
back as that operation, with every operand at every value that its encoding admits (R109 to R117).
-/
set_option Elab.async false

namespace Sys2Proof.Laws.SlotWord
open Sys2Proof

/-- The word of a legal operation, with the lend bits that it needs, decodes to the operation. -/
def Statement (i : Instr) : Prop :=
  ∀ x, i.slotNo ≤ 3 → i.wf = true → i.lendUse.agrees x = true → decodeSlot i.slotNo i.word x = .ok i

theorem ok_of_raw {i : Instr} {x : Option (BitVec 7)} {k w : Nat} (hk : i.slotNo = k) (hw : i.word = w)
    (hr : rawSlot k w x = some i) (hf : i.wf = true) (hl : i.lendUse.agrees x = true) :
    decodeSlot i.slotNo i.word x = .ok i := by
  subst hk hw
  simp [decodeSlot, hr, hf, hl]

theorem rawSlot_0 (w : Nat) (x : Option (BitVec 7)) : rawSlot 0 w x = raw0 w x := rfl
theorem rawSlot_1 (w : Nat) (x : Option (BitVec 7)) : rawSlot 1 w x = raw1 w x := rfl
theorem rawSlot_2 (w : Nat) (x : Option (BitVec 7)) : rawSlot 2 w x = raw2 w x := rfl
theorem rawSlot_3 (w : Nat) (x : Option (BitVec 7)) : rawSlot 3 w x = raw3 w x := rfl

theorem read_low {n : Nat} {o : Imm n} {x : Option (BitVec 7)} (h : (x == o.lend) = true) :
    Imm.read o.low x = o := by
  have h : x = o.lend := by simpa using h
  subst h
  cases o with
  | short v => rfl
  | long v =>
    simp only [Imm.read, Imm.low, Imm.lend]
    congr 1
    apply BitVec.eq_of_toNat_eq
    simp only [BitVec.toNat_ofNat]
    have := v.isLt
    have e : 2 ^ (n + 7) = 2 ^ n * 128 := by rw [pow_add]; rfl
    have h1 : v.toNat / 2 ^ n < 128 := by
      apply Nat.div_lt_of_lt_mul; omega
    rw [Nat.mod_eq_of_lt (a := v.toNat / 2 ^ n) (by omega)]
    have := Nat.div_add_mod v.toNat (2 ^ n)
    rw [Nat.mul_comm, this, Nat.mod_eq_of_lt (by omega)]

theorem index_low {i : WIndex} {x : Option (BitVec 7)} (h : ((x.getD 0).toNat == i.toNat / 64) = true) :
    lendIndex (i.setWidth 6) x = i := by
  have h : (x.getD 0).toNat = i.toNat / 64 := by simpa using h
  have hi := i.isLt
  apply BitVec.eq_of_toNat_eq
  cases x with
  | none =>
    have h0 : 0 = i.toNat / 64 := by simpa using h
    simp only [lendIndex, BitVec.toNat_ofNat, BitVec.toNat_setWidth]
    omega
  | some y =>
    simp only [Option.getD_some] at h
    simp only [lendIndex, BitVec.toNat_ofNat, BitVec.toNat_setWidth, h]
    omega

theorem bseal_index {g : BitVec 4} {i : WIndex} {v : BitVec 2} {x : Option (BitVec 7)}
    (hf : (Instr.bseal g i v).wf = true) (hl : (Instr.bseal g i v).lendUse.agrees x = true) :
    lendIndex (i.setWidth 6) x = i := by
  by_cases hv : v = 2
  · subst hv
    have hi : i.toNat ≤ 27 := by simpa [Instr.wf] using hf
    have hx : x = none ∨ x = some 0 := by simpa [Instr.lendUse, LendUse.agrees] using hl
    apply index_low
    rcases hx with rfl | rfl <;> simp <;> omega
  · apply index_low
    have e : (Instr.bseal g i v).lendUse = .index i := by simpa [Instr.lendUse] using hv
    rw [e] at hl
    exact hl

theorem trunc {n k : Nat} (h : n ≤ k) (x : BitVec n) : (x.setWidth k).setWidth n = x := by
  simp [h]

theorem cat_hi : ∀ (a : BitVec 3) (b : BitVec 3), (a ++ b).extractLsb' 3 3 = a := by decide
theorem cat_lo : ∀ (a : BitVec 3) (b : BitVec 3), (a ++ b).extractLsb' 0 3 = b := by decide
theorem cat5_hi : ∀ (a : BitVec 5) (b : Bool), (a ++ BitVec.ofBool b).extractLsb' 1 5 = a := by decide
theorem cat5_lo : ∀ (a : BitVec 5) (b : Bool), (a ++ BitVec.ofBool b).getLsbD 0 = b := by decide
theorem flag_hi : ∀ (a : Bool) (b : BitVec 3), ((BitVec.ofBool a ++ b).setWidth 6).getLsbD 3 = a := by decide
theorem flag_lo : ∀ (a : Bool) (b : BitVec 3), ((BitVec.ofBool a ++ b).setWidth 6).setWidth 3 = b := by decide
theorem two_hi : ∀ a b : Bool, (BitVec.ofBool a ++ BitVec.ofBool b).getLsbD 1 = a := by decide
theorem two_lo : ∀ a b : Bool, (BitVec.ofBool a ++ BitVec.ofBool b).getLsbD 0 = b := by decide
theorem table4 : ∀ t : BitVec 4, BitVec.ofBool (t.getLsbD 3) ++ t.setWidth 3 = t := by decide
theorem vreg6 : ∀ d : BitVec 6, BitVec.ofBool (d.getLsbD 5) ++ d.setWidth 5 = d := by decide


theorem nopS0 : Statement (.nopS0) := by
  intro lb _ hw hl
  exact ok_of_raw rfl rfl rfl hw hl

theorem br (g : Guard) (o : Imm 16) : Statement (.br g o) := by
  intro lb _ hw hl
  refine ok_of_raw (k := 0) (w := wordB 0x01 g o.low) rfl rfl ?_ hw hl
  rw [rawSlot_0]
  unfold raw0
  rw [wordB_op]
  show some (readB _ _) = _
  rw [readB_wordB, read_low hl]

theorem bri (g : Guard) (a : BitVec 5) : Statement (.bri g a) := by
  intro lb _ hw hl
  refine ok_of_raw (k := 0) (w := wordR 0x02 g 0 a 0 false) rfl rfl ?_ hw hl
  rw [rawSlot_0]
  unfold raw0
  rw [wordR_op]
  show some (readR _ _) = _
  rw [readR_wordR]

theorem call (g : Guard) (o : Imm 16) : Statement (.call g o) := by
  intro lb _ hw hl
  refine ok_of_raw (k := 0) (w := wordB 0x03 g o.low) rfl rfl ?_ hw hl
  rw [rawSlot_0]
  unfold raw0
  rw [wordB_op]
  show some (readB _ _) = _
  rw [readB_wordB, read_low hl]

theorem ret (g : Guard) (a : BitVec 5) : Statement (.ret g a) := by
  intro lb _ hw hl
  refine ok_of_raw (k := 0) (w := wordR 0x04 g 0 a 0 false) rfl rfl ?_ hw hl
  rw [rawSlot_0]
  unfold raw0
  rw [wordR_op]
  show some (readR _ _) = _
  rw [readR_wordR]

theorem loopI (l : Bool) (o : BitVec 7) (c : BitVec 10) : Statement (.loopI l o c) := by
  intro lb _ hw hl
  refine ok_of_raw (k := 0) (w := wordLoopI 0x08 l o c) rfl rfl ?_ hw hl
  rw [rawSlot_0]
  unfold raw0
  rw [wordLoopI_op]
  show some (readLoop _) = _
  rw [readLoop_wordLoopI]

theorem loopR (l : Bool) (o : BitVec 7) (r : BitVec 5) : Statement (.loopR l o r) := by
  intro lb _ hw hl
  refine ok_of_raw (k := 0) (w := wordLoopR 0x08 l 1 o r 0) rfl rfl ?_ hw hl
  rw [rawSlot_0]
  unfold raw0
  rw [wordLoopR_op _ _ _ (by decide)]
  show some (readLoop _) = _
  rw [readLoop_wordLoopR_1]

theorem loopSr (l : Bool) (o : BitVec 7) (r : BitVec 5) : Statement (.loopSr l o r) := by
  intro lb _ hw hl
  refine ok_of_raw (k := 0) (w := wordLoopR 0x08 l 2 o r 0) rfl rfl ?_ hw hl
  rw [rawSlot_0]
  unfold raw0
  rw [wordLoopR_op _ _ _ (by decide)]
  show some (readLoop _) = _
  rw [readLoop_wordLoopR_2]

theorem loopRot (l : Bool) (o : BitVec 7) (r : BitVec 5) (n : BitVec 4) : Statement (.loopRot l o r n) := by
  intro lb _ hw hl
  refine ok_of_raw (k := 0) (w := wordLoopR 0x08 l 3 o r (n.setWidth 5)) rfl rfl ?_ hw hl
  rw [rawSlot_0]
  unfold raw0
  rw [wordLoopR_op _ _ _ (by decide)]
  show some (readLoop _) = _
  rw [readLoop_wordLoopR_3]

theorem lexit (g : Guard) (l : Bool) : Statement (.lexit g l) := by
  intro lb _ hw hl
  refine ok_of_raw (k := 0) (w := wordR 0x09 g 0 0 0 l) rfl rfl ?_ hw hl
  rw [rawSlot_0]
  unfold raw0
  rw [wordR_op]
  show some (readR _ _) = _
  rw [readR_wordR]

theorem lstat (g : Guard) (d : BitVec 5) (w : BitVec 2) (l : Bool) : Statement (.lstat g d w l) := by
  intro lb _ hw hl
  refine ok_of_raw (k := 0) (w := wordR 0x0A g d 0 (w.setWidth 5) l) rfl rfl ?_ hw hl
  rw [rawSlot_0]
  unfold raw0
  rw [wordR_op]
  show some (readR _ _) = _
  rw [readR_wordR, trunc (by decide)]

theorem lset (g : Guard) (a : BitVec 5) (w : BitVec 2) (l : Bool) : Statement (.lset g a w l) := by
  intro lb _ hw hl
  refine ok_of_raw (k := 0) (w := wordR 0x0B g 0 a (w.setWidth 5) l) rfl rfl ?_ hw hl
  rw [rawSlot_0]
  unfold raw0
  rw [wordR_op]
  show some (readR _ _) = _
  rw [readR_wordR, trunc (by decide)]

theorem setfmt (i : BitVec 15) : Statement (.setfmt i) := by
  intro lb _ hw hl
  refine ok_of_raw (k := 0) (w := wordL 0x0C 0 i) rfl rfl ?_ hw hl
  rw [rawSlot_0]
  unfold raw0
  rw [wordL_op]
  show some (readL _ _) = _
  rw [readL_wordL]

theorem safept (i : BitVec 15) : Statement (.safept i) := by
  intro lb _ hw hl
  refine ok_of_raw (k := 0) (w := wordL 0x10 0 i) rfl rfl ?_ hw hl
  rw [rawSlot_0]
  unfold raw0
  rw [wordL_op]
  show some (readL _ _) = _
  rw [readL_wordL]

theorem yield (i : BitVec 15) : Statement (.yield i) := by
  intro lb _ hw hl
  refine ok_of_raw (k := 0) (w := wordL 0x11 0 i) rfl rfl ?_ hw hl
  rw [rawSlot_0]
  unfold raw0
  rw [wordL_op]
  show some (readL _ _) = _
  rw [readL_wordL]

theorem done (g : Guard) : Statement (.done g) := by
  intro lb _ hw hl
  refine ok_of_raw (k := 0) (w := wordR 0x12 g 0 0 0 false) rfl rfl ?_ hw hl
  rw [rawSlot_0]
  unfold raw0
  rw [wordR_op]
  show some (readR _ _) = _
  rw [readR_wordR]

theorem barg (g : Guard) (d : BitVec 5) : Statement (.barg g d) := by
  intro lb _ hw hl
  refine ok_of_raw (k := 0) (w := wordR 0x13 g d 0 0 false) rfl rfl ?_ hw hl
  rw [rawSlot_0]
  unfold raw0
  rw [wordR_op]
  show some (readR _ _) = _
  rw [readR_wordR]

theorem pause (a : BitVec 5) (i : BitVec 10) : Statement (.pause a i) := by
  intro lb _ hw hl
  refine ok_of_raw (k := 0) (w := wordI 0x14 0 a i) rfl rfl ?_ hw hl
  rw [rawSlot_0]
  unfold raw0
  rw [wordI_op]
  show some (readI _ _) = _
  rw [readI_wordI]

theorem waitev (g : Guard) (d : BitVec 5) (a : BitVec 5) : Statement (.waitev g d a) := by
  intro lb _ hw hl
  refine ok_of_raw (k := 0) (w := wordR 0x15 g d a 0 false) rfl rfl ?_ hw hl
  rw [rawSlot_0]
  unfold raw0
  rw [wordR_op]
  show some (readR _ _) = _
  rw [readR_wordR]

theorem trap (i : BitVec 10) : Statement (.trap i) := by
  intro lb _ hw hl
  refine ok_of_raw (k := 0) (w := wordI 0x16 0 0 i) rfl rfl ?_ hw hl
  rw [rawSlot_0]
  unfold raw0
  rw [wordI_op]
  show some (readI _ _) = _
  rw [readI_wordI]

theorem rft (g : Guard) : Statement (.rft g) := by
  intro lb _ hw hl
  refine ok_of_raw (k := 0) (w := wordR 0x17 g 0 0 0 false) rfl rfl ?_ hw hl
  rw [rawSlot_0]
  unfold raw0
  rw [wordR_op]
  show some (readR _ _) = _
  rw [readR_wordR]

theorem mfsr (d : BitVec 5) (i : BitVec 10) : Statement (.mfsr d i) := by
  intro lb _ hw hl
  refine ok_of_raw (k := 0) (w := wordI 0x18 d 0 i) rfl rfl ?_ hw hl
  rw [rawSlot_0]
  unfold raw0
  rw [wordI_op]
  show some (readI _ _) = _
  rw [readI_wordI]

theorem mtsr (a : BitVec 5) (i : BitVec 10) : Statement (.mtsr a i) := by
  intro lb _ hw hl
  refine ok_of_raw (k := 0) (w := wordI 0x19 0 a i) rfl rfl ?_ hw hl
  rw [rawSlot_0]
  unfold raw0
  rw [wordI_op]
  show some (readI _ _) = _
  rw [readI_wordI]

theorem ecap (d : BitVec 5) : Statement (.ecap d) := by
  intro lb _ hw hl
  refine ok_of_raw (k := 0) (w := wordR 0x1A ⟨0, false⟩ d 0 0 false) rfl rfl ?_ hw hl
  rw [rawSlot_0]
  unfold raw0
  rw [wordR_op]
  show some (readR _ _) = _
  rw [readR_wordR]

theorem add (g : Guard) (d : BitVec 5) (a : BitVec 5) (b : BitVec 5) (w : Bool) : Statement (.add g d a b w) := by
  intro lb _ hw hl
  refine ok_of_raw (k := 0) (w := wordR 0x20 g d a b w) rfl rfl ?_ hw hl
  rw [rawSlot_0]
  unfold raw0
  rw [wordR_op]
  show some (readR _ _) = _
  rw [readR_wordR]

theorem sub (g : Guard) (d : BitVec 5) (a : BitVec 5) (b : BitVec 5) (w : Bool) : Statement (.sub g d a b w) := by
  intro lb _ hw hl
  refine ok_of_raw (k := 0) (w := wordR 0x21 g d a b w) rfl rfl ?_ hw hl
  rw [rawSlot_0]
  unfold raw0
  rw [wordR_op]
  show some (readR _ _) = _
  rw [readR_wordR]

theorem mul (g : Guard) (d : BitVec 5) (a : BitVec 5) (b : BitVec 5) (w : Bool) : Statement (.mul g d a b w) := by
  intro lb _ hw hl
  refine ok_of_raw (k := 0) (w := wordR 0x22 g d a b w) rfl rfl ?_ hw hl
  rw [rawSlot_0]
  unfold raw0
  rw [wordR_op]
  show some (readR _ _) = _
  rw [readR_wordR]

theorem mulhi (g : Guard) (d : BitVec 5) (a : BitVec 5) (b : BitVec 5) : Statement (.mulhi g d a b) := by
  intro lb _ hw hl
  refine ok_of_raw (k := 0) (w := wordR 0x23 g d a b false) rfl rfl ?_ hw hl
  rw [rawSlot_0]
  unfold raw0
  rw [wordR_op]
  show some (readR _ _) = _
  rw [readR_wordR]

theorem mulhn (g : Guard) (d : BitVec 5) (a : BitVec 5) (b : BitVec 5) : Statement (.mulhn g d a b) := by
  intro lb _ hw hl
  refine ok_of_raw (k := 0) (w := wordR 0x24 g d a b false) rfl rfl ?_ hw hl
  rw [rawSlot_0]
  unfold raw0
  rw [wordR_op]
  show some (readR _ _) = _
  rw [readR_wordR]

theorem and (g : Guard) (d : BitVec 5) (a : BitVec 5) (b : BitVec 5) : Statement (.and g d a b) := by
  intro lb _ hw hl
  refine ok_of_raw (k := 0) (w := wordR 0x25 g d a b false) rfl rfl ?_ hw hl
  rw [rawSlot_0]
  unfold raw0
  rw [wordR_op]
  show some (readR _ _) = _
  rw [readR_wordR]

theorem or (g : Guard) (d : BitVec 5) (a : BitVec 5) (b : BitVec 5) : Statement (.or g d a b) := by
  intro lb _ hw hl
  refine ok_of_raw (k := 0) (w := wordR 0x26 g d a b false) rfl rfl ?_ hw hl
  rw [rawSlot_0]
  unfold raw0
  rw [wordR_op]
  show some (readR _ _) = _
  rw [readR_wordR]

theorem xor (g : Guard) (d : BitVec 5) (a : BitVec 5) (b : BitVec 5) : Statement (.xor g d a b) := by
  intro lb _ hw hl
  refine ok_of_raw (k := 0) (w := wordR 0x27 g d a b false) rfl rfl ?_ hw hl
  rw [rawSlot_0]
  unfold raw0
  rw [wordR_op]
  show some (readR _ _) = _
  rw [readR_wordR]

theorem shl (g : Guard) (d : BitVec 5) (a : BitVec 5) (b : BitVec 5) (w : Bool) : Statement (.shl g d a b w) := by
  intro lb _ hw hl
  refine ok_of_raw (k := 0) (w := wordR 0x28 g d a b w) rfl rfl ?_ hw hl
  rw [rawSlot_0]
  unfold raw0
  rw [wordR_op]
  show some (readR _ _) = _
  rw [readR_wordR]

theorem shr (g : Guard) (d : BitVec 5) (a : BitVec 5) (b : BitVec 5) (w : Bool) : Statement (.shr g d a b w) := by
  intro lb _ hw hl
  refine ok_of_raw (k := 0) (w := wordR 0x29 g d a b w) rfl rfl ?_ hw hl
  rw [rawSlot_0]
  unfold raw0
  rw [wordR_op]
  show some (readR _ _) = _
  rw [readR_wordR]

theorem sar (g : Guard) (d : BitVec 5) (a : BitVec 5) (b : BitVec 5) (w : Bool) : Statement (.sar g d a b w) := by
  intro lb _ hw hl
  refine ok_of_raw (k := 0) (w := wordR 0x2A g d a b w) rfl rfl ?_ hw hl
  rw [rawSlot_0]
  unfold raw0
  rw [wordR_op]
  show some (readR _ _) = _
  rw [readR_wordR]

theorem min (g : Guard) (d : BitVec 5) (a : BitVec 5) (b : BitVec 5) : Statement (.min g d a b) := by
  intro lb _ hw hl
  refine ok_of_raw (k := 0) (w := wordR 0x2B g d a b false) rfl rfl ?_ hw hl
  rw [rawSlot_0]
  unfold raw0
  rw [wordR_op]
  show some (readR _ _) = _
  rw [readR_wordR]

theorem max (g : Guard) (d : BitVec 5) (a : BitVec 5) (b : BitVec 5) : Statement (.max g d a b) := by
  intro lb _ hw hl
  refine ok_of_raw (k := 0) (w := wordR 0x2C g d a b false) rfl rfl ?_ hw hl
  rw [rawSlot_0]
  unfold raw0
  rw [wordR_op]
  show some (readR _ _) = _
  rw [readR_wordR]

theorem minn (g : Guard) (d : BitVec 5) (a : BitVec 5) (b : BitVec 5) : Statement (.minn g d a b) := by
  intro lb _ hw hl
  refine ok_of_raw (k := 0) (w := wordR 0x2D g d a b false) rfl rfl ?_ hw hl
  rw [rawSlot_0]
  unfold raw0
  rw [wordR_op]
  show some (readR _ _) = _
  rw [readR_wordR]

theorem maxn (g : Guard) (d : BitVec 5) (a : BitVec 5) (b : BitVec 5) : Statement (.maxn g d a b) := by
  intro lb _ hw hl
  refine ok_of_raw (k := 0) (w := wordR 0x2E g d a b false) rfl rfl ?_ hw hl
  rw [rawSlot_0]
  unfold raw0
  rw [wordR_op]
  show some (readR _ _) = _
  rw [readR_wordR]

theorem sel (g : Guard) (d : BitVec 5) (a : BitVec 5) (b : BitVec 5) : Statement (.sel g d a b) := by
  intro lb _ hw hl
  refine ok_of_raw (k := 0) (w := wordR 0x2F g d a b false) rfl rfl ?_ hw hl
  rw [rawSlot_0]
  unfold raw0
  rw [wordR_op]
  show some (readR _ _) = _
  rw [readR_wordR]

theorem clz (g : Guard) (d : BitVec 5) (a : BitVec 5) (w : Bool) : Statement (.clz g d a w) := by
  intro lb _ hw hl
  refine ok_of_raw (k := 0) (w := wordR 0x30 g d a 0 w) rfl rfl ?_ hw hl
  rw [rawSlot_0]
  unfold raw0
  rw [wordR_op]
  show some (readR _ _) = _
  rw [readR_wordR]

theorem popc (g : Guard) (d : BitVec 5) (a : BitVec 5) (w : Bool) : Statement (.popc g d a w) := by
  intro lb _ hw hl
  refine ok_of_raw (k := 0) (w := wordR 0x31 g d a 0 w) rfl rfl ?_ hw hl
  rw [rawSlot_0]
  unfold raw0
  rw [wordR_op]
  show some (readR _ _) = _
  rw [readR_wordR]

theorem bfx (g : Guard) (d : BitVec 5) (a : BitVec 5) (b : BitVec 5) (sx : Bool) : Statement (.bfx g d a b sx) := by
  intro lb _ hw hl
  refine ok_of_raw (k := 0) (w := wordR 0x32 g d a b sx) rfl rfl ?_ hw hl
  rw [rawSlot_0]
  unfold raw0
  rw [wordR_op]
  show some (readR _ _) = _
  rw [readR_wordR]

theorem bfi (g : Guard) (d : BitVec 5) (a : BitVec 5) (b : BitVec 5) : Statement (.bfi g d a b) := by
  intro lb _ hw hl
  refine ok_of_raw (k := 0) (w := wordR 0x33 g d a b false) rfl rfl ?_ hw hl
  rw [rawSlot_0]
  unfold raw0
  rw [wordR_op]
  show some (readR _ _) = _
  rw [readR_wordR]

theorem cmp (g : Guard) (p : BitVec 3) (c : BitVec 2) (a : BitVec 5) (b : BitVec 5) (inv : Bool) : Statement (.cmp g p c a b inv) := by
  intro lb _ hw hl
  refine ok_of_raw (k := 0) (w := wordC 0x34 g p c a b inv) rfl rfl ?_ hw hl
  rw [rawSlot_0]
  unfold raw0
  rw [wordC_op]
  show some (readC _ _) = _
  rw [readC_wordC]

theorem plog (d : BitVec 3) (a : BitVec 3) (b : BitVec 3) (t : BitVec 4) : Statement (.plog d a b t) := by
  intro lb _ hw hl
  refine ok_of_raw (k := 0) (w := wordP 0x35 d a b t) rfl rfl ?_ hw hl
  rw [rawSlot_0]
  unfold raw0
  rw [wordP_op]
  show some (readP _ _) = _
  rw [readP_wordP]

theorem addi (d : BitVec 5) (a : BitVec 5) (i : BitVec 10) : Statement (.addi d a i) := by
  intro lb _ hw hl
  refine ok_of_raw (k := 0) (w := wordI 0x38 d a i) rfl rfl ?_ hw hl
  rw [rawSlot_0]
  unfold raw0
  rw [wordI_op]
  show some (readI _ _) = _
  rw [readI_wordI]

theorem andi (d : BitVec 5) (a : BitVec 5) (i : BitVec 10) : Statement (.andi d a i) := by
  intro lb _ hw hl
  refine ok_of_raw (k := 0) (w := wordI 0x39 d a i) rfl rfl ?_ hw hl
  rw [rawSlot_0]
  unfold raw0
  rw [wordI_op]
  show some (readI _ _) = _
  rw [readI_wordI]

theorem ori (d : BitVec 5) (a : BitVec 5) (i : BitVec 10) : Statement (.ori d a i) := by
  intro lb _ hw hl
  refine ok_of_raw (k := 0) (w := wordI 0x3A d a i) rfl rfl ?_ hw hl
  rw [rawSlot_0]
  unfold raw0
  rw [wordI_op]
  show some (readI _ _) = _
  rw [readI_wordI]

theorem xori (d : BitVec 5) (a : BitVec 5) (i : BitVec 10) : Statement (.xori d a i) := by
  intro lb _ hw hl
  refine ok_of_raw (k := 0) (w := wordI 0x3B d a i) rfl rfl ?_ hw hl
  rw [rawSlot_0]
  unfold raw0
  rw [wordI_op]
  show some (readI _ _) = _
  rw [readI_wordI]

theorem shli (d : BitVec 5) (a : BitVec 5) (i : BitVec 6) : Statement (.shli d a i) := by
  intro lb _ hw hl
  refine ok_of_raw (k := 0) (w := wordI 0x3C d a (i.setWidth 10)) rfl rfl ?_ hw hl
  rw [rawSlot_0]
  unfold raw0
  rw [wordI_op]
  show some (readI _ _) = _
  rw [readI_wordI, trunc (by decide)]

theorem shri (d : BitVec 5) (a : BitVec 5) (i : BitVec 6) : Statement (.shri d a i) := by
  intro lb _ hw hl
  refine ok_of_raw (k := 0) (w := wordI 0x3D d a (i.setWidth 10)) rfl rfl ?_ hw hl
  rw [rawSlot_0]
  unfold raw0
  rw [wordI_op]
  show some (readI _ _) = _
  rw [readI_wordI, trunc (by decide)]

theorem sari (d : BitVec 5) (a : BitVec 5) (i : BitVec 6) : Statement (.sari d a i) := by
  intro lb _ hw hl
  refine ok_of_raw (k := 0) (w := wordI 0x3E d a (i.setWidth 10)) rfl rfl ?_ hw hl
  rw [rawSlot_0]
  unfold raw0
  rw [wordI_op]
  show some (readI _ _) = _
  rw [readI_wordI, trunc (by decide)]

theorem cmpi (p : BitVec 3) (c : BitVec 2) (a : BitVec 5) (i : BitVec 10) : Statement (.cmpi p c a i) := by
  intro lb _ hw hl
  refine ok_of_raw (k := 0) (w := wordCI 0x3F p c a i) rfl rfl ?_ hw hl
  rw [rawSlot_0]
  unfold raw0
  rw [wordCI_op]
  show some (readCI _ _) = _
  rw [readCI_wordCI]

theorem li (d : BitVec 5) (i : Imm 15) : Statement (.li d i) := by
  intro lb _ hw hl
  refine ok_of_raw (k := 0) (w := wordL 0x40 d i.low) rfl rfl ?_ hw hl
  rw [rawSlot_0]
  unfold raw0
  rw [wordL_op]
  show some (readL _ _) = _
  rw [readL_wordL, read_low hl]

theorem lih (d : BitVec 5) (i : Imm 15) : Statement (.lih d i) := by
  intro lb _ hw hl
  refine ok_of_raw (k := 0) (w := wordL 0x41 d i.low) rfl rfl ?_ hw hl
  rw [rawSlot_0]
  unfold raw0
  rw [wordL_op]
  show some (readL _ _) = _
  rw [readL_wordL, read_low hl]

theorem s2a (g : Guard) (d : BitVec 5) (a : BitVec 5) : Statement (.s2a g d a) := by
  intro lb _ hw hl
  refine ok_of_raw (k := 0) (w := wordR 0x48 g d a 0 false) rfl rfl ?_ hw hl
  rw [rawSlot_0]
  unfold raw0
  rw [wordR_op]
  show some (readR _ _) = _
  rw [readR_wordR]

theorem s2v (g : Guard) (d : BitVec 6) (a : BitVec 5) : Statement (.s2v g d a) := by
  intro lb _ hw hl
  refine ok_of_raw (k := 0) (w := wordR 0x49 g (d.setWidth 5) a 0 (d.getLsbD 5)) rfl rfl ?_ hw hl
  rw [rawSlot_0]
  unfold raw0
  rw [wordR_op]
  show some (readR _ _) = _
  rw [readR_wordR, vreg6]

theorem s2t (g : Guard) (d : BitVec 4) (a : BitVec 5) (b : BitVec 5) : Statement (.s2t g d a b) := by
  intro lb _ hw hl
  refine ok_of_raw (k := 0) (w := wordR 0x4A g (d.setWidth 5) a b false) rfl rfl ?_ hw hl
  rw [rawSlot_0]
  unfold raw0
  rw [wordR_op]
  show some (readR _ _) = _
  rw [readR_wordR, trunc (by decide)]

theorem s2k (g : Guard) (d : BitVec 3) (a : BitVec 5) (b : BitVec 5) : Statement (.s2k g d a b) := by
  intro lb _ hw hl
  refine ok_of_raw (k := 0) (w := wordR 0x4B g (d.setWidth 5) a b false) rfl rfl ?_ hw hl
  rw [rawSlot_0]
  unfold raw0
  rw [wordR_op]
  show some (readR _ _) = _
  rw [readR_wordR, trunc (by decide)]

theorem nopS1 : Statement (.nopS1) := by
  intro lb _ hw hl
  exact ok_of_raw rfl rfl rfl hw hl

theorem aadd (g : Guard) (d : BitVec 5) (a : BitVec 5) (b : BitVec 5) : Statement (.aadd g d a b) := by
  intro lb _ hw hl
  refine ok_of_raw (k := 1) (w := wordMX 0x01 0 d a g b 0) rfl rfl ?_ hw hl
  rw [rawSlot_1]
  unfold raw1
  rw [wordMX_op]
  show some (readMX _ _) = _
  rw [readMX_wordMX]

theorem aaddi (g : Guard) (d : BitVec 5) (a : BitVec 5) (i : Imm 8) : Statement (.aaddi g d a i) := by
  intro lb _ hw hl
  refine ok_of_raw (k := 1) (w := wordM 0x02 0 d a g i.low) rfl rfl ?_ hw hl
  rw [rawSlot_1]
  unfold raw1
  rw [wordM_op]
  show some (readM _ _) = _
  rw [readM_wordM, read_low hl]

theorem asub (g : Guard) (d : BitVec 5) (a : BitVec 5) (b : BitVec 5) : Statement (.asub g d a b) := by
  intro lb _ hw hl
  refine ok_of_raw (k := 1) (w := wordMX 0x03 0 d a g b 0) rfl rfl ?_ hw hl
  rw [rawSlot_1]
  unfold raw1
  rw [wordMX_op]
  show some (readMX _ _) = _
  rw [readMX_wordMX]

theorem ashli (g : Guard) (d : BitVec 5) (a : BitVec 5) (i : BitVec 6) : Statement (.ashli g d a i) := by
  intro lb _ hw hl
  refine ok_of_raw (k := 1) (w := wordM 0x04 0 d a g (i.setWidth 8)) rfl rfl ?_ hw hl
  rw [rawSlot_1]
  unfold raw1
  rw [wordM_op]
  show some (readM _ _) = _
  rw [readM_wordM, trunc (by decide)]

theorem alea (g : Guard) (d : BitVec 5) (a : BitVec 5) (b : BitVec 5) (s : BitVec 3) : Statement (.alea g d a b s) := by
  intro lb _ hw hl
  refine ok_of_raw (k := 1) (w := wordMX 0x05 0 d a g b s) rfl rfl ?_ hw hl
  rw [rawSlot_1]
  unfold raw1
  rw [wordMX_op]
  show some (readMX _ _) = _
  rw [readMX_wordMX]

theorem aand (g : Guard) (d : BitVec 5) (a : BitVec 5) (b : BitVec 5) : Statement (.aand g d a b) := by
  intro lb _ hw hl
  refine ok_of_raw (k := 1) (w := wordMX 0x06 0 d a g b 0) rfl rfl ?_ hw hl
  rw [rawSlot_1]
  unfold raw1
  rw [wordMX_op]
  show some (readMX _ _) = _
  rw [readMX_wordMX]

theorem ali (d : BitVec 5) (i : Imm 17) : Statement (.ali d i) := by
  intro lb _ hw hl
  refine ok_of_raw (k := 1) (w := wordAL 0x07 d i.low) rfl rfl ?_ hw hl
  rw [rawSlot_1]
  unfold raw1
  rw [wordAL_op]
  show some (readAL _ _) = _
  rw [readAL_wordAL, read_low hl]

theorem acmp (g : Guard) (p : BitVec 3) (c : BitVec 2) (a : BitVec 5) (b : BitVec 5) (inv : Bool) : Statement (.acmp g p c a b inv) := by
  intro lb _ hw hl
  refine ok_of_raw (k := 1) (w := wordAC 0x08 p c a g b inv) rfl rfl ?_ hw hl
  rw [rawSlot_1]
  unfold raw1
  rw [wordAC_op]
  show some (readAC _ _) = _
  rw [readAC_wordAC]

theorem a2s (g : Guard) (d : BitVec 5) (a : BitVec 5) : Statement (.a2s g d a) := by
  intro lb _ hw hl
  refine ok_of_raw (k := 1) (w := wordMX 0x09 0 d a g 0 0) rfl rfl ?_ hw hl
  rw [rawSlot_1]
  unfold raw1
  rw [wordMX_op]
  show some (readMX _ _) = _
  rw [readMX_wordMX]

theorem ldBI (g : Guard) (k : BitVec 4) (d : BitVec 5) (b : BitVec 5) (o : Imm 8) : Statement (.ldBI g k d b o) := by
  intro lb _ hw hl
  refine ok_of_raw (k := 1) (w := wordM 0x10 k d b g o.low) rfl rfl ?_ hw hl
  rw [rawSlot_1]
  unfold raw1
  rw [wordM_op]
  show some (readM _ _) = _
  rw [readM_wordM, read_low hl]

theorem ldBN (g : Guard) (k : BitVec 4) (d : BitVec 5) (b : BitVec 5) (o : Imm 8) : Statement (.ldBN g k d b o) := by
  intro lb _ hw hl
  refine ok_of_raw (k := 1) (w := wordM 0x11 k d b g o.low) rfl rfl ?_ hw hl
  rw [rawSlot_1]
  unfold raw1
  rw [wordM_op]
  show some (readM _ _) = _
  rw [readM_wordM, read_low hl]

theorem ldHI (g : Guard) (k : BitVec 4) (d : BitVec 5) (b : BitVec 5) (o : Imm 8) : Statement (.ldHI g k d b o) := by
  intro lb _ hw hl
  refine ok_of_raw (k := 1) (w := wordM 0x12 k d b g o.low) rfl rfl ?_ hw hl
  rw [rawSlot_1]
  unfold raw1
  rw [wordM_op]
  show some (readM _ _) = _
  rw [readM_wordM, read_low hl]

theorem ldHN (g : Guard) (k : BitVec 4) (d : BitVec 5) (b : BitVec 5) (o : Imm 8) : Statement (.ldHN g k d b o) := by
  intro lb _ hw hl
  refine ok_of_raw (k := 1) (w := wordM 0x13 k d b g o.low) rfl rfl ?_ hw hl
  rw [rawSlot_1]
  unfold raw1
  rw [wordM_op]
  show some (readM _ _) = _
  rw [readM_wordM, read_low hl]

theorem ldWI (g : Guard) (k : BitVec 4) (d : BitVec 5) (b : BitVec 5) (o : Imm 8) : Statement (.ldWI g k d b o) := by
  intro lb _ hw hl
  refine ok_of_raw (k := 1) (w := wordM 0x14 k d b g o.low) rfl rfl ?_ hw hl
  rw [rawSlot_1]
  unfold raw1
  rw [wordM_op]
  show some (readM _ _) = _
  rw [readM_wordM, read_low hl]

theorem ldWN (g : Guard) (k : BitVec 4) (d : BitVec 5) (b : BitVec 5) (o : Imm 8) : Statement (.ldWN g k d b o) := by
  intro lb _ hw hl
  refine ok_of_raw (k := 1) (w := wordM 0x15 k d b g o.low) rfl rfl ?_ hw hl
  rw [rawSlot_1]
  unfold raw1
  rw [wordM_op]
  show some (readM _ _) = _
  rw [readM_wordM, read_low hl]

theorem ldD (g : Guard) (k : BitVec 4) (d : BitVec 5) (b : BitVec 5) (o : Imm 8) : Statement (.ldD g k d b o) := by
  intro lb _ hw hl
  refine ok_of_raw (k := 1) (w := wordM 0x16 k d b g o.low) rfl rfl ?_ hw hl
  rw [rawSlot_1]
  unfold raw1
  rw [wordM_op]
  show some (readM _ _) = _
  rw [readM_wordM, read_low hl]

theorem ldxBI (g : Guard) (k : BitVec 4) (d : BitVec 5) (b : BitVec 5) (x : BitVec 5) : Statement (.ldxBI g k d b x) := by
  intro lb _ hw hl
  refine ok_of_raw (k := 1) (w := wordMX 0x18 k d b g x 0) rfl rfl ?_ hw hl
  rw [rawSlot_1]
  unfold raw1
  rw [wordMX_op]
  show some (readMX _ _) = _
  rw [readMX_wordMX]

theorem ldxBN (g : Guard) (k : BitVec 4) (d : BitVec 5) (b : BitVec 5) (x : BitVec 5) : Statement (.ldxBN g k d b x) := by
  intro lb _ hw hl
  refine ok_of_raw (k := 1) (w := wordMX 0x19 k d b g x 0) rfl rfl ?_ hw hl
  rw [rawSlot_1]
  unfold raw1
  rw [wordMX_op]
  show some (readMX _ _) = _
  rw [readMX_wordMX]

theorem ldxHI (g : Guard) (k : BitVec 4) (d : BitVec 5) (b : BitVec 5) (x : BitVec 5) : Statement (.ldxHI g k d b x) := by
  intro lb _ hw hl
  refine ok_of_raw (k := 1) (w := wordMX 0x1A k d b g x 0) rfl rfl ?_ hw hl
  rw [rawSlot_1]
  unfold raw1
  rw [wordMX_op]
  show some (readMX _ _) = _
  rw [readMX_wordMX]

theorem ldxHN (g : Guard) (k : BitVec 4) (d : BitVec 5) (b : BitVec 5) (x : BitVec 5) : Statement (.ldxHN g k d b x) := by
  intro lb _ hw hl
  refine ok_of_raw (k := 1) (w := wordMX 0x1B k d b g x 0) rfl rfl ?_ hw hl
  rw [rawSlot_1]
  unfold raw1
  rw [wordMX_op]
  show some (readMX _ _) = _
  rw [readMX_wordMX]

theorem ldxWI (g : Guard) (k : BitVec 4) (d : BitVec 5) (b : BitVec 5) (x : BitVec 5) : Statement (.ldxWI g k d b x) := by
  intro lb _ hw hl
  refine ok_of_raw (k := 1) (w := wordMX 0x1C k d b g x 0) rfl rfl ?_ hw hl
  rw [rawSlot_1]
  unfold raw1
  rw [wordMX_op]
  show some (readMX _ _) = _
  rw [readMX_wordMX]

theorem ldxWN (g : Guard) (k : BitVec 4) (d : BitVec 5) (b : BitVec 5) (x : BitVec 5) : Statement (.ldxWN g k d b x) := by
  intro lb _ hw hl
  refine ok_of_raw (k := 1) (w := wordMX 0x1D k d b g x 0) rfl rfl ?_ hw hl
  rw [rawSlot_1]
  unfold raw1
  rw [wordMX_op]
  show some (readMX _ _) = _
  rw [readMX_wordMX]

theorem ldxD (g : Guard) (k : BitVec 4) (d : BitVec 5) (b : BitVec 5) (x : BitVec 5) : Statement (.ldxD g k d b x) := by
  intro lb _ hw hl
  refine ok_of_raw (k := 1) (w := wordMX 0x1E k d b g x 0) rfl rfl ?_ hw hl
  rw [rawSlot_1]
  unfold raw1
  rw [wordMX_op]
  show some (readMX _ _) = _
  rw [readMX_wordMX]

theorem stB (g : Guard) (k : BitVec 4) (d : BitVec 5) (b : BitVec 5) (o : Imm 8) : Statement (.stB g k d b o) := by
  intro lb _ hw hl
  refine ok_of_raw (k := 1) (w := wordM 0x20 k d b g o.low) rfl rfl ?_ hw hl
  rw [rawSlot_1]
  unfold raw1
  rw [wordM_op]
  show some (readM _ _) = _
  rw [readM_wordM, read_low hl]

theorem stH (g : Guard) (k : BitVec 4) (d : BitVec 5) (b : BitVec 5) (o : Imm 8) : Statement (.stH g k d b o) := by
  intro lb _ hw hl
  refine ok_of_raw (k := 1) (w := wordM 0x21 k d b g o.low) rfl rfl ?_ hw hl
  rw [rawSlot_1]
  unfold raw1
  rw [wordM_op]
  show some (readM _ _) = _
  rw [readM_wordM, read_low hl]

theorem stW (g : Guard) (k : BitVec 4) (d : BitVec 5) (b : BitVec 5) (o : Imm 8) : Statement (.stW g k d b o) := by
  intro lb _ hw hl
  refine ok_of_raw (k := 1) (w := wordM 0x22 k d b g o.low) rfl rfl ?_ hw hl
  rw [rawSlot_1]
  unfold raw1
  rw [wordM_op]
  show some (readM _ _) = _
  rw [readM_wordM, read_low hl]

theorem stD (g : Guard) (k : BitVec 4) (d : BitVec 5) (b : BitVec 5) (o : Imm 8) : Statement (.stD g k d b o) := by
  intro lb _ hw hl
  refine ok_of_raw (k := 1) (w := wordM 0x23 k d b g o.low) rfl rfl ?_ hw hl
  rw [rawSlot_1]
  unfold raw1
  rw [wordM_op]
  show some (readM _ _) = _
  rw [readM_wordM, read_low hl]

theorem stxB (g : Guard) (k : BitVec 4) (d : BitVec 5) (b : BitVec 5) (x : BitVec 5) : Statement (.stxB g k d b x) := by
  intro lb _ hw hl
  refine ok_of_raw (k := 1) (w := wordMX 0x24 k d b g x 0) rfl rfl ?_ hw hl
  rw [rawSlot_1]
  unfold raw1
  rw [wordMX_op]
  show some (readMX _ _) = _
  rw [readMX_wordMX]

theorem stxH (g : Guard) (k : BitVec 4) (d : BitVec 5) (b : BitVec 5) (x : BitVec 5) : Statement (.stxH g k d b x) := by
  intro lb _ hw hl
  refine ok_of_raw (k := 1) (w := wordMX 0x25 k d b g x 0) rfl rfl ?_ hw hl
  rw [rawSlot_1]
  unfold raw1
  rw [wordMX_op]
  show some (readMX _ _) = _
  rw [readMX_wordMX]

theorem stxW (g : Guard) (k : BitVec 4) (d : BitVec 5) (b : BitVec 5) (x : BitVec 5) : Statement (.stxW g k d b x) := by
  intro lb _ hw hl
  refine ok_of_raw (k := 1) (w := wordMX 0x26 k d b g x 0) rfl rfl ?_ hw hl
  rw [rawSlot_1]
  unfold raw1
  rw [wordMX_op]
  show some (readMX _ _) = _
  rw [readMX_wordMX]

theorem stxD (g : Guard) (k : BitVec 4) (d : BitVec 5) (b : BitVec 5) (x : BitVec 5) : Statement (.stxD g k d b x) := by
  intro lb _ hw hl
  refine ok_of_raw (k := 1) (w := wordMX 0x27 k d b g x 0) rfl rfl ?_ hw hl
  rw [rawSlot_1]
  unfold raw1
  rw [wordMX_op]
  show some (readMX _ _) = _
  rw [readMX_wordMX]

theorem ldacqW (g : Guard) (k : BitVec 4) (d : BitVec 5) (b : BitVec 5) (sc : BitVec 3) (o : Imm 5) : Statement (.ldacqW g k d b sc o) := by
  intro lb _ hw hl
  refine ok_of_raw (k := 1) (w := wordMA 0x28 k d b g sc o.low) rfl rfl ?_ hw hl
  rw [rawSlot_1]
  unfold raw1
  rw [wordMA_op]
  show some (readMA _ _) = _
  rw [readMA_wordMA, read_low hl]

theorem ldacqD (g : Guard) (k : BitVec 4) (d : BitVec 5) (b : BitVec 5) (sc : BitVec 3) (o : Imm 5) : Statement (.ldacqD g k d b sc o) := by
  intro lb _ hw hl
  refine ok_of_raw (k := 1) (w := wordMA 0x29 k d b g sc o.low) rfl rfl ?_ hw hl
  rw [rawSlot_1]
  unfold raw1
  rw [wordMA_op]
  show some (readMA _ _) = _
  rw [readMA_wordMA, read_low hl]

theorem strelW (g : Guard) (k : BitVec 4) (d : BitVec 5) (b : BitVec 5) (sc : BitVec 3) (o : Imm 5) : Statement (.strelW g k d b sc o) := by
  intro lb _ hw hl
  refine ok_of_raw (k := 1) (w := wordMA 0x2A k d b g sc o.low) rfl rfl ?_ hw hl
  rw [rawSlot_1]
  unfold raw1
  rw [wordMA_op]
  show some (readMA _ _) = _
  rw [readMA_wordMA, read_low hl]

theorem strelD (g : Guard) (k : BitVec 4) (d : BitVec 5) (b : BitVec 5) (sc : BitVec 3) (o : Imm 5) : Statement (.strelD g k d b sc o) := by
  intro lb _ hw hl
  refine ok_of_raw (k := 1) (w := wordMA 0x2B k d b g sc o.low) rfl rfl ?_ hw hl
  rw [rawSlot_1]
  unfold raw1
  rw [wordMA_op]
  show some (readMA _ _) = _
  rw [readMA_wordMA, read_low hl]

theorem sldW (g : Guard) (k : BitVec 4) (d : BitVec 5) (b : BitVec 5) (o : Imm 8) : Statement (.sldW g k d b o) := by
  intro lb _ hw hl
  refine ok_of_raw (k := 1) (w := wordM 0x2C k d b g o.low) rfl rfl ?_ hw hl
  rw [rawSlot_1]
  unfold raw1
  rw [wordM_op]
  show some (readM _ _) = _
  rw [readM_wordM, read_low hl]

theorem sldD (g : Guard) (k : BitVec 4) (d : BitVec 5) (b : BitVec 5) (o : Imm 8) : Statement (.sldD g k d b o) := by
  intro lb _ hw hl
  refine ok_of_raw (k := 1) (w := wordM 0x2D k d b g o.low) rfl rfl ?_ hw hl
  rw [rawSlot_1]
  unfold raw1
  rw [wordM_op]
  show some (readM _ _) = _
  rw [readM_wordM, read_low hl]

theorem sstW (g : Guard) (k : BitVec 4) (d : BitVec 5) (b : BitVec 5) (o : Imm 8) : Statement (.sstW g k d b o) := by
  intro lb _ hw hl
  refine ok_of_raw (k := 1) (w := wordM 0x2E k d b g o.low) rfl rfl ?_ hw hl
  rw [rawSlot_1]
  unfold raw1
  rw [wordM_op]
  show some (readM _ _) = _
  rw [readM_wordM, read_low hl]

theorem sstD (g : Guard) (k : BitVec 4) (d : BitVec 5) (b : BitVec 5) (o : Imm 8) : Statement (.sstD g k d b o) := by
  intro lb _ hw hl
  refine ok_of_raw (k := 1) (w := wordM 0x2F k d b g o.low) rfl rfl ?_ hw hl
  rw [rawSlot_1]
  unfold raw1
  rw [wordM_op]
  show some (readM _ _) = _
  rw [readM_wordM, read_low hl]

theorem amo (g : Guard) (k : BitVec 4) (d : BitVec 5) (b : BitVec 5) (f : BitVec 4) (z : Bool) (sc : BitVec 3) : Statement (.amo g k d b f z sc) := by
  intro lb _ hw hl
  refine ok_of_raw (k := 1) (w := wordMT 0x30 k d b g f z sc) rfl rfl ?_ hw hl
  rw [rawSlot_1]
  unfold raw1
  rw [wordMT_op]
  show some (readMT _ _) = _
  rw [readMT_wordMT]

theorem cas (g : Guard) (k : BitVec 4) (d : BitVec 5) (b : BitVec 5) (z : Bool) (sc : BitVec 3) : Statement (.cas g k d b z sc) := by
  intro lb _ hw hl
  refine ok_of_raw (k := 1) (w := wordMT 0x31 k d b g 0 z sc) rfl rfl ?_ hw hl
  rw [rawSlot_1]
  unfold raw1
  rw [wordMT_op]
  show some (readMT _ _) = _
  rw [readMT_wordMT]

theorem afadd (g : Guard) (k : BitVec 4) (d : BitVec 5) (b : BitVec 5) (sc : BitVec 3) : Statement (.afadd g k d b sc) := by
  intro lb _ hw hl
  refine ok_of_raw (k := 1) (w := wordMT 0x32 k d b g 0 false sc) rfl rfl ?_ hw hl
  rw [rawSlot_1]
  unfold raw1
  rw [wordMT_op]
  show some (readMT _ _) = _
  rw [readMT_wordMT]

theorem fence (m : BitVec 16) (sc : BitVec 3) : Statement (.fence m sc) := by
  intro lb _ hw hl
  refine ok_of_raw (k := 1) (w := wordF 0x33 m sc) rfl rfl ?_ hw hl
  rw [rawSlot_1]
  unfold raw1
  rw [wordF_op]
  show some (readF _ _) = _
  rw [readF_wordF]

theorem fencesc (sc : BitVec 3) : Statement (.fencesc sc) := by
  intro lb _ hw hl
  refine ok_of_raw (k := 1) (w := wordF 0x34 0 sc) rfl rfl ?_ hw hl
  rw [rawSlot_1]
  unfold raw1
  rw [wordF_op]
  show some (readF _ _) = _
  rw [readF_wordF]

theorem xfence (m : BitVec 16) : Statement (.xfence m) := by
  intro lb _ hw hl
  refine ok_of_raw (k := 1) (w := wordF 0x35 m 0) rfl rfl ?_ hw hl
  rw [rawSlot_1]
  unfold raw1
  rw [wordF_op]
  show some (readF _ _) = _
  rw [readF_wordF]

theorem rslot (g : Guard) (d : BitVec 5) (a : BitVec 5) (i : Imm 8) : Statement (.rslot g d a i) := by
  intro lb _ hw hl
  refine ok_of_raw (k := 1) (w := wordM 0x36 0 d a g i.low) rfl rfl ?_ hw hl
  rw [rawSlot_1]
  unfold raw1
  rw [wordM_op]
  show some (readM _ _) = _
  rw [readM_wordM, read_low hl]

theorem copy (g : Guard) (acq : Bool) (rel : Bool) (sc : BitVec 3) (t : BitVec 5) (x : BitVec 3) (mval : Bool) (mark : Bool) (ds : BitVec 2) (ss : BitVec 2) : Statement (.copy g acq rel sc t x mval mark ds ss) := by
  intro lb _ hw hl
  refine ok_of_raw (k := 1) (w := wordE 0x37 acq rel sc t x g 0 (BitVec.ofBool mval ++ BitVec.ofBool mark) ds ss) rfl rfl ?_ hw hl
  rw [rawSlot_1]
  unfold raw1
  rw [wordE_op]
  show some (readE _ _) = _
  rw [readE_wordE, two_hi, two_lo]

theorem copym (g : Guard) (acq : Bool) (rel : Bool) (sc : BitVec 3) (t : BitVec 5) (x : BitVec 3) (mval : Bool) (mark : Bool) (ss : BitVec 2) : Statement (.copym g acq rel sc t x mval mark ss) := by
  intro lb _ hw hl
  refine ok_of_raw (k := 1) (w := wordE 0x38 acq rel sc t x g 0 (BitVec.ofBool mval ++ BitVec.ofBool mark) 0 ss) rfl rfl ?_ hw hl
  rw [rawSlot_1]
  unfold raw1
  rw [wordE_op]
  show some (readE _ _) = _
  rw [readE_wordE, two_hi, two_lo]

theorem coll (g : Guard) (acq : Bool) (rel : Bool) (sc : BitVec 3) (t : BitVec 5) (x : BitVec 3) (ty : BitVec 2) (op : BitVec 2) (ds : BitVec 2) (ss : BitVec 2) : Statement (.coll g acq rel sc t x ty op ds ss) := by
  intro lb _ hw hl
  refine ok_of_raw (k := 1) (w := wordE 0x39 acq rel sc t x g ty op ds ss) rfl rfl ?_ hw hl
  rw [rawSlot_1]
  unfold raw1
  rw [wordE_op]
  show some (readE _ _) = _
  rw [readE_wordE]

theorem rcopy (g : Guard) (acq : Bool) (rel : Bool) (sc : BitVec 3) (t : BitVec 5) (x : BitVec 3) (mval : Bool) (mark : Bool) (ss : BitVec 2) : Statement (.rcopy g acq rel sc t x mval mark ss) := by
  intro lb _ hw hl
  refine ok_of_raw (k := 1) (w := wordE 0x3A acq rel sc t x g 0 (BitVec.ofBool mval ++ BitVec.ofBool mark) 0 ss) rfl rfl ?_ hw hl
  rw [rawSlot_1]
  unfold raw1
  rw [wordE_op]
  show some (readE _ _) = _
  rw [readE_wordE, two_hi, two_lo]

theorem xpose (g : Guard) (d : BitVec 5) (a : BitVec 5) (b : BitVec 5) (z : BitVec 3) : Statement (.xpose g d a b z) := by
  intro lb _ hw hl
  refine ok_of_raw (k := 1) (w := wordMX 0x3B 0 d a g b z) rfl rfl ?_ hw hl
  rw [rawSlot_1]
  unfold raw1
  rw [wordMX_op]
  show some (readMX _ _) = _
  rw [readMX_wordMX]

theorem tokst (g : Guard) (d : BitVec 5) (a : BitVec 5) (s : BitVec 3) : Statement (.tokst g d a s) := by
  intro lb _ hw hl
  refine ok_of_raw (k := 1) (w := wordMX 0x3C 0 d a g 0 s) rfl rfl ?_ hw hl
  rw [rawSlot_1]
  unfold raw1
  rw [wordMX_op]
  show some (readMX _ _) = _
  rw [readMX_wordMX]

theorem rport (g : Guard) (d : BitVec 5) (a : BitVec 5) (b : BitVec 5) : Statement (.rport g d a b) := by
  intro lb _ hw hl
  refine ok_of_raw (k := 1) (w := wordMX 0x3D 0 d a g b 0) rfl rfl ?_ hw hl
  rw [rawSlot_1]
  unfold raw1
  rw [wordMX_op]
  show some (readMX _ _) = _
  rw [readMX_wordMX]

theorem rack (g : Guard) (d : BitVec 5) (a : BitVec 5) : Statement (.rack g d a) := by
  intro lb _ hw hl
  refine ok_of_raw (k := 1) (w := wordMX 0x3E 0 d a g 0 0) rfl rfl ?_ hw hl
  rw [rawSlot_1]
  unfold raw1
  rw [wordMX_op]
  show some (readMX _ _) = _
  rw [readMX_wordMX]

theorem nopS2 : Statement (.nopS2) := by
  intro lb _ hw hl
  exact ok_of_raw rfl rfl rfl hw hl

theorem vld (d : BitVec 6) (a : BitVec 6) (o : Imm 6) (m : BitVec 3) (r : Bool) : Statement (.vld d a o m r) := by
  intro lb _ hw hl
  refine ok_of_raw (k := 2) (w := wordV 0x01 d a o.low m r 0) rfl rfl ?_ hw hl
  rw [rawSlot_2]
  unfold raw2
  rw [wordV_op]
  show some (readV _ _) = _
  rw [readV_wordV, read_low hl]

theorem vlds (d : BitVec 6) (a : BitVec 6) (b : BitVec 6) (m : BitVec 3) (r : Bool) : Statement (.vlds d a b m r) := by
  intro lb _ hw hl
  refine ok_of_raw (k := 2) (w := wordV 0x02 d a b m r 0) rfl rfl ?_ hw hl
  rw [rawSlot_2]
  unfold raw2
  rw [wordV_op]
  show some (readV _ _) = _
  rw [readV_wordV]

theorem vgath (d : BitVec 6) (a : BitVec 6) (b : BitVec 6) (m : BitVec 3) (r : Bool) : Statement (.vgath d a b m r) := by
  intro lb _ hw hl
  refine ok_of_raw (k := 2) (w := wordV 0x03 d a b m r 0) rfl rfl ?_ hw hl
  rw [rawSlot_2]
  unfold raw2
  rw [wordV_op]
  show some (readV _ _) = _
  rw [readV_wordV]

theorem vst (d : BitVec 6) (a : BitVec 6) (o : Imm 6) (m : BitVec 3) (r : Bool) : Statement (.vst d a o m r) := by
  intro lb _ hw hl
  refine ok_of_raw (k := 2) (w := wordV 0x04 d a o.low m r 0) rfl rfl ?_ hw hl
  rw [rawSlot_2]
  unfold raw2
  rw [wordV_op]
  show some (readV _ _) = _
  rw [readV_wordV, read_low hl]

theorem vsts (d : BitVec 6) (a : BitVec 6) (b : BitVec 6) (m : BitVec 3) (r : Bool) : Statement (.vsts d a b m r) := by
  intro lb _ hw hl
  refine ok_of_raw (k := 2) (w := wordV 0x05 d a b m r 0) rfl rfl ?_ hw hl
  rw [rawSlot_2]
  unfold raw2
  rw [wordV_op]
  show some (readV _ _) = _
  rw [readV_wordV]

theorem vscat (d : BitVec 6) (a : BitVec 6) (b : BitVec 6) (m : BitVec 3) (r : Bool) : Statement (.vscat d a b m r) := by
  intro lb _ hw hl
  refine ok_of_raw (k := 2) (w := wordV 0x06 d a b m r 0) rfl rfl ?_ hw hl
  rw [rawSlot_2]
  unfold raw2
  rw [wordV_op]
  show some (readV _ _) = _
  rw [readV_wordV]

theorem vldacc (d : BitVec 6) (a : BitVec 6) (o : Imm 6) (m : BitVec 3) (r : Bool) : Statement (.vldacc d a o m r) := by
  intro lb _ hw hl
  refine ok_of_raw (k := 2) (w := wordV 0x07 d a o.low m r 0) rfl rfl ?_ hw hl
  rw [rawSlot_2]
  unfold raw2
  rw [wordV_op]
  show some (readV _ _) = _
  rw [readV_wordV, read_low hl]

theorem vstacc (d : BitVec 6) (a : BitVec 6) (o : Imm 6) (m : BitVec 3) (r : Bool) : Statement (.vstacc d a o m r) := by
  intro lb _ hw hl
  refine ok_of_raw (k := 2) (w := wordV 0x08 d a o.low m r 0) rfl rfl ?_ hw hl
  rw [rawSlot_2]
  unfold raw2
  rw [wordV_op]
  show some (readV _ _) = _
  rw [readV_wordV, read_low hl]

theorem vadd (d : BitVec 6) (a : BitVec 6) (b : BitVec 6) (m : BitVec 3) (r : Bool) (w : BitVec 3) : Statement (.vadd d a b m r w) := by
  intro lb _ hw hl
  refine ok_of_raw (k := 2) (w := wordV 0x10 d a b m r w) rfl rfl ?_ hw hl
  rw [rawSlot_2]
  unfold raw2
  rw [wordV_op]
  show some (readV _ _) = _
  rw [readV_wordV]

theorem vsub (d : BitVec 6) (a : BitVec 6) (b : BitVec 6) (m : BitVec 3) (r : Bool) (w : BitVec 3) : Statement (.vsub d a b m r w) := by
  intro lb _ hw hl
  refine ok_of_raw (k := 2) (w := wordV 0x11 d a b m r w) rfl rfl ?_ hw hl
  rw [rawSlot_2]
  unfold raw2
  rw [wordV_op]
  show some (readV _ _) = _
  rw [readV_wordV]

theorem vmul (d : BitVec 6) (a : BitVec 6) (b : BitVec 6) (m : BitVec 3) (r : Bool) (w : BitVec 3) : Statement (.vmul d a b m r w) := by
  intro lb _ hw hl
  refine ok_of_raw (k := 2) (w := wordV 0x12 d a b m r w) rfl rfl ?_ hw hl
  rw [rawSlot_2]
  unfold raw2
  rw [wordV_op]
  show some (readV _ _) = _
  rw [readV_wordV]

theorem vmulhi (d : BitVec 6) (a : BitVec 6) (b : BitVec 6) (m : BitVec 3) (r : Bool) (w : BitVec 3) : Statement (.vmulhi d a b m r w) := by
  intro lb _ hw hl
  refine ok_of_raw (k := 2) (w := wordV 0x13 d a b m r w) rfl rfl ?_ hw hl
  rw [rawSlot_2]
  unfold raw2
  rw [wordV_op]
  show some (readV _ _) = _
  rw [readV_wordV]

theorem vmin (d : BitVec 6) (a : BitVec 6) (b : BitVec 6) (m : BitVec 3) (r : Bool) (w : BitVec 3) : Statement (.vmin d a b m r w) := by
  intro lb _ hw hl
  refine ok_of_raw (k := 2) (w := wordV 0x14 d a b m r w) rfl rfl ?_ hw hl
  rw [rawSlot_2]
  unfold raw2
  rw [wordV_op]
  show some (readV _ _) = _
  rw [readV_wordV]

theorem vmax (d : BitVec 6) (a : BitVec 6) (b : BitVec 6) (m : BitVec 3) (r : Bool) (w : BitVec 3) : Statement (.vmax d a b m r w) := by
  intro lb _ hw hl
  refine ok_of_raw (k := 2) (w := wordV 0x15 d a b m r w) rfl rfl ?_ hw hl
  rw [rawSlot_2]
  unfold raw2
  rw [wordV_op]
  show some (readV _ _) = _
  rw [readV_wordV]

theorem vminn (d : BitVec 6) (a : BitVec 6) (b : BitVec 6) (m : BitVec 3) (r : Bool) (w : BitVec 3) : Statement (.vminn d a b m r w) := by
  intro lb _ hw hl
  refine ok_of_raw (k := 2) (w := wordV 0x16 d a b m r w) rfl rfl ?_ hw hl
  rw [rawSlot_2]
  unfold raw2
  rw [wordV_op]
  show some (readV _ _) = _
  rw [readV_wordV]

theorem vmaxn (d : BitVec 6) (a : BitVec 6) (b : BitVec 6) (m : BitVec 3) (r : Bool) (w : BitVec 3) : Statement (.vmaxn d a b m r w) := by
  intro lb _ hw hl
  refine ok_of_raw (k := 2) (w := wordV 0x17 d a b m r w) rfl rfl ?_ hw hl
  rw [rawSlot_2]
  unfold raw2
  rw [wordV_op]
  show some (readV _ _) = _
  rw [readV_wordV]

theorem vand (d : BitVec 6) (a : BitVec 6) (b : BitVec 6) (m : BitVec 3) (r : Bool) (w : BitVec 3) : Statement (.vand d a b m r w) := by
  intro lb _ hw hl
  refine ok_of_raw (k := 2) (w := wordV 0x18 d a b m r w) rfl rfl ?_ hw hl
  rw [rawSlot_2]
  unfold raw2
  rw [wordV_op]
  show some (readV _ _) = _
  rw [readV_wordV]

theorem vor (d : BitVec 6) (a : BitVec 6) (b : BitVec 6) (m : BitVec 3) (r : Bool) (w : BitVec 3) : Statement (.vor d a b m r w) := by
  intro lb _ hw hl
  refine ok_of_raw (k := 2) (w := wordV 0x19 d a b m r w) rfl rfl ?_ hw hl
  rw [rawSlot_2]
  unfold raw2
  rw [wordV_op]
  show some (readV _ _) = _
  rw [readV_wordV]

theorem vxor (d : BitVec 6) (a : BitVec 6) (b : BitVec 6) (m : BitVec 3) (r : Bool) (w : BitVec 3) : Statement (.vxor d a b m r w) := by
  intro lb _ hw hl
  refine ok_of_raw (k := 2) (w := wordV 0x1A d a b m r w) rfl rfl ?_ hw hl
  rw [rawSlot_2]
  unfold raw2
  rw [wordV_op]
  show some (readV _ _) = _
  rw [readV_wordV]

theorem vshl (d : BitVec 6) (a : BitVec 6) (b : BitVec 6) (m : BitVec 3) (r : Bool) (w : BitVec 3) : Statement (.vshl d a b m r w) := by
  intro lb _ hw hl
  refine ok_of_raw (k := 2) (w := wordV 0x1B d a b m r w) rfl rfl ?_ hw hl
  rw [rawSlot_2]
  unfold raw2
  rw [wordV_op]
  show some (readV _ _) = _
  rw [readV_wordV]

theorem vshr (d : BitVec 6) (a : BitVec 6) (b : BitVec 6) (m : BitVec 3) (r : Bool) (w : BitVec 3) : Statement (.vshr d a b m r w) := by
  intro lb _ hw hl
  refine ok_of_raw (k := 2) (w := wordV 0x1C d a b m r w) rfl rfl ?_ hw hl
  rw [rawSlot_2]
  unfold raw2
  rw [wordV_op]
  show some (readV _ _) = _
  rw [readV_wordV]

theorem vsar (d : BitVec 6) (a : BitVec 6) (b : BitVec 6) (m : BitVec 3) (r : Bool) (w : BitVec 3) : Statement (.vsar d a b m r w) := by
  intro lb _ hw hl
  refine ok_of_raw (k := 2) (w := wordV 0x1D d a b m r w) rfl rfl ?_ hw hl
  rw [rawSlot_2]
  unfold raw2
  rw [wordV_op]
  show some (readV _ _) = _
  rw [readV_wordV]

theorem vabs (d : BitVec 6) (a : BitVec 6) (m : BitVec 3) (r : Bool) (w : BitVec 3) : Statement (.vabs d a m r w) := by
  intro lb _ hw hl
  refine ok_of_raw (k := 2) (w := wordV 0x1E d a 0 m r w) rfl rfl ?_ hw hl
  rw [rawSlot_2]
  unfold raw2
  rw [wordV_op]
  show some (readV _ _) = _
  rw [readV_wordV]

theorem vfadd (d : BitVec 6) (a : BitVec 6) (b : BitVec 6) (m : BitVec 3) (r : Bool) : Statement (.vfadd d a b m r) := by
  intro lb _ hw hl
  refine ok_of_raw (k := 2) (w := wordV 0x20 d a b m r 0) rfl rfl ?_ hw hl
  rw [rawSlot_2]
  unfold raw2
  rw [wordV_op]
  show some (readV _ _) = _
  rw [readV_wordV]

theorem vfsub (d : BitVec 6) (a : BitVec 6) (b : BitVec 6) (m : BitVec 3) (r : Bool) : Statement (.vfsub d a b m r) := by
  intro lb _ hw hl
  refine ok_of_raw (k := 2) (w := wordV 0x21 d a b m r 0) rfl rfl ?_ hw hl
  rw [rawSlot_2]
  unfold raw2
  rw [wordV_op]
  show some (readV _ _) = _
  rw [readV_wordV]

theorem vfmul (d : BitVec 6) (a : BitVec 6) (b : BitVec 6) (m : BitVec 3) (r : Bool) : Statement (.vfmul d a b m r) := by
  intro lb _ hw hl
  refine ok_of_raw (k := 2) (w := wordV 0x22 d a b m r 0) rfl rfl ?_ hw hl
  rw [rawSlot_2]
  unfold raw2
  rw [wordV_op]
  show some (readV _ _) = _
  rw [readV_wordV]

theorem vfma (d : BitVec 6) (a : BitVec 6) (b : BitVec 6) (m : BitVec 3) (r : Bool) (s : BitVec 3) : Statement (.vfma d a b m r s) := by
  intro lb _ hw hl
  refine ok_of_raw (k := 2) (w := wordV 0x23 d a b m r s) rfl rfl ?_ hw hl
  rw [rawSlot_2]
  unfold raw2
  rw [wordV_op]
  show some (readV _ _) = _
  rw [readV_wordV]

theorem vfmin (d : BitVec 6) (a : BitVec 6) (b : BitVec 6) (m : BitVec 3) (r : Bool) : Statement (.vfmin d a b m r) := by
  intro lb _ hw hl
  refine ok_of_raw (k := 2) (w := wordV 0x24 d a b m r 0) rfl rfl ?_ hw hl
  rw [rawSlot_2]
  unfold raw2
  rw [wordV_op]
  show some (readV _ _) = _
  rw [readV_wordV]

theorem vfmax (d : BitVec 6) (a : BitVec 6) (b : BitVec 6) (m : BitVec 3) (r : Bool) : Statement (.vfmax d a b m r) := by
  intro lb _ hw hl
  refine ok_of_raw (k := 2) (w := wordV 0x25 d a b m r 0) rfl rfl ?_ hw hl
  rw [rawSlot_2]
  unfold raw2
  rw [wordV_op]
  show some (readV _ _) = _
  rw [readV_wordV]

theorem vfdiv (d : BitVec 6) (a : BitVec 6) (b : BitVec 6) (m : BitVec 3) (r : Bool) : Statement (.vfdiv d a b m r) := by
  intro lb _ hw hl
  refine ok_of_raw (k := 2) (w := wordV 0x26 d a b m r 0) rfl rfl ?_ hw hl
  rw [rawSlot_2]
  unfold raw2
  rw [wordV_op]
  show some (readV _ _) = _
  rw [readV_wordV]

theorem vfsqrt (d : BitVec 6) (a : BitVec 6) (m : BitVec 3) (r : Bool) : Statement (.vfsqrt d a m r) := by
  intro lb _ hw hl
  refine ok_of_raw (k := 2) (w := wordV 0x27 d a 0 m r 0) rfl rfl ?_ hw hl
  rw [rawSlot_2]
  unfold raw2
  rw [wordV_op]
  show some (readV _ _) = _
  rw [readV_wordV]

theorem vfrsqrt (d : BitVec 6) (a : BitVec 6) (m : BitVec 3) (r : Bool) : Statement (.vfrsqrt d a m r) := by
  intro lb _ hw hl
  refine ok_of_raw (k := 2) (w := wordV 0x28 d a 0 m r 0) rfl rfl ?_ hw hl
  rw [rawSlot_2]
  unfold raw2
  rw [wordV_op]
  show some (readV _ _) = _
  rw [readV_wordV]

theorem vfexp2 (d : BitVec 6) (a : BitVec 6) (m : BitVec 3) (r : Bool) : Statement (.vfexp2 d a m r) := by
  intro lb _ hw hl
  refine ok_of_raw (k := 2) (w := wordV 0x29 d a 0 m r 0) rfl rfl ?_ hw hl
  rw [rawSlot_2]
  unfold raw2
  rw [wordV_op]
  show some (readV _ _) = _
  rw [readV_wordV]

theorem vflog2 (d : BitVec 6) (a : BitVec 6) (m : BitVec 3) (r : Bool) : Statement (.vflog2 d a m r) := by
  intro lb _ hw hl
  refine ok_of_raw (k := 2) (w := wordV 0x2A d a 0 m r 0) rfl rfl ?_ hw hl
  rw [rawSlot_2]
  unfold raw2
  rw [wordV_op]
  show some (readV _ _) = _
  rw [readV_wordV]

theorem vcmp (d : BitVec 3) (a : BitVec 6) (b : BitVec 6) (m : BitVec 3) (r : Bool) (c : BitVec 3) : Statement (.vcmp d a b m r c) := by
  intro lb _ hw hl
  refine ok_of_raw (k := 2) (w := wordV 0x30 (d.setWidth 6) a b m r c) rfl rfl ?_ hw hl
  rw [rawSlot_2]
  unfold raw2
  rw [wordV_op]
  show some (readV _ _) = _
  rw [readV_wordV, trunc (by decide)]

theorem vfcmp (d : BitVec 3) (a : BitVec 6) (b : BitVec 6) (m : BitVec 3) (r : Bool) (c : BitVec 3) : Statement (.vfcmp d a b m r c) := by
  intro lb _ hw hl
  refine ok_of_raw (k := 2) (w := wordV 0x31 (d.setWidth 6) a b m r c) rfl rfl ?_ hw hl
  rw [rawSlot_2]
  unfold raw2
  rw [wordV_op]
  show some (readV _ _) = _
  rw [readV_wordV, trunc (by decide)]

theorem vsel (d : BitVec 6) (a : BitVec 6) (b : BitVec 6) (m : BitVec 3) (r : Bool) : Statement (.vsel d a b m r) := by
  intro lb _ hw hl
  refine ok_of_raw (k := 2) (w := wordV 0x32 d a b m r 0) rfl rfl ?_ hw hl
  rw [rawSlot_2]
  unfold raw2
  rw [wordV_op]
  show some (readV _ _) = _
  rw [readV_wordV]

theorem mlog (d : BitVec 3) (a : BitVec 3) (b : BitVec 3) (t : BitVec 4) : Statement (.mlog d a b t) := by
  intro lb _ hw hl
  refine ok_of_raw (k := 2) (w := wordV 0x33 (d.setWidth 6) (a.setWidth 6) (b.setWidth 6) 0 (t.getLsbD 3) (t.setWidth 3)) rfl rfl ?_ hw hl
  rw [rawSlot_2]
  unfold raw2
  rw [wordV_op]
  show some (readV _ _) = _
  rw [readV_wordV, trunc (by decide), trunc (by decide), trunc (by decide), table4]

theorem mpopc (d : BitVec 6) (a : BitVec 3) (m : BitVec 3) : Statement (.mpopc d a m) := by
  intro lb _ hw hl
  refine ok_of_raw (k := 2) (w := wordV 0x34 d (a.setWidth 6) 0 m false 0) rfl rfl ?_ hw hl
  rw [rawSlot_2]
  unfold raw2
  rw [wordV_op]
  show some (readV _ _) = _
  rw [readV_wordV, trunc (by decide)]

theorem vuni (p : BitVec 3) (a : BitVec 6) (m : BitVec 3) (r : Bool) : Statement (.vuni p a m r) := by
  intro lb _ hw hl
  refine ok_of_raw (k := 2) (w := wordV 0x35 (p.setWidth 6) a 0 m r 0) rfl rfl ?_ hw hl
  rw [rawSlot_2]
  unfold raw2
  rw [wordV_op]
  show some (readV _ _) = _
  rw [readV_wordV]
  show some (Instr.vuni _ _ _ _) = _
  rw [trunc (by decide)]

theorem vuniM (p : BitVec 3) (a : BitVec 3) (m : BitVec 3) : Statement (.vuniM p a m) := by
  intro lb _ hw hl
  refine ok_of_raw (k := 2) (w := wordV 0x35 (p.setWidth 6) (a.setWidth 6) 0 m false 1) rfl rfl ?_ hw hl
  rw [rawSlot_2]
  unfold raw2
  rw [wordV_op]
  show some (readV _ _) = _
  rw [readV_wordV]
  show some (Instr.vuniM _ _ _) = _
  rw [trunc (by decide), trunc (by decide)]

theorem vcvt (d : BitVec 6) (a : BitVec 6) (src : BitVec 3) (dst : BitVec 3) (m : BitVec 3) (r : Bool) (c : BitVec 3) : Statement (.vcvt d a src dst m r c) := by
  intro lb _ hw hl
  refine ok_of_raw (k := 2) (w := wordV 0x38 d a (src ++ dst) m r c) rfl rfl ?_ hw hl
  rw [rawSlot_2]
  unfold raw2
  rw [wordV_op]
  show some (readV _ _) = _
  rw [readV_wordV, cat_hi, cat_lo]

theorem vmxq (d : BitVec 6) (a : BitVec 6) (u : Bool) (o : BitVec 3) (r : Bool) (f : BitVec 2) : Statement (.vmxq d a u o r f) := by
  intro lb _ hw hl
  refine ok_of_raw (k := 2) (w := wordV 0x39 d a ((BitVec.ofBool u ++ o).setWidth 6) 0 r (f.setWidth 3)) rfl rfl ?_ hw hl
  rw [rawSlot_2]
  unfold raw2
  rw [wordV_op]
  show some (readV _ _) = _
  rw [readV_wordV, flag_hi, flag_lo, trunc (by decide)]

theorem vmxd (d : BitVec 6) (a : BitVec 6) (m : BitVec 3) (r : Bool) (f : BitVec 2) : Statement (.vmxd d a m r f) := by
  intro lb _ hw hl
  refine ok_of_raw (k := 2) (w := wordV 0x3A d a 0 m r (f.setWidth 3)) rfl rfl ?_ hw hl
  rw [rawSlot_2]
  unfold raw2
  rw [wordV_op]
  show some (readV _ _) = _
  rw [readV_wordV, trunc (by decide)]

theorem vpack (d : BitVec 6) (a : BitVec 6) (p : BitVec 3) (m : BitVec 3) (r : Bool) (b : BitVec 3) : Statement (.vpack d a p m r b) := by
  intro lb _ hw hl
  refine ok_of_raw (k := 2) (w := wordV 0x3B d a (p.setWidth 6) m r b) rfl rfl ?_ hw hl
  rw [rawSlot_2]
  unfold raw2
  rw [wordV_op]
  show some (readV _ _) = _
  rw [readV_wordV, trunc (by decide)]

theorem vunpack (d : BitVec 6) (a : BitVec 6) (sx : Bool) (p : BitVec 3) (m : BitVec 3) (r : Bool) (b : BitVec 3) : Statement (.vunpack d a sx p m r b) := by
  intro lb _ hw hl
  refine ok_of_raw (k := 2) (w := wordV 0x3C d a ((BitVec.ofBool sx ++ p).setWidth 6) m r b) rfl rfl ?_ hw hl
  rw [rawSlot_2]
  unfold raw2
  rw [wordV_op]
  show some (readV _ _) = _
  rw [readV_wordV, flag_hi, flag_lo]

theorem vred (d : BitVec 6) (a : BitVec 6) (m : BitVec 3) (r : Bool) (o : BitVec 3) : Statement (.vred d a m r o) := by
  intro lb _ hw hl
  refine ok_of_raw (k := 2) (w := wordV 0x40 d a 0 m r o) rfl rfl ?_ hw hl
  rw [rawSlot_2]
  unfold raw2
  rw [wordV_op]
  show some (readV _ _) = _
  rw [readV_wordV]

theorem vfred (d : BitVec 6) (a : BitVec 6) (m : BitVec 3) (r : Bool) (o : BitVec 3) : Statement (.vfred d a m r o) := by
  intro lb _ hw hl
  refine ok_of_raw (k := 2) (w := wordV 0x41 d a 0 m r o) rfl rfl ?_ hw hl
  rw [rawSlot_2]
  unfold raw2
  rw [wordV_op]
  show some (readV _ _) = _
  rw [readV_wordV]

theorem vperm (d : BitVec 6) (a : BitVec 6) (b : BitVec 6) (m : BitVec 3) (r : Bool) : Statement (.vperm d a b m r) := by
  intro lb _ hw hl
  refine ok_of_raw (k := 2) (w := wordV 0x42 d a b m r 0) rfl rfl ?_ hw hl
  rw [rawSlot_2]
  unfold raw2
  rw [wordV_op]
  show some (readV _ _) = _
  rw [readV_wordV]

theorem vrot (d : BitVec 6) (a : BitVec 6) (b : BitVec 6) (m : BitVec 3) (r : Bool) (s : BitVec 3) : Statement (.vrot d a b m r s) := by
  intro lb _ hw hl
  refine ok_of_raw (k := 2) (w := wordV 0x43 d a b m r s) rfl rfl ?_ hw hl
  rw [rawSlot_2]
  unfold raw2
  rw [wordV_op]
  show some (readV _ _) = _
  rw [readV_wordV]

theorem vbcast (d : BitVec 6) (a : BitVec 6) (b : BitVec 6) (m : BitVec 3) (r : Bool) (s : BitVec 3) : Statement (.vbcast d a b m r s) := by
  intro lb _ hw hl
  refine ok_of_raw (k := 2) (w := wordV 0x44 d a b m r s) rfl rfl ?_ hw hl
  rw [rawSlot_2]
  unfold raw2
  rw [wordV_op]
  show some (readV _ _) = _
  rw [readV_wordV]

theorem vsigf (d : BitVec 6) (a : BitVec 6) (m : BitVec 3) (r : Bool) : Statement (.vsigf d a m r) := by
  intro lb _ hw hl
  refine ok_of_raw (k := 2) (w := wordV 0x48 d a 0 m r 0) rfl rfl ?_ hw hl
  rw [rawSlot_2]
  unfold raw2
  rw [wordV_op]
  show some (readV _ _) = _
  rw [readV_wordV]

theorem vsigr (d : BitVec 6) (a : BitVec 6) (m : BitVec 3) (r : Bool) : Statement (.vsigr d a m r) := by
  intro lb _ hw hl
  refine ok_of_raw (k := 2) (w := wordV 0x49 d a 0 m r 0) rfl rfl ?_ hw hl
  rw [rawSlot_2]
  unfold raw2
  rw [wordV_op]
  show some (readV _ _) = _
  rw [readV_wordV]

theorem vnfs (a : BitVec 6) (m : BitVec 3) (r : Bool) (s : BitVec 3) : Statement (.vnfs a m r s) := by
  intro lb _ hw hl
  refine ok_of_raw (k := 2) (w := wordV 0x4A 0 a 0 m r s) rfl rfl ?_ hw hl
  rw [rawSlot_2]
  unfold raw2
  rw [wordV_op]
  show some (readV _ _) = _
  rw [readV_wordV]
  have h : (s == 4) = false := by
    have : s.toNat ≤ 2 := by simpa [Instr.wf] using hw
    simp; rintro rfl; simp at this
  rw [h]
  rfl

theorem vnfsClr : Statement (.vnfsClr) := by
  intro lb _ hw hl
  refine ok_of_raw (k := 2) (w := wordV 0x4A 0 0 0 0 false 4) rfl rfl ?_ hw hl
  rw [rawSlot_2]
  unfold raw2
  rw [wordV_op]
  show some (readV _ _) = _
  rw [readV_wordV]
  rfl

theorem vseed (a : BitVec 6) (r : Bool) (s : BitVec 3) : Statement (.vseed a r s) := by
  intro lb _ hw hl
  refine ok_of_raw (k := 2) (w := wordV 0x4B 0 a 0 0 r s) rfl rfl ?_ hw hl
  rw [rawSlot_2]
  unfold raw2
  rw [wordV_op]
  show some (readV _ _) = _
  rw [readV_wordV]

theorem v2s (d : BitVec 5) (a : BitVec 6) (l : BitVec 6) (r : Bool) (s : BitVec 3) : Statement (.v2s d a l r s) := by
  intro lb _ hw hl
  refine ok_of_raw (k := 2) (w := wordV 0x4C (d.setWidth 6) a l 0 r s) rfl rfl ?_ hw hl
  rw [rawSlot_2]
  unfold raw2
  rw [wordV_op]
  show some (readV _ _) = _
  rw [readV_wordV, trunc (by decide)]

theorem vli (d : BitVec 6) (i : Imm 12) (m : BitVec 3) (s : BitVec 3) : Statement (.vli d i m s) := by
  intro lb _ hw hl
  refine ok_of_raw (k := 2) (w := wordVX 0x4D d i.low m s) rfl rfl ?_ hw hl
  rw [rawSlot_2]
  unfold raw2
  rw [wordVX_op]
  show some (readVX _ _) = _
  rw [readVX_wordVX, read_low hl]

theorem nopS3 : Statement (.nopS3) := by
  intro lb _ hw hl
  exact ok_of_raw rfl rfl rfl hw hl

theorem tset (g : BitVec 4) (d : BitVec 4) (a : BitVec 4) (i : BitVec 6) (f : BitVec 2) : Statement (.tset g d a i f) := by
  intro lb _ hw hl
  refine ok_of_raw (k := 3) (w := wordT 0x01 d a 0 i g (f.setWidth 4)) rfl rfl ?_ hw hl
  rw [rawSlot_3]
  unfold raw3
  rw [wordT_op]
  show some (readT _ _) = _
  rw [readT_wordT, trunc (by decide)]

theorem t2s (g : BitVec 4) (a : BitVec 4) (s : BitVec 5) (h : Bool) : Statement (.t2s g a s h) := by
  intro lb _ hw hl
  refine ok_of_raw (k := 3) (w := wordT 0x02 0 a 0 (s ++ BitVec.ofBool h) g 0) rfl rfl ?_ hw hl
  rw [rawSlot_3]
  unfold raw3
  rw [wordT_op]
  show some (readT _ _) = _
  rw [readT_wordT, cat5_hi, cat5_lo]

theorem k2s (g : BitVec 4) (k : BitVec 3) (s : BitVec 5) (h : Bool) : Statement (.k2s g k s h) := by
  intro lb _ hw hl
  refine ok_of_raw (k := 3) (w := wordT 0x03 0 0 (k.setWidth 4) (s ++ BitVec.ofBool h) g 0) rfl rfl ?_ hw hl
  rw [rawSlot_3]
  unfold raw3
  rw [wordT_op]
  show some (readT _ _) = _
  rw [readT_wordT, trunc (by decide), cat5_hi, cat5_lo]

theorem tzero (g : BitVec 4) (d : BitVec 4) : Statement (.tzero g d) := by
  intro lb _ hw hl
  refine ok_of_raw (k := 3) (w := wordT 0x04 d 0 0 0 g 0) rfl rfl ?_ hw hl
  rw [rawSlot_3]
  unfold raw3
  rw [wordT_op]
  show some (readT _ _) = _
  rw [readT_wordT]

theorem tcvt (g : BitVec 4) (d : BitVec 4) (a : BitVec 4) (f : BitVec 3) : Statement (.tcvt g d a f) := by
  intro lb _ hw hl
  refine ok_of_raw (k := 3) (w := wordT 0x05 d a 0 0 g (f.setWidth 4)) rfl rfl ?_ hw hl
  rw [rawSlot_3]
  unfold raw3
  rw [wordT_op]
  show some (readT _ _) = _
  rw [readT_wordT, trunc (by decide)]

theorem tcheck (g : BitVec 4) (d : BitVec 4) : Statement (.tcheck g d) := by
  intro lb _ hw hl
  refine ok_of_raw (k := 3) (w := wordT 0x06 d 0 0 0 g 0) rfl rfl ?_ hw hl
  rw [rawSlot_3]
  unfold raw3
  rw [wordT_op]
  show some (readT _ _) = _
  rw [readT_wordT]

theorem tadd (g : BitVec 4) (d : BitVec 4) (a : BitVec 4) : Statement (.tadd g d a) := by
  intro lb _ hw hl
  refine ok_of_raw (k := 3) (w := wordT 0x07 d a 0 0 g 0) rfl rfl ?_ hw hl
  rw [rawSlot_3]
  unfold raw3
  rw [wordT_op]
  show some (readT _ _) = _
  rw [readT_wordT]

theorem mstep (g : BitVec 4) (d : BitVec 4) (a : BitVec 4) (b : BitVec 4) (i : WIndex) : Statement (.mstep g d a b i) := by
  intro lb _ hw hl
  refine ok_of_raw (k := 3) (w := wordT 0x08 d a b (i.setWidth 6) g 0) rfl rfl ?_ hw hl
  rw [rawSlot_3]
  unfold raw3
  rw [wordT_op]
  show some (readT _ _) = _
  rw [readT_wordT, index_low hl]

theorem mstepRev (g : BitVec 4) (d : BitVec 4) (a : BitVec 4) (b : BitVec 4) (i : WIndex) : Statement (.mstepRev g d a b i) := by
  intro lb _ hw hl
  refine ok_of_raw (k := 3) (w := wordT 0x09 d a b (i.setWidth 6) g 0) rfl rfl ?_ hw hl
  rw [rawSlot_3]
  unfold raw3
  rw [wordT_op]
  show some (readT _ _) = _
  rw [readT_wordT, index_low hl]

theorem bseal (g : BitVec 4) (i : WIndex) (v : BitVec 2) : Statement (.bseal g i v) := by
  intro lb _ hw hl
  refine ok_of_raw (k := 3) (w := wordT 0x0A 0 0 0 (i.setWidth 6) g (v.setWidth 4)) rfl rfl ?_ hw hl
  rw [rawSlot_3]
  unfold raw3
  rw [wordT_op]
  show some (readT _ _) = _
  rw [readT_wordT, trunc (by decide), bseal_index hw hl]

theorem sstep (g : BitVec 4) (d : BitVec 4) (a : BitVec 4) (k : BitVec 3) (i : BitVec 6) : Statement (.sstep g d a k i) := by
  intro lb _ hw hl
  refine ok_of_raw (k := 3) (w := wordT 0x10 d a (k.setWidth 4) i g 0) rfl rfl ?_ hw hl
  rw [rawSlot_3]
  unfold raw3
  rw [wordT_op]
  show some (readT _ _) = _
  rw [readT_wordT, trunc (by decide)]

theorem sdstep (g : BitVec 4) (d : BitVec 4) (a : BitVec 4) (k : BitVec 3) (i : BitVec 6) : Statement (.sdstep g d a k i) := by
  intro lb _ hw hl
  refine ok_of_raw (k := 3) (w := wordT 0x11 d a (k.setWidth 4) i g 0) rfl rfl ?_ hw hl
  rw [rawSlot_3]
  unfold raw3
  rw [wordT_op]
  show some (readT _ _) = _
  rw [readT_wordT, trunc (by decide)]

theorem sgrad (g : BitVec 4) (a : BitVec 4) (k : BitVec 3) (i : BitVec 6) : Statement (.sgrad g a k i) := by
  intro lb _ hw hl
  refine ok_of_raw (k := 3) (w := wordT 0x12 0 a (k.setWidth 4) i g 0) rfl rfl ?_ hw hl
  rw [rawSlot_3]
  unfold raw3
  rw [wordT_op]
  show some (readT _ _) = _
  rw [readT_wordT, trunc (by decide)]

theorem sgzero (g : BitVec 4) (i : BitVec 6) : Statement (.sgzero g i) := by
  intro lb _ hw hl
  refine ok_of_raw (k := 3) (w := wordT 0x13 0 0 0 i g 0) rfl rfl ?_ hw hl
  rw [rawSlot_3]
  unfold raw3
  rw [wordT_op]
  show some (readT _ _) = _
  rw [readT_wordT]

theorem srefine (g : BitVec 4) (k : BitVec 3) (i : BitVec 6) : Statement (.srefine g k i) := by
  intro lb _ hw hl
  refine ok_of_raw (k := 3) (w := wordT 0x14 0 0 (k.setWidth 4) i g 0) rfl rfl ?_ hw hl
  rw [rawSlot_3]
  unfold raw3
  rw [wordT_op]
  show some (readT _ _) = _
  rw [readT_wordT, trunc (by decide)]

theorem sflags (g : BitVec 4) (d : BitVec 4) (k : BitVec 3) (f : BitVec 2) : Statement (.sflags g d k f) := by
  intro lb _ hw hl
  refine ok_of_raw (k := 3) (w := wordT 0x15 d 0 (k.setWidth 4) 0 g (f.setWidth 4)) rfl rfl ?_ hw hl
  rw [rawSlot_3]
  unfold raw3
  rw [wordT_op]
  show some (readT _ _) = _
  rw [readT_wordT, trunc (by decide), trunc (by decide)]

theorem pauseEnd (c : Nat) (x : Bool) : Statement (.pauseEnd c x) := by
  intro lb h
  exact absurd h (by simp [Instr.slotNo])

theorem resultLand (c : Nat) (x : Bool) (l : Landing) : Statement (.resultLand c x l) := by
  intro lb h
  exact absurd h (by simp [Instr.slotNo])

theorem doneRetire (c : Nat) (x : Bool) : Statement (.doneRetire c x) := by
  intro lb h
  exact absurd h (by simp [Instr.slotNo])

theorem strandSuspension (c : Nat) (x : Bool) : Statement (.strandSuspension c x) := by
  intro lb h
  exact absurd h (by simp [Instr.slotNo])

theorem strandResume (c : Nat) (x : Bool) : Statement (.strandResume c x) := by
  intro lb h
  exact absurd h (by simp [Instr.slotNo])

theorem loadValueReturn (c : Nat) (id : Nat) : Statement (.loadValueReturn c id) := by
  intro lb h
  exact absurd h (by simp [Instr.slotNo])

theorem storeReachHome (d : Nat) (id : Nat) : Statement (.storeReachHome d id) := by
  intro lb h
  exact absurd h (by simp [Instr.slotNo])

theorem atomicAtHome (c : Nat) (id : Nat) : Statement (.atomicAtHome c id) := by
  intro lb h
  exact absurd h (by simp [Instr.slotNo])

theorem pageWalk (c : Nat) (id : Nat) : Statement (.pageWalk c id) := by
  intro lb h
  exact absurd h (by simp [Instr.slotNo])

theorem retryRingAdmit (d : Nat) : Statement (.retryRingAdmit d) := by
  intro lb h
  exact absurd h (by simp [Instr.slotNo])

theorem retryMirrorPublish (d : Nat) : Statement (.retryMirrorPublish d) := by
  intro lb h
  exact absurd h (by simp [Instr.slotNo])

theorem hostRport (d : Nat) : Statement (.hostRport d) := by
  intro lb h
  exact absurd h (by simp [Instr.slotNo])

theorem hostRack (d : Nat) : Statement (.hostRack d) := by
  intro lb h
  exact absurd h (by simp [Instr.slotNo])

theorem tlbinvAll : Statement (.tlbinvAll) := by
  intro lb h
  exact absurd h (by simp [Instr.slotNo])

theorem tlbinvPage64k (va : BitVec 32) : Statement (.tlbinvPage64k va) := by
  intro lb h
  exact absurd h (by simp [Instr.slotNo])

theorem tlbinvPage32m (va : BitVec 32) : Statement (.tlbinvPage32m va) := by
  intro lb h
  exact absurd h (by simp [Instr.slotNo])

theorem tlbinvComplete : Statement (.tlbinvComplete) := by
  intro lb h
  exact absurd h (by simp [Instr.slotNo])

theorem engineCompletion (d : Nat) (id : Nat) : Statement (.engineCompletion d id) := by
  intro lb h
  exact absurd h (by simp [Instr.slotNo])

theorem engineFault (d : Nat) (id : Nat) (fw : Word) : Statement (.engineFault d id fw) := by
  intro lb h
  exact absurd h (by simp [Instr.slotNo])

theorem collInstanceMeet (tag : BitVec 32) (k : Nat) : Statement (.collInstanceMeet tag k) := by
  intro lb h
  exact absurd h (by simp [Instr.slotNo])

theorem xposeWriteback (c : Nat) : Statement (.xposeWriteback c) := by
  intro lb h
  exact absurd h (by simp [Instr.slotNo])

theorem arrayStepStart (c : Nat) : Statement (.arrayStepStart c) := by
  intro lb h
  exact absurd h (by simp [Instr.slotNo])

theorem arrayResultLand (c : Nat) : Statement (.arrayResultLand c) := by
  intro lb h
  exact absurd h (by simp [Instr.slotNo])

theorem tileOpComplete (c : Nat) : Statement (.tileOpComplete c) := by
  intro lb h
  exact absurd h (by simp [Instr.slotNo])

theorem pipelineError (c : Nat) (x : Bool) (unit : BitVec 3) : Statement (.pipelineError c x unit) := by
  intro lb h
  exact absurd h (by simp [Instr.slotNo])

theorem dupVote (inst : Nat) : Statement (.dupVote inst) := by
  intro lb h
  exact absurd h (by simp [Instr.slotNo])

theorem containmentRelease (run : Nat) : Statement (.containmentRelease run) := by
  intro lb h
  exact absurd h (by simp [Instr.slotNo])

theorem containmentLineFreed (d : Nat) : Statement (.containmentLineFreed d) := by
  intro lb h
  exact absurd h (by simp [Instr.slotNo])

theorem topologyChange (cl : List Nat) (score : Nat) : Statement (.topologyChange cl score) := by
  intro lb h
  exact absurd h (by simp [Instr.slotNo])

theorem launchWord : Statement (.launchWord) := by
  intro lb h
  exact absurd h (by simp [Instr.slotNo])

theorem predecessorDecrement (cid : BitVec 32) (sender : BitVec 32) (src : Nat) : Statement (.predecessorDecrement cid sender src) := by
  intro lb h
  exact absurd h (by simp [Instr.slotNo])

theorem nodeReadiness (rec : Nat) : Statement (.nodeReadiness rec) := by
  intro lb h
  exact absurd h (by simp [Instr.slotNo])

theorem copyNodeInstance (rec : Nat) (i : Nat) : Statement (.copyNodeInstance rec i) := by
  intro lb h
  exact absurd h (by simp [Instr.slotNo])

theorem nodeCompletion (rec : Nat) : Statement (.nodeCompletion rec) := by
  intro lb h
  exact absurd h (by simp [Instr.slotNo])

theorem agePeriodTick (d : Nat) : Statement (.agePeriodTick d) := by
  intro lb h
  exact absurd h (by simp [Instr.slotNo])

theorem gangDispatch (d : Nat) : Statement (.gangDispatch d) := by
  intro lb h
  exact absurd h (by simp [Instr.slotNo])

theorem gangStart (d : Nat) (c0 : Nat) : Statement (.gangStart d c0) := by
  intro lb h
  exact absurd h (by simp [Instr.slotNo])

theorem yieldDeadlineExpiry (c : Nat) (x : Bool) : Statement (.yieldDeadlineExpiry c x) := by
  intro lb h
  exact absurd h (by simp [Instr.slotNo])

theorem hostApertureReadTimeout (c : Nat) (e : AperEnd) : Statement (.hostApertureReadTimeout c e) := by
  intro lb h
  exact absurd h (by simp [Instr.slotNo])

theorem replayTimeout (l : Nat) : Statement (.replayTimeout l) := by
  intro lb h
  exact absurd h (by simp [Instr.slotNo])

theorem linkTrainingComplete (l : Nat) : Statement (.linkTrainingComplete l) := by
  intro lb h
  exact absurd h (by simp [Instr.slotNo])

theorem clkpatUpdate (d : Nat) : Statement (.clkpatUpdate d) := by
  intro lb h
  exact absurd h (by simp [Instr.slotNo])

theorem energyRefill : Statement (.energyRefill) := by
  intro lb h
  exact absurd h (by simp [Instr.slotNo])

theorem stepDrainDone (c : Nat) : Statement (.stepDrainDone c) := by
  intro lb h
  exact absurd h (by simp [Instr.slotNo])

theorem rrmirrorWrite (d : Nat) (v : Word) : Statement (.rrmirrorWrite d v) := by
  intro lb h
  exact absurd h (by simp [Instr.slotNo])

theorem rrkillWrite (d : Nat) (w : Word) : Statement (.rrkillWrite d w) := by
  intro lb h
  exact absurd h (by simp [Instr.slotNo])

theorem uncorrectableError (d : Nat) (u : BitVec 8) (p : ErrKind) (synd : BitVec 16) (addr : Word) : Statement (.uncorrectableError d u p synd addr) := by
  intro lb h
  exact absurd h (by simp [Instr.slotNo])

theorem correctableError (d : Nat) (u : BitVec 8) (p : ErrKind) (synd : BitVec 16) (addr : Word) : Statement (.correctableError d u p synd addr) := by
  intro lb h
  exact absurd h (by simp [Instr.slotNo])

theorem ebstatClear (d : Nat) (c : Nat) (u : BitVec 8) : Statement (.ebstatClear d c u) := by
  intro lb h
  exact absurd h (by simp [Instr.slotNo])

theorem patrolScrub (stack : Nat) (line : Nat) (bad : Option (BitVec 16)) : Statement (.patrolScrub stack line bad) := by
  intro lb h
  exact absurd h (by simp [Instr.slotNo])

theorem sramScrub (d : Nat) (u : BitVec 8) (p : ErrKind) (e : ScrubRead) : Statement (.sramScrub d u p e) := by
  intro lb h
  exact absurd h (by simp [Instr.slotNo])

theorem errinjWrite (c : Nat) (v : Word) : Statement (.errinjWrite c v) := by
  intro lb h
  exact absurd h (by simp [Instr.slotNo])

theorem lqdoorWrite (v : Word) : Statement (.lqdoorWrite v) := by
  intro lb h
  exact absurd h (by simp [Instr.slotNo])

theorem hostBar2Read (off : Nat) (n : Nat) : Statement (.hostBar2Read off n) := by
  intro lb h
  exact absurd h (by simp [Instr.slotNo])

theorem hostBar2Write (off : Nat) (data : List Byte) : Statement (.hostBar2Write off data) := by
  intro lb h
  exact absurd h (by simp [Instr.slotNo])

theorem evlostRead : Statement (.evlostRead) := by
  intro lb h
  exact absurd h (by simp [Instr.slotNo])

theorem yewidxWrite (d : Nat) (v : Word) : Statement (.yewidxWrite d v) := by
  intro lb h
  exact absurd h (by simp [Instr.slotNo])

theorem flitTransmit (l : Nat) (ty : BitVec 4) (stream : BitVec 20) (payload : List Byte) : Statement (.flitTransmit l ty stream payload) := by
  intro lb h
  exact absurd h (by simp [Instr.slotNo])

theorem flitReceive (l : Nat) (body : List Byte) (crc : BitVec 32) : Statement (.flitReceive l body crc) := by
  intro lb h
  exact absurd h (by simp [Instr.slotNo])

theorem laneFailure (l : Nat) (e : LaneSign) : Statement (.laneFailure l e) := by
  intro lb h
  exact absurd h (by simp [Instr.slotNo])

theorem lctlRetrain (l : Nat) (locked : BitVec 16) : Statement (.lctlRetrain l locked) := by
  intro lb h
  exact absurd h (by simp [Instr.slotNo])

theorem lcntRead (l : Nat) : Statement (.lcntRead l) := by
  intro lb h
  exact absurd h (by simp [Instr.slotNo])

theorem feccntRead (l : Nat) : Statement (.feccntRead l) := by
  intro lb h
  exact absurd h (by simp [Instr.slotNo])

theorem inboundWrite (l : Nat) (w : InWrite) (data : List Byte) : Statement (.inboundWrite l w data) := by
  intro lb h
  exact absurd h (by simp [Instr.slotNo])

theorem pstepWrite (lvl : BitVec 4) : Statement (.pstepWrite lvl) := by
  intro lb h
  exact absurd h (by simp [Instr.slotNo])

theorem powerEstimate (w : Watts) (draws : List (Nat × Nat)) : Statement (.powerEstimate w draws) := by
  intro lb h
  exact absurd h (by simp [Instr.slotNo])

theorem regulatorPhaseLoss (d : Nat) (phases : BitVec 8) (limit : BitVec 16) (draw : Nat) : Statement (.regulatorPhaseLoss d phases limit draw) := by
  intro lb h
  exact absurd h (by simp [Instr.slotNo])

theorem energyReadLow (d : Nat) : Statement (.energyReadLow d) := by
  intro lb h
  exact absurd h (by simp [Instr.slotNo])

theorem powerFail : Statement (.powerFail) := by
  intro lb h
  exact absurd h (by simp [Instr.slotNo])

theorem moduleReset : Statement (.moduleReset) := by
  intro lb h
  exact absurd h (by simp [Instr.slotNo])

theorem imageCheck (code : BitVec 8) (img : ConfigImage) : Statement (.imageCheck code img) := by
  intro lb h
  exact absurd h (by simp [Instr.slotNo])

theorem hbmTraining (trained : BitVec 32) (repaired : Bool) : Statement (.hbmTraining trained repaired) := by
  intro lb h
  exact absurd h (by simp [Instr.slotNo])

theorem selfTest (passed : BitVec 64) : Statement (.selfTest passed) := by
  intro lb h
  exact absurd h (by simp [Instr.slotNo])

theorem featAccept1Write (v : Word) : Statement (.featAccept1Write v) := by
  intro lb h
  exact absurd h (by simp [Instr.slotNo])

theorem dbgctlHalt (c : Nat) (v : Word) : Statement (.dbgctlHalt c v) := by
  intro lb h
  exact absurd h (by simp [Instr.slotNo])

theorem dbgctlStep (c : Nat) : Statement (.dbgctlStep c) := by
  intro lb h
  exact absurd h (by simp [Instr.slotNo])

theorem registerWrite (off : Nat) (w : RegWrite) : Statement (.registerWrite off w) := by
  intro lb h
  exact absurd h (by simp [Instr.slotNo])

theorem energyCount (d : Nat) (uj : Nat) : Statement (.energyCount d uj) := by
  intro lb h
  exact absurd h (by simp [Instr.slotNo])

theorem grantUpdate (c : Nat) (v : BitVec 32) : Statement (.grantUpdate c v) := by
  intro lb h
  exact absurd h (by simp [Instr.slotNo])

end Sys2Proof.Laws.SlotWord
end

