-- ==== Sys2Proof/Tests/Slice0.lean ====
section
/-!
SUPPORT. Tests. Ill-formed terms that well-formedness refuses; for every operation of spec/opcode_table.json a
word put together from the table's own fields, which decodes to it; small steps with results worked out by hand
from the rules named in their comments; and for each statement that has hypotheses, states and operands that meet
them.
-/
set_option Elab.async false

namespace Sys2Proof.Tests
open Sys2Proof.Machine

/-! ## Well-formedness: what each check refuses -/

theorem test_wf_slot0 : [
    Instr.loopI false 0 1, .loopR false 0 1, .loopSr false 0 1, .loopRot false 0 1 3, .loopRot false 1 1 0,
    .lstat ⟨0, false⟩ 1 3 true, .lset ⟨0, false⟩ 1 3 true, .setfmt 0x2833, .setfmt 0x0133, .setfmt 0x003C,
    .setfmt 0x00C3, .mfsr 1 0x007, .mtsr 1 0x014, .ecap 3].all (fun i => !i.wf) = true := by decide

theorem test_wf_slot1 : [
    Instr.ldacqW ⟨0, false⟩ 0 1 2 5 (.short 0), .ldacqD ⟨0, false⟩ 0 1 2 6 (.short 0),
    .strelW ⟨0, false⟩ 0 1 2 7 (.short 0), .strelD ⟨0, false⟩ 0 1 2 5 (.short 0), .amo ⟨0, false⟩ 0 1 2 9 false 0,
    .amo ⟨0, false⟩ 0 1 2 0 false 5, .cas ⟨0, false⟩ 0 1 2 false 0, .cas ⟨0, false⟩ 0 2 2 false 5,
    .afadd ⟨0, false⟩ 0 1 2 5, .fence 1 5, .fencesc 6, .rslot ⟨0, false⟩ 1 3 (.short 0), .xpose ⟨0, false⟩ 1 2 3 3,
    .tokst ⟨0, false⟩ 1 2 2].all (fun i => !i.wf) = true := by decide

theorem test_wf_engines : [
    Instr.copy ⟨0, false⟩ false false 0 1 0 false false 0 0, .copy ⟨0, false⟩ false false 0 0 1 false false 0 0,
    .copy ⟨0, false⟩ false false 0 7 1 false false 0 0, .copy ⟨0, false⟩ false false 1 1 1 false false 0 0,
    .copy ⟨0, false⟩ true false 5 1 1 false false 0 0, .copy ⟨0, false⟩ false false 0 1 1 false false 3 0,
    .copy ⟨0, false⟩ false false 0 1 1 false false 0 3, .copym ⟨0, false⟩ false false 0 1 1 false false 1,
    .coll ⟨0, false⟩ false false 0 1 1 0 0 1 0, .coll ⟨0, false⟩ false false 0 1 1 0 0 0 3,
    .rcopy ⟨0, false⟩ false false 0 1 1 false false 1, .rcopy ⟨0, false⟩ true false 3 1 1 false false 0].all
      (fun i => !i.wf) = true := by decide

theorem test_wf_slot2 : [
    Instr.vadd 1 2 3 0 false 3, .vsub 1 2 3 0 false 4, .vmul 1 2 3 0 false 5, .vmulhi 1 2 3 0 false 6,
    .vmin 1 2 3 0 false 7, .vmax 1 2 3 0 false 3, .vminn 1 2 3 0 false 3, .vmaxn 1 2 3 0 false 3,
    .vand 1 2 3 0 false 3, .vor 1 2 3 0 false 3, .vxor 1 2 3 0 false 3, .vshl 1 2 3 0 false 3,
    .vshr 1 2 3 0 false 3, .vsar 1 2 3 0 false 3, .vabs 1 2 0 false 3, .vfma 1 2 3 0 false 4,
    .vcvt 1 2 0 1 0 false 5, .vmxq 1 2 false 0 false 3, .vmxq 1 2 true 1 false 0, .vmxq 1 2 false 5 false 0,
    .vmxd 1 2 0 false 3, .vpack 1 2 2 0 false 0, .vpack 1 2 4 0 false 2, .vpack 1 2 0 0 false 4,
    .vunpack 1 2 true 4 0 false 1, .vfred 1 2 0 false 3, .vrot 1 2 3 0 false 2, .vbcast 1 2 3 0 false 2,
    .vnfs 1 0 false 3, .vseed 1 false 3, .v2s 1 2 3 false 2, .vli 1 (.short 0) 0 3].all
      (fun i => !i.wf) = true := by decide

theorem test_wf_slot3 : [
    Instr.tset 0 1 2 0 3, .tcvt 0 1 2 5, .tcvt 0 1 2 6, .bseal 0 0 3, .bseal 0 28 2, .sstep 0 1 2 0 28,
    .sdstep 0 1 15 0 0, .sdstep 0 1 2 0 28, .sgrad 0 15 0 0, .sgrad 0 2 0 7, .sgzero 0 7, .srefine 0 0 28].all
      (fun i => !i.wf) = true := by decide

theorem test_wf_events : [
    Instr.pauseEnd 768 false, .storeReachHome 64 0, .pipelineError 0 false 6, .topologyChange [192] 0,
    .correctableError 0 0 (.unit 12) 0 0, .patrolScrub 32 0 none, .gangStart 0 12, .lcntRead 16,
    .flitTransmit 0 1 0 (List.replicate 245 0), .laneFailure 0 (.lockLost 16), .feccntRead 16].all
      (fun i => !i.wf) = true := by decide +kernel

/-- A bundle of NOPs, and the checks of a bundle as a whole (R93 to R97, R101). -/
def nops : Bundle := ⟨0, none, false, .nopS0, .nopS1, .nopS2, .nopS3⟩

theorem test_wf_bundle : nops.wf = true ∧ [
    { nops with s0 := .nopS1 }, { nops with s0 := .loopI false 0 1 }, { nops with s0 := .li 1 (.long 0) },
    { nops with te := some 0, s0 := .addi 1 1 1 }, { nops with te := some 0, lendWord := true },
    { nops with lendWord := true, s0 := .addi 1 1 1 },
    { nops with lendWord := true, s0 := .li 1 (.long 0), s1 := .fencesc 0 },
    { nops with s0 := .s2a ⟨0, false⟩ 5 7, s1 := .aaddi ⟨0, false⟩ 5 5 (.short 1) },
    { nops with s0 := .addi 9 1 1, s2 := .v2s 9 1 0 false 0 },
    { nops with s0 := .mtsr 1 2, s2 := .vseed 1 false 1 }].all (fun b => !b.wf) = true := by decide

/-! ## A word for each operation, from the fields of its row in spec/opcode_table.json -/

/-- A word decodes to an operation, and is that operation's word. -/
def reads (k w : Nat) (i : Instr) : Bool := sameAnswer (decodeSlot k w none) (.ok i) && i.word == w

theorem test_slot0_words_0 : [
    (0x00000000, Instr.nopS0),
    (0x0012050F, Instr.br ⟨1, false⟩ (.short 1295)),
    (0x0020301E, Instr.bri ⟨7, true⟩ 12),
    (0x00390559, Instr.call ⟨4, true⟩ (.short 1369)),
    (0x0040341C, Instr.ret ⟨7, false⟩ 13),
    (0x0089C91F, Instr.loopI true 114 287),
    (0x00825EE0, Instr.loopR false 23 23),
    (0x0084DB20, Instr.loopSr false 54 25),
    (0x008F7307, Instr.loopRot true 92 24 7),
    (0x00900008, Instr.lexit ⟨2, false⟩ false),
    (0x00AA0049, Instr.lstat ⟨2, false⟩ 20 2 true),
    (0x00B05C44, Instr.lset ⟨1, false⟩ 23 2 false)].all (fun e => reads 0 e.1 e.2) = true := by decide +kernel

theorem test_slot0_words_1 : [
    (0x00C01875, Instr.setfmt 6261),
    (0x01000689, Instr.safept 1673),
    (0x011006AE, Instr.yield 1710),
    (0x01200000, Instr.done ⟨0, false⟩),
    (0x0138001A, Instr.barg ⟨6, true⟩ 16),
    (0x01403B1D, Instr.pause 14 797),
    (0x015DE404, Instr.waitev ⟨1, false⟩ 27 25),
    (0x01600367, Instr.trap 871),
    (0x0170001C, Instr.rft ⟨7, false⟩),
    (0x01848013, Instr.mfsr 9 19),
    (0x0190400A, Instr.mtsr 16 10),
    (0x01A30000, Instr.ecap 6)].all (fun e => reads 0 e.1 e.2) = true := by decide +kernel

theorem test_slot0_words_2 : [
    (0x020A636B, Instr.add ⟨2, true⟩ 20 24 27 true),
    (0x021BCF76, Instr.sub ⟨5, true⟩ 23 19 27 false),
    (0x022F08B3, Instr.mul ⟨4, true⟩ 30 2 5 true),
    (0x0234F99E, Instr.mulhi ⟨7, true⟩ 9 30 12),
    (0x0245BA06, Instr.mulhn ⟨1, true⟩ 11 14 16),
    (0x0258AE3C, Instr.and ⟨7, false⟩ 17 11 17),
    (0x026DBF84, Instr.or ⟨1, false⟩ 27 15 28),
    (0x027E688A, Instr.xor ⟨2, true⟩ 28 26 4),
    (0x0280FD3D, Instr.shl ⟨7, false⟩ 1 31 9 true),
    (0x02957962, Instr.shr ⟨0, true⟩ 10 30 11 false),
    (0x02A51143, Instr.sar ⟨0, true⟩ 10 4 10 true),
    (0x02B74670, Instr.min ⟨4, false⟩ 14 17 19)].all (fun e => reads 0 e.1 e.2) = true := by decide +kernel

theorem test_slot0_words_3 : [
    (0x02CB2F30, Instr.max ⟨4, false⟩ 22 11 25),
    (0x02DAE78C, Instr.minn ⟨3, false⟩ 21 25 28),
    (0x02EC5398, Instr.maxn ⟨6, false⟩ 24 20 28),
    (0x02FF8CC0, Instr.sel ⟨0, false⟩ 31 3 6),
    (0x03057C01, Instr.clz ⟨0, false⟩ 10 31 true),
    (0x03163C08, Instr.popc ⟨2, false⟩ 12 15 false),
    (0x03293243, Instr.bfx ⟨0, true⟩ 18 12 18 true),
    (0x033E43AA, Instr.bfi ⟨2, true⟩ 28 16 29),
    (0x03436CAC, Instr.cmp ⟨3, false⟩ 1 2 27 5 false),
    (0x03540102, Instr.plog 2 0 2 2),
    (0x0385FF4E, Instr.addi 11 31 846),
    (0x03959773, Instr.andi 11 5 883)].all (fun e => reads 0 e.1 e.2) = true := by decide +kernel

theorem test_slot0_words_4 : [
    (0x03A7CB98, Instr.ori 15 18 920),
    (0x03BBB3BD, Instr.xori 23 12 957),
    (0x03CB6822, Instr.shli 22 26 34),
    (0x03DCD407, Instr.shri 25 21 7),
    (0x03E0102C, Instr.sari 0 4 44),
    (0x03F00051, Instr.cmpi 0 0 0 81),
    (0x04068C76, Instr.li 13 (.short 3190)),
    (0x04198C9B, Instr.lih 19 (.short 3227)),
    (0x048EC40C, Instr.s2a ⟨3, false⟩ 29 17),
    (0x049F7012, Instr.s2v ⟨4, true⟩ 30 28),
    (0x04A18564, Instr.s2t ⟨1, false⟩ 3 1 11),
    (0x04B201AA, Instr.s2k ⟨2, true⟩ 4 0 13)].all (fun e => reads 0 e.1 e.2) = true := by decide +kernel

theorem test_slot1_words_0 : [
    (0x00000000, Instr.nopS1),
    (0x04079A10, Instr.aadd ⟨2, true⟩ 3 25 2),
    (0x08023E9E, Instr.aaddi ⟨6, true⟩ 1 3 (.short 158)),
    (0x0C0EB570, Instr.asub ⟨5, false⟩ 7 11 14),
    (0x10104228, Instr.ashli ⟨2, false⟩ 8 4 40),
    (0x142357C3, Instr.alea ⟨7, false⟩ 17 21 24 3),
    (0x182B7A30, Instr.aand ⟨2, true⟩ 21 23 6),
    (0x1C020E57, Instr.ali 1 (.short 3671)),
    (0x201A2968, Instr.acmp ⟨1, true⟩ 3 1 2 13 false),
    (0x2415E800, Instr.a2s ⟨0, true⟩ 10 30),
    (0x408F0208, Instr.ldBI ⟨2, false⟩ 2 7 16 (.short 8)),
    (0x45D95F2D, Instr.ldBN ⟨7, true⟩ 7 12 21 (.short 45))].all (fun e => reads 1 e.1 e.2) = true := by decide +kernel

theorem test_slot1_words_1 : [
    (0x49338752, Instr.ldHI ⟨7, false⟩ 4 25 24 (.short 82)),
    (0x4D826277, Instr.ldHN ⟨2, false⟩ 6 1 6 (.short 119)),
    (0x5348539C, Instr.ldWI ⟨3, false⟩ 13 4 5 (.short 156)),
    (0x5644F7C1, Instr.ldWN ⟨7, false⟩ 9 2 15 (.short 193)),
    (0x5B517EE6, Instr.ldD ⟨6, true⟩ 13 8 23 (.short 230)),
    (0x62530B18, Instr.ldxBI ⟨3, true⟩ 9 9 16 3),
    (0x65E41858, Instr.ldxBN ⟨0, true⟩ 7 18 1 11),
    (0x6B6C33C8, Instr.ldxHI ⟨3, false⟩ 13 22 3 25),
    (0x6EC43198, Instr.ldxHN ⟨1, false⟩ 11 2 3 19),
    (0x7392E200, Instr.ldxWI ⟨2, false⟩ 14 9 14 0),
    (0x7596A130, Instr.ldxWN ⟨1, false⟩ 6 11 10 6),
    (0x78D11B28, Instr.ldxD ⟨3, true⟩ 3 8 17 5)].all (fun e => reads 1 e.1 e.2) = true := by decide +kernel

theorem test_slot1_words_2 : [
    (0x821B600E, Instr.stB ⟨0, false⟩ 8 13 22 (.short 14)),
    (0x85759833, Instr.stH ⟨0, true⟩ 5 26 25 (.short 51)),
    (0x89C47B58, Instr.stW ⟨3, true⟩ 7 2 7 (.short 88)),
    (0x8F8A6C7D, Instr.stD ⟨4, true⟩ 14 5 6 (.short 125)),
    (0x92870830, Instr.stxB ⟨0, true⟩ 10 3 16 6),
    (0x97938710, Instr.stxH ⟨7, false⟩ 14 9 24 2),
    (0x9A951420, Instr.stxW ⟨4, false⟩ 10 10 17 4),
    (0x9E262160, Instr.stxD ⟨1, false⟩ 8 19 2 12),
    (0xA3AE4C76, Instr.ldacqW ⟨4, true⟩ 14 23 4 3 (.short 22)),
    (0xA7064A9B, Instr.ldacqD ⟨2, true⟩ 12 3 4 4 (.short 27)),
    (0xABD4FB00, Instr.strelW ⟨3, true⟩ 15 10 15 0 (.short 0)),
    (0xADD8BA25, Instr.strelD ⟨2, true⟩ 7 12 11 1 (.short 5))].all (fun e => reads 1 e.1 e.2) = true := by decide +kernel

theorem test_slot1_words_3 : [
    (0xB11324CA, Instr.sldW ⟨4, false⟩ 4 9 18 (.short 202)),
    (0xB65D79EF, Instr.sldD ⟨1, true⟩ 9 14 23 (.short 239)),
    (0xB9B7A114, Instr.sstW ⟨1, false⟩ 6 27 26 (.short 20)),
    (0xBE068439, Instr.sstD ⟨4, false⟩ 8 3 8 (.short 57)),
    (0xC3CC7579, Instr.amo ⟨5, false⟩ 15 6 7 7 true 1),
    (0xC6D1110A, Instr.cas ⟨1, false⟩ 11 8 17 true 2),
    (0xCBD59803, Instr.afadd ⟨0, true⟩ 15 10 25 3),
    (0xCC04F860, Instr.fence 5089 4),
    (0xD0000000, Instr.fencesc 0),
    (0xD4050D80, Instr.xfence 5174),
    (0xD80843FA, Instr.rslot ⟨3, false⟩ 4 4 (.short 250)),
    (0xDE63A416, Instr.copy ⟨4, false⟩ true false 3 3 5 false true 1 2)].all (fun e => reads 1 e.1 e.2) = true := by decide +kernel

theorem test_slot1_words_4 : [
    (0xE383A332, Instr.copym ⟨3, false⟩ true true 4 3 5 true true 2),
    (0xE603ADCA, Instr.coll ⟨5, true⟩ true false 0 3 5 3 0 2 2),
    (0xEB83A212, Instr.rcopy ⟨2, false⟩ true true 4 3 5 false true 2),
    (0xEC390A2A, Instr.xpose ⟨2, true⟩ 28 16 5 2),
    (0xF009ED01, Instr.tokst ⟨5, true⟩ 4 30 1),
    (0xF40FDE30, Instr.rport ⟨6, true⟩ 7 29 6),
    (0xF80A7A00, Instr.rack ⟨2, true⟩ 5 7)].all (fun e => reads 1 e.1 e.2) = true := by decide +kernel

theorem test_slot2_words_0 : [
    (0x00000000, Instr.nopS2),
    (0x03D5EFC0, Instr.vld 58 47 (.short 31) 4 false),
    (0x052A9E50, Instr.vlds 37 20 60 5 false),
    (0x067F2E10, Instr.vgath 15 57 28 1 false),
    (0x095BCCD0, Instr.vst 43 30 (.short 25) 5 false),
    (0x0A987648, Instr.vsts 19 3 44 4 true),
    (0x0DD507E8, Instr.vscat 58 40 15 6 true),
    (0x0F01A130, Instr.vldacc 32 13 (.short 2) 3 false),
    (0x102E5388, Instr.vstacc 5 50 (.short 39) 0 true),
    (0x214AFF52, Instr.vadd 41 23 62 5 false 2),
    (0x226792D0, Instr.vsub 12 60 37 5 false 0),
    (0x25742689, Instr.vmul 46 33 13 0 true 1)].all (fun e => reads 2 e.1 e.2) = true := by decide +kernel

theorem test_slot2_words_1 : [
    (0x26E0D4EA, Instr.vmulhi 28 6 41 6 true 2),
    (0x29E569C8, Instr.vmin 60 43 19 4 true 0),
    (0x2ADA18D9, Instr.vmax 27 16 49 5 true 1),
    (0x2C36AEEA, Instr.vminn 6 53 29 6 true 2),
    (0x2F835EA8, Instr.vmaxn 48 26 61 2 true 0),
    (0x3067F5E9, Instr.vand 12 63 43 6 true 1),
    (0x33A486D2, Instr.vor 52 36 13 5 false 2),
    (0x34D93870, Instr.vxor 27 9 48 7 false 0),
    (0x360DCA49, Instr.vshl 1 46 20 4 true 1),
    (0x39327C92, Instr.vshr 38 19 57 1 false 2),
    (0x3A570FE8, Instr.vsar 10 56 31 6 true 0),
    (0x3D6BA069, Instr.vabs 45 29 6 true 1)].all (fun e => reads 2 e.1 e.2) = true := by decide +kernel

theorem test_slot2_words_2 : [
    (0x40785710, Instr.vfadd 15 2 46 1 false),
    (0x43ECE570, Instr.vfsub 61 39 10 7 false),
    (0x44E99A50, Instr.vfmul 29 12 52 5 false),
    (0x47E62963, Instr.vfma 60 49 18 6 false 3),
    (0x493ADF70, Instr.vfmin 39 22 62 7 false),
    (0x4A8F6F30, Instr.vfmax 17 59 30 3 false),
    (0x4D6C0670, Instr.vfdiv 45 32 12 7 false),
    (0x4EA8A068, Instr.vfsqrt 21 5 6 true),
    (0x51E54008, Instr.vfrsqrt 60 42 0 true),
    (0x5311E050, Instr.vfexp2 34 15 5 false),
    (0x543E8028, Instr.vflog2 7 52 2 true),
    (0x601B2074, Instr.vcmp 3 25 0 7 false 4)].all (fun e => reads 2 e.1 e.2) = true := by decide +kernel

theorem test_slot2_words_3 : [
    (0x6237D3F1, Instr.vfcmp 6 62 39 7 false 1),
    (0x658467A8, Instr.vsel 48 35 15 2 true),
    (0x6630018E, Instr.mlog 6 0 3 14),
    (0x69F0A060, Instr.mpopc 62 5 6),
    (0x6A0A4078, Instr.vuni 1 18 7 true),
    (0x6A20E001, Instr.vuniM 4 7 0),
    (0x71939ACC, Instr.vcvt 50 28 6 5 4 true 4),
    (0x7270218A, Instr.vmxq 14 1 false 3 true 2),
    (0x75B4C072, Instr.vmxd 54 38 7 false 2),
    (0x76E96192, Instr.vpack 29 11 3 1 false 2),
    (0x781E07EB, Instr.vunpack 3 48 true 7 6 true 3),
    (0x8142A034, Instr.vred 40 21 3 false 4)].all (fun e => reads 2 e.1 e.2) = true := by decide +kernel

theorem test_slot2_words_4 : [
    (0x8267400A, Instr.vfred 12 58 0 true 2),
    (0x857BE408, Instr.vperm 47 31 8 0 true),
    (0x86889831, Instr.vrot 17 4 48 3 false 1),
    (0x89FD2611, Instr.vbcast 63 41 12 1 false 1),
    (0x90F9C070, Instr.vsigf 31 14 7 false),
    (0x93F66000, Instr.vsigr 62 51 0 false),
    (0x94030012, Instr.vnfs 24 1 false 2),
    (0x94000004, Instr.vnfsClr),
    (0x96044001, Instr.vseed 34 false 1),
    (0x98B8EF09, Instr.v2s 23 7 30 true 1),
    (0x9BF6F022, Instr.vli 62 (.short 3552) 2 2)].all (fun e => reads 2 e.1 e.2) = true := by decide +kernel

theorem test_slot3_words_0 : [
    (0x00000000, Instr.nopS3),
    (0x04902DA2, Instr.tset 10 2 4 45 2),
    (0x08181270, Instr.t2s 7 6 9 false),
    (0x0C0017F0, Instr.k2s 15 0 11 true),
    (0x12000020, Instr.tzero 2 8),
    (0x15100004, Instr.tcvt 0 4 4 4),
    (0x1A000060, Instr.tcheck 6 8),
    (0x1D1C0070, Instr.tadd 7 4 7),
    (0x20873600, Instr.mstep 0 2 1 12 54),
    (0x26211940, Instr.mstepRev 4 8 8 4 25),
    (0x28001101, Instr.bseal 0 17 1),
    (0x42741270, Instr.sstep 7 9 13 0 18)].all (fun e => reads 3 e.1 e.2) = true := by decide +kernel

theorem test_slot3_words_1 : [
    (0x44659390, Instr.sdstep 9 1 9 6 19),
    (0x48244660, Instr.sgrad 6 9 1 6),
    (0x4C0000B0, Instr.sgzero 11 0),
    (0x50015680, Instr.srefine 8 5 22),
    (0x54804001, Instr.sflags 0 2 1 1)].all (fun e => reads 3 e.1 e.2) = true := by decide +kernel


/-! ## States that meet the hypotheses of the statements -/

/-- A bundle is open on core 0, with its context 0. -/
def open0 : State := { State.reset with issue := { Issue.reset with isOpen := true } }

theorem issuing_open0 : Issuing open0 := ⟨rfl, by decide⟩
theorem alone_reset : Alone State.reset := ⟨rfl, by decide⟩

/-- Whether an answer is a next state. -/
def isNext (o : Host.Outcome State Fault Refusal) : Bool :=
  match o with
  | .next _ => true
  | _ => false

theorem next_of_isNext {o : Host.Outcome State Fault Refusal} (h : isNext o = true) : ∃ t, o = .next t := by
  cases o <;> simp_all [isNext]

/-- Context 0 of core 0 changed. -/
def withCtx (s : State) (f : Ctx → Ctx) : State := s.modCtx 0 false f

/-- A register of the context given a value. -/
def hold (l : Landing) (t : Ctx) : Ctx := { t with regs := t.regs.put l }

/-- A strand with nothing but its number of bundles and its class. -/
def strandOf (n : Nat) (cls : BitVec 2) : Strand :=
  { record := 0x1000, slot := 0x200000, nodeId := 7, inst := 0, stage := 0, rank := 0, width := 1, cls := cls, run := 1,
    nbundle := n, image := 0x300000, sptab := 0x400000, spdlim := 65536, ydl := 48000, prio := 0, gen := 0,
    spidx := 0xFFFF, age := 0, alone := false }

/-- Core 0 runs a strand of n bundles; the instruction store reads zero, which is NOPs. -/
def running (n : Nat) : State :=
  withCtx (State.reset.modCore 0 fun k => { k with cur := some false, balance := 1 }) fun t =>
    { t with status := .running, strand := some (strandOf n 0) }

theorem witness_bundleRoundTrip :
    (⟨5, some 3, false, .nopS0, .ldD ⟨1, true⟩ 2 5 6 (.long 0x7FFF), .vadd 63 1 2 7 true 2,
      .mstep 15 1 2 3 0xFF⟩ : Bundle).wf = true ∧
    (⟨15, none, true, .call ⟨7, false⟩ (.long 0x7FFFFF), .nopS1, .vli 9 (.short 0xFFF) 0 2, .nopS3⟩ : Bundle).wf = true :=
  ⟨by decide, by decide⟩

theorem witness_decodedWord : decodeSlot 1 0x588A6080 (some 0) = .ok (.ldD ⟨0, false⟩ 2 5 6 (.long 0x80)) :=
  eq_of_sameAnswer (by decide +kernel)

/-- Whether an attempt issues a bundle. -/
def issues (b : Bundle) : Attempt → Bool
  | .issues c _ => c == b
  | _ => false

theorem issues_of {b : Bundle} {a : Attempt} (h : issues b a = true) : ∃ u, a = .issues b u := by
  cases a <;> simp_all [issues]

theorem witness_turn : TurnOf (running 1) 0 false :=
  ⟨trivial, by decide +kernel, by decide +kernel, by decide +kernel, by decide +kernel, by decide +kernel⟩

theorem witness_stepRunsDecodedBundle :
    let s := (running 1).polled 0
    s.idle 0 false = false ∧ (s.ctx 0 false).pipeErr = none ∧
      (s.ctx 0 false).pc.toNat < (s.ctx 0 false).nbundle ∧ s.bundleAt 0 false = .ok nops ∧
      ∃ u, s.tryBundle 0 false nops = .issues nops u :=
  ⟨by decide +kernel, by decide +kernel, by decide +kernel, eq_of_sameAnswer (by decide +kernel),
    issues_of (by decide +kernel)⟩

/-- Reset, with an event that is due. -/
def due : State := { State.reset with agenda := [(0, .launchWord)] }

theorem memOk_due : due.MemOk :=
  ⟨rfl, rfl, fun c => by
    unfold State.core
    by_cases h : c < 768
    · simp [vget, h, due, State.reset, Core.memOk, Core.reset, Mem.wf, memWfFrom]
    · simp [vget, h, Core.memOk, Core.reset, Mem.wf, memWfFrom]⟩

theorem witness_step : due.issue.isOpen = false ∧ (∃ t, step due = .next t) :=
  ⟨rfl, next_of_isNext (by decide +kernel)⟩

theorem witness_everyOperationCompletes : Instr.pauseEnd 767 true ≠ .moduleReset ∧
    unitsOk (.pauseEnd 767 true) = true ∧ unitsOk (.pauseEnd 768 true) = false :=
  ⟨by decide, by decide, by decide⟩

theorem witness_registerOperationsFrame : registerOnly (.addi 1 2 3) = true ∧
    ∃ t, exec (.addi 1 2 3) open0 = .next t :=
  ⟨rfl, next_of_isNext (by decide +kernel)⟩

theorem witness_scalarRows (r : Regs) :
    (rowR160 r (.sar ⟨3, true⟩ 31 1 2 true)).isSome ∧ (rowR161 r (.bfi ⟨0, false⟩ 1 2 3)).isSome ∧
    (rowR162 r (.lih 1 (.long 0x3FFFFF))).isSome ∧ (rowR232 r (.rslot ⟨0, false⟩ 1 2 (.short 0xFF))).isSome ∧
    (rowR103 r (.s2a ⟨0, false⟩ 5 7)).isSome ∧ (predRow r (.cmp ⟨0, false⟩ 7 2 1 2 true)).isSome :=
  ⟨rfl, rfl, rfl, rfl, rfl, rfl⟩

theorem witness_nop : ∀ k < 4, (1 : Nat) < (match k with | 0 => 2 ^ 20 | 2 => 2 ^ 25 | _ => 2 ^ 26) := by
  intro k _
  split <;> decide

theorem witness_transfers : guardHolds ⟨0, false⟩ State.reset.lone.regs = true ∧
    (0 ≤ (open0.me.pc.toNat : Int) + (Imm.short 0x7FFF : Imm 16).sval) ∧
    (open0.me.regs.sVal 0).toNat = 16 * 0 ∧
    ¬(0 ≤ (State.reset.lone.pc.toNat : Int) + (Imm.short 0xFFFF : Imm 16).sval ∧
      (State.reset.lone.pc.toNat : Int) + (Imm.short 0xFFFF : Imm 16).sval < State.reset.lone.nbundle) ∧
    16 * State.reset.lone.nbundle ≤ (State.reset.lone.regs.sVal 0).toNat ∧
    ((withCtx State.reset (hold (.s 1 8))).lone.regs.sVal 1).toNat % 16 ≠ 0 := by
  refine ⟨?_, ?_, ?_, ?_, ?_, ?_⟩ <;> decide +kernel

/-- A loop of the other context that ends at bundle e. -/
def loopTo (e : BitVec 13) (rot : Bool) : LoopCtx := { LoopCtx.reset with last := e, remain := 2, rot := rot, active := true }

theorem witness_loops :
    let s (k : LoopCtx) := withCtx open0 fun t => { t with lc1 := k }
    let i : Instr := .loopI false 5 0
    (Instr.loopI false 0x7F 0x3FF).wf = true ∧ i.wf = true ∧ (rowR138 (s LoopCtx.reset).me i).isSome ∧
    ((s LoopCtx.reset).me.lc true).active = false ∧
    (((s (loopTo 5 false)).me.lc true).active = true ∧ ((s (loopTo 5 false)).me.lc true).frozen = false ∧
      ((s (loopTo 5 false)).me.lc true).last.toNat = (s (loopTo 5 false)).me.pc.toNat + 5) := by
  refine ⟨?_, ?_, rfl, ?_, ?_⟩ <;> decide +kernel

theorem witness_loopTraps :
    let s (k : LoopCtx) := withCtx State.reset fun t => { t with lc1 := k }
    let o := (s (loopTo 4 false)).lone.lc true
    let r := (s (loopTo 9 true)).lone.lc true
    Alone (s (loopTo 4 false)) ∧ o.active = true ∧ o.frozen = false ∧
      o.last.toNat < (s (loopTo 4 false)).lone.pc.toNat + 5 ∧
    rowR138 (s (loopTo 9 true)).lone (.loopRot false 5 0 1) = some (false, 5, 0, some 1) ∧
      r.active = true ∧ r.frozen = false ∧ r.rot = true := by
  refine ⟨⟨rfl, by decide⟩, ?_, ?_, ?_, ?_, ?_, ?_, ?_⟩ <;> decide +kernel

theorem witness_endStepOrder :
    let t (n : BitVec 36) : Ctx := { Ctx.reset with lc0 := loopTo 5 false, lc1 := { loopTo 5 true with later := true, remain := n } }
    (t 2).lc0.endsAt 5 = true ∧ (t 2).lc1.endsAt 5 = true ∧ (t 2).lc1.later = true ∧ (t 2).lc0.later = false ∧ 1 < ((t 2).lc true).remain.toNat ∧
      (t 1).lc1.endsAt 5 = true ∧ ((t 1).lc true).remain.toNat ≤ 1 := by
  refine ⟨?_, ?_, ?_, ?_, ?_, ?_, ?_⟩ <;> decide

theorem witness_loopWords : decodeSlot 0 0x0900009 none = .ok (.lexit ⟨2, false⟩ true) ∧
    lsetRefused (withCtx State.reset (hold (.s 1 0x2000))).lone
      ((withCtx State.reset (hold (.s 1 0x2000))).lone.regs.sVal 1) 0 false ∧
    lsetRefused (withCtx State.reset (hold (.s 1 0x80))).lone
      ((withCtx State.reset (hold (.s 1 0x80))).lone.regs.sVal 1) 2 true :=
  ⟨eq_of_sameAnswer (by decide +kernel), Or.inr (by decide +kernel), Or.inl (by decide +kernel)⟩

theorem witness_returnFromTrap : decodeSlot 0 0x0170000E none = .ok (.rft ⟨3, true⟩) ∧
    guardHolds ⟨0, false⟩ State.reset.lone.regs = true ∧ State.reset.lone.tinfo.hm = false :=
  ⟨eq_of_sameAnswer (by decide +kernel), by decide +kernel, by decide +kernel⟩

/-- Values of an FP32 operand where each clause on 2^a and log2 a applies. -/
theorem witness_floatValues :
    let num (neg : Bool) (m : Nat) (e : Int) : ℝ := (if neg then -1 else 1) * m * (2 : ℝ) ^ e
    1 < 2 ^ 24 ∧ |num false 3 (-1)| < 4096 ∧ num false 1 3 = ((8 : ℤ) : ℝ) ∧ |num false 1 3| < 4096 ∧
      128 ≤ num false 1 7 ∧ num true 1 12 ≤ -4096 ∧ num false 1 (-5) = (2 : ℝ) ^ (-5 : ℤ) := by
  refine ⟨?_, ?_, ?_, ?_, ?_, ?_, ?_⟩ <;> norm_num [abs_of_pos, zpow_neg]

theorem witness_vectorRows (r : Regs) :
    (Instr.vsar 1 2 3 4 true 2).wf = true ∧ (rowR177 (.vsar 1 2 3 4 true 2)).isSome ∧
    (rowR178 (.vfma 1 2 3 0 false 3)).isSome ∧ (Instr.vunpack 1 2 true 7 0 false 3).wf = true ∧
    (rowMoves r (.vunpack 1 2 true 7 0 false 3)).isSome ∧ (Instr.vpack 1 2 1 7 false 0).wf = true ∧
    (rowMask r (.vfcmp 7 1 2 3 true 7)).isSome ∧ (rowR183 r (.vuniM 1 2 3)).isSome ∧
    (4 : BitVec 3).toNat ≤ 4 ∧ (2 : BitVec 2) ≠ 3 ∧ (Instr.vmxq 1 2 true 0 false 2).wf = true :=
  ⟨rfl, rfl, rfl, rfl, rfl, rfl, rfl, rfl, by decide, by decide, rfl⟩

/-- Mask register 1 enables the lanes of m, and lane 5 of v2 is 1. -/
def lanes (m : Word) (s : State) : State :=
  withCtx s fun t => hold (.m 1 m) (hold (.v 2 (BitVec.ofNat 2048 (2 ^ 160))) t)

theorem witness_vuni :
    let on (m : Word) (j : Nat) : Prop := j < 64 ∧ ((lanes m open0).me.regs.mVal 1).getLsbD j = true
    let f (m : Word) (j : Nat) : Prop := lane ((lanes m open0).me.regs.vVal 2) j ≠ 0
    ((∀ j, on 0x20 j → f 0x20 j) ∧ ∃ j, on 0x20 j) ∧ (∀ j, on 0x40 j → ¬f 0x40 j) ∧
    Alone (lanes 0x60 State.reset) ∧
    (∃ j < 64, ((lanes 0x60 State.reset).lone.regs.mVal 1).getLsbD j = true ∧
      lane ((lanes 0x60 State.reset).lone.regs.vVal 2) j ≠ 0) ∧
    (∃ j < 64, ((lanes 0x60 State.reset).lone.regs.mVal 1).getLsbD j = true ∧
      ¬lane ((lanes 0x60 State.reset).lone.regs.vVal 2) j ≠ 0) := by
  have h : ∀ j < 64, (((lanes 0x20 open0).me.regs.mVal 1).getLsbD j = true →
      lane ((lanes 0x20 open0).me.regs.vVal 2) j ≠ 0) ∧
      (((lanes 0x40 open0).me.regs.mVal 1).getLsbD j = true →
        ¬lane ((lanes 0x40 open0).me.regs.vVal 2) j ≠ 0) := by decide +kernel
  exact ⟨⟨fun j hj => (h j hj.1).1 hj.2, 5, by decide, by decide +kernel⟩, fun j hj => (h j hj.1).2 hj.2,
    ⟨rfl, by decide⟩, ⟨5, by decide, by decide +kernel⟩, ⟨6, by decide, by decide +kernel⟩⟩

theorem witness_rounding : 0 < 1 ∧ 8 % 2 ^ 1 = 0 ∧ 3 % 2 ^ 1 ≠ 0 ∧ 2 * (3 % 2 ^ 1) = 2 ^ 1 ∧
    (0x7F7FFFFF : Lane).toNat / 2 ^ 23 % 2 ^ 8 ≠ 255 ∧ (-128 : Int) ≤ 0 ∧ (0 : Int) ≤ 127 := by
  decide

theorem witness_reductions : (2 : BitVec 3).toNat ≤ 2 ∧ (lanes 0x20 open0).me.regs.mVal 1 ≠ 0 ∧
    open0.me.regs.mVal 1 = 0 := by
  refine ⟨by decide, ?_, ?_⟩ <;> decide +kernel

theorem witness_scratchpad (r : Regs) :
    (∃ w, rowR172 r (.vgath 1 2 3 4 true) = some w ∧ w.load = true) ∧
    (∃ w, rowR172 r (.vst 1 2 (.long 0x1FFF) 4 true) = some w ∧ w.load = false) ∧
    Mem.wf open0.myCore.spad = true ∧ guardHolds ⟨0, false⟩ open0.me.regs = true :=
  ⟨⟨_, rfl, rfl⟩, ⟨_, rfl, rfl⟩, by decide +kernel, by decide +kernel⟩

theorem witness_accumulatorRows :
    decodeSlot 2 0x0E085013 none = .error .reservedBits ∧
    decodeSlot 2 0x0E085010 none = .ok (.vldacc 1 2 (.short 0x20) 1 false) ∧
    decodeSlot 2 0x10085010 (some 1) = .ok (.vstacc 1 2 (.long 0x60) 1 false) ∧
    12288 ≤ (((lane (open0.me.regs.vVal 2) 0).toNat + (Imm.short 0x20 : Imm 6).sval) % 16384).toNat ∧
    (((lane (open0.me.regs.vVal 2) 0).toNat + (Imm.short 0x1F : Imm 6).sval) % 16384).toNat < 12288 :=
  ⟨eq_of_sameAnswer (by decide +kernel), eq_of_sameAnswer (by decide +kernel), eq_of_sameAnswer (by decide +kernel),
    by decide +kernel, by decide +kernel⟩

theorem witness_globalAccess (x : Bool) (r : Regs) : (rowAccess x r (.cas ⟨0, false⟩ 3 4 5 true 4)).isSome ∧
    ∃ t, exec (.stxD ⟨0, false⟩ 3 4 5 6) open0 = .next t :=
  ⟨rfl, next_of_isNext (by decide +kernel)⟩

theorem witness_protectedAtomics :
    let s := withCtx State.reset fun t => { t with strand := some (strandOf 1 2) }
    Alone s ∧ s.lone.strand = some (strandOf 1 2) ∧ (strandOf 1 2).cls ≠ 0 := by
  refine ⟨⟨rfl, by decide⟩, ?_, ?_⟩ <;> decide +kernel

/-- Core 0 with one access of its context 0. -/
def accessing (a : Access) (s : State) : State := s.modCore 0 fun k => { k with accs := [a], nextAcc := 1 }

theorem witness_load :
    let a := { newAccess false .load 8 true 5 0x1000 3 with st := .ready, pa := 0x1000 }
    let b := { a with place := 3 }
    let s := accessing a (running 1)
    (s.core 0).acc? 0 = some a ∧ a.st = .ready ∧ a.isLoad = true ∧ s.mayPerform 0 a = true ∧ a.size ≤ 8 ∧
      (∀ j < a.size, s.strandPoison 0 a.x (a.pa + j) = false) ∧ s.site a.pa = .hbm 1 ∧
    ((accessing b (running 1)).core 0).acc? 0 = some b ∧ (accessing b (running 1)).mayPerform 0 b = true ∧
      b.place = 3 := by
  refine ⟨?_, ?_, ?_, ?_, ?_, ?_, ?_, ?_, ?_, ?_⟩ <;> decide +kernel

theorem witness_storeReachesHome :
    let p : PathStore := ⟨3, 0, false, 1, 0, 0x1000, [1, 2, 3, 4], 0x1000, 4⟩
    let q : PathStore := ⟨2, 0, false, 1, 9, 0x2000000000, [1], 0x2000000000, 1⟩
    let s := State.reset.modDie 0 fun k => { k with path := [q, p] }
    (s.die 0).path.find? (fun r => r.id == 2) = some q ∧
      ∀ r ∈ (s.die 0).path, r.id < 2 → s.homeOf r.pa ≠ s.homeOf q.pa := by
  refine ⟨?_, ?_⟩ <;> decide +kernel

theorem witness_atomic :
    let a := { newAccess false .amo 8 false 5 0x1000 3 with st := .ready, pa := 0x1000, func := 8 }
    let b := { newAccess false .afadd 4 false 5 0x1000 3 with st := .ready, pa := 0x1000 }
    let s := accessing a (running 1)
    let u := s.markReleases 0
    let v := (accessing b (running 1)).markReleases 0
    (u.core 0).acc? 0 = some a ∧ a.isAtomic = true ∧ u.mayPerform 0 a = true ∧ s.poisonedIn a.pa a.size = false ∧
    (v.core 0).acc? 0 = some b ∧ v.mayPerform 0 b = true ∧
      b.isAtomic = true ∧ b.size = 4 ∧ Mem.wf s.mem = true := by
  refine ⟨?_, ?_, ?_, ?_, ?_, ?_, ?_, ?_, ?_⟩ <;> decide +kernel

/-- Core 0 with a load in progress, and a hold of its context that names it. -/
def holding (h : Hold) : State :=
  withCtx (accessing { newAccess false .load 8 true 5 0x1000 3 with st := .ready, pa := 0x1000 } (running 1)) fun t =>
    { t with wait := { t.wait with holds := [h] } }

theorem witness_fences :
    let h : Hold := ⟨1 <<< 3, 3, false, false, 1, none⟩
    let x : Hold := ⟨1 <<< 3, 3, false, true, 1, none⟩
    let past : Hold := ⟨1 <<< 4, 3, false, false, 1, some 0⟩
    (h ∈ ((holding h).ctx 0 false).wait.holds ∧ (holding h).holdDone 0 false h = false ∧ h.mask.getLsbD 3 = true) ∧
    (x ∈ ((holding x).ctx 0 false).wait.holds ∧ (holding x).holdDone 0 false x = false ∧ x.xf = true ∧
      isCommand (.copy ⟨0, false⟩ false false 0 1 1 false false 0 0) = true) ∧
    (∀ y ∈ ((holding past).ctx 0 false).wait.holds, (holding past).holdDone 0 false y = true) ∧
    (let f : Hold := ⟨1 <<< 15 ||| 1 <<< 3, 3, false, false, 1, none⟩
     f ∈ ((holding f).ctx 0 false).wait.holds ∧ (holding f).holdDone 0 false f = false ∧ f.xf = false ∧
       f.mask.getLsbD 15 = true ∧ slice (2 <<< 26 : Desc) 27 26 = 2 ∧ f.upTo < 2) := by
  refine ⟨⟨?_, ?_, ?_⟩, ⟨?_, ?_, ?_, ?_⟩, ?_, ?_, ?_, ?_, ?_, ?_, ?_⟩ <;> decide +kernel

theorem witness_systemRegisters :
    let s (v : Word) := withCtx State.reset (hold (.s 1 v))
    let v (w : Word) : Word := (s w).lone.regs.sVal 1
    Alone (s 0x8000) ∧ slice (v 0x8000) 63 15 ≠ 0 ∧ slice (v 0x100) 9 8 ≠ 0 ∧ 5 ≤ slice (v 0x2800) 13 11 ∧
      12 ≤ slice (v 0xC0) 7 4 ∧ 12 ≤ slice (v 0xC) 3 0 ∧
    (strandOf 1 0).spdlim ≤ 65536 := by
  refine ⟨⟨rfl, by decide⟩, ?_, ?_, ?_, ?_, ?_, ?_⟩ <;> decide +kernel

theorem witness_lsetRuns : ({ Issue.reset with lset := some true } : Issue).next = none := rfl

/-- A level-1 and a level-2 table that map the first 32 MiB onto themselves: the leaf's frame is 0. -/
def mapped (s : State) : State := { s with mem := [(0, 1), (2, 1), (0x10000, 15)] }

/-- The same with 64 KiB pages: a level-3 table at 0x20000, whose entry 3 names frame 0x30000. -/
def mappedSmall (s : State) : State :=
  { s with mem := [(0, 1), (2, 1), (0x10000, 1), (0x10002, 2), (0x20018, 15), (0x2001A, 3)] }

/-- The record of a node of one strand, its safe-point table of one entry without a stub, tables that map
four pages of 64 KiB onto themselves. -/
def cells : Mem :=
  [(0, 1), (2, 1), (0x1002, 0x30), (0x100A, 1), (0x100C, 7), (0x1012, 0x40), (0x1022, 0x30), (0x1028, 1), (0x1030, 1), (0x1036, 1),
   (0x1038, 1), (0x106A, 0x20), (0x1070, 64), (0x10000, 1), (0x10002, 2), (0x20000, 15),
   (0x20100, 15), (0x20102, 0x20), (0x20180, 15), (0x20182, 0x30), (0x20200, 15), (0x20202, 0x40), (0x400000, 1),
   (0x400068, 255), (0x400069, 255), (0x40006A, 255), (0x40006B, 255)]

theorem accessing_other (a : Access) {s : State} (k : ∀ e, e ≠ 0 → (s.core e).accs = []) {e : Nat} (h : e ≠ 0) :
    ((accessing a s).core e).accs = [] := by
  unfold accessing
  rw [State.core_modCore, if_neg fun k => h k.1.symm]
  exact k e h

theorem core_modDie (s : State) (d e : Nat) (f : Die → Die) : (s.modDie d f).core e = s.core e := rfl

theorem mapped_core (s : State) (e : Nat) : (mapped s).core e = s.core e := rfl

theorem running_other {e : Nat} (h : e ≠ 0) : ((running 1).core e).accs = [] := by
  unfold running withCtx State.modCtx State.setCtx
  rw [State.core_modCore, if_neg fun k => h k.1.symm, State.core_modCore, if_neg fun k => h k.1.symm]
  by_cases k : e < 768
  · simp [State.core, vget, k, State.reset, Core.reset]
  · simp [State.core, vget, k, Core.reset]

/-- The access of core 0, which waits for the walk that die 0 makes for it. -/
def walking (a : Access) : State :=
  (accessing a (mapped (running 1))).modDie 0 fun k => { k with walks := [⟨a.va.toNat / 65536, 0, 0⟩] }

theorem witness_pageWalkEnds :
    let a := newAccess false .load 8 true 5 0x1000 3
    let b := newAccess false .load 8 true 5 0x2000000 3
    let w : Walk := ⟨0, 0, 0⟩
    let s := walking a
    (s.die 0).walks = [w] ∧ w.page = a.va.toNat / 65536 ∧ (s.core 0).accs = [a] ∧ a.st = .walking ∧
    (∀ e, e / 12 = 0 → e ≠ 0 → ∀ b ∈ (s.core e).accs, b.st = .walking → b.va.toNat / 65536 ≠ w.page) ∧
    s.walk (BitVec.ofNat 64 (65536 * w.page)) = .leaf ⟨0, 2 ^ 25, 0, 0, true, true⟩ ∧
    s.permBad ⟨0, 2 ^ 25, 0, 0, true, true⟩ a.need = false ∧
    s.permBad ⟨0, 2 ^ 25, 0, 0, true, false⟩ a.need = true ∧
    (walking b).walk 0x2000000 = .fault 1 ∧ (State.reset.die 0).walks = [] ∧ w ∉ ([] : List Walk) ∧
    (∀ q ∈ (s.die 0).cmds, q.need ≠ some w.page) ∧ (∃ v ∈ (s.die 0).walks, v.page = 0) ∧
    (∀ v ∈ (s.die 0).walks, v.page ≠ 1) ∧ (s.die 0).walks.length < 64 ∧
    64 ≤ ((s.modDie 0 fun k => { k with walks := List.replicate 64 w }).die 0).walks.length := by
  refine ⟨?_, ?_, ?_, ?_, fun e _ h b hb => ?_, ?_, ?_, ?_, ?_, ?_, ?_, ?_, ?_, ?_, ?_, ?_⟩
  case refine_5 =>
    unfold walking at hb
    rw [core_modDie, accessing_other _ (fun e k => by rw [mapped_core, running_other k]) h] at hb
    cases hb
  all_goals decide +kernel

theorem witness_walkFollowsTables :
    let e (s : State) (p : Nat) : Nat := ((List.range 8).map fun j => (memRead s.mem (p + j)).toNat * 256 ^ j).sum
    let s := mapped State.reset
    let z := mappedSmall State.reset
    (2 ^ 48 ≤ (0x1000000000000 : Word).toNat ∧ (0xFFFFFFFFFFFF : Word).toNat < 2 ^ 48) ∧
    (s.mdl.poison = [] ∧ (s.site s.mdl.ptroot.toNat).open_ = true ∧ e s 0 % 65536 = 1 ∧
      (s.site (e s 0 - 1)).open_ = true ∧ e s 0x10000 % 2 ^ 25 = 15 ∧ s.frameOk 0 (e s 0x10000 - 15) 0x2000000 = true) ∧
    (e s 8 % 2 = 0 ∧ e s 0x10008 % 2 = 0) ∧
    (e z 0x10000 % 4096 = 1 ∧ (z.site (e z 0x10000 - 1)).open_ = true ∧ e z 0x20018 % 65536 = 15 ∧
      z.frameOk 0 (e z 0x20018 - 15) 0x10000 = true ∧ e z 0x20020 % 2 = 0) := by
  refine ⟨?_, ?_, ?_, ?_⟩ <;> decide +kernel

/-- A COPY of context 0 of core 0, from and to global memory, with its token a1 and its group in a4 to a7. -/
def copyOp (ds ss : BitVec 2) : Instr := .copy ⟨0, false⟩ false false 0 1 1 false false ds ss

def cmdOf (op : Instr) (g0 g1 : Word) : Cmd :=
  { id := 3, core := 0, x := false, run := 1, rank := 0, op := op, g0 := g0, g1 := g1, g2 := 0x100000008,
    g3 := 0, copyNode := none, mark := 5, running := false, coll := none, prot := false, waits := false,
    result := none, writes := [], late := none, xl := [], need := none, paced := 0 }

/-- Die 0 with one command of the strand that runs on core 0, and a translation of the first 32 MiB. -/
def copying (q : Cmd) : State :=
  ({ running 1 with mem := cells } : State).modDie 0 fun k =>
    { k with cmds := [q], ecache := [⟨0, 2 ^ 25, 0, 0, true, true⟩] }

theorem memOk_reset : State.reset.MemOk := ⟨rfl, rfl, memOk_due.core⟩

theorem memOk_modCore {s : State} {c : Nat} {f : Core → Core} (hf : ∀ k : Core, k.memOk → (f k).memOk) (h : s.MemOk) :
    (s.modCore c f).MemOk := (keeps_modCore hf (Keeps.refl s)).mem h

theorem memOk_withCtx {s : State} {f : Ctx → Ctx} (h : s.MemOk) : (withCtx s f).MemOk :=
  (keeps_modCtx (Keeps.refl s)).mem h

theorem memOk_running (n : Nat) : (running n).MemOk :=
  memOk_withCtx (memOk_modCore (fun _ h => h) memOk_reset)

theorem memOk_withMem {s : State} {m : Mem} (hm : Mem.wf m = true) (h : s.MemOk) : ({ s with mem := m } : State).MemOk :=
  ⟨hm, h.host, h.core⟩

theorem memOk_copying (q : Cmd) : (copying q).MemOk :=
  (keeps_modDie (Keeps.refl _)).mem (memOk_withMem (by decide) (memOk_running 1))

/-- What makes a command one of die 0's whose strand holds its context. -/
theorem cmdOf_copying {q : Cmd} (h : (copying q).cmd? 0 3 = some q ∧ q.core = 0 ∧ q.copyNode = none ∧
    (copying q).cmdHeld q = true ∧ q.token ≠ 0) : (copying q).CmdOf 0 3 q :=
  ⟨by decide, h.1, by rw [h.2.1]; decide, ⟨h.2.2.1, h.2.2.2.1⟩, h.2.2.2.2, memOk_copying q⟩

/-- An instance of a collective with two members, whose commands stand on die 0. -/
def collOp (op : BitVec 2) : Instr := .coll ⟨0, false⟩ false false 0 1 1 0 op 2 2
def collMembers : List CollMember := [⟨0, 0, 3, 2, 0⟩, ⟨1, 0, 4, 2, 0⟩]
def collInst (fail : Nat) : CollInst := ⟨9, 0, collMembers, [0], [], fail⟩
def collMeet (fail : Nat) (op : BitVec 2) : State :=
  let s := copying { cmdOf (collOp 0) 0 0 with coll := some (9, 0) }
  let s := s.modDie 0 fun k => { k with cmds := k.cmds ++ [{ cmdOf (collOp op) 0 0 with id := 4, coll := some (9, 0) }] }
  { s with mdl := { s.mdl with colls := [collInst fail] } }

theorem memOk_withMdl {s : State} {m : Module} (hm : m.hostMem = s.mdl.hostMem) (h : s.MemOk) :
    ({ s with mdl := m } : State).MemOk := ⟨h.mem, by rw [hm]; exact h.host, h.core⟩

theorem memOk_collMeet (fail : Nat) (op : BitVec 2) : (collMeet fail op).MemOk :=
  memOk_withMdl rfl ((keeps_modDie (Keeps.refl _)).mem (memOk_copying _))

theorem witness_engineEnds :
    let q := { cmdOf (collOp 0) 0x1000 0x2000 with result := some 8 }
    let p := { cmdOf (collOp 0) 0 0 with coll := some (9, 0) }
    (copying q).CmdOf 0 3 q ∧ q.op = collOp 0 ∧ q.result = some 8 ∧ q.coll = none ∧
    ((collMeet 0 0).CmdOf 0 3 p ∧ p.coll.bind (collMeet 0 0).mdl.coll? = some (collInst 0) ∧
      ∃ m ∈ (collInst 0).members, m.cmd ≠ p.id ∧ ((collMeet 0 0).cmd? m.die m.cmd).isSome = true) := by
  refine ⟨cmdOf_copying ?_, rfl, rfl, rfl,
    ⟨by decide, ?_, by decide, ?_, by decide, memOk_collMeet 0 0⟩, ?_, ⟨1, 0, 4, 2, 0⟩, ?_, ?_, ?_⟩ <;> decide +kernel

/-- A member whose instance has members beyond a link, one of which the host's choice lets fault. -/
def linkedMember : Cmd := { cmdOf (collOp 0) 0 0 with coll := some (9, 0), result := some 8 }
def linkedMeet : State :=
  let s := copying linkedMember
  let s := { s with mdl := { s.mdl with colls := [{ collInst 0 with links := [3] }] } }
  { s with picks := [1] }

theorem memOk_withPicks {s : State} {l : List Nat} (h : s.MemOk) : ({ s with picks := l } : State).MemOk :=
  ⟨h.mem, h.host, h.core⟩

theorem witness_peerFault :
    linkedMeet.CmdOf 0 3 linkedMember ∧ linkedMember.op = collOp 0 ∧ linkedMember.result = some 8 ∧
      linkedMember.coll.bind linkedMeet.mdl.coll? = some { collInst 0 with links := [3] } ∧ (linkedMeet.pick 0).1 ≠ 0 ∧
      (∃ m ∈ (collInst 0).members, m.cmd ≠ 0 ∧ (linkedMeet.cmd? m.die m.cmd).isSome = true) := by
  have m : linkedMeet.MemOk := memOk_withPicks (memOk_withMdl rfl (memOk_copying linkedMember))
  refine ⟨⟨by decide, ?_, by decide, ?_, by decide, m⟩, rfl, rfl, ?_, ?_, ⟨0, 0, 3, 2, 0⟩, ?_, ?_, ?_⟩ <;>
    decide +kernel

/-- The next engine of die 0 is free, or four copies run. -/
theorem witness_enginesTake :
    let q := cmdOf (copyOp 0 0) 0x1000 0x2000
    let r := { q with running := true }
    let l := ((copying q).die 0).cmds.filter Cmd.isCopy
    l.countP Cmd.running < 4 ∧ l = [] ++ q :: [] ∧ q.running = false ∧
    4 ≤ ([r, r, r, r].filter Cmd.isCopy).countP Cmd.running ∧ (copying q).picks = [] ∧
      (copying q).mdl.pStage.toNat < 2 := by
  refine ⟨?_, ?_, ?_, ?_, ?_, ?_⟩ <;> decide +kernel

/-- A row of 8 bytes from global address 0x1000 to scratchpad offset 0x2000 of core 0, with its marker. -/
def oneRow (q : Cmd) : XferOps := ⟨.glob 0x1000, [.spad 0 0x2000], q.g0, q.g1, 1, 8, 0, 0⟩

theorem canMove_oneRow {s : State} (q : Cmd) (he : (s.die 0).ecache = [⟨0, 2 ^ 25, 0, 0, true, true⟩])
    (hp : s.mdl.poison = []) (hg : ∀ n < 16, (s.core 0).guarded (0x1FF8 + n) = false) :
    s.CanMove 0 (oneRow q) true (fun n => (none, 0x1000 + n)) (fun _ n => (some 0, 0x2000 + n))
      (fun _ j => (some 0, 0x1FF8 + j)) := by
  have hc : ∀ b < 8, ∀ i < 256, cached [⟨0, 2 ^ 25, 0, 0, true, true⟩]
      (BitVec.ofNat 64 ((0x1000 + BitVec.ofNat 64 b : Word).toNat / 256 * 256 + i)) =
        some ⟨0, 2 ^ 25, 0, 0, true, true⟩ := by decide +kernel
  have hv : ∀ b < 8, (0x1000 + BitVec.ofNat 64 b : Word).toNat < 2 ^ 48 := by decide +kernel
  have ha : ∀ b < 8, ((none, 0x1000 + b) : EngPlace) =
      (none, Transl.pa ⟨0, 2 ^ 25, 0, 0, true, true⟩ (0x1000 + BitVec.ofNat 64 b)) := by decide +kernel
  refine ⟨fun r hr b hb => ?_, fun e he' r hr b hb => ?_, fun _ e he' j hj => ?_, fun e he' r hr b hb => ⟨?_, ?_⟩,
    fun _ e he' j hj => ⟨?_, ?_, ?_⟩⟩ <;> simp only [oneRow] at *
  · obtain rfl : r = 0 := by omega
    exact ⟨by simpa using hv b hb, _, by simpa [he] using hc b hb, by simp [State.permBad], by simpa using ha b hb,
      fun _ => by simp [hp]⟩
  · obtain rfl : r = 0 := by omega
    obtain rfl : e = 0 := by simpa using he'
    exact ⟨by decide, rfl, by simpa [show 0x1FF8 + (8 + b) = 0x2000 + b by omega] using hg (8 + b) (by omega), fun h => by cases h⟩
  · obtain rfl : e = 0 := by simpa using he'
    exact ⟨by decide, rfl, by simpa using hg j (by omega), fun h => by cases h⟩
  · intro e1 h1 r1 h2 b1 h3 h
    simp at he' h1 h
    omega
  · intro r1 h2 b1 h3 h
    simp at h
  · intro e1 h1 j1 h2 h
    simp at he' h1 h
    omega
  · intro e1 h1 r1 h2 b1 h3 h
    simp at h
    omega
  · intro r1 h2 b1 h3 h
    simp at h

theorem witness_copyCompletes :
    let q := cmdOf (copyOp 2 0) 0x1000 0x2000
    let s := copying q
    let o := xferOps q (sideOf q.core 0 q.g0) [sideOf q.core 2 q.g1]
    s.CmdOf 0 3 q ∧ q.result = none ∧ s.acquired 0 q = true ∧
      (sideReserved 0 q.g0 || sideReserved 2 q.g1) = false ∧ s.sideNoCore 0 q.g0 = false ∧ s.sideNoCore 2 q.g1 = false ∧
      ((sideOf q.core 0 q.g0).fits o.rows o.len o.sstr false && (sideOf q.core 2 q.g1).fits o.rows o.len o.dstr true) = true ∧
      o = oneRow q ∧ s.CanMove 0 (oneRow q) true (fun n => (none, 0x1000 + n)) (fun _ n => (some 0, 0x2000 + n))
        (fun _ j => (some 0, 0x1FF8 + j)) := by
  refine ⟨cmdOf_copying ?_, ?_, ?_, ?_, ?_, ?_, ?_, rfl, canMove_oneRow _ ?_ ?_ ?_⟩ <;> decide +kernel

/-- The checks of an engine's sides at their edges, and an acquire that waits. -/
theorem witness_engineChecks :
    let q := cmdOf (.copy ⟨0, false⟩ true false 0 1 1 false false 2 2) 0 0x80000
    let o := xferOps q (sideOf q.core 2 q.g0) [sideOf q.core 2 q.g1]
    let gone (n : Nat) : Word := BitVec.ofNat 64 (n * 2 ^ 19)
    let s := (copying q).modDie 0 fun k => { k with path := [⟨4, 1, false, 2, 0, 0x1000, [1], 0x1000, 1⟩] }
    s.acquired 0 q = false ∧ q.op = .copy ⟨0, false⟩ true false 0 1 1 false false 2 2 ∧
    sideReserved 2 0x80000 = true ∧ sideReserved 2 0x7FFFF = false ∧
    (s.sideNoCore 1 (gone 12) = true ∧ s.sideNoCore 1 (gone 13) = true ∧ wordCore (gone 12) < wordCore (gone 13) ∧
      s.sideNoCore 1 (gone 11) = false) ∧
    (sideOf 0 2 0x5FFF9).fits o.rows o.len o.sstr false = false ∧
      (sideOf 0 2 0x5FFF8).fits o.rows o.len o.sstr false = true ∧
    (let z := (copying { q with paced := 10 }).modMdl fun m => { m with pStage := 2 }
     2 ≤ z.mdl.pStage.toNat ∧ z.now < { q with paced := 10 }.paced ∧ z.acquired 0 { q with paced := 10 } = true) := by
  refine ⟨?_, ?_, ?_, ?_, ⟨?_, ?_, ?_, ?_⟩, ?_, ?_, ?_, ?_, ?_⟩ <;> decide +kernel

/-- COPYM: a mask of cores, an empty one, and a core that is missing; RCOPY: its window, its link, its answers. -/
def copymOp : Instr := .copym ⟨0, false⟩ false false 0 1 1 false false 2
def rcopyOp : Instr := .rcopy ⟨0, false⟩ false false 0 1 1 false false 2

/-- Link 3 is up, and remote window 0 leads to it. -/
def linked (st : BitVec 3) (en : Bool) (s : State) : State :=
  { s with mdl := { s.mdl with
      featAccept0 := 1, pwin := vset s.mdl.pwin 0 0x8000000000300001,
      links := vset s.mdl.links 3 { Link.reset with en := en, state := st } } }

theorem canMove_spad {o : XferOps} {off : Nat} (hs : o.src = .spad 0 off) (hr : o.rows = 1) (hl : o.len = 8)
    (hd : o.dsts = []) {s : State} (hg : ∀ b < 8, (s.core 0).guarded (off + b) = false)
    (hp : (s.core 0).spadPoison = []) (hz : o.sstr = 0) :
    s.CanMove 0 o false (fun n => (some 0, off + n)) (fun _ _ => (none, 0)) (fun _ _ => (none, 0)) := by
  refine ⟨fun r h b hb => ?_, ?_, ?_, ?_, ?_⟩
  · rw [hr] at h; rw [hl] at hb
    obtain rfl : r = 0 := by omega
    rw [hs, hz]
    refine ⟨by decide, rfl, by simpa using hg b hb, fun _ => by rw [hp]; exact List.not_mem_nil⟩
  all_goals simp [hd]

theorem witness_copymRcopy :
    let q := cmdOf copymOp 0x1000 0x100002000
    let r := cmdOf rcopyOp 0x1000 0x8
    let cores (w : Word) := (List.range 12).filter fun c => w.getLsbD (32 + c)
    let o := xferOps r (sideOf 0 2 r.g0) []
    let s := linked 2 true (copying r)
    (copying q).CmdOf 0 3 q ∧ q.op = copymOp ∧ (copying q).acquired 0 q = true ∧
      cores 0x100002000 = [0] ∧ cores 0x2000 = [] ∧ (State.reset.clusterAlive 3 = true) ∧
      (slice (0x100002000 : Word) 63 44 != 0 || slice (0x100002000 : Word) 31 29 != 0 ||
        slice (0x100002000 : Word) 22 19 != 0) = false ∧
    (s.cmd? 0 3 = some r ∧ s.acquired 0 r = true ∧ s.mdl.featAccept0.getLsbD 0 = true ∧ s.mdl.window 0 = some 3 ∧
      (s.mdl.link 3).en = true ∧ (s.mdl.link 3).state = 2 ∧ slice r.g1 63 46 = 0 ∧
      (sideOf 0 2 r.g0).fits o.rows o.len o.sstr false = true ∧ o.rows ≠ 0 ∧ o.len ≠ 0 ∧
      s.CanMove 0 o false (fun n => (some 0, 0x1000 + n)) (fun _ _ => (none, 0)) (fun _ _ => (none, 0))) ∧
    ((linked 1 true (copying r)).mdl.link 3).state = 1 ∧ ((linked 2 false (copying r)).mdl.link 3).en = false ∧
    (State.reset.mdl.featAccept0.getLsbD 0 = false ∧ State.reset.mdl.window 0 = none) ∧
    (s.mdl.link 3).unacked (BitVec.ofNat 20 r.id) = 0 ∧ (s.pick 0).1 = 0 ∧
      ((State.pick { s with picks := [1] } 0).1 = 0 + 1 ∧ [(8, 8)][0]? = some (8, 8)) := by
  refine ⟨cmdOf_copying ?_, ?_, ?_, ?_, ?_, ?_, ?_, ⟨?_, ?_, ?_, ?_, ?_, ?_, ?_, ?_, ?_, ?_,
    canMove_spad (off := 0x1000) ?_ ?_ ?_ ?_ ?_ ?_ ?_⟩, ?_, ?_, ⟨?_, ?_⟩, ?_, ?_, ?_, ?_⟩ <;>
    decide +kernel

/-- An address beyond 48 bits, one that the die's cache translates, one that the command has been told of, with a leaf
or with a fault, and one whose page has to be walked; an RCOPY that ends with a fault of its source. -/
theorem witness_engXlate :
    let t : Transl := ⟨0, 2 ^ 25, 0, 0, true, true⟩
    let q := { cmdOf (copyOp 0 0) 0 0 with xl := [⟨0x200, some t, 0⟩, ⟨0x201, none, 1⟩], late := some 5 }
    let s := copying q
    let told (page : Nat) := q.xl.find? fun f => f.page == page
    2 ^ 48 ≤ (0x1000000000000 : Word).toNat ∧ cached (s.die 0).ecache 0x1000 = some t ∧
    (cached (s.die 0).ecache 0x2000000 = none ∧ told 0x200 = some ⟨0x200, some t, 0⟩ ∧ told 0x201 = some ⟨0x201, none, 1⟩ ∧
      (∀ e ∈ q.xl, e.page ≠ 0x202) ∧ (0x2020000 : Word).toNat / 65536 = 0x202) ∧
    s.permBad t needRead = false ∧ s.permBad { t with rd := false } needRead = true ∧ q.late = some 5 := by
  refine ⟨?_, ?_, ⟨?_, ?_, ?_, ?_, ?_⟩, ?_, ?_, ?_⟩ <;> decide +kernel

/-- Whether every source of a collective could be read. -/
def sourced (z : State × List Contribution) : Bool := z.2.all fun c => c.bad.isNone && c.miss.isNone

theorem sourced_all {z : State × List Contribution} (h : sourced z = true) :
    ∃ u l, z = (u, l) ∧ ∀ c ∈ l, c.bad = none ∧ c.miss = none :=
  ⟨z.1, z.2, rfl, fun c hc => by simpa using List.all_eq_true.1 h c hc⟩

theorem witness_collectiveMeets :
    let qs (s : State) := collMembers.filterMap fun m => (s.cmd? m.die m.cmd).map fun q => (m, q)
    let key (op : BitVec 2) := (cmdOf (collOp op) 0 0).collKey ⟨0, 0, 3, 2, 0⟩
    (collMeet 24 0).mdl.coll? (9, 0) = some (collInst 24) ∧ (collMeet 0 0).mdl.coll? (9, 0) = some (collInst 0) ∧
    (qs (collMeet 0 1)).length = 2 ∧ (∃ e ∈ (qs (collMeet 0 1)).tail, e.2.collKey e.1 ≠ key 0) ∧
    (∀ e ∈ (qs (collMeet 0 0)).tail, e.2.collKey e.1 = key 0) ∧ (qs (collMeet 0 0)).tail.length + 1 = collMembers.length ∧
    (∃ u l, (collMeet 0 0).collSources (collInst 0) 2 (8 * collSize 0) 2 = (u, l) ∧ ∀ c ∈ l, c.bad = none ∧ c.miss = none) ∧
    (∀ m ∈ (collInst 0).members, m.rank < 2) ∧ (collInst 0).members.length = 2 ∧ (collInst 0).links = [] ∧
      ∀ e ∈ qs (collMeet 0 0), (collMeet 0 0).mdl.pStage.toNat < 2 ∨ e.2.paced ≤ (collMeet 0 0).now := by
  refine ⟨?_, ?_, ?_, ?_, ?_, ?_, sourced_all ?_, ?_, ?_, ?_, ?_⟩ <;> decide +kernel

/-- A COLL whose turn has come, one that waits for it, and a table that can be read and one that cannot. -/
theorem witness_collEnters :
    let q := cmdOf (collOp 0) 0x1000 0x2000
    let f := { q with g3 := 0x1000000000000 }
    let m := { q with g3 := 0x2000000 }
    let s := copying q
    (s.CmdOf 0 3 q ∧ q.result = none ∧ q.running = false ∧ s.collTurn 0 q = true ∧ q.g3.toNat % 8 = 0) ∧
    (s.mdl.pStage.toNat < 2 ∧ (0x2004 : Word).toNat % 8 ≠ 0) ∧
    ((s.modCmd 0 3 fun q => { q with running := true }).collTable q).fin = .going ∧
    (((copying f).modCmd 0 3 fun q => { q with running := true }).collTable f).fin = .fault (faultWord 1 f.g3) ∧
    (((copying m).modCmd 0 3 fun q => { q with running := true }).collTable m).fin = .misses 0x200 ∧
    ((copying q).modDie 0 fun k => { k with cmds := { q with id := 2 } :: k.cmds }).collTurn 0 q = false := by
  refine ⟨⟨cmdOf_copying ?_, ?_, ?_, ?_, ?_⟩, ⟨?_, ?_⟩, ?_, ?_, ?_, ?_⟩ <;> decide +kernel

/-- The places of a result of two bytes in a scratchpad. -/
theorem witness_collDeliver :
    let q := cmdOf (collOp 0) 0x1000 0x2000
    (∀ j < 2, (copying q).engByte 0 true (sideOf q.core 2 q.g1) j (some 0, 0x2000 + j)) ∧
    ∀ j < 2, ∀ k < 2, ((some 0, 0x2000 + j) : EngPlace) = (some 0, 0x2000 + k) → j = k := by
  have h : ∀ j < 2, (0 < 768 ∧ ((some 0, 0x2000 + j) : EngPlace) = (some 0, 0x2000 + j) ∧
      ((copying (cmdOf (collOp 0) 0x1000 0x2000)).core 0).guarded (0x2000 + j) = false ∧
      (true = false → (0x2000 + j) / 32 ∉ ((copying (cmdOf (collOp 0) 0x1000 0x2000)).core 0).spadPoison)) := by
    decide +kernel
  exact ⟨h, by decide⟩

theorem witness_tokenStatus : guardHolds ⟨0, false⟩ open0.me.regs = true ∧ (5 : BitVec 5) ≠ 0 ∧
    open0.me.regs.isFull (.a 5) = true ∧
    (withCtx open0 fun t => { t with regs := t.regs.setFull false (.a 5) }).me.regs.isFull (.a 5) = false ∧
    guardHolds ⟨0, true⟩ open0.me.regs = false := by
  refine ⟨?_, ?_, ?_, ?_, ?_⟩ <;> decide +kernel

theorem witness_transpose :
    let j : XJob := ⟨false, 0, [⟨4, 7⟩, ⟨5, 8⟩], []⟩
    let s (l : List XJob) := State.reset.modCore 0 fun k => { k with xq := l }
    Alone (s [j, j, j, j]) ∧ 4 ≤ ((s [j, j, j, j]).core (s [j, j, j, j]).focusC).xq.length ∧
      ((s [j]).core 0).xq = [j] ∧ j.at_ ≤ (s [j]).clk 0 ∧ Mem.wf ((s [j]).core 0).spad = true ∧
      (let two : XJob := ⟨false, 0, [⟨4, 7⟩, ⟨5, 8⟩, ⟨4, 9⟩], []⟩
       two.cells = [⟨4, 7⟩, ⟨5, 8⟩] ++ ⟨4, 9⟩ :: [] ∧ ((s [two]).core 0).guarded 4 = false ∧
         two.cells = [⟨4, 7⟩] ++ ⟨5, 8⟩ :: [⟨4, 9⟩] ∧ ∀ y ∈ [((4 : Nat), (9 : Byte))], y.1 ≠ 5) := by
  refine ⟨⟨rfl, by decide⟩, ?_, ?_, ?_, ?_, rfl, ?_, rfl, ?_⟩ <;> decide +kernel

/-- An entry of die 0's ring: its index, kind and register. -/
def entryOf (i : Nat) (kind : AccKind) (run : Nat) : RingEntry :=
  { idx := i, run := run, rank := 0, stage := 0, core := 0, x := false,
    acc := { newAccess false kind 8 false 5 0x1000 3 with st := .faulted 1 }, code := 1, ported := false, prot := false,
    val := 0, cont := 0x200000, nodeId := 7, inst := 0, seq := BitVec.ofNat 32 i, published := false, done := false, due := none }

/-- Die 0's ring holds entries, and run 2 is a strand that is suspended on die 0. -/
def ringed (l : List RingEntry) : State :=
  let s := ({ running 1 with mem := cells } : State).modDie 0 fun k => { k with ring := l, ringTail := l.length, mirrorEn := true }
  let r : Run := { id := 2, gang := 1, node := 0x1000, inst := 0, stage := 0, die := 0, c0 := 0, twin := false,
                   started := true, barriers := 0, ranks := [⟨0, false, 0, [], none, [], 0, 0, false, []⟩] }
  { s with mdl := { s.mdl with runs := [r] } }

theorem witness_rport :
    let e := entryOf 0 .load 1
    let s := ringed [e]
    let z := withCtx s fun t => { t with regs := t.regs.setFull false (.a 5) }
    s.entryOf 1 = none ∧ s.entryOf 0 = some e ∧ s.whereIs e = .resident 0 false ∧
      (s.ctx 0 false).regs.isFull (.a e.acc.reg) = true ∧ z.whereIs e = .resident 0 false ∧
      (z.ctx 0 false).regs.isFull (.a e.acc.reg) = false ∧ e.acc.awaitsValue = true ∧ e.ported = false ∧
    (ringed [entryOf 0 .load 2]).whereIs (entryOf 0 .load 2) = .suspended 0 ∧
    (ringed [entryOf 0 .load 3]).whereIs (entryOf 0 .load 3) = .ended ∧ (entryOf 0 .store 1).acc.awaitsValue = false := by
  refine ⟨?_, ?_, ?_, ?_, ?_, ?_, ?_, ?_, ?_, ?_, ?_⟩ <;> decide +kernel

theorem witness_rack :
    let s := ringed [entryOf 0 .load 1, entryOf 1 .store 1]
    (ringed []).entryOf 0 = none ∧ s.entryOf 1 = some (entryOf 1 .store 1) ∧
      (∃ f ∈ s.rackSet 0 (entryOf 1 .store 1), f.acc.awaitsValue = true ∧ f.ported = false) ∧
      ∀ f ∈ (ringed [entryOf 0 .store 1]).rackSet 0 (entryOf 0 .store 1),
        (f.acc.awaitsValue = false ∨ f.ported = true) ∧ f.prot = false := by
  refine ⟨?_, ?_, ?_, ?_⟩ <;> decide +kernel

/-- A bundle is open on core 0 over a state. -/
def opened (s : State) : State := { s with issue := { Issue.reset with isOpen := true } }

/-- RPORT and RACK by a strand and by the host: a0 and HRWORD name entry 0 of die 0's ring, whose access is a load that
awaits its value, of a resident and of a suspended strand, or a store. -/
theorem witness_retryCompletes :
    let e (run : Nat) := entryOf 0 .load run
    let w := entryOf 0 .store 1
    let s := opened (withCtx (ringed [e 1]) fun t => { t with regs := t.regs.setFull false (.a 5) })
    (Issuing s ∧ guardHolds ⟨0, false⟩ s.me.regs = true ∧ s.me.regs.aVal 0 = 0 ∧ (s.die 0).hrWord = 0 ∧
      (s.die 0).hrVal = 0 ∧ s.entryOf 0 = some (e 1) ∧ (e 1).acc.awaitsValue = true ∧ (e 1).ported = false ∧
      s.whereIs (e 1) = .resident 0 false ∧ (s.ctx 0 false).regs.isFull (.a (e 1).acc.reg) = false) ∧
    (Issuing (opened (ringed [e 2])) ∧ (opened (ringed [e 2])).entryOf 0 = some (e 2) ∧
      (opened (ringed [e 2])).whereIs (e 2) = .suspended 0) ∧
    (Issuing (opened (ringed [w])) ∧ (opened (ringed [w])).entryOf 0 = some w ∧
      ((opened (ringed [w])).die 0).hrWord = 0 ∧
      ∀ f ∈ (opened (ringed [w])).rackSet 0 w, f.prot = false ∧ (f.acc.awaitsValue = false ∨ f.ported = true)) := by
  refine ⟨⟨⟨rfl, by decide⟩, ?_, ?_, ?_, ?_, ?_, ?_, ?_, ?_, ?_⟩, ⟨⟨rfl, by decide⟩, ?_, ?_⟩, ⟨rfl, by decide⟩, ?_, ?_, ?_⟩ <;>
    decide +kernel

/-- A RACK that frees a store and keeps, or lets go, its class; one whose replay faults, of a resident and of a
suspended strand. -/
theorem witness_rackReplays :
    let w (i : Nat) := entryOf i .store 1
    let bad (run : Nat) : RingEntry :=
      { entryOf 0 .store run with prot := true, acc := { (entryOf 0 .store run).acc with va := 0x1004 } }
    let s := ringed [w 0, w 1]
    let z (run : Nat) := (ringed [bad run]).modMdl fun m => { m with nodes := [⟨0x1000, 0, parseRec 0, 3, 1, 0, 0, 0, none, 0, 0, []⟩] }
    ((s.rackSet 0 (w 0)).filter (fun f => f.prot) = [] ∧ s.replay [] = .done s ∧
      ((w 1).acc.diverts.getLsbD (w 0).acc.cls.toNat = true ∧ s.rackSet 0 (w 0) = [w 0] ∧ w 1 ∈ (s.die 0).ring)) ∧
    ((z 1).entryOf 0 = some (bad 1) ∧ ((z 1).rackSet 0 (bad 1)).filter (fun f => f.prot) = [bad 1] ∧
      (z 1).replay [bad 1] = .faults (z 1) ∧ (z 1).whereIs (bad 1) = .resident 0 false) ∧
    ((z 2).entryOf 0 = some (bad 2) ∧ ((z 2).rackSet 0 (bad 2)).filter (fun f => f.prot) = [bad 2] ∧
      (z 2).replay [bad 2] = .faults (z 2) ∧ (z 2).whereIs (bad 2) = .suspended 0 ∧
      ((z 2).mdl.run? 2).isSome = true ∧ ((z 2).mdl.node? 0x1000).isSome = true ∧ (z 2).mdl.nodes.Nodup) := by
  refine ⟨⟨?_, rfl, ?_, ?_, ?_⟩, ⟨?_, ?_, rfl, ?_⟩, ⟨?_, ?_, rfl, ?_, ?_, ?_, ?_⟩⟩ <;> decide +kernel

/-- A replay of a misaligned store, one that finds no page, and one that may not write. -/
theorem witness_replay :
    let e := { entryOf 0 .store 1 with prot := true }
    let at_ (va : Word) : RingEntry := { e with acc := { e.acc with va := va } }
    let s := ringed [e]
    e.done = false ∧ (at_ 0x1004).acc.va.toNat % (at_ 0x1004).acc.size ≠ 0 ∧ s.walk (at_ 0x2000000).acc.va = .fault 1 ∧
      (∃ t, s.walk e.acc.va = .leaf t ∧ s.permBad t e.acc.need = false) := by
  refine ⟨?_, ?_, ?_, ⟨0, 65536, 0, 0, true, true⟩, ?_, ?_⟩ <;> decide +kernel

theorem witness_accessEntersRing :
    let a := { newAccess false .load 8 true 5 0x1000 3 with st := .faulted 1 }
    let s := accessing a (running 1)
    let full := s.modDie 0 fun k => { k with ring := [entryOf 1024 .load 2], ringTail := 2048 }
    (∀ e, e ≠ 0 → (s.core e).accs = []) ∧ (s.core 0).accs = [a] ∧ a.st = .faulted 1 ∧
      s.ringOf 0 a.x < 64 ∧ (∀ e ∈ (s.die (s.ringOf 0 a.x)).ring, e.idx % 1024 ≠ (s.die (s.ringOf 0 a.x)).ringTail % 1024) ∧
      ∃ e ∈ (full.die (full.ringOf 0 a.x)).ring, e.idx % 1024 = (full.die (full.ringOf 0 a.x)).ringTail % 1024 := by
  refine ⟨fun _ h => accessing_other _ (fun _ => running_other) h, ?_, ?_, ?_, ?_, ?_⟩ <;> decide +kernel

/-- Whether a write succeeds. -/
def wrote (z : Except (BitVec 8) State) : Bool :=
  match z with
  | .ok _ => true
  | .error _ => false

theorem wrote_some {z : Except (BitVec 8) State} (h : wrote z = true) : ∃ u, z = .ok u := by
  cases z <;> simp_all [wrote]

theorem witness_mirror :
    let e := entryOf 0 .load 1
    let s := ringed [{ e with idx := 1, published := true }, e]
    let at_ : Word := (s.die 0).mirrorBase.setWidth 64 <<< 16
    let far := s.modDie 0 fun k => { k with mirrorBase := 0xFFFFFFFF }
    let off := s.modDie 0 fun k => { k with mirrorEn := false }
    (s.die 0).mirrorEn = true ∧ s.entrySettled e = true ∧ (∃ u, s.vWrite (at_ + 8) (e.bytes.drop 8) = .ok u) ∧
      wrote (far.vWrite (0xFFFFFFFF0000 + 8) (e.bytes.drop 8)) = false ∧
      ((1 : Word).getLsbD 0 = true ∧ (off.die 0).mirrorEn = false ∧
        (off.die 0).ring = { e with idx := 1, published := true } :: [e]) ∧
      (accessing (newAccess false .store 8 false 5 0x1000 3) s).entrySettled { e with acc := { e.acc with id := 1 } } = false ∧
    (let z := (s.modDie 0 fun k => { k with mirrorBase := 0x30 }).modMdl fun m => { m with poison := [98304] }
     sameAnswer (z.xlate 0x300000 ⟨false, true, false⟩) (.ok (0x300000, 0)) = true ∧ 0x300000 / 32 ∈ z.mdl.poison ∧
       z.entrySettled e = true ∧
       ∀ n ∈ s.mdl.poison, n ≠ 0) := by
  refine ⟨?_, ?_, wrote_some ?_, ?_, ⟨?_, ?_, ?_⟩, ?_, ?_, ?_, ?_, ?_⟩ <;> decide +kernel

theorem witness_rrkill : (ringed [entryOf 0 .load 1]).entryOf 1 = none ∧
    (ringed [entryOf 0 .load 1]).entryOf 0 = some (entryOf 0 .load 1) ∧
    (ringed [entryOf 0 .load 1]).whereIs (entryOf 0 .load 1) = .resident 0 false ∧
    (ringed [entryOf 0 .load 2]).entryOf 0 = some (entryOf 0 .load 2) ∧
    (ringed [entryOf 0 .load 2]).whereIs (entryOf 0 .load 2) = .suspended 0 ∧
    ((ringed [entryOf 0 .load 2]).mdl.run? 2).isSome = true := by
  refine ⟨?_, ?_, ?_, ?_, ?_, ?_⟩ <;> decide +kernel

theorem witness_translationsInvalidated :
    let a := { newAccess false .load 8 true 5 0x1000 3 with st := .ready, lo := 0, len := 65536 }
    let n : Inval := ⟨[(0, 0)], [(0, 3)]⟩
    let s := { State.reset with mdl := { State.reset.mdl with inval := some n } }
    let p : PathStore := ⟨3, 0, false, 1, 0, 0x1000, [1], 0, 65536⟩
    State.reset.mdl.inval = none ∧ s.mdl.inval = some n ∧
    (∀ e ∈ n.accs, ∀ b ∈ (s.core e.1).accs, b.id ≠ e.2) ∧ (∀ e ∈ n.stores, ∀ q ∈ (s.die e.1).path, q.id ≠ e.2) ∧
    (∃ e ∈ n.accs, ∃ b ∈ ((accessing a s).core e.1).accs, b.id = e.2) ∧
    (∃ e ∈ n.stores, ∃ q ∈ ((s.modDie 0 fun k => { k with path := [p] }).die e.1).path, q.id = e.2) ∧
    (∀ d < 64, ∀ h ∈ (s.die d).contain, h.old = false) ∧
    (let h : Held := ⟨1, 0, 0x1000, [1], some (0, 65536), true⟩
     ∃ d < 64, ∃ g ∈ ((s.modDie 0 fun k => { k with contain := [h] }).die d).contain, g.old = true) := by
  refine ⟨?_, ?_, ?_, ?_, ?_, ?_, ?_, ?_⟩ <;> decide +kernel


/-- A descriptor: BASE, SPACE, rows, columns and TYPE. -/
def descOf (base space rows cols ty : Nat) : Desc :=
  BitVec.ofNat 128 (base + space * 2 ^ 26 + rows * 2 ^ 28 + cols * 2 ^ 35 + ty * 2 ^ 46)

theorem witness_tset :
    let s (d : Desc) := withCtx open0 (hold (.t 2 d))
    let last := s (descOf 191 1 64 64 0)
    ¬stageOn 1 open0.me.regs ∧ stageOn 0 open0.me.regs ∧ tsetStep (last.me.regs.tVal 2) 2 = some 1 ∧
    slice (last.me.regs.tVal 2) 25 0 + 1 * 1 < 2 ^ 26 ∧ descFit (descOf 191 1 64 64 0) ∧
    ¬descFit (descOf 192 1 64 64 0) ∧
    (let top := (s (descOf 0x3FFFFFC 0 1 1 0)).me.regs.tVal 2
     tsetStep top 2 = some 64 ∧ 2 ^ 26 ≤ slice top 25 0 + 1 * 64) := by
  unfold stageOn descFit
  refine ⟨?_, ?_, ?_, ?_, ?_, ?_, ?_⟩ <;> decide +kernel

/-- A job of the open bundle's slot 3 on the tile unit: TZERO of t3. -/
def jobOf (op : Instr) (dd : Desc) : Job :=
  { seq := 0, op := op, x := false, dd := dd, da := 0, db := 0, dk := 0, fmt := 0x0033, key := 0, ctr := 0, spadIn := [],
    mark := 0, startAt := none, after := [], inj := none }

theorem witness_copiesToSlotThree :
    let j := jobOf (.tzero 0 3) 0
    let s := (open0.modCore 0 fun k => { k with tile := [j] }).modIssue fun u => { u with job := some 0 }
    guardHolds ⟨0, true⟩ open0.me.regs = false ∧ guardHolds ⟨0, false⟩ open0.me.regs = true ∧
    (∀ i ∈ open0.myCore.array ++ open0.myCore.tile, (open0.issue.job == some i.seq && i.names (.t 3)) = false) ∧
    (∃ i ∈ s.myCore.array ++ s.myCore.tile, (s.issue.job == some i.seq && i.names (landReg (.t 3 0))) = true) ∧
    ¬descFit (1 <<< 85) ∧ ¬knotFit (33 <<< 64) ∧ knotFit (32 <<< 64) ∧
    ((1 <<< 85 : Desc)).toNat = (0 : Word).toNat + (0x200000 : Word).toNat * 2 ^ 64 := by
  unfold descFit knotFit
  refine ⟨?_, ?_, ?_, ?_, ?_, ?_, ?_, ?_⟩ <;> decide +kernel

theorem witness_slotThreeRows :
    (∀ r f, (rowR290 r f (.sdstep 0 1 14 7 27)).isSome ∧ (rowR290 r f (.bseal 0 0xFF 1)).isSome ∧
      (rowR290 r f (.tcvt 1 2 3 4)).isSome) ∧
    (∀ w, rowR290 open0.me.regs open0.me.fmt (.tcvt 1 2 3 4) = some w → w.array = false ∧ w.draws = 65536 ∧
      ¬stageOn w.g open0.me.regs) ∧
    (∀ w, rowR290 open0.me.regs open0.me.fmt (.mstep 0 2 3 4 5) = some w → w.array = true ∧
      stageOn w.g open0.me.regs) ∧
    ¬accepted State.reset.lone.regs State.reset.lone.fmt (.tzero 0 3) := by
  refine ⟨fun _ _ => ⟨rfl, rfl, rfl⟩, fun w h => ?_, fun w h => ?_, ?_⟩
  · obtain rfl := Option.some.inj h
    unfold stageOn
    refine ⟨rfl, ?_, ?_⟩ <;> decide +kernel
  · obtain rfl := Option.some.inj h
    exact ⟨rfl, Or.inl rfl⟩
  · unfold accepted
    decide +kernel

theorem witness_arrayEvents :
    let j := jobOf (.mstep 0 2 3 4 5) 0
    let z := { jobOf (.tzero 0 3) (descOf 0 1 1 1 0) with startAt := some 0 }
    let w := { z with seq := 1 }
    let s (l m : List Job) := State.reset.modCore 0 fun k => { k with array := l, tile := m }
    let late : State := { s [] [z] with coreClk := Vector.replicate 192 4 }
    let two : State := { s [{ w with startAt := none, seq := 0 }] [w] with coreClk := Vector.replicate 192 4 }
    ((s [j] []).core 0).array = [] ++ j :: [] ∧ j.startAt = none ∧ (((s [j] []).core 0).array.map Job.seq).Nodup ∧
      (∀ i ∈ ((s [j] []).core 0).array, i.occupied ((s [j] []).clk 0) = false) ∧
      (∃ i ∈ ((s [{ j with startAt := some 0 }] []).core 0).array, i.occupied ((s [] []).clk 0) = true) ∧
    z.due = some 4 ∧ (s [] [z]).clk 0 < 4 ∧ dueJob (late.clk 0) [z] = some z ∧ late.landBlocked 0 z = false ∧
      (late.applyJob 0 z).isSome = true ∧ two.landBlocked 0 w = true ∧ dueJob 4 [w] = some w ∧
    (let b := { jobOf (.bseal 0 0 0) 0 with startAt := some 0 }
     let p : State := { (s [b] []).modMdl fun m => { m with poison := [vaultBase 0 / 32] } with
       coreClk := Vector.replicate 192 100000 }
     dueJob (p.clk 0) (p.core 0).array = some b ∧ p.landBlocked 0 b = false ∧
       ∃ n ∈ p.mdl.poison, ∃ i < 32, vaultBase 0 ≤ 32 * n + i ∧ b.sealReads (32 * n + i - vaultBase 0) = true) := by
  refine ⟨?_, ?_, ?_, ?_, ?_, ?_, ?_, ?_, ?_, ?_, ?_, ?_, ?_, ?_, ?_⟩ <;> decide +kernel

theorem witness_accumulatorResults :
    let j := jobOf (.tzero 0 3) (descOf 3 1 64 64 10)
    let m := { jobOf (.mstep 0 2 3 4 5) (descOf 3 1 64 64 0) with da := descOf 0 0 64 64 3, fmt := 0x0033 }
    j.inj = none ∧ descFit j.dd ∧ slice j.dd 27 26 = 1 ∧ slice j.dd 34 28 = 64 ∧ typeA j.fmt j.dd = 10 ∧
      64 * (3 - slice j.dd 25 0) + 64 ≤ slice j.dd 45 35 ∧ typeA m.fmt m.dd = 0 ∧ mxType (typeA m.fmt m.da) ∧
      slice m.dd 45 35 ≤ 64 ∧ (rowR300 Core.reset [] 0 m).isSome = true := by
  unfold descFit mxType
  refine ⟨?_, ?_, ?_, ?_, ?_, ?_, ?_, ?_, ?_, rfl⟩ <;> decide +kernel

/-- The other operations of R300, and of the window, with descriptors at the edges of what they take. -/
theorem witness_arrayRows :
    let m := { jobOf (.mstepRev 0 2 3 4 5) (descOf 3 1 64 64 0) with da := descOf 0 0 64 64 3 }
    let k : Desc := 32 <<< 64
    (rowR300 Core.reset [] 0 m).isSome = true ∧ mxType (typeA m.fmt m.da) ∧
    (rowR300 Core.reset [] 0 (jobOf (.sstep 0 1 2 0 27) (descOf 3 1 64 64 0))).isSome = true ∧
    (rowR300 Core.reset [] 0 (jobOf (.sdstep 0 1 2 0 27) (descOf 3 1 64 64 0))).isSome = true ∧
    (rowR300 Core.reset [] 0 (jobOf (.tadd 0 1 2) (descOf 3 1 64 64 10))).isSome = true ∧
    typeA 0x0033 (descOf 3 1 64 64 0) = 0 ∧ 1 ≤ slice k 69 64 ∧ ¬slice k 69 64 ≤ 16 ∧
      slice (16 <<< 64 : Desc) 69 64 ≤ 16 ∧ (6 : BitVec 3).toNat < 7 ∧ (27 : BitVec 5).toNat < 28 ∧
    mxType (slice (0x0033 : BitVec 15) 7 4) ∧ slice (0x0053 : BitVec 15) 7 4 = 5 ∧ (0x4033 : BitVec 15).getLsbD 14 = true ∧
    Mem.wf State.reset.mem = true := by
  unfold mxType
  refine ⟨rfl, ?_, rfl, rfl, rfl, ?_, ?_, ?_, ?_, ?_, ?_, ?_, ?_, ?_, ?_⟩ <;> decide +kernel

theorem witness_convertedTiles :
    let t : Strip := ⟨(Vector.replicate 64 0).set 5 1, Vector.replicate 64 0, true⟩
    let k := { Core.reset with strips := [(0, t)] }
    let j := { jobOf (.tcvt 1 2 3 4) (descOf 0 2 64 64 1 + 128 <<< 64) with da := descOf 0 1 64 64 10 }
    j.op = .tcvt 1 2 3 4 ∧ Mem.wf k.spad = true ∧ slice j.da 34 28 ≤ 64 ∧ slice j.dd 45 35 * elemBytes 1 ≤ slice j.dd 83 64 ∧
      typeA j.fmt j.dd = 1 ∧ slice j.dd 27 26 = 2 ∧ typeA j.fmt j.da = 10 ∧ slice j.da 27 26 = 1 ∧ slice j.da 34 28 ≠ 0 ∧
      (0 < slice j.da 45 35 ∧ (k.strip 0).valid = true ∧ vget (k.strip 0).rows 5 0 ≠
        ((List.range 64).map fun x => lane (accRow k.acc (64 * 0 + 5)) x).sum) ∧
      (Core.reset.strip 0).valid = false := by
  refine ⟨?_, ?_, ?_, ?_, ?_, ?_, ?_, ?_, ?_, ⟨?_, ?_, ?_⟩, ?_⟩ <;> decide +kernel

theorem witness_strips :
    let whole := { jobOf (.mstep 0 2 3 4 5) (descOf 3 1 64 64 10) with da := descOf 0 0 64 256 3, db := descOf 0 3 64 256 3 }
    let part := { whole with da := descOf 0 0 63 256 3 }
    let add := { jobOf (.tadd 0 1 2) (descOf 3 1 64 64 10) with da := descOf 5 1 64 64 10 }
    (descFit whole.dd ∧ slice whole.dd 27 26 = 1 ∧ typeA whole.fmt whole.dd = 10 ∧ slice whole.da 34 28 = 64 ∧
      slice whole.dd 34 28 = 64 ∧ slice whole.dd 45 35 = 64 ∧ slice whole.db 34 28 = 64 ∧ typeA whole.fmt whole.da = 3) ∧
    (slice part.da 34 28 ≠ 64 ∧ slice part.dd 25 0 ≤ 3 ∧ 64 * (3 - slice part.dd 25 0) < slice part.dd 45 35) ∧
    (slice add.dd 27 26 = 1 ∧ slice add.da 27 26 = 1 ∧ slice add.dd 34 28 ≠ 0 ∧ slice add.da 34 28 ≠ 0 ∧
      typeA add.fmt add.dd = 10 ∧ 64 * 0 < slice add.dd 45 35 ∧ 64 * 0 < slice add.da 45 35) := by
  unfold descFit
  refine ⟨⟨?_, ?_, ?_, ?_, ?_, ?_, ?_, ?_⟩, ⟨?_, ?_, ?_⟩, ?_, ?_, ?_, ?_, ?_, ?_, ?_⟩ <;> decide +kernel

theorem witness_tcheck :
    let t : Strip := ⟨(Vector.replicate 64 0).set 5 1, (Vector.replicate 64 0).set 7 1, true⟩
    let k := { Core.reset with strips := [(3, t)] }
    let row (r : Nat) : Prop := (vget (k.strip 3).rows r 0).toNat ≠
      ((List.range 64).map fun x => (lane (accRow k.acc (64 * 3 + r)) x).toNat).sum % 2 ^ 32
    (k.strip 3).valid = true ∧ (Core.reset.strip 3).valid = false ∧ (∀ i < 64, row i ↔ i = 5) := by
  refine ⟨?_, ?_, ?_⟩ <;> decide +kernel

/-- The live node, its run, and the strand on core 0. -/
def nodeRec : NodeRec :=
  parseRec (0x30 * 2 ^ 16 + 2 ^ 80 + 7 * 2 ^ 96 + 2 ^ 150 + 0x30 * 2 ^ 272 + 2 ^ 320 + 2 ^ 384 + 2 ^ 432 + 2 ^ 448 + 2 ^ 853 + 2 ^ 902)

def nodeOf (r : NodeRec) (st : BitVec 3) : Node :=
  { addr := 0x1000, tag := 0, r := r, st := st, n := 1, done := 0, unyield := 0, fail := 0, parent := none,
    held := 0, die := 0, gangsDone := [] }

def runOf (started : Bool) : Run :=
  { id := 1, gang := 1, node := 0x1000, inst := 0, stage := 0, die := 0, c0 := 0, twin := false, started := started,
    barriers := 0, ranks := [⟨0, false, 0, [], some (0, false), [], 0, 0, false, []⟩] }

def live (n : Node) (started : Bool) : State :=
  let s := { running 1 with mem := cells }
  { s with mdl := { s.mdl with nodes := [n], runs := [runOf started] } }

/-- What a continuation record keeps of a context's registers. -/
def fourS (s : State) : List Word :=
  let r := (s.ctx 0 false).regs
  [r.sVal 1, r.sVal 2, r.sVal 3, r.sVal 4]

/-- A store of core 1 is on die 0's path. -/
def pathBusy (s : State) : State :=
  s.modDie 0 fun k => { k with path := [⟨0, 1, false, 9, 0, 0x1000, [1], 0x1000, 1⟩], nextPath := 1 }

theorem witness_doneRetire :
    let s := withCtx (live (nodeOf nodeRec 3) true) fun t => { t with status := .ending }
    let f := withCtx s fun t => { t with regs := { t.regs with aFault := 2 } }
    let b := pathBusy s
    (s.ctx 0 false).status = .ending ∧ s.doneDrained 0 false = true ∧ (s.ctx 0 false).strand = some (strandOf 1 0) ∧
      (s.ctx 0 false).regs.aFault = 0 ∧ (strandOf 1 0).cls = 0 ∧
      (∀ p ∈ (s.die 0).path, (s.ctx 0 false).wait.drainMark.getD (s.die 0).nextPath ≤ p.id) ∧
      (∃ u, s.vWrite (strandOf 1 0).slot (s.contData (strandOf 1 0) 0 4 0xFFFF (fourS s)) = .ok u) ∧
      (f.ctx 0 false).regs.aFault ≠ 0 ∧ f.doneDrained 0 false = true ∧ ((running 1).ctx 0 false).status ≠ .ending ∧
      b.doneDrained 0 false = true ∧
      (∃ p ∈ (b.die 0).path, p.id < (b.ctx 0 false).wait.drainMark.getD (b.die 0).nextPath) ∧
    (s.mdl.run? 1 = some (runOf true) ∧
      ∀ k < 1, k ≠ (strandOf 1 0).rank.toNat → ∀ q, (runOf true).ranks[k]? = some q → q.retired = true) ∧
    (running 1).mdl.run? 1 = none := by
  refine ⟨?_, ?_, ?_, ?_, ?_, ?_, wrote_some ?_, ?_, ?_, ?_, ?_, ?_, ⟨?_, fun k hk h => absurd ?_ h⟩, ?_⟩
  case refine_14 => exact Nat.lt_one_iff.1 hk
  all_goals decide +kernel

/-- The safe-point entry is found, and the save area and the continuation record take their bytes. -/
def spills (u : State) (sp slot : Word) (i : Nat) (f : Nat → List Byte) (b : State → List Byte) : Bool :=
  match u.sptEntry sp i with
  | none => false
  | some w => match u.vWrite (slot + 64) (f w) with
    | .error _ => false
    | .ok v => wrote (v.vWrite slot (b v))

theorem spilled {u : State} {sp slot : Word} {i : Nat} {f : Nat → List Byte}
    {b : State → List Byte}
    (h : spills u sp slot i f b = true) :
    ∃ w, u.sptEntry sp i = some w ∧ ∃ v, u.vWrite (slot + 64) (f w) = .ok v ∧ ∃ z, v.vWrite slot (b v) = .ok z := by
  unfold spills at h
  split at h
  · simp at h
  · rename_i w hw
    split at h
    · simp at h
    · rename_i v hv
      exact ⟨w, hw, v, hv, wrote_some h⟩

def suspending : State := withCtx (live (nodeOf nodeRec 3) true) fun t => { t with status := .suspending 0 1 }
def beside : State := suspending.modCtx 0 true fun t => { t with status := .parked }
def storing : State := accessing { newAccess false .load 8 true 5 0x1000 3 with st := .ready } suspending
def leaving : Strand := { strandOf 1 0 with spidx := 0, age := 0, alone := true }

/-- The strand once its drain is over: its suspension's number, and its place in the run. -/
def stopped (s : State) : State :=
  ((s.modWait 0 false fun w => { w with drainMark := some ((s.ctx 0 false).wait.drainMark.getD (s.die 0).nextPath) }).modCtx
    0 false fun t => { t with strand := some leaving }).modRank 1 0 fun r => { r with gen := (strandOf 1 0).gen }

theorem witness_suspension :
    let z := stopped suspending
    (suspending.ctx 0 false).status = .suspending 0 1 ∧ (suspending.ctx 0 false).strand = some (strandOf 1 0) ∧
      (strandOf 1 0).cls = 0 ∧ (suspending.ctx 0 false).evt.getLsbD 2 = false ∧
      leaving = { strandOf 1 0 with spidx := (0 : BitVec 15).setWidth 16, age := 0, alone := true } ∧
      suspending.drained 0 false = true ∧ (suspending.ctx 0 true).status = .free ∧ suspending.coreUsable 0 = true ∧
      (∃ v, z.vWrite (strandOf 1 0).slot
        (z.contData leaving 0 1 (z.stopLink leaving (.pinned 1 0 0 false) 0) (fourS suspending)) = .ok v) ∧
    storing.drained 0 false = false ∧
    (beside.ctx 0 true).status ≠ .free ∧ beside.drained 0 false = true ∧
    ((pathBusy beside).drained 0 false = true ∧
      ∃ p ∈ ((pathBusy beside).die 0).path,
        p.id < ((pathBusy beside).ctx 0 false).wait.drainMark.getD ((pathBusy beside).die 0).nextPath) ∧
    (suspending.mdl.node? 0x1000).isSome = true ∧ (suspending.mdl.run? 1).isSome = true := by
  refine ⟨?_, ?_, ?_, ?_, ?_, ?_, ?_, ?_, wrote_some ?_, ?_, ?_, ?_, ⟨?_, ?_⟩, ?_, ?_⟩ <;> decide +kernel

theorem witness_spill : (∀ p ∈ (beside.die 0).path, (beside.ctx 0 false).wait.drainMark.getD (beside.die 0).nextPath ≤ p.id) ∧
    beside.pinnedAt 0 false = none ∧ beside.runsOf 0 1 ≠ [] ∧
    ∃ w, (stopped beside).sptEntry (strandOf 1 0).sptab 0 = some w ∧
      ∃ v, (stopped beside).vWrite ((strandOf 1 0).slot + 64) ((stopped beside).saveData leaving 0 false w) = .ok v ∧
        ∃ z, v.vWrite (strandOf 1 0).slot
          (v.contData leaving 0 2 ((stopped beside).stopLink leaving (.spilled 1 0) 0) (fourS beside)) = .ok z := by
  refine ⟨?_, ?_, ?_, spilled (f := fun w => (stopped beside).saveData leaving 0 false w)
    (b := fun v => v.contData leaving 0 2 ((stopped beside).stopLink leaving (.spilled 1 0) 0) (fourS beside)) ?_⟩ <;>
    decide +kernel

/-- The image is loaded, the safe-point entry has no stub, and the save area it names is read. -/
def resumes (s : State) (c : Nat) (x : Bool) (n : Strand) (sp slot : Word) (i run : Nat) (rank : BitVec 4)
    (f : Nat → Nat) (q : Nat) : Bool :=
  match s.loadImage c x n with
  | .error _ => false
  | .ok u => match u.sptEntry sp i with
    | none => false
    | some w => sptStub w == q && match u.slotRead c run rank slot (f w) with
      | .error _ => false
      | .ok _ => true

theorem resumed {s : State} {c : Nat} {x : Bool} {n : Strand} {sp slot : Word} {i run : Nat} {rank : BitVec 4}
    {f : Nat → Nat} {q : Nat} (h : resumes s c x n sp slot i run rank f q = true) :
    ∃ u, s.loadImage c x n = .ok u ∧ ∃ w, u.sptEntry sp i = some w ∧ sptStub w = q ∧
      ∃ l, u.slotRead c run rank slot (f w) = .ok l := by
  unfold resumes at h
  split at h
  · simp at h
  · rename_i u hu
    split at h
    · simp at h
    · rename_i w hw
      simp only [Bool.and_eq_true, beq_iff_eq] at h
      refine ⟨u, hu, w, hw, h.1, ?_⟩
      replace h := h.2
      split at h
      · simp at h
      · rename_i l hl
        exact ⟨l, hl⟩

def placed : State := withCtx (live (nodeOf nodeRec 3) true) fun t => { t with status := .placed }

theorem witness_resumption :
    ((running 1).ctx 0 false).status ≠ .placed ∧ (placed.ctx 0 false).status = .placed ∧
      (placed.ctx 0 false).strand = some (strandOf 1 0) ∧
      placed.mdl.node? (strandOf 1 0).record = some (nodeOf nodeRec 3) ∧
      placed.mdl.run? (strandOf 1 0).run = some (runOf true) ∧ placed.flushing 0 (runOf true) = false ∧
      (runOf true).ranks[(strandOf 1 0).rank.toNat]? = some ⟨0, false, 0, [], some (0, false), [], 0, 0, false, []⟩ ∧
      sameAnswer (placed.readPlan nodeRec.plan nodeRec.nplan.toNat) (.ok []) = true ∧
      sameAnswer (placed.slotRead 0 1 0 (strandOf 1 0).slot 64) (.ok (List.replicate 64 0)) = true ∧
      recField (numLE (List.replicate 64 (0 : Byte))) 12 0 16 = 0 := by
  refine ⟨?_, ?_, ?_, ?_, ?_, ?_, ?_, ?_, ?_, ?_⟩ <;> decide +kernel

theorem witness_resume_image : ∃ u, placed.loadImage 0 false (strandOf 1 0) = .ok u ∧
    ∃ w, u.sptEntry (strandOf 1 0).sptab 0 = some w ∧ sptStub w = 0xFFFFFFFF ∧
      ∃ l, u.slotRead 0 1 0 ((strandOf 1 0).slot + 64) (recField w 32 0 32) = .ok l :=
  resumed (f := fun w => recField w 32 0 32) (by decide +kernel)

/-- A strand of class n on core 0, in a run of gang 1. -/
def guarded : State := withCtx (live (nodeOf nodeRec 3) true) fun t => { t with strand := some (strandOf 1 1) }

theorem witness_pipelineError : ((running 1).ctx 0 false).protected_ = false ∧ (guarded.ctx 0 false).protected_ = true ∧
    (guarded.core 0).nochg = false ∧ ((guarded.modCore 0 fun k => { k with nochg := true }).core 0).nochg = true ∧
    guarded.mdl.run? (guarded.ctx 0 false).runOf = some (runOf true) ∧
    (let s := guarded.modMdl fun m => { m with gangs := [⟨1, 0x1000, 0, 0, [], [1], false⟩] }
     s.mdl.run? 1 = some (runOf true) ∧ (s.abandonRun 1 false).mdl.gang? (runOf true).gang ≠ none) ∧
    (guarded.abandonRun 1 false).mdl.gang? (runOf true).gang = none := by
  refine ⟨?_, ?_, ?_, ?_, ?_, ⟨?_, ?_⟩, ?_⟩ <;> decide +kernel

/-- A run that has ended with a signature, and a vote of such runs. -/
def ran (id : Nat) (twin : Bool) (sig : Word) : Run :=
  { runOf true with id := id, twin := twin, ranks := [⟨0, true, sig, [], none, [], 0, 0, false, []⟩] }

def voting (rs : List Run) : State :=
  (live (nodeOf nodeRec 3) true).modMdl fun m =>
    { m with runs := rs, gangs := [⟨1, 0x1000, 0, 0, [0], rs.map Run.id, false⟩] }

/-- What the statement of a vote assumes of the state. -/
def votable (rs : List Run) : Bool :=
  let s := voting rs
  match s.mdl.gang? 1 with
  | none => false
  | some g => decide (g.votes.filterMap s.mdl.run? = rs) && rs.length == g.votes.length && (s.mdl.node? g.node).isSome &&
      rs.all (fun r => r.ranks.all RankRec.retired) &&
      (List.range 64).all fun d => (s.die d).queue.all fun e => e.gang != 1

theorem witness_dupVote :
    (votable [ran 1 false 5, ran 2 true 5] = true ∧ (ran 1 false 5).signature = (ran 2 true 5).signature) ∧
    (votable [ran 2 true 5, ran 1 false 6] = true ∧ (ran 1 false 6).signature ≠ (ran 2 true 5).signature) ∧
    votable [ran 1 false 5, ran 2 true 6, ran 3 false 5] = true ∧ votable [ran 1 false 5, ran 2 true 6, ran 3 false 6] = true ∧
    votable [ran 1 false 5, ran 2 true 5, ran 3 false 7] = true ∧
    votable [ran 1 false 5, ran 2 true 6, ran 3 false 7] = true ∧ (ran 3 false 7).signature ≠ (ran 1 false 5).signature ∧
    (ran 3 false 7).signature ≠ (ran 2 true 6).signature ∧ (ran 3 false 6).signature = (ran 2 true 6).signature ∧
    votable [ran 1 false 5, ran 2 true 5, ran 3 false 5] = true ∧
    (let q := { ran 2 true 6 with ranks := [⟨0, true, 6, [], none, [], 0, 0, true, []⟩] }
     votable [ran 1 false 5, q, ran 3 false 5] = true ∧ q.ranks.any RankRec.struck = true) := by
  refine ⟨⟨?_, ?_⟩, ⟨?_, ?_⟩, ?_, ?_, ?_, ?_, ?_, ?_, ?_, ?_, ?_, ?_⟩ <;> decide +kernel

theorem witness_containmentRelease :
    State.reset.mdl.run? 1 = none ∧
    (∃ k ∈ (runOf true).ranks, k.retired = false) ∧ (live (nodeOf nodeRec 3) true).mdl.run? 1 = some (runOf true) ∧
    (voting [ran 1 false 5]).mdl.run? 1 = some (ran 1 false 5) ∧ (∀ k ∈ (ran 1 false 5).ranks, k.retired = true) := by
  refine ⟨?_, ?_, ?_, ?_, ?_⟩ <;> decide +kernel

/-! Die 0's containment buffer full, and each holder waiting. -/

theorem eraseDups_nodup {l : List Nat} (h : l.Nodup) : l.eraseDups = l := by
  induction l with
  | nil => rfl
  | cons a l ih =>
    obtain ⟨ha, hl⟩ := List.nodup_cons.mp h
    rw [List.eraseDups_cons, List.filter_eq_self.mpr, ih hl]
    intro b hb
    have : b ≠ a := fun e => ha (e ▸ hb)
    simpa using this

theorem fold_same {l : List Nat} {s : State} {f : State → Nat → State} (h : ∀ x ∈ l, f s x = s) : l.foldl f s = s := by
  induction l with
  | nil => rfl
  | cons a l ih => rw [List.foldl_cons, h a (by simp)]; exact ih fun x hx => h x (by simp [hx])

/-- The holder's command waits for a line; the buffer holds n lines of its run. -/
def waiting : State :=
  guarded.modDie 0 fun k => { k with cmds := [{ cmdOf (copyOp 0 0) 0 0 with waits := true }] }

def holdsLines (n : Nat) : List Held := [⟨1, 0, 0, List.replicate (64 * n) 0, none, false⟩]

theorem holdsLines_run (n : Nat) : holdersOf (holdsLines n) = [1] := by
  simp [holdersOf, holdsLines, List.eraseDups_cons]

theorem holdsLines_total (n : Nat) : totalLines (holdsLines n) = n := by
  have h : linesOf (holdsLines n) 1 = blocksOf 0 (64 * n) := by
    unfold linesOf holdsLines
    rw [List.filter_cons_of_pos rfl, List.filter_nil, List.flatMap_cons, List.flatMap_nil, List.append_nil,
      List.length_replicate]
    refine eraseDups_nodup ?_
    unfold blocksOf
    exact List.nodup_range.map fun a b => by simp
  unfold totalLines
  rw [holdsLines_run, List.foldl_cons, List.foldl_nil, h]
  unfold blocksOf
  rw [List.length_map, List.length_range]
  omega

def brimful : List Held := holdsLines 524288

theorem waiting_quiet : (∀ l ∈ List.range 12, (waiting.core (12 * 0 + l)).accs.isEmpty = true ∧
    (waiting.core (12 * 0 + l)).ended = false) ∧ ∀ d ∈ List.range 64, (waiting.die d).racks = [] := by
  refine ⟨?_, ?_⟩ <;> decide +kernel

theorem waiting_same (l : List Held) :
    let s := waiting.modDie 0 fun k => { k with contain := l }
    ((s.settleDie 0).racksAgain).endedCores 0 = s := by
  intro s
  have e : ∀ c, s.core c = waiting.core c := fun c => core_modDie ..
  have k : ∀ d ∈ List.range 64, (s.die d).racks = [] := fun d hd => by
    have r : ∀ k : Die, ({ k with contain := l } : Die).racks = k.racks := fun _ => rfl
    rw [State.die_modDie]
    split
    · rw [r, waiting_quiet.2 0 (by simp)]
    · rw [waiting_quiet.2 d hd]
  have h1 : s.settleDie 0 = s := fold_same fun x hx => by rw [e, if_pos (waiting_quiet.1 x hx).1]
  have h2 : s.racksAgain = s := fold_same fun x hx => by rw [k x hx, List.foldl_nil]
  have h3 : s.endedCores 0 = s := fold_same fun x hx => by rw [e, (waiting_quiet.1 x hx).2, if_neg Bool.false_ne_true]
  rw [h1, h2, h3]

theorem witness_containmentFull :
    let s := waiting.modDie 0 fun k => { k with contain := brimful }
    let u := ((s.settleDie 0).racksAgain).endedCores 0
    let rs := (holdersOf (u.die 0).contain).filterMap u.mdl.run?
    rs = [runOf true] ∧ 524288 ≤ totalLines (u.die 0).contain ∧
      (∀ q ∈ rs, ∃ p ∈ q.places, u.ctxWaits p.1 p.2 = true) ∧ runOf true ∈ rs ∧ ∀ q ∈ rs, q.id ≤ (runOf true).id := by
  intro s u rs
  have hu : u = s := waiting_same brimful
  have hd : (u.die 0).contain = brimful := by
    rw [hu]
    exact congrArg Die.contain (State.die_modDie_same (by decide))
  have hr : rs = [runOf true] := by
    show (holdersOf (u.die 0).contain).filterMap u.mdl.run? = _
    rw [hd, hu, show holdersOf brimful = [1] from holdsLines_run _]
    decide +kernel
  refine ⟨hr, ?_, ?_, ?_, ?_⟩
  · exact Nat.le_of_eq (by rw [hd]; exact (holdsLines_total 524288).symm)
  · rw [hr, hu]
    decide +kernel
  · rw [hr]
    decide
  · rw [hr]
    decide

theorem witness_containmentRoom : totalLines (State.reset.die 0).contain < 524288 := by decide +kernel

/-- A store of run 2 is held by no line of a full buffer: it waits. -/
theorem holdWrite_waits : holdWrite brimful ⟨2, 0, 0x40000000, bytesLE 8 0, some (0x0, 0x10000), false⟩ = .waits := by
  have hn : ∀ r, r ≠ 1 → ∀ n, linesOf (holdsLines n) r = [] := fun r hr n => by
    simp [linesOf, holdsLines, hr.symm]
  have h2 : linesOf (holdsLines 524288 ++ [⟨2, 0, 0x40000000, bytesLE 8 0, some (0x0, 0x10000), false⟩]) 2 = [0x1000000] := by
    unfold linesOf holdsLines
    rw [List.filter_append, List.filter_cons_of_neg (by decide), List.filter_nil, List.nil_append]
    decide +kernel
  have h1 : linesOf (holdsLines 524288 ++ [⟨2, 0, 0x40000000, bytesLE 8 0, some (0x0, 0x10000), false⟩]) 1 = linesOf (holdsLines 524288) 1 := by
    unfold linesOf
    rw [List.filter_append, List.filter_cons_of_neg (by decide), List.filter_nil, List.append_nil]
  have hh : holdersOf (holdsLines 524288 ++ [⟨2, 0, 0x40000000, bytesLE 8 0, some (0x0, 0x10000), false⟩]) = [1, 2] := by
    unfold holdersOf holdsLines
    rw [List.map_append, List.map_cons, List.map_nil]
    decide
  have ht : totalLines (holdsLines 524288 ++ [⟨2, 0, 0x40000000, bytesLE 8 0, some (0x0, 0x10000), false⟩]) = 524289 := by
    have h := holdsLines_total 524288
    unfold totalLines at h ⊢
    rw [holdsLines_run, List.foldl_cons, List.foldl_nil] at h
    rw [hh, List.foldl_cons, List.foldl_cons, List.foldl_nil, h1, h2, h]
    rfl
  unfold holdWrite brimful
  dsimp only
  rw [h2, ht, hn 2 (by decide)]
  rfl

/-- The ring entry of a protected strand whose store finds no line: its RACK waits. -/
theorem witness_rackWaits :
    let e := { entryOf 0 .store 2 with prot := true }
    let s := (ringed [e]).modDie 0 fun k => { k with contain := brimful }
    (ringed [e]).entryOf 0 = some e ∧ (ringed [e]).rackSet 0 e = [e] ∧ e.acc.awaitsValue = false ∧
      (e.done = false ∧ e.acc.va.toNat % e.acc.size = 0 ∧ s.entryDie e = 0 ∧ (s.die 0).contain = brimful ∧
        holdWrite brimful ⟨2, 0, 0x40000000, bytesLE 8 0, some (0x0, 0x10000), false⟩ = .waits) := by
  refine ⟨?_, ?_, ?_, ?_, ?_, ?_, congrArg Die.contain (State.die_modDie_same (by decide)), holdWrite_waits⟩ <;>
    decide +kernel

/-- Where errors are found: an owner by half, by plan, by tag, or none; a stack's byte. -/
theorem witness_errorOwners :
    let plan (kind : BitVec 2) (s : State) := withCtx s fun t => { t with plan := [⟨kind, 0, 256, 0, 0, 0⟩] }
    let s := plan 0 (running 1)
    let z := s.modCtx 0 true fun t => { t with strand := some (strandOf 1 0), half := true }
    placeOkay (placeOf 63 0 (.register 11 false) 3) = true ∧ placeOkay (placeOf 0 0 (.register 12 false) 3) = false ∧
    ((s.ctx 0 false).strand ≠ none ∧ ∃ q ∈ (s.ctx 0 false).plan, q.kind = 0 ∧ q.off < 256 * (255 / 256) + 256 ∧
      256 * (255 / 256) < q.off + q.size) ∧
    (¬∃ q ∈ (s.ctx 0 false).plan, q.kind = 0 ∧ q.off < 256 * (256 / 256) + 256 ∧ 256 * (256 / 256) < q.off + q.size) ∧
    (∃ q ∈ ((plan 1 (running 1)).ctx 0 false).plan, q.kind = 1 ∧ q.off ≤ 16383 / 16384 ∧ 16383 / 16384 < q.off + q.size) ∧
    ((s.ctx 0 false).half = decide (131072 ≤ 131071) ∧ (s.ctx 0 true).strand = none) ∧
    ((z.ctx 0 true).strand ≠ none ∧ (z.ctx 0 true).half = decide (131072 ≤ 131072) ∧
      (z.ctx 0 false).half ≠ decide (131072 ≤ 131072)) ∧
    (s.site 0x1000).open_ = true ∧ (s.site (2 ^ 47 - 1)).open_ = false ∧ s.site 0x1000 = .hbm 1 ∧ s.mdl.ilv.toNat ≤ 64 := by
  refine ⟨?_, ?_, ⟨?_, ?_⟩, ?_, ?_, ⟨?_, ?_⟩, ⟨?_, ?_, ?_⟩, ?_, ?_, ?_, ?_⟩ <;> decide +kernel

/-- Cluster 0 retired. -/
def short : State := State.reset.modDie 0 fun k => { k with ret := 1 }

theorem witness_chargeCluster :
    short.clusterAlive 0 = false ∧ State.reset.clusterAlive 0 = true ∧
    (∀ h < 192, State.reset.clusterAlive h = true → State.reset.retiring h = false → h ≠ 0 →
      (State.reset.clusterScore h).toNat < 64 ∧ (State.reset.die (h / 3)).ds.toNat < 64) ∧
    (State.reset.clusterScore 0).toNat + 63 < 64 ∧ (State.reset.die (0 / 3)).ds.toNat < 64 ∧
    (∃ h < 192, h ≠ 0 ∧ State.reset.clusterAlive h = true ∧ State.reset.retiring h = false) ∧
    (State.reset.clusterScore 0).toNat + 64 ≤ 64 ∧ State.reset.retiring 0 = false := by
  refine ⟨?_, ?_, ?_, ?_, ?_, ⟨191, ?_⟩, ?_, ?_⟩ <;> decide +kernel

/-- One cluster left. -/
def lastOne : State :=
  { State.reset with dies := vset (State.reset.dies.map fun k => { k with ret := 7 }) 0 { State.reset.die 0 with ret := 6 } }

theorem witness_lastCluster : lastOne.clusterAlive 0 = true ∧ lastOne.retiring 0 = false ∧
    ∀ h < 192, lastOne.clusterAlive h = true → h = 0 := by
  refine ⟨?_, ?_, ?_⟩ <;> decide +kernel

/-- The clusters that survive and those that a charge finds at the threshold. -/
def surviving (s : State) : List Nat := (List.range 192).filter fun h => s.clusterAlive h && !(s.retiring h)
def overdue (s : State) : List Nat := (surviving s).filter fun h =>
  decide (64 ≤ (s.clusterScore h).toNat) || decide (64 ≤ (s.die (h / 3)).ds.toNat)

/-- Die 5 reaches the threshold with a charge of 8; of two clusters left, both are over it after a charge of 16. -/
theorem witness_wholeDie :
    let s := State.reset.modDie 5 fun k => { k with ds := 60 }
    let u := s.modDie 5 fun k => { k with ds := 68 }
    let z := { lastOne with dies := vset lastOne.dies 0 { lastOne.die 0 with ret := 4, cs := #v[60, 70, 0] } }
    let v := z.modDie 0 fun k => { k with cs := vset k.cs 0 76 }
    (min 255 ((s.die 5).ds.toNat + 8) = 68 ∧ overdue u = [15, 16, 17] ∧ (∃ h ∈ surviving s, h ∉ overdue u)) ∧
    (z.clusterAlive 0 = true ∧ min 255 ((z.clusterScore 0).toNat + 16) = 76 ∧ surviving z = [0, 1] ∧ overdue v = [0, 1]) ∧
    (overdue State.reset = [] ∧ (surviving State.reset).length ≠ 1) := by
  refine ⟨⟨?_, ?_, 0, ?_, ?_⟩, ⟨?_, ?_, ?_, ?_⟩, ?_, ?_⟩ <;> decide +kernel

theorem witness_retirement :
    (∀ g ∈ [0], g < 192 ∧ short.clusterAlive g = false) ∧ [0, 191] ≠ [] ∧
    (∀ g ∈ [0, 191], g < 192 ∧ State.reset.clusterAlive g = true) ∧
    (∀ g ∈ [0, 191], ∀ k < 4, (State.reset.core (4 * g + k)).c0.status = .free ∧
      (State.reset.core (4 * g + k)).c1.status = .free) ∧
    (State.reset.die 0).clean.toNat < 1023 ∧
    ((State.reset.modDie 0 fun k => { k with clean := 1023 }).die 0).clean.toNat = 1023 := by
  refine ⟨?_, ?_, ?_, ?_, ?_, ?_⟩ <;> decide +kernel

theorem witness_errors :
    let e := entryOf 5 .load 1
    let on := State.reset.modDie 0 fun k => { k with patrol := 1 }
    let ramp := on.modMdl fun m => { m with pStage := 1 }
    let inj := State.reset.modMdl fun m => { m with featAccept0 := 16 }
    bankFind [] 0x80 = none ∧
      (∃ b, bankFind (bankRecord [] 0x80 false 3 0x1000) 0x80 = some b ∧ getBit b.stat 2 = false) ∧
    ((ringed [e]).die 0).ring.find? (fun q => q.idx % 1024 == 5) = some e ∧
      ((ringed [e]).die 0).ring.find? (fun q => q.idx % 1024 == 6) = none ∧
    (State.reset.die 0).patrol = 0 ∧ ramp.mdl.pStage ≠ 0 ∧ (on.die 0).patrol ≠ 0 ∧ on.mdl.pStage = 0 ∧
    placeOkay (placeOf 63 0 (.yew 0) 0) = true ∧ placeOkay (placeOf 64 0 (.yew 0) 0) = false ∧
    State.reset.mdl.featAccept0.getLsbD 4 = false ∧ inj.mdl.featAccept0.getLsbD 4 = true := by
  refine ⟨?_, ⟨_, rfl, ?_⟩, ?_, ?_, ?_, ?_, ?_, ?_, ?_, ?_, ?_, ?_⟩ <;> decide +kernel

/-- The launch queue at address 0 of a memory, with one word to process. -/
def launching (head : BitVec 9) (m : Mem) : State :=
  { State.reset with mem := m, mdl := { State.reset.mdl with lqHead := head, lqTail := head + 1 } }

theorem witness_launch :
    let m := State.reset.mdl
    let w (s : State) : Word :=
      BitVec.ofNat 64 (memReadLE s.mem (2048 * slice s.mdl.lqBase 47 11 + 8 * (s.mdl.lqHead.toNat % 256)) 8)
    256 < ((257 : BitVec 9) - m.lqHead).toNat ∧ ((256 : BitVec 9) - m.lqHead).toNat ≤ 256 ∧ (256 : BitVec 9) ≠ m.lqTail ∧
      m.lqHead = m.lqTail ∧
    (launching 0 []).mdl.lqHead ≠ (launching 0 []).mdl.lqTail ∧ slice (w (launching 0 [(0, 1)])) 2 0 ≠ 0 ∧
    slice (w (launching 0 [])) 63 48 = 0 ∧ slice (w (launching 0 [])) 2 0 = 0 ∧
      sameAnswer ((launching 0 []).vRead (w (launching 0 [])) 8) (.error 1) = true ∧
    slice (w (launching 1 cells)) 63 48 = 0 ∧ slice (w (launching 1 cells)) 2 0 = 0 ∧
      sameAnswer ((launching 1 cells).vRead (w (launching 1 cells)) 8) (.ok [1, 0, 1, 0, 0, 0, 0, 0]) = true ∧
      numLE ([1, 0, 1, 0, 0, 0, 0, 0] : List Byte) / 65536 % 65536 ≠ 0 := by
  refine ⟨?_, ?_, ?_, ?_, ?_, ?_, ?_, ?_, ?_, ?_, ?_, ?_, ?_⟩ <;> decide +kernel

/-- A launch word at 0x800 names a table at 0x3000 that lists the node record at 0x1000, n times. -/
def tabled (n : Nat) : State :=
  let m := memWriteList (memWriteList cells 0x801 [0x30]) 0x3000
    ([BitVec.ofNat 8 n, 0, 0, 0, 9, 0, 0, 0] ++ (List.replicate n ([0, 0x10, 0, 0, 0, 0, 0, 0] : List Byte)).flatten)
  let s := launching 0 m
  { s with mdl := { s.mdl with lqBase := 0x800 } }

theorem witness_launches :
    let w (s : State) : Word :=
      BitVec.ofNat 64 (memReadLE s.mem (2048 * slice s.mdl.lqBase 47 11 + 8 * (s.mdl.lqHead.toNat % 256)) 8)
    let key (r : NodeRec) : Nat × Nat := (r.cdie.toNat, r.cidx.toNat)
    let taken := (tabled 1).modDie 0 fun k => { k with counters := [(0, ⟨1, 0x5000⟩)] }
    w (tabled 1) = 0x3000 ∧ w (tabled 2) = 0x3000 ∧
    sameAnswer ((tabled 1).vRead 0x3000 8) (.ok [1, 0, 0, 0, 9, 0, 0, 0]) = true ∧
    (tabled 1).vWords 0x3008 1 = some [0x1000] ∧ (tabled 2).vWords 0x3008 2 = some [0x1000, 0x1000] ∧
    (tabled 1).vWords 0x1FFFFF8 2 = none ∧
    (tabled 1).readRec 0x1000 = some nodeRec ∧ (tabled 1).recordBad 0x1000 nodeRec = false ∧
    (tabled 1).readRec 0x2000000 = none ∧
    assocGet ((tabled 1).die 0).counters 0 = none ∧ key nodeRec = (0, 0) ∧
    assocGet (taken.die 0).counters 0 ≠ none := by
  refine ⟨?_, ?_, ?_, ?_, ?_, ?_, ?_, ?_, ?_, ?_, ?_, ?_⟩ <;> decide +kernel

theorem witness_decrement :
    let s := State.reset.modDie 63 fun k => { k with counters := [(1, ⟨0, 0⟩), (65535, ⟨1, 0x1000⟩)] }
    slice (0x3FFFFF : BitVec 32) 21 16 = 63 ∧ slice (0x3FFFFF : BitVec 32) 15 0 = 65535 ∧
    assocGet (s.die 63).counters 0 = none ∧ assocGet (s.die 63).counters 1 = some ⟨0, 0⟩ ∧
      assocGet (s.die 63).counters 65535 = some ⟨1, 0x1000⟩ := by
  refine ⟨?_, ?_, ?_, ?_, ?_⟩ <;> decide +kernel

/-- The node as a launch leaves it, before it is ready; and it with a successor word at 0 or nowhere. -/
def armed : State := live (nodeOf nodeRec 2) true
def nodeWith (succ : Word) (n : BitVec 16) : Node := nodeOf { nodeRec with succ := succ, nsucc := n } 4

theorem witness_nodes :
    armed.mdl.node? 0x1000 = some (nodeOf nodeRec 2) ∧ (nodeOf nodeRec 2).parent = none ∧
      (∀ m ∈ armed.mdl.nodes, m ≠ nodeOf nodeRec 2 → m.addr ≠ 0x1000) ∧ armed.mdl.nodes.Nodup ∧
      (∃ r ∈ armed.mdl.runs, r.node = 0x1000 ∧ ∃ k ∈ r.ranks, k.place = some (0, false)) ∧
    State.reset.mdl.node? 0x1000 = none ∧ 3 ≤ (nodeOf nodeRec 3).st.toNat ∧
      (live (nodeOf nodeRec 3) true).mdl.node? 0x1000 = some (nodeOf nodeRec 3) ∧
    (nodeOf nodeRec 2).st.toNat < 3 ∧ ({ armed with mem := [] } : State).readRec 0x1000 = none ∧
    armed.readRec 0x1000 = some nodeRec ∧ nodeRec.ind = false ∧ nodeRec.wmark = 0 ∧ slice nodeRec.icnt 31 0 = 1 := by
  refine ⟨?_, ?_, ?_, ?_, ?_, ?_, ?_, ?_, ?_, ?_, ?_, ?_, ?_, ?_⟩ <;> decide +kernel

theorem witness_record :
    armed.recordBad 0x1000 { nodeRec with cdie := 0, cidx := 0, initPred := 0 } = false ∧
    armed.recordBad 0x1000 { nodeRec with width := 13, cdie := 0, cidx := 0, initPred := 0 } = true := by
  refine ⟨?_, ?_⟩ <;> decide +kernel

/-- A node that waits for memory: its record asks for more than is free, and lists a node to recompute, or none. -/
def thirsty (st : BitVec 3) (free : BitVec 32) : State :=
  let s := { live (nodeOf nodeRec st) true with mem := memWriteList cells 0x1058 [2] }
  { s with mdl := { s.mdl with memFree := free } }

theorem witness_ready :
    let r : NodeRec := { nodeRec with wmark := 2 }
    let held (k : BitVec 16) := (live (nodeOf nodeRec 2) true).modDie 0 fun q => { q with counters := [(0, ⟨k, 0x1000⟩)] }
    ((thirsty 1 1).mdl.node? 0x1000 = some (nodeOf nodeRec 1) ∧ (thirsty 1 1).readRec 0x1000 = some r ∧
      (thirsty 1 1).recordBad 0x1000 r = false ∧ (thirsty 1 1).mdl.memFree.toNat < r.wmark.toNat ∧
      ¬(thirsty 1 2).mdl.memFree.toNat < r.wmark.toNat ∧ (thirsty 1 1).vWords r.recomp r.nrecomp.toNat = some []) ∧
    ((thirsty 1 1).vWords 0x1000 1 = some [0x300000] ∧ (thirsty 1 1).vWords 0x2000000 1 = none) ∧
    ((held 1).mdl.node? 0x1000 = some (nodeOf nodeRec 2) ∧ ((held 1).counterOf nodeRec).toNat ≠ 0 ∧
      ((held 0).counterOf nodeRec).toNat = 0) ∧
    (sameAnswer ((held 0).vNum ((0 : BitVec 48).setWidth 64) 4) (.ok 0x10001) = true ∧
      sameAnswer ((held 0).vNum ((0x2000000 : BitVec 48).setWidth 64) 4) (.error 1) = true) ∧
    min 0 nodeRec.imax.toNat = 0 ∧ min (slice nodeRec.icnt 31 0) nodeRec.imax.toNat ≠ 0 := by
  refine ⟨⟨?_, ?_, ?_, ?_, ?_, ?_⟩, ⟨?_, ?_⟩, ⟨?_, ?_, ?_⟩, ⟨?_, ?_⟩, ?_, ?_⟩ <;> decide +kernel

theorem witness_copyInstance :
    armed.vWords (nodeRec.args + BitVec.ofNat 64 (32 * 0)) 4 = some [0, 0, 0, 0] ∧
      ({ armed with mem := [] } : State).vWords 0 4 = none ∧
    nodeRec.dieMask.getLsbD 0 = true ∧ armed.dieAlive 0 = true ∧
      (∀ d < 64, nodeRec.dieMask.getLsbD d = true → (armed.modDie 0 fun k => { k with ret := 7 }).dieAlive d = false) := by
  refine ⟨?_, ?_, ?_, ?_, ?_⟩ <;> decide +kernel

theorem witness_completion :
    let s (n : Node) := live n true
    (s (nodeWith 0 1)).mdl.node? 0x1000 = some (nodeWith 0 1) ∧ (nodeWith 0 1).parent = none ∧
      (s (nodeWith 0 1)).mdl.nodes.Nodup ∧ (s (nodeWith 0 1)).picks = [] ∧ (nodeWith 0 1).r.nsucc.toNat = 1 ∧
      sameAnswer ((s (nodeWith 0 1)).vNum 0 4) (.ok 0x10001) = true ∧
      (∃ u, (s (nodeWith 0 1)).vWrite (0x1000 + 120) (bytesLE 8 (5 + 1 * 2 ^ 32)) = .ok u) ∧
    sameAnswer ((s (nodeWith 0x1000000000000 1)).vNum 0x1000000000000 4) (.error 1) = true := by
  refine ⟨?_, ?_, ?_, ?_, ?_, ?_, wrote_some ?_, ?_⟩ <;> decide +kernel

/-- A run that a recompute made, and the HELD node that counts it. -/
def counted (n p : Option Word) (held : Nat) : State :=
  let c : Node := { nodeOf nodeRec 4 with parent := n }
  let h : Node := { nodeOf nodeRec 2 with addr := 0x2000, parent := p, held := held }
  (live c true).modMdl fun m => { m with nodes := [c, h] }

theorem witness_recomputed :
    let next (s : State) : State := (s.setNode { nodeOf nodeRec 4 with parent := some 0x2000, st := 5, done := 1 }).modMdl fun m =>
      { m with nodes := dropNode 0x1000 m.nodes, gangs := m.gangs.filter fun g => g.node != 0x1000 }
    let h (p : Option Word) (held : Nat) : Node := { nodeOf nodeRec 2 with addr := 0x2000, parent := p, held := held }
    (counted (some 0x2000) none 1).mdl.node? 0x1000 = some { nodeOf nodeRec 4 with parent := some 0x2000 } ∧
      nodeRec.notify = false ∧ ((next (counted (some 0x2000) none 1)).mdl.node? 0x1000).isSome = false ∧
    (next (counted (some 0x2000) none 1)).mdl.node? 0x2000 = some (h none 1) ∧
    (next (counted (some 0x2000) (some 0x3000) 1)).mdl.node? 0x2000 = some (h (some 0x3000) 1) ∧
    (next (counted (some 0x2000) (some 0x3000) 2)).mdl.node? 0x2000 = some (h (some 0x3000) 2) ∧
    (next (counted (some 0x5000) none 1)).mdl.node? 0x5000 = none := by
  refine ⟨?_, ?_, ?_, ?_, ?_, ?_, ?_⟩ <;> decide +kernel

/-- A fresh gang of width 2 waits on die 0, whose core 0 is retired with its cluster. -/
def queued : State :=
  let e : QEntry := ⟨1, 0x1000, 1, 7, 0, 0, 0, 2, 1, 0, false, .fresh⟩
  let s := { State.reset with mem := cells }
  (s.modMdl fun m => { m with nodes := [nodeOf nodeRec 3] }).modDie 0 fun k => { k with queue := [e], ret := 1 }

theorem witness_dispatch :
    (∀ l < 12, (State.reset.core (12 * 63 + l)).ended = false) ∧ (State.reset.die 63).queue = [] ∧
    (∀ l < 12, (queued.core (12 * 0 + l)).ended = false) ∧ (queued.die 0).queue = [⟨1, 0x1000, 1, 7, 0, 0, 0, 2, 1, 0, false, .fresh⟩] ∧
      queued.mdl.node? 0x1000 = some (nodeOf nodeRec 3) ∧ (queued.die 0).resv = none ∧
      (∀ k < 2, queued.coreUsable (12 * 0 + 4 + k) = true ∧ (queued.core (12 * 0 + 4 + k)).cur = none ∧
        (queued.core (12 * 0 + 4 + k)).c0.status = .free ∧ (queued.core (12 * 0 + 4 + k)).c1.status = .free ∧
        (queued.core (12 * 0 + 4 + k)).c1.strand = none) ∧
      (∀ b < 4, ∃ k < 2, queued.coreUsable (12 * 0 + b + k) = false) := by
  refine ⟨?_, ?_, ?_, ?_, ?_, ?_, ?_, ?_⟩ <;> decide +kernel

/-- A gang of width 4 on a die with one cluster, whose core 0 runs a strand: it stays in the queue. -/
def crowded : State :=
  let e : QEntry := ⟨1, 0x1000, 1, 7, 0, 0, 0, 4, 1, 0, false, .fresh⟩
  (live (nodeOf nodeRec 3) true).modDie 0 fun k => { k with queue := [e], ret := 6 }

theorem witness_ages : (match exec (.gangDispatch 0) crowded with
    | .next t => (t.die 0).queue.length == 1
    | _ => false) = true := by decide +kernel

/-- The gang of one strand, placed and not started. -/
def unstarted : State :=
  withCtx (live (nodeOf nodeRec 3) false) fun t => { t with status := .placed }

/-- The start of the strand can read and write what it needs. -/
def startable (s : State) (n : Strand) (node : Node) (b : State → List Byte) : Bool :=
  match s.loadImage 0 false n with
  | .error _ => false
  | .ok u => sameAnswer (u.readPlan node.r.plan node.r.nplan.toNat) (.ok []) &&
    match (u.modCore 0 fun q => q.setPlan false []).fillPlan 0 [] with
    | .error _ => false
    | .ok v => wrote (v.vWrite n.slot (b v))

theorem starts {s : State} {n : Strand} {node : Node} {b : State → List Byte}
    (h : startable s n node b = true) :
    ∃ u v plan, s.loadImage 0 false n = .ok u ∧ u.readPlan node.r.plan node.r.nplan.toNat = .ok plan ∧
      (u.modCore 0 fun q => q.setPlan false plan).fillPlan 0 plan = .ok v ∧ ∃ z, v.vWrite n.slot (b v) = .ok z := by
  unfold startable at h
  split at h
  · simp at h
  · rename_i u hu
    simp only [Bool.and_eq_true] at h
    obtain ⟨hp, h⟩ := h
    split at h
    · simp at h
    · rename_i v hv
      exact ⟨u, v, [], hu, eq_of_sameAnswer hp, hv, wrote_some h⟩

theorem witness_gangStart :
    (∀ r ∈ (running 1).mdl.runs, r.started = true) ∧ unstarted.mdl.runs = [runOf false] ∧
      (runOf false).started = false ∧ (runOf false).ranks = [⟨0, false, 0, [], some (0, false), [], 0, 0, false, []⟩] ∧
      unstarted.mdl.node? (runOf false).node = some (nodeOf nodeRec 3) ∧
      (unstarted.ctx 0 false).strand = some (strandOf 1 0) ∧
    ∃ u v plan, unstarted.loadImage 0 false (strandOf 1 0) = .ok u ∧
      u.readPlan nodeRec.plan nodeRec.nplan.toNat = .ok plan ∧
      (u.modCore 0 fun q => q.setPlan false plan).fillPlan 0 plan = .ok v ∧
      ∃ z, v.vWrite (strandOf 1 0).slot (v.contData (strandOf 1 0) 0 0 0xFFFF [0x300000, 0, 0, 1]) = .ok z := by
  refine ⟨?_, ?_, ?_, ?_, ?_, ?_, starts (node := nodeOf nodeRec 3)
    (b := fun v => v.contData (strandOf 1 0) 0 0 0xFFFF [0x300000, 0, 0, 1]) ?_⟩ <;> decide +kernel

/-- An image that no page maps, and one at a poisoned address, of the gang that starts. -/
theorem witness_gangFails :
    let far : Strand := { strandOf 1 0 with image := 0x2000000 }
    let s := withCtx unstarted fun t => { t with strand := some far }
    let p := unstarted.modMdl fun m => { m with poison := [0x300000 / 32] }
    let code (z : Except (BitVec 8) State) : Option (BitVec 8) := match z with
      | .error f => some f
      | .ok _ => none
    s.mdl.runs = [runOf false] ∧ (s.ctx 0 false).strand = some far ∧ s.mdl.node? 0x1000 = some (nodeOf nodeRec 3) ∧
      code (s.loadImage 0 false far) = some 1 ∧
    (p.mdl.runs = [runOf false] ∧ (p.ctx 0 false).strand = some (strandOf 1 0) ∧
      code (p.loadImage 0 false (strandOf 1 0)) = some 20) := by
  refine ⟨?_, ?_, ?_, ?_, ?_, ?_, ?_⟩ <;> decide +kernel

theorem witness_yieldDeadline :
    let asked (s : State) (w : Nat) := withCtx s fun t => { t with wait := { t.wait with deadline := some w }, evt := 4 }
    let s := { asked (live (nodeOf nodeRec 3) true) 9 with now := 10 }
    ((running 1).ctx 0 false).wait.deadline = none ∧
    ((asked (running 1) 9).ctx 0 false).wait.deadline = some 9 ∧ (asked (running 1) 9).now ≤ 9 ∧
    (s.ctx 0 false).wait.deadline = some 9 ∧ (s.ctx 0 false).strand = some (strandOf 1 0) ∧ 9 < s.now ∧
      (s.ctx 0 false).status = .running ∧ (s.die 0).retiring.contains 0 = false ∧
      s.mdl.node? (strandOf 1 0).record = some (nodeOf nodeRec 3) ∧
      (running 1).mdl.node? (strandOf 1 0).record = none ∧
      ((s.modDie 0 fun k => { k with retiring := [0] }).die 0).retiring.contains 0 = true ∧
    (sameAnswer (s.vNum (0x1000 + 121) 1) (.ok 0) = true ∧ wrote (s.vWrite (0x1000 + 121) (bytesLE 1 1)) = true ∧
      sameAnswer (s.vNum (0x2000000 + 121) 1) (.error 1) = true) ∧ (nodeOf nodeRec 3).parent = none := by
  refine ⟨?_, ?_, ?_, ?_, ?_, ?_, ?_, ?_, ?_, ?_, ?_, ⟨?_, ?_, ?_⟩, ?_⟩ <;> decide +kernel

theorem witness_hostEvents :
    let m := Module.reset
    let full := { m with evBase := 1, evTail := 512 }
    m.evBase.toNat % 16 = 0 ∧ full.evBase.toNat % 16 ≠ 0 ∧ (full.evTail - full.evHead).toNat = 2 ^ (1 + 8) ∧
      ({ full with evTail := 511 }.evTail - full.evHead).toNat ≠ 2 ^ (1 + 8) ∧ Mem.wf m.hostMem = true := by
  refine ⟨?_, ?_, ?_, ?_, ?_⟩ <;> decide +kernel

theorem witness_hostAccesses :
    let a := { newAccess false .load 8 true 5 0x1000 3 with st := .ready, pa := 0x200000000000, place := 3 }
    let s := accessing a (running 1)
    let busy := State.reset.modDie 0 fun k => { k with hrBusy := true }
    (∀ i < 4, (State.reset.site (0 + i)).open_ = true) ∧ (∃ i < 4, (State.reset.site (2 ^ 47 - 2 + i)).open_ = false) ∧
    ((running 1).core 0).acc? 7 = none ∧ (s.core 0).acc? 0 = some a ∧ s.site a.pa = .aperture 0 ∧ a.kind = .load ∧ a.st = .ready ∧
      a.reg ≠ 0 ∧ s.mdl.evBase.toNat % 16 = 0 ∧
    State.reset.mdl.phase ≠ 4 ∧ (State.reset.modMdl fun m => { m with phase := 4 }).mdl.phase = 4 ∧
      (State.reset.die 0).hrBusy = false ∧ (busy.die 0).hrBusy = true ∧
    ((0x30002 : Word).extractLsb' 0 2 = 2 ∧ (0x30003 : Word).extractLsb' 0 2 = 3) ∧
    (0 + 4 ≤ 2 ^ State.reset.mdl.bar2.toNat ∧ 2 ^ State.reset.mdl.bar2.toNat < (2 ^ 36 - 3) + 4) ∧
    (let b := { a with sent := true }
     let c := { a with id := 1 }
     let w := (running 1).modCore 0 fun k => { k with accs := [b, c] }
     (a.sent = false ∧ s.mayPerform 0 a = true) ∧
     (b.sent = true ∧ ((accessing b (running 1)).core 0).acc? 0 = some b) ∧
     ((w.core 0).acc? 1 = some c ∧ w.mayPerform 0 c = false)) := by
  refine ⟨?_, ?_, ?_, ?_, ?_, ?_, ?_, ?_, ?_, ?_, ?_, ?_, ?_, ?_, ?_, ⟨?_, ?_⟩, ⟨?_, ?_⟩, ?_, ?_⟩ <;> decide +kernel

/-- Link 15 up, with FEAT_ACCEPT0.0 set. -/
def linkUp (f : Link → Link) : State :=
  (State.reset.modMdl fun m => { m with featAccept0 := 1 }).modLink 15 fun k => f { k with en := true, state := 2 }

theorem witness_links :
    let fl : Flit := ⟨0, 0, 1, 0, 0, []⟩
    let k := (linkUp id).mdl.link 15
    let held := linkUp fun k => { k with replay := [fl] }
    let full := linkUp fun k => { k with replay := List.replicate 1024 fl }
    k.en = true ∧ (linkUp id).mdl.featAccept0.getLsbD 0 = true ∧ 2 ≤ k.state.toNat ∧
      (List.replicate 244 (0 : Byte)).length ≤ 244 ∧ k.replay.length < 1024 ∧ k.replay = [] ∧
      1024 ≤ (full.mdl.link 15).replay.length ∧
    (fl.seq = k.rxSeq + 1 ∧ { fl with seq := 5 }.seq ≠ k.rxSeq + 1) ∧
    (k.outq = [] ∧ (k.rxSeq - (0xFFFF : BitVec 16)).toNat < 2 ^ 15 ∧ 2 ^ 15 ≤ (k.rxSeq - (5 : BitVec 16)).toNat) ∧
    ((0 : BitVec 16) ≠ k.acked ∧ ((0 : BitVec 16) - k.acked).toNat < 2 ^ 15) ∧
    (held.mdl.link 15).replay ≠ [] ∧ k.failed.getLsbD 3 = false ∧
      ((linkUp fun k => { k with failed := 8 }).mdl.link 15).failed.getLsbD 3 = true ∧
      ((linkUp fun k => { k with state := 1 }).mdl.link 15).state.toNat < 2 := by
  refine ⟨?_, ?_, ?_, ?_, ?_, ?_, ?_, ⟨?_, ?_⟩, ⟨?_, ?_, ?_⟩, ⟨?_, ?_⟩, ?_, ?_, ?_, ?_⟩ <;> decide +kernel

/-- Whether the replay time has passed: Config fixes the time, so the clock is chosen by it. -/
theorem witness_replayTimes :
    let s (n : Nat) : State := { linkUp fun k => { k with replay := [⟨0, 0, 1, 0, 0, []⟩] } with now := n }
    (((s Config.replay).mdl.link 15).ackAt + Config.replay ≤ (s Config.replay).now) ∧
    (0 < Config.replay → (s 0).now < ((s 0).mdl.link 15).ackAt + Config.replay) :=
  ⟨Nat.le_of_eq (Nat.zero_add _), fun h => by
    show 0 < 0 + Config.replay
    omega⟩

/-- A flit that arrives whole and is next in order, and none. Its CRC is worked out in four runs of 61 bytes. -/
def sampleFlit : Flit := ⟨0, 0, 1, 244, 1, List.replicate 244 7⟩

def crcRun (c : BitVec 32) (n : Nat) : BitVec 32 := (List.replicate n 7).foldl crc32Byte c

theorem crcRun_add (c : BitVec 32) (a b : Nat) : crcRun c (a + b) = crcRun (crcRun c a) b := by
  simp [crcRun, ← List.replicate_append_replicate]

theorem sampleFlit_crc : crc32c (flitBody sampleFlit) = 1575315786 := by
  have h : flitBody sampleFlit = [0, 0, 0, 0, 65, 31, 0, 0] ++ List.replicate 244 7 := by decide +kernel
  have h0 : [0, 0, 0, 0, 65, 31, 0, 0].foldl crc32Byte (BitVec.allOnes 32) = 959946508 := by decide +kernel
  have h1 : crcRun 959946508 61 = 555678338 := by decide +kernel
  have h2 : crcRun 555678338 61 = 2638840499 := by decide +kernel
  have h3 : crcRun 2638840499 61 = 1310926966 := by decide +kernel
  have h4 : crcRun 1310926966 61 = 2719651509 := by decide +kernel
  have h5 : crcRun 959946508 244 = 2719651509 := by
    rw [show 244 = 61 + 61 + 61 + 61 by rfl, crcRun_add, crcRun_add, crcRun_add, h1, h2, h3, h4]
  unfold crc32c
  rw [h, List.foldl_append, h0, show (List.replicate 244 7).foldl crc32Byte 959946508 = crcRun 959946508 244 from rfl, h5]
  decide

theorem witness_flits :
    flitOf (flitBytes sampleFlit) = some sampleFlit ∧ flitOf [1, 1, 1, 1] = none ∧
      ((linkUp id).mdl.link 15).rxSeq + 1 = sampleFlit.seq := by
  refine ⟨?_, ?_, ?_⟩
  · have h : flitBytes sampleFlit = flitBody sampleFlit ++ bytesLE 4 1575315786 := by
      unfold flitBytes
      rw [sampleFlit_crc]
      rfl
    have k : (flitBody sampleFlit ++ bytesLE 4 1575315786).take 252 = flitBody sampleFlit := by decide +kernel
    unfold flitOf
    rw [h, k, sampleFlit_crc]
    decide +kernel
  all_goals decide +kernel

theorem witness_lanes :
    let k := (linkUp id).mdl.link 15
    let log : List (Nat × Nat × Nat) := [(3, 0, 9), (3, 0, 8)]
    (∀ j < 16, ((1 : BitVec 16)).getLsbD j = (k.failed.getLsbD j || decide (j = 0))) ∧
    (∀ j < 16, ((257 : BitVec 16)).getLsbD j = ((1 : BitVec 16).getLsbD j || decide (j = 8))) ∧
    ¬(slice (1 : BitVec 16) 7 0 ≠ 0 ∧ slice (1 : BitVec 16) 15 8 ≠ 0) ∧
    (slice (257 : BitVec 16) 7 0 ≠ 0 ∧ slice (257 : BitVec 16) 15 8 ≠ 0) ∧
    16 < ((log.filter fun e => e.1 == 3).map fun e => e.2.2).sum ∧
    ¬16 < ((log.tail.filter fun e => e.1 == 3).map fun e => e.2.2).sum := by
  refine ⟨?_, ?_, ?_, ?_, ?_, ?_⟩ <;> decide

/-- Each part that a host read can take (R360). -/
theorem witness_readParts :
    let s (l : List Nat) : State := { State.reset with picks := l }
    ((s []).pick 0).1 = 0 ∧ ((s [1]).pick 0).1 = 1 ∧ ((s [2]).pick 0).1 = 2 ∧ (s [1]).readPart.1 = .low ∧
      (s [2]).readPart.1 = .high := ⟨rfl, rfl, rfl, rfl, rfl⟩

theorem witness_inbound :
    let s := { linkUp fun k => { k with inEn := true, inLim := 0x10000 } with mem := cells }
    let k := s.mdl.link 15
    (k.inEn = true ∧ k.en = true ∧ s.mdl.featAccept0.getLsbD 0 = true) ∧ 0xFFFF < k.inLim.toNat ∧
      k.inLim.toNat ≤ 0x10000 ∧ ((linkUp id).mdl.link 15).inEn = false ∧
      sameAnswer (s.xlate (k.inBase.setWidth 64 <<< 16 + BitVec.ofNat 64 0xFFFF) ⟨false, true, false⟩)
        (.ok (0xFFFF, 0)) = true := by
  refine ⟨⟨?_, ?_, ?_⟩, ?_, ?_, ?_, ?_⟩ <;> decide +kernel

theorem witness_power :
    let off := State.reset.modMdl fun m => { m with halted := true }
    ({ State.reset with now := 15 } : State).now % 16 ≠ 0 ∧ State.reset.now % 16 = 0 ∧
    State.reset.mdl.halted = false ∧ off.mdl.halted = true ∧
    ({ off with agenda := [(0, .launchWord)] } : State).agenda = (0, .launchWord) :: [] ∧ 0 ≤ off.now ∧
    State.reset.now < State.reset.mdl.pEstAt + 24000 ∧
    (let s : State := { State.reset with now := 24000 }
     s.mdl.pEstAt + 24000 ≤ s.now ∧ s.mdl.pStage = 0) := by
  refine ⟨?_, ?_, ?_, ?_, ?_, ?_, ?_, ?_, ?_⟩ <;> decide +kernel

/-- A configuration image whose levels have 4 or 15 duty bits. -/
def image : ConfigImage :=
  { retired := [63], ilv := 32, modid := 1, plim := (0x000F, 0) :: List.replicate 15 (0x7FFF, 0xFFFF), patrol := 2,
    linkEn := 0x8000, repairs := [] }

theorem image_duty : ∀ e ∈ image.plim, 4 ≤ (List.range 16).countP (fun n => e.1.getLsbD n) ∧
    (List.range 16).countP (fun n => e.1.getLsbD n) ≤ 15 := by
  intro e he
  unfold image at he
  rcases List.mem_cons.mp he with rfl | h
  · decide
  · rw [List.eq_of_mem_replicate h]
    decide

theorem witness_startUp :
    let at_ (p : BitVec 3) := State.reset.modMdl fun m => { m with phase := p }
    let minimal (v : BitVec 32) := (at_ 3).modMdl fun m => { m with bootCode := 5, trained := v }
    let fit (s : State) (v : BitVec 64) (d : Nat) : Prop := v.getLsbD d = true ∧
      (d < 16 ∧ s.mdl.trained.getLsbD d = true ∨ 48 ≤ d ∧ s.mdl.trained.getLsbD (d - 32) = true)
    ((at_ 1).mdl.phase = 1 ∧ image.plim.length = 16 ∧
      (∀ e ∈ image.plim, 4 ≤ (List.range 16).countP (fun n => e.1.getLsbD n) ∧
        (List.range 16).countP (fun n => e.1.getLsbD n) ≤ 15) ∧ (at_ 1).mdl.bootCode ≠ 5) ∧
    ((at_ 2).mdl.phase = 2 ∧ (at_ 2).mdl.bootCode ≠ 5 ∧ (at_ 2).mdl.fails.toNat < 2) ∧
    ((at_ 3).mdl.phase = 3 ∧ (∀ d < 64, (at_ 3).dieAlive d = true → (BitVec.allOnes 64).getLsbD d = true)) ∧
    (∃ d < 64, (at_ 3).dieAlive d = true ∧ (1 : BitVec 64).getLsbD d = false) ∧
    (∀ d < 64, ¬fit (minimal 0) (BitVec.allOnes 64) d) ∧
    (fit (minimal 0xFFFF0000) (BitVec.allOnes 64) 48 ∧ ∀ e < 48, ¬fit (minimal 0xFFFF0000) (BitVec.allOnes 64) e) ∧
    ((at_ 4).mdl.phase = 4 ∧ (at_ 3).mdl.phase ≠ 4 ∧ (at_ 4).mdl.bootCode ≠ 5 ∧
      ((at_ 4).modMdl fun m => { m with bootCode := 5 }).mdl.bootCode = 5) ∧
    (let third (p : BitVec 3) := (at_ p).modMdl fun m => { m with fails := 2, trained := 0xFFFF0000 }
     (third 2).mdl.phase = 2 ∧ (third 2).mdl.bootCode ≠ 5 ∧ 2 ≤ (third 2).mdl.fails.toNat ∧
       ((third 3).mdl.phase = 3 ∧ (∃ d < 64, (third 3).dieAlive d = true ∧ (0x1000000000000 : BitVec 64).getLsbD d = false) ∧
         fit (third 3) 0x1000000000000 48 ∧ (∀ e < 48, ¬fit (third 3) 0x1000000000000 e) ∧
         ∀ d < 64, ¬fit (third 3) 1 d)) := by
  refine ⟨⟨?_, ?_, image_duty, ?_⟩, ⟨?_, ?_, ?_⟩, ⟨?_, ?_⟩, ?_, ?_, ⟨?_, ?_⟩, ⟨?_, ?_, ?_, ?_⟩, ?_, ?_, ?_, ?_, ?_, ?_, ?_, ?_⟩ <;> decide +kernel

/-! ## Small steps, with results worked out by hand from the rule each names

`lands f i` is what the operation i leaves to land in the registers of context 0 of core 0, whose clock stands at 0. -/

def lands (f : Ctx → Ctx) (i : Instr) : List (Nat × Instr) :=
  match exec i (withCtx open0 f) with
  | .next t => (t.core 0).timers
  | _ => []

/-- One scalar result v of latency n for s3, from the values a of s1 and b of s2. -/
def scalar (i : Instr) (a b : Word) (n : Nat) (v : Word) : Bool :=
  lands (fun t => hold (.s 1 a) (hold (.s 2 b) t)) i == [(n, .resultLand 0 false (.s 3 v))]

/-- Lane 0 of the result for v3, from lanes a of v1, b of v2 and d of v3, all lanes enabled. -/
def vector (i : Instr) (a b d : Lane) (v : Lane) : Bool :=
  match lands (fun t => hold (.v 1 (a.setWidth 2048)) (hold (.v 2 (b.setWidth 2048)) (hold (.v 3 (d.setWidth 2048)) t))) i with
  | [(_, .resultLand 0 false (.v 3 x))] => lane x 0 == v
  | _ => false

/-- R160: ADD wraps, and its 32-bit form is sign-extended. -/
theorem test_add : scalar (.add ⟨0, false⟩ 3 1 2 false) 0xFFFFFFFFFFFFFFFF 2 1 1 = true ∧
    scalar (.add ⟨0, false⟩ 3 1 2 true) 0x7FFFFFFF 1 1 0xFFFFFFFF80000000 = true := by decide +kernel
/-- R160: a guard that does not hold leaves the destination alone. -/
theorem test_add_guard : lands id (.add ⟨0, true⟩ 3 1 2 false) = [] := by decide +kernel
theorem test_sub : scalar (.sub ⟨0, false⟩ 3 1 2 false) 0 1 1 0xFFFFFFFFFFFFFFFF = true := by decide +kernel
/-- R160: (-1)(-1) / 2^64 is 0, and (2^64 - 1)^2 / 2^64 is 2^64 - 2. -/
theorem test_mulhi : (match lands (fun t => hold (.s 1 (-1)) (hold (.s 2 (-1)) t)) (.mulhi ⟨0, false⟩ 3 1 2) with
    | [(_, .resultLand 0 false (.s 3 x))] => x == 0 | _ => false) = true := by decide +kernel
theorem test_mulhn : (match lands (fun t => hold (.s 1 (-1)) (hold (.s 2 (-1)) t)) (.mulhn ⟨0, false⟩ 3 1 2) with
    | [(_, .resultLand 0 false (.s 3 x))] => x == -2 | _ => false) = true := by decide +kernel
/-- R160: only b[5:0], or b[4:0] for .w, counts. -/
theorem test_shl : scalar (.shl ⟨0, false⟩ 3 1 2 false) 1 0x7F 1 0x8000000000000000 = true ∧
    scalar (.shl ⟨0, false⟩ 3 1 2 true) 1 0x3F 1 0xFFFFFFFF80000000 = true := by decide +kernel
theorem test_sar : scalar (.sar ⟨0, false⟩ 3 1 2 false) 0x8000000000000000 63 1 0xFFFFFFFFFFFFFFFF = true ∧
    scalar (.shr ⟨0, false⟩ 3 1 2 true) 0xFFFFFFFF80000000 31 1 1 = true := by decide +kernel
theorem test_min : scalar (.min ⟨0, false⟩ 3 1 2) (-1) 1 1 (-1) = true ∧ scalar (.minn ⟨0, false⟩ 3 1 2) (-1) 1 1 1 = true := by
  decide +kernel
theorem test_clz : scalar (.clz ⟨0, false⟩ 3 1 false) 1 0 1 63 = true ∧ scalar (.clz ⟨0, false⟩ 3 1 true) 0 0 1 32 = true := by
  decide +kernel
/-- R161: position 60, length 8 runs past bit 63: the sign is read as 0; BFI is cut there. -/
theorem test_bfx : scalar (.bfx ⟨0, false⟩ 3 1 2 true) 0xF000000000000000 0x83C 1 0xF = true ∧
    scalar (.bfx ⟨0, false⟩ 3 1 2 true) 0xF000000000000000 0x43C 1 (-1) = true := by decide +kernel
theorem test_bfi : scalar (.bfi ⟨0, false⟩ 3 1 2) 0xFF 0x83C 1 0xF000000000000000 = true := by decide +kernel
/-- R162: ANDI sign-extends, ORI does not. -/
theorem test_andi : scalar (.andi 3 1 0x3FF) 0x123456789 0 1 0x123456789 = true ∧
    scalar (.ori 3 1 0x3FF) 0 0 1 0x3FF = true := by decide +kernel
/-- R163: LIH appends its 22 bits. -/
theorem test_li : scalar (.li 3 (.short 0x7FFB)) 0 0 1 (-5) = true ∧
    lands (hold (.s 3 1)) (.lih 3 (.long 0x3FFFFF)) = [(1, .resultLand 0 false (.s 3 0x7FFFFF))] := by decide +kernel
/-- R98: s0 takes no result. -/
theorem test_s0 : lands id (.li 0 (.short 1)) = [] := by decide +kernel

/-- R177: no element carries into its neighbour. -/
theorem test_vadd_b : vector (.vadd 3 1 2 0 false 2) 0x00FF00FF 0x00010001 0 0 = true ∧
    vector (.vadd 3 1 2 0 false 0) 0xFFFFFFFF 1 0 0 = true := by decide +kernel
theorem test_vabs : vector (.vabs 3 1 0 false 1) 0x8000FFFF 0 0 0x80000001 = true := by decide +kernel
theorem test_vsar : vector (.vsar 3 1 2 0 false 1) 0x80004000 0x000F0011 0 0xFFFF2000 = true := by decide +kernel
/-- R178: 1 + 2^-24 is a tie and keeps the even 1; infinity - infinity is the canonical NaN. -/
theorem test_vfadd : vector (.vfadd 3 1 2 0 false) 0x3F800000 0x33800000 0 0x3F800000 = true ∧
    vector (.vfsub 3 1 2 0 false) 0x7F800000 0x7F800000 0 0x7FC00000 = true := by decide +kernel
/-- R178: the smallest normal number halved is subnormal, 0x00400000; one rounding in VFMA. -/
theorem test_vfmul : vector (.vfmul 3 1 2 0 false) 0x00800000 0x3F000000 0 0x00400000 = true := by decide +kernel
/-- (1 + 2^-23)(1 - 2^-23) - 1 is -2^-46 exactly. -/
theorem test_vfma : vector (.vfma 3 1 2 0 false 1) 0x3F800001 0x3F7FFFFE 0x3F800000 0xA8800000 = true := by decide +kernel
theorem test_vfdiv : vector (.vfdiv 3 1 2 0 false) 0x3F800000 0x40400000 0 0x3EAAAAAB = true ∧
    vector (.vfsqrt 3 1 0 false) 0x40000000 0 0 0x3FB504F3 = true := by decide +kernel
/-- R178: -0 lies below +0. -/
theorem test_vfmin : vector (.vfmin 3 1 2 0 false) 0 0x80000000 0 0x80000000 = true := by decide +kernel
/-- R187: the wrapped sum stands in lane 0; R90's identity for MIN stands for disabled lanes. -/
theorem test_vred : vector (.vred 3 1 0 false 0) 7 0 9 7 = true ∧ vector (.vred 3 1 0 false 1) 7 0 9 0 = true := by
  decide +kernel
/-- R180: a comparison with a NaN is unordered: LT fails and NLT holds. -/
theorem test_vfcmp :
    (match lands (fun t => hold (.v 1 (BitVec.ofNat 2048 0x7FC00000)) t) (.vfcmp 3 1 2 0 false 1) with
     | [(_, .resultLand 0 false (.m 3 x))] => !x.getLsbD 0 | _ => false) = true := by decide +kernel
/-- R182: the truth table 0b0110 is XOR. -/
theorem test_mlog : (match lands (fun t => hold (.m 1 5) (hold (.m 2 3) t)) (.mlog 3 1 2 6) with
    | [(_, .resultLand 0 false (.m 3 x))] => x == 6 | _ => false) = true := by decide +kernel
/-- R188: VROT by 1 brings lane 1 to lane 0. -/
theorem test_vrot : (match lands (fun t => hold (.v 1 (BitVec.ofNat 2048 (9 * 2 ^ 32))) t) (.vrot 3 1 1 0 false 0) with
    | [(_, .resultLand 0 false (.v 3 x))] => lane x 0 == 9 && lane x 63 == 0 | _ => false) = true := by decide +kernel
/-- R135, R134: BR goes forward by its offset, and a target outside the image traps with its code offset. -/
theorem test_br : (match exec (.br ⟨0, false⟩ (.short 5)) open0 with
    | .next t => t.issue.next == some 5 && t.issue.redirect | _ => false) = true ∧
    (match exec (.br ⟨0, false⟩ (.short 0x7FFF)) (withCtx (running 4) fun t => { t with tvecUnset := false }) with
     | .next t => (t.ctx 0 false).tinfo.cause == 6 && (t.ctx 0 false).tinfo.info == 16 * 0x7FFF | _ => false) = true := by
  decide +kernel

end Sys2Proof.Tests
end

section
/-!
SUPPORT. NOP (R97): what every slot's decoder makes of opcode 0, the bundle of four NOPs, and what performing
an operation that can trap for no cause comes to.
-/

namespace Sys2Proof.Nop
open Sys2Proof.Machine Sys2Proof.Laws.SlotWord

/-! ## The words of opcode 0 -/

/-- The NOP of slot k. -/
def nopOf : Nat → Instr
  | 0 => .nopS0
  | 1 => .nopS1
  | 2 => .nopS2
  | _ => .nopS3

/-- The bit at which the opcode of slot k begins (R109 to R112). -/
def opcodeAt : Nat → Nat
  | 0 => 20
  | 2 => 25
  | _ => 26

theorem rawSlot_opcode_zero {k w : Nat} (hk : k < 4) (hw : w < 2 ^ opcodeAt k) (x : Option (BitVec 7)) :
    rawSlot k w x = some (nopOf k) := by
  have hop : w / 2 ^ opcodeAt k = 0 := Nat.div_eq_of_lt hw
  match k, hk with
  | 0, _ => rw [rawSlot_0]; unfold raw0; rw [show w / 2 ^ 20 = 0 from hop]; rfl
  | 1, _ => rw [rawSlot_1]; unfold raw1; rw [show w / 2 ^ 26 = 0 from hop]; rfl
  | 2, _ => rw [rawSlot_2]; unfold raw2; rw [show w / 2 ^ 25 = 0 from hop]; rfl
  | 3, _ => rw [rawSlot_3]; unfold raw3; rw [show w / 2 ^ 26 = 0 from hop]; rfl

theorem nopOf_word (k : Nat) : (nopOf k).word = 0 := by
  unfold nopOf
  split <;> rfl

theorem decodeSlot_of_word_ne {k w : Nat} {x : Option (BitVec 7)} {i : Instr} (hr : rawSlot k w x = some i)
    (hw : i.word ≠ w) : decodeSlot k w x = .error .reservedBits := by
  simp [decodeSlot, hr, hw]

theorem decodeSlot_opcode_zero {k w : Nat} (hk : k < 4) (hw : w < 2 ^ opcodeAt k) (h0 : w ≠ 0)
    (x : Option (BitVec 7)) : decodeSlot k w x = .error .reservedBits :=
  decodeSlot_of_word_ne (rawSlot_opcode_zero hk hw x) (by rw [nopOf_word]; exact h0.symm)

/-! ## The bundle of four NOPs -/

theorem slotParts_zero {k : Nat} (hk : k < 4) : slotParts k 0 none = (nopOf k, false, false) := by
  have hr : rawSlot k 0 none = some (nopOf k) := rawSlot_opcode_zero hk (Nat.two_pow_pos _) none
  unfold slotParts
  rw [hr]
  match k, hk with
  | 0, _ | 1, _ | 2, _ | 3, _ => rfl

/-- A NOP names no destination and is not VSEED or MTSR, so no two clash (R101, R191). -/
theorem nopOf_apart (j k : Nat) : (sharesDest (nopOf j) (nopOf k) || seedClash (nopOf j) (nopOf k)) = false := by
  unfold nopOf
  split <;> rfl

theorem toNat_energyWord (e : BitVec 4) : (e.setWidth 32 <<< 28).toNat = e.toNat * 2 ^ 28 := by
  have := e.isLt
  rw [BitVec.toNat_shiftLeft, BitVec.toNat_setWidth, Nat.shiftLeft_eq]
  omega

/-- The energy code stands in bits 31:28, above the header bit and slot 0's operation (R93). -/
theorem decodeBundle_nops (e : BitVec 4) : decodeBundle ⟨e.setWidth 32 <<< 28, 0, 0, 0⟩ =
    .ok ⟨e, none, false, .nopS0, .nopS1, .nopS2, .nopS3⟩ := by
  have hhdr : natBit (e.toNat * 2 ^ 28) 27 = false := natBit_eq (show _ = 0 by omega)
  have hlow : e.toNat * 2 ^ 28 % 2 ^ 28 = 0 := Nat.mul_mod_left _ _
  have hcode : fld (e.toNat * 2 ^ 28) 28 4 = e := fld_eq (by have := e.isLt; omega)
  unfold decodeBundle
  simp only [toNat_energyWord, hhdr, hlow, hcode, BitVec.ofNat_eq_ofNat, BitVec.toNat_zero, Nat.zero_div,
    Nat.reduceBEq, Bool.false_and, Bool.false_eq_true, if_false, slotParts_zero, Nat.reduceLT, nopOf_apart,
    Bool.or_false]
  rfl

/-! ## No effect -/

theorem perform_of_no_trap {i : Instr} {f : State → State} {s : State}
    (h : trapsOf i s s.focusC s.focusX = []) :
    perform i f s = .next (if s.issue.isOpen then f s else (f s.openIssue).closeIssue) := by
  cases ho : s.issue.isOpen with
  | true => rw [perform_open ho, if_pos rfl]
  | false => rw [perform_closed ho, worstTrap_none.2 h, if_neg Bool.false_ne_true]

theorem exec_nopOf (k : Nat) (s : State) : exec (nopOf k) s = perform (nopOf k) id s := by
  unfold nopOf
  split <;> rfl

theorem trapsOf_nopOf (k : Nat) (s : State) (c : Nat) (x : Bool) : trapsOf (nopOf k) s c x = [] := by
  unfold nopOf
  split <;> rfl

theorem exec_nopOf_eq (k : Nat) (s : State) :
    exec (nopOf k) s = .next (if s.issue.isOpen then s else s.openIssue.closeIssue) := by
  rw [exec_nopOf, perform_of_no_trap (trapsOf_nopOf k s _ _)]
  rfl

theorem eq_nopOf_of_mem {i : Instr} (h : i ∈ [Instr.nopS0, .nopS1, .nopS2, .nopS3]) : ∃ k, i = nopOf k := by
  simp only [List.mem_cons, List.not_mem_nil, or_false] at h
  obtain rfl | rfl | rfl | rfl := h
  · exact ⟨0, rfl⟩
  · exact ⟨1, rfl⟩
  · exact ⟨2, rfl⟩
  · exact ⟨3, rfl⟩

/-- Settles O12: opcode 0 decodes to the slot's NOP, whose word is 0, and a NOP is performed with no trap and with
the identity as its body. -/
theorem nopHasNoEffect : Obligations.NopHasNoEffect := by
  unfold Obligations.NopHasNoEffect
  refine ⟨decodeBundle_nops, fun k w x hk h0 hw => ?_, fun s i hi => ?_⟩
  · refine decodeSlot_opcode_zero hk ?_ h0 x
    match k, hk with
    | 0, _ | 1, _ | 2, _ | 3, _ => exact hw
  · obtain ⟨k, rfl⟩ := eq_nopOf_of_mem hi
    exact exec_nopOf_eq k s

end Sys2Proof.Nop
end

section
/-!
SUPPORT. The end step of a loop (R141) and the order of two end steps at one bundle (R142).
-/

namespace Sys2Proof.EndStep
open Sys2Proof.Machine

/-! ## Stage bits -/

theorem testBit_packNat_one (l : List Nat) (j : Nat) :
    (packNat 1 l).testBit j = decide (l.getD j 0 % 2 = 1) := by
  induction l generalizing j with
  | nil => simp [packNat]
  | cons x r ih =>
    cases j with
    | zero => simp [packNat, Nat.testBit_zero]
    | succ j =>
      have hdiv : (x % 2 ^ 1 + 2 ^ 1 * packNat 1 r) / 2 = packNat 1 r := by omega
      rw [packNat, Nat.testBit_succ, hdiv, ih, List.getD_cons_succ]

theorem bit_mod_two_eq_one (b : Bool) : decide (bit b % 2 = 1) = b := by cases b <;> rfl

theorem getLsbD_stageBits (f : Nat → Bool) {j : Nat} (hj : j < 16) :
    (stageBits f).getLsbD j = (decide (j ≠ 0) && f j) := by
  unfold stageBits
  rw [BitVec.getLsbD_ofNat, testBit_packNat_one, List.getD_eq_getElem _ _ (by simpa using hj)]
  cases j with
  | zero => simp
  | succ j => simp [hj, bit_mod_two_eq_one]

/-! ## One end step -/

theorem endStep_of_more {k : LoopCtx} (h : 1 < k.remain.toNat) (q : BitVec 16) :
    endStep k q = (loopStepped k, (endStep k q).2.1, k.first.toNat) := by
  have hr : k.remain - 1 = BitVec.ofNat 36 (k.remain.toNat - 1) := by bv_omega
  simp only [endStep, loopStepped, if_pos h, hr]

theorem endStep_of_last {k : LoopCtx} (h : ¬1 < k.remain.toNat) (q : BitVec 16) :
    endStep k q = (loopStepped k, (endStep k q).2.1, k.last.toNat + 1) := by
  simp only [endStep, loopStepped, if_neg h]

theorem endStep_loop (k : LoopCtx) (q : BitVec 16) : (endStep k q).1 = loopStepped k := by
  by_cases h : 1 < k.remain.toNat
  · rw [endStep_of_more h]
  · rw [endStep_of_last h]

theorem endStep_next (k : LoopCtx) (q : BitVec 16) :
    (endStep k q).2.2 = if 1 < k.remain.toNat then k.first.toNat else k.last.toNat + 1 := by
  by_cases h : 1 < k.remain.toNat
  · rw [endStep_of_more h, if_pos h]
  · rw [endStep_of_last h, if_neg h]

theorem endStep_stages (k : LoopCtx) (q : BitVec 16) : stagesStepped k q (endStep k q).2.1 := by
  unfold stagesStepped
  cases hrot : k.rot with
  | false => simp [endStep, hrot, apply_ite Prod.fst, apply_ite Prod.snd]
  | true =>
    rw [if_neg Bool.noConfusion]
    by_cases h : 1 < k.remain.toNat
    · rw [if_pos h]
      simp only [endStep, if_pos h, hrot, if_true]
      refine ⟨getLsbD_stageBits _ (by decide), getLsbD_stageBits _ (by decide), fun j h2 h16 => ?_⟩
      rw [getLsbD_stageBits _ h16, if_neg (by omega), decide_eq_true (by omega), Bool.true_and]
      rfl
    · simp [endStep, h, hrot]

theorem loopStepped_active (k : LoopCtx) :
    (loopStepped k).active = (decide (1 < k.remain.toNat) && k.active) := by
  unfold loopStepped
  split <;> simp [*]

/-! ## Two end steps -/

theorem active_of_endsAt {k : LoopCtx} {i : Nat} (h : k.endsAt i = true) : k.active = true := by
  simp only [LoopCtx.endsAt, Bool.and_eq_true] at h
  exact h.1.1

/-- The end step of loop l alone, and the bundle that follows it (R141). -/
def stepLoop (t : Ctx) (l : Bool) : Ctx × Nat :=
  let r := endStep (t.lc l) t.regs.q
  ({ t.setLc l (loopStepped (t.lc l)) with regs := { t.regs with q := r.2.1 } }, r.2.2)

theorem stepLoop_of_more {t : Ctx} {l : Bool} (h : 1 < (t.lc l).remain.toNat) :
    stepLoop t l = ({ t.setLc l (loopStepped (t.lc l)) with
      regs := { t.regs with q := (endStep (t.lc l) t.regs.q).2.1 } }, (t.lc l).first.toNat) := by
  rw [stepLoop, endStep_next, if_pos h]

theorem stepLoop_stepLoop (t : Ctx) (l : Bool) :
    stepLoop (stepLoop t l).1 (!l) =
      (let q := (endStep (t.lc l) t.regs.q).2.1
       ({ (t.setLc l (loopStepped (t.lc l))).setLc (!l) (loopStepped (t.lc (!l))) with
          regs := { t.regs with q := (endStep (t.lc (!l)) q).2.1 } }, (endStep (t.lc (!l)) q).2.2)) := by
  cases l <;> rfl

/-- LATER of loop 1 names the loop that steps first (R142); the other steps only if the first has come to its
end. -/
theorem endSteps_of_both {t : Ctx} {i : Nat} {l : Bool} (h0 : t.lc0.endsAt i = true) (h1 : t.lc1.endsAt i = true)
    (hl : t.lc1.later = l) :
    t.endSteps i = if (loopStepped (t.lc l)).active then stepLoop t l else stepLoop (stepLoop t l).1 (!l) := by
  unfold Ctx.endSteps
  simp only [h0, h1, hl, Bool.and_self, if_true, endStep_loop]
  cases l <;> rfl

/-- Settles O15: END_STEP is the table of R141, and of two loops that end at one bundle the one that steps first
stays active exactly while it has another iteration to run. -/
theorem endStepOrder : Obligations.EndStepOrder := by
  unfold Obligations.EndStepOrder
  refine ⟨fun k q => ⟨endStep_loop k q, endStep_stages k q, endStep_next k q⟩, fun t i h0 h1 l hl _ => ?_⟩
  have hact : (t.lc l).active = true := by cases l <;> simp [Ctx.lc, active_of_endsAt h0, active_of_endsAt h1]
  refine ⟨fun hmore => ?_, fun hlast => ?_⟩
  · have hstays : (loopStepped (t.lc l)).active = true := by simp [loopStepped_active, hmore, hact]
    rw [endSteps_of_both h0 h1 hl, if_pos hstays, stepLoop_of_more hmore]
  · have hends : (loopStepped (t.lc l)).active = false := by simp [loopStepped_active, hlast]
    rw [endSteps_of_both h0 h1 hl, hends, if_neg Bool.false_ne_true, stepLoop_stepLoop]

end Sys2Proof.EndStep
end

section
/-!
SUPPORT. RFT (R157): the word of a decoded operation, the return from handler mode, and the precise trap of an
operation that is performed alone, in the statements' terms.
-/

namespace Sys2Proof.TrapReturn
open Sys2Proof.Machine

/-! ## The word -/

theorem word_of_decodeSlot {k w : Nat} {x : Option (BitVec 7)} {i : Instr} (h : decodeSlot k w x = .ok i) :
    i.word = w := by
  unfold decodeSlot at h
  split at h
  case h_1 => cases h
  case h_2 j _ =>
    by_cases hw : j.word = w
    · split_ifs at h
      cases h
      exact hw
    · rw [if_pos (bne_iff_ne.2 hw)] at h
      cases h

theorem word_rft (g : Guard) : (Instr.rft g).word = 0x17 * 2 ^ 20 + g.p.toNat * 2 ^ 2 + bit g.neg * 2 := by
  simp [Instr.word, wordR, bit]

/-! ## Shadows, trap entry and return -/

theorem endShadows_eq (t : Ctx) : t.endShadows = { t with fmt := t.newestFmt, fmtNext := [] } := by
  unfold Ctx.endShadows Ctx.newestFmt
  split
  next h =>
    simp only [h, List.head?_nil, Option.map_none, Option.getD_none]
    rw [← h]
  next h => simp [h]

theorem returnFromTrap_eq (t : Ctx) : t.returnFromTrap = { t with
    tinfo := { t.tinfo with hm := false }, fmt := t.newestFmt, fmtNext := [],
    lc0 := { t.lc0 with frozen := false }, lc1 := { t.lc1 with frozen := false } } :=
  endShadows_eq _

theorem trapEntry_eq_entersTrap (t : Ctx) (n : Nat) (i : TInfo) (e : BitVec 14) (hi : i.hm = true) :
    t.trapEntry n i.cause i.slots i.info i.code i.imp e.toNat = t.entersTrap n i e := by
  unfold Ctx.trapEntry Ctx.entersTrap
  simp only [endShadows_eq, BitVec.ofNat_toNat, BitVec.setWidth_eq, Bool.or_eq_true, decide_eq_true_eq, or_assoc]
  rw [← hi]
  rfl

/-- SPDIST is the one cause that does more than enter the trap (R317). -/
theorem takeTrap_eq_refusedBy {s : State} {u : Trap} (h : u.cause ≠ 0x05) :
    s.takeTrap s.focusC s.focusX u = s.refusedBy u.cause u.slots u.info := by
  unfold State.takeTrap State.refusedBy
  congr 1
  funext t
  rw [← trapEntry_eq_entersTrap t _ _ _ rfl]
  exact if_neg (by simpa using h)

/-- An operation performed alone that can trap for one cause only takes that trap (R313). -/
theorem perform_of_trap {i : Instr} {f : State → State} {s : State} {u : Trap} (ho : s.issue.isOpen = false)
    (ht : trapsOf i s s.focusC s.focusX = [u]) (hu : u.cause ≠ 0x05) :
    perform i f s = .next (s.refusedBy u.cause u.slots u.info) := by
  rw [perform_closed ho, ht, ← takeTrap_eq_refusedBy hu]
  rfl

/-! ## RFT -/

theorem exec_rft (g : Guard) (s : State) : exec (.rft g) s = execRft g s := rfl

theorem trapsOf_rft {g : Guard} {s : State} (hg : guardHolds g s.lone.regs = true) (hm : s.lone.tinfo.hm = false) :
    trapsOf (.rft g) s s.focusC s.focusX = [illegalTrap 0] := by
  show (if guardHolds g s.lone.regs && !s.lone.tinfo.hm then [illegalTrap 0] else []) = _
  rw [hg, hm]
  rfl

/-- Settles O18: the word is format R's with every other field 0; in the open bundle the return is the model's;
alone and outside handler mode the one cause is the illegal encoding. -/
theorem returnFromTrap : Obligations.ReturnFromTrap := by
  unfold Obligations.ReturnFromTrap
  refine ⟨fun w x g h => ?_, fun s g hs => ?_, fun s g hs hg hm => ?_⟩
  · rw [← word_of_decodeSlot h, word_rft]
  · obtain ⟨hopen, -⟩ := hs
    simp only [← returnFromTrap_eq]
    rw [exec_rft, execRft, perform_open hopen]
  · obtain ⟨hclosed, -⟩ := hs
    rw [exec_rft, execRft, perform_of_trap hclosed (trapsOf_rft hg hm) (by decide)]
    rfl

end Sys2Proof.TrapReturn
end

section
/-!
SUPPORT. VLDACC and VSTACC (R175): their words, the row named and its touch, the lanes read and stored, poisoned
units (R348), and what a stored row does to the accumulator store and the checksum strip (R299).
-/

namespace Sys2Proof.AccRows
open Sys2Proof.Machine Sys2Proof.Laws.SlotWord

/-! ## The words -/

theorem agrees_of_decodeSlot {k w : Nat} {x : Option (BitVec 7)} {i : Instr} (h : decodeSlot k w x = .ok i) :
    i.lendUse.agrees x = true := by
  unfold decodeSlot at h
  split at h
  case h_1 => cases h
  case h_2 j _ =>
    split_ifs at h with _ hlend
    cases h
    simpa using hlend

theorem wordV_subop_zero (op : Nat) (d a b : BitVec 6) (m : BitVec 3) (u : Bool) :
    wordV op d a b m u 0 =
      op * 2 ^ 25 + (d.toNat * 2 ^ 19 + a.toNat * 2 ^ 13 + b.toNat * 2 ^ 7 + m.toNat * 2 ^ 4 + bit u * 2 ^ 3) := by
  have hz : (0 : BitVec 3).toNat = 0 := rfl
  rw [wordV, hz]
  omega

/-- An operation of format VD that has no sub-op and a displacement. -/
theorem fields_of_decodeSlot {w op : Nat} {x : Option (BitVec 7)} {i : Instr} {d a : BitVec 6} {o : Imm 6}
    {m : BitVec 3} {u : Bool} (hword : i.word = wordV op d a o.low m u 0) (hlend : i.lendUse = .field o.lend)
    (h : decodeSlot 2 w x = .ok i) :
    w = op * 2 ^ 25 + (d.toNat * 2 ^ 19 + a.toNat * 2 ^ 13 + o.low.toNat * 2 ^ 7 + m.toNat * 2 ^ 4 + bit u * 2 ^ 3) ∧
      o = Imm.read o.low x := by
  have hx := agrees_of_decodeSlot h
  rw [hlend] at hx
  exact ⟨by rw [← TrapReturn.word_of_decodeSlot h, hword, wordV_subop_zero], (read_low hx).symm⟩

/-! ## Lanes -/

theorem packNat_digit (w : Nat) (l : List Nat) (j : Nat) :
    packNat w l / 2 ^ (w * j) % 2 ^ w = l.getD j 0 % 2 ^ w := by
  induction l generalizing j with
  | nil => simp [packNat]
  | cons x r ih =>
    cases j with
    | zero => simp [packNat]
    | succ j =>
      have hdiv : (x % 2 ^ w + 2 ^ w * packNat w r) / 2 ^ w = packNat w r := by
        rw [Nat.add_mul_div_left _ _ (Nat.two_pow_pos w), Nat.div_eq_of_lt (Nat.mod_lt _ (Nat.two_pow_pos w)),
          Nat.zero_add]
      rw [packNat, Nat.mul_succ, pow_add, Nat.mul_comm (2 ^ (w * j)), ← Nat.div_div_eq_div_mul, hdiv, ih,
        List.getD_cons_succ]

theorem extractLsb'_ofNat {w lo n : Nat} (h : lo + n ≤ w) (x : Nat) :
    (BitVec.ofNat w x).extractLsb' lo n = BitVec.ofNat n (x / 2 ^ lo) := by
  ext i hi
  have hw : lo + i < w := by omega
  rw [BitVec.getElem_extractLsb', BitVec.getLsbD_ofNat, decide_eq_true hw, Bool.true_and, ← BitVec.getLsbD_eq_getElem,
    BitVec.getLsbD_ofNat, Nat.testBit_div_two_pow, decide_eq_true hi, Bool.true_and, Nat.add_comm]

theorem lane_ofLanes (f : Nat → Lane) {j : Nat} (hj : j < 64) : lane (ofLanes f) j = f j := by
  apply BitVec.eq_of_toNat_eq
  rw [lane, ofLanes, extractLsb'_ofNat (by omega), BitVec.toNat_ofNat, packNat_digit,
    List.getD_eq_getElem _ _ (by simpa using hj)]
  simp [Nat.mod_eq_of_lt (f j).isLt]

theorem lane_zero_or (b : Prop) [Decidable b] (v : VReg) (j : Nat) :
    lane (if b then 0 else v) j = if b then 0 else lane v j := by
  split_ifs
  · simp [lane]
  · rfl

/-! ## Association lists -/

theorem assocGet_assocPut {α : Type} (l : List (Nat × α)) (k q : Nat) (x : α) :
    assocGet (assocPut l k x) q = if q = k then some x else assocGet l q := by
  induction l with
  | nil => simp [assocPut, assocGet, eq_comm]
  | cons e r ih =>
    obtain ⟨j, y⟩ := e
    unfold assocPut
    rcases Nat.lt_trichotomy k j with hlt | rfl | hgt
    · rw [if_pos hlt, assocGet]
      simp only [eq_comm]
    · rw [if_neg (Nat.lt_irrefl k), if_pos rfl]
      by_cases hqk : q = k
      · simp [assocGet, hqk]
      · simp [assocGet, hqk, Ne.symm hqk]
    · rw [if_neg (Nat.lt_asymm hgt), if_neg (Nat.ne_of_gt hgt), assocGet, ih, assocGet]
      by_cases hqj : j = q
      · rw [if_pos hqj, if_pos hqj, if_neg (hqj ▸ Nat.ne_of_lt hgt)]
      · rw [if_neg hqj, if_neg hqj]

theorem assocGet_assocDel {α : Type} (l : List (Nat × α)) (k q : Nat) :
    assocGet (assocDel l k) q = if q = k then none else assocGet l q := by
  induction l with
  | nil => simp [assocDel, assocGet]
  | cons e r ih =>
    obtain ⟨j, y⟩ := e
    unfold assocDel at ih ⊢
    by_cases hjk : j = k
    · subst hjk
      rw [List.filter_cons_of_neg (by simp), ih]
      by_cases hqj : q = j
      · rw [if_pos hqj, if_pos hqj]
      · rw [if_neg hqj, if_neg hqj, assocGet, if_neg (Ne.symm hqj)]
    · rw [List.filter_cons_of_pos (by simpa using hjk), assocGet, ih, assocGet]
      by_cases hjq : j = q
      · rw [if_pos hjq, if_pos hjq, if_neg (hjq ▸ hjk)]
      · rw [if_neg hjq, if_neg hjq]

/-! ## Rows and strip entries -/

/-- A zero row is not listed, and a row that is not listed reads zero. -/
theorem accRow_accPut (l : List (Nat × VReg)) (ar q : Nat) (v : VReg) :
    accRow (accPut l ar v) q = if q = ar then v else accRow l q := by
  unfold accRow accPut
  by_cases hv : v = 0
  · rw [if_pos hv, assocGet_assocDel]
    split_ifs <;> simp [hv]
  · rw [if_neg hv, assocGet_assocPut]
    split_ifs <;> rfl

theorem strip_setStrip (k : Core) (t q : Nat) (p : Strip) :
    (k.setStrip t p).strip q = if q = t then p else k.strip q := by
  unfold Core.strip Core.setStrip
  by_cases hp : p = Strip.zero false
  · simp only [if_pos hp, assocGet_assocDel]
    split_ifs <;> simp [hp]
  · simp only [if_neg hp, assocGet_assocPut]
    split_ifs <;> rfl

theorem toNat_foldl_add {n : Nat} (f : Nat → BitVec n) (l : List Nat) (t : BitVec n) :
    (l.foldl (fun t j => t + f j) t).toNat = (t.toNat + (l.map fun j => (f j).toNat).sum) % 2 ^ n := by
  induction l generalizing t with
  | nil => simp [Nat.mod_eq_of_lt t.isLt]
  | cons j r ih =>
    rw [List.foldl_cons, ih, BitVec.toNat_add, Nat.mod_add_mod, List.map_cons, List.sum_cons, Nat.add_assoc]

theorem toNat_rowSum (v : VReg) :
    (rowSum v).toNat = ((List.range 64).map fun j => (lane v j).toNat).sum % 2 ^ 32 := by
  have hz : (0 : Lane).toNat = 0 := rfl
  rw [rowSum, toNat_foldl_add, hz, Nat.zero_add]

/-! ## A stored row -/

/-- The strip entry of a row's tile once the row is stored (R299). -/
def storedStrip (k : Core) (ar : Nat) (v : VReg) : Strip :=
  { k.strip (ar / 64) with
    rows := vset (k.strip (ar / 64)).rows (ar % 64) (rowSum v)
    cols := Vector.ofFn fun (j : Fin 64) =>
      vget (k.strip (ar / 64)).cols j.val 0 + (lane v j.val - lane (accRow k.acc ar) j.val) }

theorem strip_storeRow (k : Core) (ar q : Nat) (v : VReg) :
    (k.storeRow ar v).strip q = if q = ar / 64 then storedStrip k ar v else k.strip q :=
  strip_setStrip k (ar / 64) q (storedStrip k ar v)

theorem accRow_storeRow (k : Core) (ar q : Nat) (v : VReg) :
    accRow (k.storeRow ar v).acc q = if q = ar then v else accRow k.acc q :=
  accRow_accPut k.acc ar q v

theorem storedStrip_row (k : Core) (ar : Nat) (v : VReg) : vget (storedStrip k ar v).rows (ar % 64) 0 = rowSum v := by
  rw [storedStrip, vget_vset, if_pos ⟨rfl, Nat.mod_lt _ (by decide)⟩]

theorem storedStrip_col (k : Core) (ar : Nat) (v : VReg) {j : Nat} (hj : j < 64) :
    vget (storedStrip k ar v).cols j 0 =
      vget (k.strip (ar / 64)).cols j 0 + (lane v j - lane (accRow k.acc ar) j) := by
  simp [storedStrip, vget, hj]

theorem storeRow_frame (k : Core) (ar : Nat) (v : VReg) :
    k.storeRow ar v = { k with acc := (k.storeRow ar v).acc, strips := (k.storeRow ar v).strips } := rfl

theorem storeRow_accPoison (k : Core) (ar : Nat) (v : VReg) : (k.storeRow ar v).accPoison = k.accPoison := rfl

/-! ## The operations -/

theorem exec_vldacc (d a : BitVec 6) (o : Imm 6) (m : BitVec 3) (u : Bool) (s : State) :
    exec (.vldacc d a o m u) s = execVldacc d a o m u s := rfl

theorem exec_vstacc (d a : BitVec 6) (o : Imm 6) (m : BitVec 3) (u : Bool) (s : State) :
    exec (.vstacc d a o m u) s = execVstacc d a o m u s := rfl

theorem rowTouch_eq (r : Regs) (m : BitVec 3) (ar : Nat) :
    rowTouch r m ar = if 12288 ≤ ar ∧ r.mVal m ≠ 0 then some ⟨1, 0, BitVec.ofNat 14 ar, 0, 1, 0⟩ else none := by
  simp only [rowTouch, accTouch, Bool.and_eq_true, decide_eq_true_eq, bne_iff_ne]

theorem rowTouch_inRange {r : Regs} {m : BitVec 3} {ar : Nat} (h : ar < 12288) : rowTouch r m ar = none := by
  rw [rowTouch_eq, if_neg fun hg => absurd hg.1 (Nat.not_le.2 h)]

theorem touch_none (s : State) (c : Nat) (x : Bool) : s.touch c x none = s := rfl

theorem modCore_congr {s : State} {c : Nat} {f g : Core → Core} (h : f (s.core c) = g (s.core c)) :
    s.modCore c f = s.modCore c g := by
  rw [State.modCore, h, State.modCore]

theorem lanesMeet_iff (q ar : Nat) (on : Nat → Bool) :
    lanesMeet q ar on = true ↔ q / 8 = ar ∧ ∃ i < 8, on (8 * (q % 8) + i) = true := by
  simp [lanesMeet]

theorem lanesFill_iff (q ar : Nat) (on : Nat → Bool) :
    lanesFill q ar on = true ↔ q / 8 = ar ∧ ∀ i < 8, on (8 * (q % 8) + i) = true := by
  simp [lanesFill]

/-- The row that VSTACC leaves: vd's enabled lanes over the row that stands there. -/
def mergedRow (s : State) (d : BitVec 6) (m : BitVec 3) (ar : Nat) : VReg :=
  ofLanes fun j => if enabled s.me.regs m j then lane (s.me.regs.vVal d) j else lane (accRow s.myCore.acc ar) j

/-- The poisoned units that VSTACC leaves: those that its lanes do not fill (R348). -/
def unfilled (s : State) (m : BitVec 3) (ar : Nat) : List Nat :=
  s.myCore.accPoison.filter fun q => !lanesFill q ar (enabled s.me.regs m)

/-- VSTACC's write in the open bundle: row, strip and poison as they follow from the core that stands there. -/
theorem storeRow_healed (s : State) (d : BitVec 6) (m : BitVec 3) (ar : Nat) :
    (s.modCore s.issue.c fun k => (k.storeRow ar (ofLanes fun j =>
      if enabled s.me.regs m j then lane (s.me.regs.vVal d) j else lane (accRow k.acc ar) j)).healAcc
        fun q => lanesFill q ar (enabled s.me.regs m)) =
    s.modCore s.issue.c fun k => { k.storeRow ar (mergedRow s d m ar) with accPoison := unfilled s m ar } := by
  refine modCore_congr ?_
  show ((s.core s.issue.c).storeRow ar (mergedRow s d m ar)).healAcc _ = _
  rw [Core.healAcc, storeRow_accPoison]
  rfl

theorem mem_unfilled (s : State) (m : BitVec 3) (ar q : Nat) :
    q ∈ unfilled s m ar ↔ q ∈ s.myCore.accPoison ∧
      ¬(q / 8 = ar ∧ ∀ i < 8, (s.me.regs.mVal m).getLsbD (8 * (q % 8) + i) = true) := by
  rw [unfilled, List.mem_filter, Bool.not_eq_true', ← Bool.not_eq_true, lanesFill_iff]
  rfl

section
variable {s : State} (hs : s.issue.isOpen = true) (d a : BitVec 6) (o : Imm 6) (m : BitVec 3) (u : Bool)
include hs

theorem execVldacc_open : execVldacc d a o m u s =
    .next ((((s.res 6 (.v d (mergeLanes s.me.regs d m
        (lane (if 12288 ≤ accRowOf s.me.regs a o then 0 else accRow s.issue.acc0 (accRowOf s.me.regs a o)))))).touch
      s.issue.c s.issue.x (rowTouch s.me.regs m (accRowOf s.me.regs a o))).stopIf
        (s.myCore.accPoison.any fun q => lanesMeet q (accRowOf s.me.regs a o) (enabled s.me.regs m))).latch a) :=
  perform_open hs

theorem execVstacc_outOfRange (h : 12288 ≤ accRowOf s.me.regs a o) : execVstacc d a o m u s =
    .next ((s.touch s.issue.c s.issue.x (rowTouch s.me.regs m (accRowOf s.me.regs a o))).latch a) := by
  rw [execVstacc, perform_open hs]
  simp only [if_pos h]

theorem execVstacc_inRange (h : accRowOf s.me.regs a o < 12288) : execVstacc d a o m u s =
    .next ((s.modCore s.issue.c fun k =>
      { k.storeRow (accRowOf s.me.regs a o) (mergedRow s d m (accRowOf s.me.regs a o)) with
        accPoison := unfilled s m (accRowOf s.me.regs a o) }).latch a) := by
  rw [execVstacc, perform_open hs]
  simp only [if_neg (Nat.not_le.2 h), rowTouch_inRange h, touch_none, storeRow_healed]

end

/-! ## The statement -/

/-- Settles O30: the words are format VD's with sub-op 0; a load merges the row as it stood before the bundle, a store
the enabled lanes; and a stored row sets its own row sum and moves each column sum by the change. -/
theorem accumulatorRows : Obligations.AccumulatorRows := by
  unfold Obligations.AccumulatorRows
  refine ⟨⟨fun w x d a o m u => ⟨fields_of_decodeSlot rfl rfl, fields_of_decodeSlot rfl rfl⟩,
    fun s d a o m u ⟨hopen, _⟩ => ?_⟩, fun k ar v _ => ?_⟩
  · simp only [← rowTouch_eq, exec_vldacc, exec_vstacc]
    refine ⟨⟨_, _, execVldacc_open hopen d a o m u, ?poison, fun j hj => ?lanes⟩,
      execVstacc_outOfRange hopen d a o m u, fun h => ⟨_, _, fun j hj => ?_, mem_unfilled s m _,
        execVstacc_inRange hopen d a o m u h⟩⟩
    case poison =>
      simp only [List.any_eq_true, lanesMeet_iff]
      rfl
    case lanes =>
      rw [mergeLanes, lane_ofLanes _ hj, lane_zero_or]
      rfl
    · exact lane_ofLanes _ hj
  · refine ⟨fun q => accRow_storeRow k ar q v, ?_, fun j hj => ?_, fun q hq => ?_, storeRow_frame k ar v⟩
    · rw [strip_storeRow, if_pos rfl, storedStrip_row, toNat_rowSum]
    · rw [strip_storeRow, if_pos rfl, storedStrip_col k ar v hj, add_assoc, sub_add_cancel]
    · rw [strip_storeRow, if_neg hq]

end Sys2Proof.AccRows
end
